-- ==== Sys2Proof/Word.lean ====
section
/-! DEFINITION. The word types of HFS-T30: registers are 32 bits wide (R6), buffers hold bytes (R41),
the CRC and the second command argument are 16 bits (R27, R81). Every value is unsigned (R7). -/

namespace Sys2Proof

/-- A buffer byte or a DCE data byte. -/
abbrev Byte := BitVec 8

/-- A 16-bit value: the CRC register, ARG16, a duration in milliseconds. -/
abbrev Half := BitVec 16

/-- A host register or a command word. -/
abbrev Word := BitVec 32

end Sys2Proof
end

