-- ==== Sys2Proof/Config.lean ====
section
/-! DEFINITION. The implementation parameters of R6 with the values HFS-T30 takes, and the model's free values. -/

namespace Sys2Proof.Config

/-- R6: receive buffer bytes, (256 + 6) × 4. -/
def rxbufSize : Nat := 1048

/-- R6: transmit buffer bytes. -/
def txbufSize : Nat := 1048

/-- R6: the least length of a constructed frame (FRAME_CHECK, RECV_V34 and the send commands). -/
def frameMinLen : Nat := 3

/-- R6: the least length of a received frame (RECV_HDLC, RECV_BITS). -/
def rxMinLen : Nat := 4

/-- R6, R31: the ECM frame size that ECMCFG.FS64 selects. -/
def frameSize (fs64 : Bool) : Nat := if fs64 then 64 else 256

/-- R6, R179: the oversize guard in bytes. -/
def oversizeGuard (fs64 : Bool) : Nat := (frameSize fs64 + 6) * 4

/-- R68: bit 0 of a DCE octet is its first bit on the line. Fixed true in HFS-T30. -/
def dceLsbFirst : Bool := true

/-- R215: DLE is doubled on V.34 send. Fixed true in HFS-T30. -/
def v34TxDleEscape : Bool := true

/-- R89: the character values. -/
def dle : Byte := 0x10
def etx : Byte := 0x03
def sub : Byte := 0x1A
def eot : Byte := 0x04

/-- R92: the V.34 FCS-error indicator. -/
def indFcsErr : Byte := 0x07
/-- R92: primary channel selected. -/
def indPri : Byte := 0x6B
/-- R92: control-channel retrain. -/
def indRetrain : Byte := 0x6C
/-- R92: control channel selected. -/
def indCtrl : Byte := 0x6D

/-- R6: the address byte of every frame. -/
def addrValue : Byte := 0xFF
/-- R6: the control byte test `(control & 0xF7) = 0xC0`. -/
def ctrlMask : Byte := 0xF7
def ctrlValue : Byte := 0xC0
/-- R91: the FCF of an ECM end-of-block frame. -/
def fcfRcp : Byte := 0x61
/-- R101, R180: the canonical RCP with its FCS. -/
def canonicalRcp : List Byte := [0xFF, 0xC0, 0x61, 0x96, 0xD3]

/-- R100: the generator polynomial x^16 + x^12 + x^5 + 1. -/
def crcPoly : Half := 0x1021
/-- R101: the initial value of a frame's CRC. -/
def crcInit : Half := 0xFFFF
/-- R102: the residue of a frame that checks out. -/
def crcResidue : Half := 0x1D0F

/-- R254: the modulation code of V.21 channel 2. -/
def v21Mod : Byte := 3

/-- The free value of an RXBUF byte that R72 calls unspecified: the byte that the k-th such read returns.
It has no body, so nothing can be proved of it (assumption 3). -/
opaque freeByte : Nat → Byte

/-- R60: where the 16 KiB host window sits on the host bus. The platform chooses it, the block does not see it
(assumption 15). -/
opaque hfsBase : Nat

end Sys2Proof.Config
end

