-- ==== Sys2Proof/Machine/Crc.lean ====
section
/-! DEFINITION. CRC-16/T.30 and the FCS (R100, R101). -/

namespace Sys2Proof.Machine

/-- R100: one of the eight shifts of `crc_step`. -/
def crcShift (x : Half) : Half := if x.getLsbD 15 then (x <<< 1) ^^^ Config.crcPoly else x <<< 1

/-- R100: `crc_step(c, b)`, most significant bit first. -/
def crcStep (c : Half) (b : Byte) : Half :=
  crcShift (crcShift (crcShift (crcShift (crcShift (crcShift (crcShift (crcShift
    (c ^^^ (b.zeroExtend 16 <<< 8)))))))))

/-- R100: `crc16(c, L)`. -/
def crc16 (c : Half) (bytes : List Byte) : Half := bytes.foldl crcStep c

/-- R101: the FCS of a frame body. -/
def fcs (bytes : List Byte) : Half := ~~~(crc16 Config.crcInit bytes)

/-- The high and low byte of a 16-bit value. -/
def hiByte (x : Half) : Byte := x.extractLsb' 8 8
def loByte (x : Half) : Byte := x.extractLsb' 0 8

/-- R101: the two FCS bytes, high byte first. -/
def fcsBytes (bytes : List Byte) : List Byte := [hiByte (fcs bytes), loByte (fcs bytes)]

end Sys2Proof.Machine
end

