-- ==== Sys2Proof/Machine/Bits.lean ====
section
/-! DEFINITION. Bit and byte order: the bit lists of a byte in both orders, `rev8`, `dce_octet`, the line bits of a
DCE byte, octet assembly and the flag (R7, R10, R67, R68, R170, R181). -/

namespace Sys2Proof.Machine

/-- The bits of a byte, bit 0 first. -/
def bitsLsb (b : Byte) : List Bool :=
  [b.getLsbD 0, b.getLsbD 1, b.getLsbD 2, b.getLsbD 3, b.getLsbD 4, b.getLsbD 5, b.getLsbD 6, b.getLsbD 7]

/-- R67: the bits of a buffer byte in line order, bit 7 first. -/
def bitsMsb (b : Byte) : List Bool :=
  [b.getLsbD 7, b.getLsbD 6, b.getLsbD 5, b.getLsbD 4, b.getLsbD 3, b.getLsbD 2, b.getLsbD 1, b.getLsbD 0]

/-- A bit as a byte. -/
def bit8 (x : Bool) : Byte := if x then 1 else 0

/-- R181: the first bit received becomes the most significant: `octet([f0, ..., f7]) = f0·2^7 + ... + f7`. -/
def octet (bits : List Bool) : Byte := bits.foldl (fun acc x => (acc <<< 1) ||| bit8 x) 0

/-- R7: the byte with its bit order reversed. -/
def rev8 (b : Byte) : Byte := octet (bitsLsb b)

/-- R68: the DCE byte carrying the line bits of a buffer byte, and back. -/
def dceOctet (b : Byte) : Byte := if Config.dceLsbFirst then rev8 b else b

/-- R170: the line bits of a DCE byte, in line order. -/
def lineBits (v : Byte) : List Bool := if Config.dceLsbFirst then bitsLsb v else bitsMsb v

/-- R10: the HDLC flag in line order. -/
def flagBits : List Bool := [false, true, true, true, true, true, true, false]

/-- R181: the whole octets of a bit list; the left-over bits are not stored. -/
def octets : List Bool → List Byte
  | b0 :: b1 :: b2 :: b3 :: b4 :: b5 :: b6 :: b7 :: rest => octet [b0, b1, b2, b3, b4, b5, b6, b7] :: octets rest
  | _ => []

/-- Bit `p` of a byte set to `x`. -/
def setBit8 (b : Byte) (p : Nat) (x : Bool) : Byte :=
  if x then b ||| ((1 : Byte) <<< p) else b &&& ~~~((1 : Byte) <<< p)

end Sys2Proof.Machine
end

