-- ==== Sys2Proof/Syntax.lean ====
section
/-! DEFINITION. The 24 commands of HFS-T30, one constructor per row of spec/opcode_table.json (R83), with the
arguments of R82 already taken out of the command word. -/

namespace Sys2Proof

inductive Instr where
  /-- 0x00 NOP (R111). -/
  | nop
  /-- 0x01 CRC_INIT (R112). -/
  | crcInit
  /-- 0x02 CRC_FEED b (R113). -/
  | crcFeed (b : Byte)
  /-- 0x03 FRAME_FCS (R110). -/
  | frameFcs
  /-- 0x04 FRAME_CHECK; `chkCrc` is ARG8[0] (R114). -/
  | frameCheck (chkCrc : Bool)
  /-- 0x10 SEND_HDLC (R132). -/
  | sendHdlc
  /-- 0x11 RECV_HDLC (R136). -/
  | recvHdlc
  /-- 0x12 SEND_RAW (R140). -/
  | sendRaw
  /-- 0x13 RECV_RAW N (R142). -/
  | recvRaw (count : Half)
  /-- 0x20 BITS_RESET; `rx` is ARG8[0], `tx` is ARG8[1] (R185). -/
  | bitsReset (rx tx : Bool)
  /-- 0x21 SEND_BITS F; `flush` is ARG16[0] (R186). -/
  | sendBits (flags : Byte) (flush : Bool)
  /-- 0x22 RECV_BITS (R187). -/
  | recvBits
  /-- 0x30 SEND_V34 (R215). -/
  | sendV34
  /-- 0x31 RECV_V34 (R216). -/
  | recvV34
  /-- 0x32 WAIT_CHANNEL; `awaitCtrl` is ARG8[0] (R217). -/
  | waitChannel (awaitCtrl : Bool)
  /-- 0x33 SEND_IND x (R218). -/
  | sendInd (x : Byte)
  /-- 0x40 TX_CARRIER MOD; `hdlc` is ARG16[0] (R250). -/
  | txCarrier (mod : Byte) (hdlc : Bool)
  /-- 0x41 RX_CARRIER MOD; `hdlc` is ARG16[0] (R251). -/
  | rxCarrier (mod : Byte) (hdlc : Bool)
  /-- 0x42 TX_SILENCE n, in units of 10 ms (R252). -/
  | txSilence (n : Byte)
  /-- 0x43 RX_SILENCE n, in units of 10 ms (R253). -/
  | rxSilence (n : Byte)
  /-- 0x44 RX_DROP_WAIT (R254). -/
  | rxDropWait
  /-- 0x45 TX_END (R255). -/
  | txEnd
  /-- 0x46 DELAY ms (R256). -/
  | delay (ms : Half)
  /-- 0x47 ABORT (R257). -/
  | abort
  deriving DecidableEq, Repr

end Sys2Proof
end

