-- ==== Sys2Proof/WellFormed.lean ====
section
/-! DEFINITION. Which instructions a legal command word can give. Every argument but one may take every value of
its field; RECV_RAW's count lies in 1 .. RXBUF_SIZE (R84). -/

namespace Sys2Proof

/-- R84: the argument constraint that the type of `Instr` does not already carry. -/
def wellFormed : Instr → Bool
  | .recvRaw count => 1 ≤ count.toNat && count.toNat ≤ Config.rxbufSize
  | .nop | .crcInit | .crcFeed _ | .frameFcs | .frameCheck _ | .sendHdlc | .recvHdlc | .sendRaw
  | .bitsReset _ _ | .sendBits _ _ | .recvBits | .sendV34 | .recvV34 | .waitChannel _ | .sendInd _
  | .txCarrier _ _ | .rxCarrier _ _ | .txSilence _ | .rxSilence _ | .rxDropWait | .txEnd | .delay _
  | .abort => true

/-- An instruction that some legal command word encodes. -/
abbrev WellFormed (i : Instr) : Prop := wellFormed i = true

end Sys2Proof
end

