-- ==== Sys2Proof/Decode.lean ====
section
/-! DEFINITION. The command word CMD32 (R81), the decoder of R83 and R84, total on every word, the encoder, and the
match and mask table of R84 as data. -/

namespace Sys2Proof

/-- R81: the opcode, bits 7:0. -/
def opField (w : Word) : Byte := w.extractLsb' 0 8

/-- R82: ARG8, bits 15:8. -/
def arg8 (w : Word) : Byte := w.extractLsb' 8 8

/-- R82: ARG16, bits 31:16. -/
def arg16 (w : Word) : Half := w.extractLsb' 16 16

/-- R93: a word is `OP | ARG8 << 8 | ARG16 << 16`. -/
def cmdWord (op a8 : Byte) (a16 : Half) : Word := a16 ++ (a8 ++ op)

/-- A 1-bit flag in bit 0 of an argument. -/
def flag8 (b : Bool) : Byte := if b then 1 else 0
def flag16 (b : Bool) : Half := if b then 1 else 0

/-- Why a word is not legal (R84). The block reports every reason alike, as ILLEGAL_CMD. -/
inductive Illegal where
  | reservedOpcode
  | reservedBits
  | countOutOfRange
  deriving DecidableEq, Repr

/-- R84: the reserved bits of the two arguments must be 0. -/
def checkReserved (w : Word) (res8 : Byte) (res16 : Half) (i : Instr) : Except Illegal Instr :=
  if arg8 w &&& res8 = 0 ∧ arg16 w &&& res16 = 0 then .ok i else .error .reservedBits

/-- R84: RECV_RAW's count must lie in 1 .. RXBUF_SIZE. -/
def checkCount : Instr → Except Illegal Instr
  | i => if wellFormed i then .ok i else .error .countOutOfRange

/-- R83, R84: the decoder. Every opcode that the map does not list is reserved. -/
def decode (w : Word) : Except Illegal Instr :=
  match (opField w).toNat with
  | 0x00 => checkReserved w 0xFF 0xFFFF .nop
  | 0x01 => checkReserved w 0xFF 0xFFFF .crcInit
  | 0x02 => checkReserved w 0x00 0xFFFF (.crcFeed (arg8 w))
  | 0x03 => checkReserved w 0xFF 0xFFFF .frameFcs
  | 0x04 => checkReserved w 0xFE 0xFFFF (.frameCheck ((arg8 w).getLsbD 0))
  | 0x10 => checkReserved w 0xFF 0xFFFF .sendHdlc
  | 0x11 => checkReserved w 0xFF 0xFFFF .recvHdlc
  | 0x12 => checkReserved w 0xFF 0xFFFF .sendRaw
  | 0x13 => (checkReserved w 0xFF 0x0000 (.recvRaw (arg16 w))).bind checkCount
  | 0x20 => checkReserved w 0xFC 0xFFFF (.bitsReset ((arg8 w).getLsbD 0) ((arg8 w).getLsbD 1))
  | 0x21 => checkReserved w 0x00 0xFFFE (.sendBits (arg8 w) ((arg16 w).getLsbD 0))
  | 0x22 => checkReserved w 0xFF 0xFFFF .recvBits
  | 0x30 => checkReserved w 0xFF 0xFFFF .sendV34
  | 0x31 => checkReserved w 0xFF 0xFFFF .recvV34
  | 0x32 => checkReserved w 0xFE 0xFFFF (.waitChannel ((arg8 w).getLsbD 0))
  | 0x33 => checkReserved w 0x00 0xFFFF (.sendInd (arg8 w))
  | 0x40 => checkReserved w 0x00 0xFFFE (.txCarrier (arg8 w) ((arg16 w).getLsbD 0))
  | 0x41 => checkReserved w 0x00 0xFFFE (.rxCarrier (arg8 w) ((arg16 w).getLsbD 0))
  | 0x42 => checkReserved w 0x00 0xFFFF (.txSilence (arg8 w))
  | 0x43 => checkReserved w 0x00 0xFFFF (.rxSilence (arg8 w))
  | 0x44 => checkReserved w 0xFF 0xFFFF .rxDropWait
  | 0x45 => checkReserved w 0xFF 0xFFFF .txEnd
  | 0x46 => checkReserved w 0xFF 0x0000 (.delay (arg16 w))
  | 0x47 => checkReserved w 0xFF 0xFFFF .abort
  | _ => .error .reservedOpcode

/-- R83, R93: the word of an instruction. -/
def encode : Instr → Word
  | .nop => cmdWord 0x00 0 0
  | .crcInit => cmdWord 0x01 0 0
  | .crcFeed b => cmdWord 0x02 b 0
  | .frameFcs => cmdWord 0x03 0 0
  | .frameCheck chk => cmdWord 0x04 (flag8 chk) 0
  | .sendHdlc => cmdWord 0x10 0 0
  | .recvHdlc => cmdWord 0x11 0 0
  | .sendRaw => cmdWord 0x12 0 0
  | .recvRaw count => cmdWord 0x13 0 count
  | .bitsReset rx tx => cmdWord 0x20 (flag8 rx ||| (flag8 tx <<< 1)) 0
  | .sendBits flags flush => cmdWord 0x21 flags (flag16 flush)
  | .recvBits => cmdWord 0x22 0 0
  | .sendV34 => cmdWord 0x30 0 0
  | .recvV34 => cmdWord 0x31 0 0
  | .waitChannel ctrl => cmdWord 0x32 (flag8 ctrl) 0
  | .sendInd x => cmdWord 0x33 x 0
  | .txCarrier mod hdlc => cmdWord 0x40 mod (flag16 hdlc)
  | .rxCarrier mod hdlc => cmdWord 0x41 mod (flag16 hdlc)
  | .txSilence n => cmdWord 0x42 n 0
  | .rxSilence n => cmdWord 0x43 n 0
  | .rxDropWait => cmdWord 0x44 0 0
  | .txEnd => cmdWord 0x45 0 0
  | .delay ms => cmdWord 0x46 0 ms
  | .abort => cmdWord 0x47 0 0

/-- A row of R84's table: `legal` is `(w & mask) = pattern`, with RECV_RAW's count range beside it. -/
structure OpRow where
  pattern : Word
  mask : Word
  countRange : Bool := false
  deriving DecidableEq, Repr

/-- R84: the match and mask of every opcode. -/
def opRows : List OpRow :=
  [⟨0x00, 0xFFFFFFFF, false⟩, ⟨0x01, 0xFFFFFFFF, false⟩, ⟨0x02, 0xFFFF00FF, false⟩, ⟨0x03, 0xFFFFFFFF, false⟩,
   ⟨0x04, 0xFFFFFEFF, false⟩, ⟨0x10, 0xFFFFFFFF, false⟩, ⟨0x11, 0xFFFFFFFF, false⟩, ⟨0x12, 0xFFFFFFFF, false⟩,
   ⟨0x13, 0x0000FFFF, true⟩, ⟨0x20, 0xFFFFFCFF, false⟩, ⟨0x21, 0xFFFE00FF, false⟩, ⟨0x22, 0xFFFFFFFF, false⟩,
   ⟨0x30, 0xFFFFFFFF, false⟩, ⟨0x31, 0xFFFFFFFF, false⟩, ⟨0x32, 0xFFFFFEFF, false⟩, ⟨0x33, 0xFFFF00FF, false⟩,
   ⟨0x40, 0xFFFE00FF, false⟩, ⟨0x41, 0xFFFE00FF, false⟩, ⟨0x42, 0xFFFF00FF, false⟩, ⟨0x43, 0xFFFF00FF, false⟩,
   ⟨0x44, 0xFFFFFFFF, false⟩, ⟨0x45, 0xFFFFFFFF, false⟩, ⟨0x46, 0x0000FFFF, false⟩, ⟨0x47, 0xFFFFFFFF, false⟩]

/-- R84: the word meets one row of the table. -/
def OpRow.accepts (r : OpRow) (w : Word) : Bool :=
  w &&& r.mask = r.pattern &&
    (!r.countRange || (1 ≤ (arg16 w).toNat && (arg16 w).toNat ≤ Config.rxbufSize))

/-- R84: `legal(w)`, read off the table of match and mask values. -/
def legal (w : Word) : Bool := opRows.any (·.accepts w)

/-- The word whose low `nbits` bits are those of `w` and whose other bits are 0. -/
def tableWord (nbits w : Nat) : Word := BitVec.ofNat 32 (w % 2 ^ nbits)

/-- The instruction the decoder reads from a table row's bits: a command is one 32-bit word (R81, R85). -/
def decodeTableWord (nbits w : Nat) : Option Instr := (decode (tableWord nbits w)).toOption

end Sys2Proof
end

