-- ==== Sys2Proof/Machine/State.lean ====
section
/-! DEFINITION. The state of HFS-T30 as plain data (spec file 10_state.md), the agents' pending actions (R5), the
reasons a step can stop, and the state after hard reset (R330). -/

namespace Sys2Proof.Machine

/-- R24: the result a command ends with. -/
inductive Result where
  | ok | timeout | badFcs | badAddr | badCtrl | tooShort | truncated | carrierLost | oversize | aborted | badAlign
  | peerEot | dceError | wrongCarrier | modeError | illegalCmd
  deriving DecidableEq, Repr

/-- R36: the ENGINE's record of the DCE's mode. -/
inductive Link where
  | unknown | idle | txHdlc | rxHdlc | txData | rxData
  deriving DecidableEq, Repr

/-- R38: whether a flag has been seen since the last loss of synchronisation. -/
inductive Sync where
  | hunt | sync
  deriving DecidableEq, Repr

/-- R88: the commands the block sends to the DCE. -/
inductive DceCmd where
  | fth (m : Byte) | frh (m : Byte) | ftm (m : Byte) | frm (m : Byte) | fts (n : Byte) | frs (n : Byte) | attention
  deriving DecidableEq, Repr

/-- R88: the results the DCE answers. -/
inductive DceRes where
  | ok | connect | noCarrier | error | fcerror | other
  deriving DecidableEq, Repr

/-- R88: a token the block sends. -/
inductive OutToken where
  | cmd (c : DceCmd)
  | byte (b : Byte)
  deriving DecidableEq, Repr

/-- R88: a token the DCE delivers. -/
inductive InToken where
  | byte (b : Byte)
  | res (r : DceRes)
  deriving DecidableEq, Repr

/-- R22: the fields of CTRL. SOFT_RESET is an action and has no storage; the other bits are reserved. -/
structure Ctrl where
  ieDone : Bool
  ieErr : Bool
  rxCrcCheck : Bool
  txFcsByte : Bool
  rcpFix : Bool
  v34 : Bool
  deriving DecidableEq, Repr

/-- R23: the fields of STATUS that have storage. BUSY, CARRIER and LINK are views of hidden state. -/
structure Status where
  done : Bool
  err : Bool
  hazard : Bool
  ovr : Bool
  result : Result
  lastCmd : Byte
  deriving DecidableEq, Repr

/-- R30: the fields of RXSTAT. -/
structure RxStat where
  valid : Bool
  lenOk : Bool
  addrOk : Bool
  ctrlOk : Bool
  crcOk : Bool
  crcChecked : Bool
  final : Bool
  rcpSubst : Bool
  fcf : Byte
  dleUnk : Bool
  alignErr : Bool
  dceFcsErr : Bool
  deriving DecidableEq, Repr

/-- R32: the fields of SEQCFG. -/
structure SeqCfg where
  rearmMax : BitVec 4
  breakChar : Byte
  abortWaitMs : Half
  deriving DecidableEq, Repr

/-- R35: the fields of CHMODE. -/
structure ChMode where
  controlActive : Bool
  gotEot : Bool
  retrain : Bool
  prate : Byte
  crate : Byte
  lastInd : Byte
  deriving DecidableEq, Repr

/-- R38: the receive bit engine. -/
structure RxEngine where
  sync : Sync
  ones : Nat
  pend : List Bool
  backlog : List Bool
  deriving DecidableEq, Repr

/-- R39: the transmit bit engine. -/
structure TxEngine where
  acc : Byte
  nbits : Nat
  ones : Nat
  deriving DecidableEq, Repr

/-- What a command does once its abort_sequence has ended (R243, R257, R304). -/
inductive AfterAbort where
  /-- A timed-out command without RXBUF effects completes with TIMEOUT. -/
  | timeout
  /-- A timed-out receive command completes with TIMEOUT and RXLEN = `n`; RXBUF past RXLEN is then unspecified (R72). -/
  | receiveTimeout (n : Nat)
  /-- The ABORT command completes by the link state. -/
  | abortCmd
  deriving DecidableEq, Repr

/-- R40, R241: the wait point at which the running command's pseudocode stands, with its local variables. The
command's own arguments are read from `curCmd`. -/
inductive WaitPoint where
  /-- R133: SEND_HDLC's completion wait. -/
  | sendHdlc (final : Bool)
  /-- R136: RECV_HDLC's data phase; `n` bytes stored. -/
  | recvHdlcData (n : Nat) (found ovf : Bool)
  /-- R134: RECV_HDLC after a DLE. -/
  | recvHdlcDle (n : Nat) (found ovf : Bool)
  /-- R137: RECV_HDLC after `<DLE><ETX>`. -/
  | recvHdlcEnd (n : Nat) (ovf : Bool)
  /-- R142: RECV_RAW's data phase. -/
  | recvRaw (n : Nat)
  /-- R142: RECV_RAW after a DLE. -/
  | recvRawDle (n : Nat)
  /-- R142: RECV_RAW after `<DLE><ETX>`. -/
  | recvRawEnd (n : Nat)
  /-- R187: RECV_BITS's data phase. -/
  | recvBits
  /-- R187: RECV_BITS after a DLE. -/
  | recvBitsDle
  /-- R187: RECV_BITS after `<DLE><ETX>`. -/
  | recvBitsEnd
  /-- R216: RECV_V34's data phase. -/
  | recvV34 (n : Nat) (ovf : Bool)
  /-- R211: RECV_V34 after a DLE. -/
  | recvV34Dle (n : Nat) (ovf : Bool)
  /-- R217: WAIT_CHANNEL. -/
  | waitChannel
  /-- R211: WAIT_CHANNEL after a DLE. -/
  | waitChannelDle
  /-- R250. -/
  | txCarrier
  /-- R251. -/
  | rxCarrier
  /-- R252. -/
  | txSilence
  /-- R253. -/
  | rxSilence
  /-- R254. -/
  | rxDropWait
  /-- R255. -/
  | txEnd
  /-- R256: the timer wait. -/
  | delay
  /-- R243: the first wait of abort_sequence, entered at TIME `t0`. -/
  | abortFirst (t0 : Word) (after : AfterAbort)
  /-- R243: the second wait, after `Cmd(AT)`. -/
  | abortSecond (t0 : Word) (after : AfterAbort)
  deriving DecidableEq, Repr

/-- R62, R63: the widths of a host access. -/
inductive Width where
  | w8 | w16 | w32
  deriving DecidableEq, Repr

/-- R9: a host access at a 14-bit offset of the host window (R60). -/
inductive HostAccess where
  | read (w : Width) (addr : BitVec 14)
  | write (w : Width) (addr : BitVec 14) (value : Word)
  deriving DecidableEq, Repr

/-- R5: one step of one agent, or the platform's reset input (R330). -/
inductive Action where
  | host (a : HostAccess)
  | engine
  /-- The DCE appends a token to the inbound FIFO. -/
  | deliver (t : InToken)
  /-- The DCE takes the head of the outbound sequence. -/
  | consume
  | tick
  | hardReset
  deriving DecidableEq, Repr

/-- The bytes of a buffer that hold a known value, as (index, byte) pairs with strictly rising indices. An index
that is not listed holds no known value (R331). -/
abbrev Memory := List Host.Cell

/-- The whole machine. -/
structure State where
  ctrl : Ctrl
  status : Status
  /-- R26. -/
  timeoutMs : Half
  /-- R27. -/
  crc : Half
  /-- R28. -/
  txlen : BitVec 11
  /-- R29. -/
  rxlen : BitVec 11
  rxstat : RxStat
  /-- R31: ECMCFG.FS64. -/
  fs64 : Bool
  seqcfg : SeqCfg
  /-- R34. -/
  txcapMs : Half
  chmode : ChMode
  /-- R33. -/
  time : Word
  /-- R36. -/
  link : Link
  rx : RxEngine
  tx : TxEngine
  /-- R40: the accepted command word. -/
  curCmd : Word
  /-- R40: TIME when the command was accepted. -/
  tStart : Word
  /-- R40: RX_CARRIER's re-arm counter. -/
  rearm : Nat
  /-- R40: where the running command waits. `none` is `busy = 0`. -/
  pos : Option WaitPoint
  /-- R40, R71, R134: the running command discarded an unknown pair, which RXSTAT.DLE_UNK shows at the completion. -/
  heldDleUnk : Bool
  /-- R41: the RXBUF bytes with a known value. -/
  rxbuf : Memory
  /-- R331: the RXBUF bytes that were marked as written when the last receive command completed. A byte that `rxbuf` lists
  is marked too. -/
  rxMarks : BitVec 1048
  /-- R41. -/
  txbuf : Memory
  /-- R42: the inbound FIFO, head first. -/
  inbound : List InToken
  /-- R42: the outbound sequence, oldest first. -/
  outbound : List OutToken
  /-- The model's own: a host read of an RXBUF byte from this index on that `rxbuf` does not list is unspecified (R72). -/
  rxFreeFrom : Nat
  /-- The model's own: how many free values have been drawn. -/
  freeCount : Nat
  /-- The model's own: the value the last host read returned. -/
  readData : Word
  /-- The model's own: the agents' steps still to come, next first (R5, R70). -/
  pending : List Action
  deriving DecidableEq, Repr

/-- R41: which buffer. -/
inductive Buffer where
  | rx | tx
  deriving DecidableEq, Repr

/-- Why the machine stops. -/
inductive Fault where
  /-- R331: a read (by the host, a send command, FRAME_FCS or FRAME_CHECK) of a buffer byte that nothing has written
  since hard reset. Raised by `readTx`, `readRx` and host reads. Safe: the hardware goes on with an unspecified byte. -/
  | unwritten (buf : Buffer) (index : Nat)
  /-- R62, R63: a host access of a width or alignment that its region does not take. Raised by `hostRead` and
  `hostWrite`. Safe: the block's state does not change, and the fault is the host agent's. -/
  | busError (w : Width) (addr : BitVec 14)
  deriving DecidableEq, Repr

/-- Why the model declines to give an instruction a meaning. -/
inductive Refusal where
  /-- Raised by a dispatch arm for an instruction that has no meaning yet; no arm of this model raises it. Safe. -/
  | notModelled (mnemonic : String)
  deriving DecidableEq, Repr

/-- R330: every field at its hard-reset value. Fields for which the spec gives none are named in assumptions 1, 2, 5
and 6. -/
def State.reset : State where
  ctrl :=
    { ieDone := false, ieErr := false, rxCrcCheck := true, txFcsByte := true, rcpFix := true, v34 := false }
  status := { done := false, err := false, hazard := false, ovr := false, result := .ok, lastCmd := 0 }
  timeoutMs := 3000
  crc := 0xFFFF
  txlen := 0
  rxlen := 0
  rxstat :=
    { valid := false, lenOk := false, addrOk := false, ctrlOk := false, crcOk := false, crcChecked := false
      final := false, rcpSubst := false, fcf := 0, dleUnk := false, alignErr := false, dceFcsErr := false }
  fs64 := false
  seqcfg := { rearmMax := 3, breakChar := 0x18, abortWaitMs := 1000 }
  txcapMs := 2550
  chmode := { controlActive := false, gotEot := false, retrain := false, prate := 0, crate := 0, lastInd := 0 }
  time := 0
  link := .unknown
  rx := { sync := .hunt, ones := 0, pend := [], backlog := [] }
  tx := { acc := 0, nbits := 0, ones := 0 }
  curCmd := 0
  tStart := 0
  rearm := 0
  pos := none
  heldDleUnk := false
  rxbuf := []
  rxMarks := 0
  txbuf := []
  inbound := []
  outbound := []
  rxFreeFrom := Config.rxbufSize
  freeCount := 0
  readData := 0
  pending := []

end Sys2Proof.Machine
end

