-- ==== Sys2Proof/Machine/Ops.lean ====
section
/-! DEFINITION. The named operations over the buffers and the state that every command shares: buffer reads and
writes, `DceSend`, the resets of the bit engines, command acceptance, completion (R305, the block's trap entry) and
acknowledgement (R306, its trap return), the abort-and-resynchronise path (R243), and the two resets (R330, R332). -/

namespace Sys2Proof.Machine

/-- What one step of this machine answers. -/
abbrev StepOutcome := Host.Outcome State Fault Refusal

/-! ## Buffers -/

/-- The known value of a buffer byte. An unlisted index reads as no value (R331). -/
def Memory.read : Memory → Nat → Option Byte
  | [], _ => none
  | (a, b) :: rest, i => if a = i then some b else Memory.read rest i

/-- Store a byte, keeping the indices strictly rising. -/
def Memory.write : Memory → Nat → Byte → Memory
  | [], i, v => [(i, v)]
  | (a, b) :: rest, i, v =>
    if i < a then (i, v) :: (a, b) :: rest
    else if i = a then (i, v) :: rest
    else (a, b) :: Memory.write rest i v

/-- Store a byte list from index `i` on. -/
def Memory.writeAll (m : Memory) (i : Nat) : List Byte → Memory
  | [] => m
  | b :: rest => Memory.writeAll (Memory.write m i b) (i + 1) rest

/-- Forget every byte from index `k` on. -/
def Memory.dropFrom (m : Memory) (k : Nat) : Memory := m.filter (fun c => c.1 < k)

/-- The set of listed indices, as a bit vector over RXBUF's indices. -/
def Memory.marks (m : Memory) : BitVec 1048 := m.foldr (fun c b => BitVec.twoPow 1048 c.1 ||| b) 0

/-- The canonical form: indices strictly rising, each below the buffer's size. No entry is ever equal to what an
unlisted index reads as, since that is no value. -/
def Memory.wfBelow (size : Nat) (m : Memory) : Bool :=
  decide (m.Pairwise (fun c d => c.1 < d.1)) && m.all (fun c => c.1 < size)

/-- The canonical form of either buffer (both hold 1048 bytes, R6). -/
def Memory.wf (m : Memory) : Bool := Memory.wfBelow Config.rxbufSize m

/-- R41, R63: the ENGINE or the host stores an RXBUF byte; an index at or above the buffer's size is ignored. -/
def storeRx (i : Nat) (b : Byte) (s : State) : State :=
  if i < Config.rxbufSize then { s with rxbuf := s.rxbuf.write i b } else s

/-- R41, R63: a TXBUF byte is stored; an index at or above the buffer's size is ignored. -/
def storeTx (i : Nat) (b : Byte) (s : State) : State :=
  if i < Config.txbufSize then { s with txbuf := s.txbuf.write i b } else s

/-- R182: RXBUF[i ..] takes a byte list. -/
def storeRxAll (i : Nat) : List Byte → State → State
  | [], s => s
  | b :: rest, s => storeRxAll (i + 1) rest (storeRx i b s)

/-- A value that the spec leaves unspecified: the next free byte (R72, assumption 3). -/
def drawFree (s : State) : Byte × State := (Config.freeByte s.freeCount, { s with freeCount := s.freeCount + 1 })

/-- R331: the "written since hard reset" mark of an RXBUF byte. -/
def State.rxWritten (s : State) (i : Nat) : Bool := (s.rxbuf.read i).isSome || s.rxMarks.getLsbD i

/-- One RXBUF byte below the buffer's size: a known byte reads as itself, another as a free value where it is
unspecified (R72), and else it faults (R331). -/
def rxByte (unspecified : Bool) (i : Nat) (s : State) : Except Fault (Byte × State) :=
  match s.rxbuf.read i with
  | some b => .ok (b, s)
  | none => if unspecified then .ok (drawFree s) else .error (.unwritten .rx i)

/-- R72, R331: the ENGINE reads one RXBUF byte; a byte without the written mark faults. -/
def readRxByte (i : Nat) (s : State) : Except Fault (Byte × State) := rxByte (s.rxWritten i) i s

/-- R72, R331: the host reads one RXBUF byte with no command running; every byte that R72 names is unspecified,
marked or not (assumption 16). -/
def hostRxByte (i : Nat) (s : State) : Except Fault (Byte × State) :=
  rxByte (s.rxWritten i || decide (s.rxFreeFrom ≤ i)) i s

/-- R331: one TXBUF byte below the buffer's size. -/
def readTxByte (i : Nat) (s : State) : Except Fault Byte :=
  match s.txbuf.read i with
  | some b => .ok b
  | none => .error (.unwritten .tx i)

/-- `n` RXBUF bytes from index `i` on, in index order. -/
def readRx : (i n : Nat) → State → Except Fault (List Byte × State)
  | _, 0, s => .ok ([], s)
  | i, n + 1, s =>
    match readRxByte i s with
    | .error e => .error e
    | .ok (b, s1) =>
      match readRx (i + 1) n s1 with
      | .error e => .error e
      | .ok (bs, s2) => .ok (b :: bs, s2)

/-- `n` TXBUF bytes from index `i` on, in index order. -/
def readTx : (i n : Nat) → State → Except Fault (List Byte)
  | _, 0, _ => .ok []
  | i, n + 1, s =>
    match readTxByte i s with
    | .error e => .error e
    | .ok b =>
      match readTx (i + 1) n s with
      | .error e => .error e
      | .ok bs => .ok (b :: bs)

/-- Go on with the bytes read, or stop with the fault of the read. -/
def withBytes {α : Type} (r : Except Fault α) (k : α → StepOutcome) : StepOutcome :=
  match r with
  | .error e => .fault e
  | .ok x => k x

/-! ## Tokens, position and engines -/

/-- R9: `DceSend` of a token list, in order. It never blocks. -/
def send (ts : List OutToken) (s : State) : State := { s with outbound := s.outbound ++ ts }

/-- R241: the command goes to a wait point. -/
def goto (w : WaitPoint) (s : State) : State := { s with pos := some w }

/-- R40: `busy`. -/
def State.busy (s : State) : Bool := s.pos.isSome

/-- R185: the receive engine at reset. -/
def RxEngine.init : RxEngine := { sync := .hunt, ones := 0, pend := [], backlog := [] }

/-- R185: the transmit engine at reset. -/
def TxEngine.init : TxEngine := { acc := 0, nbits := 0, ones := 0 }

/-- R185: `rx_reset()`. -/
def rxReset (s : State) : State := { s with rx := RxEngine.init }

/-- R185: `tx_reset()`. -/
def txReset (s : State) : State := { s with tx := TxEngine.init }

/-- R36: `link <- l`. -/
def setLink (l : Link) (s : State) : State := { s with link := l }

/-- R29: `RXLEN <- n`. -/
def setRxlen (n : Nat) (s : State) : State := { s with rxlen := BitVec.ofNat 11 n }

/-- R30: every RXSTAT field 0. -/
def RxStat.zero : RxStat :=
  { valid := false, lenOk := false, addrOk := false, ctrlOk := false, crcOk := false, crcChecked := false
    final := false, rcpSubst := false, fcf := 0, dleUnk := false, alignErr := false, dceFcsErr := false }

/-- R30: `RXSTAT <- 0`. -/
def clearRxStat (s : State) : State := { s with rxstat := RxStat.zero }

/-- R30, R40: a receive command starts: RXSTAT is 0 and no unknown pair has been discarded. -/
def startReceive (s : State) : State := { clearRxStat s with heldDleUnk := false }

/-- R71, R134: an unknown pair was discarded; RXSTAT shows it at the completion. -/
def noteUnknownPair (s : State) : State := { s with heldDleUnk := true }

/-! ## Taking an exception and returning from it -/

/-- R80: the write step of a legal command word: LASTCMD, `cur_cmd` and `t_start` are recorded. -/
def accept (i : Instr) (s : State) : State :=
  { s with status := { s.status with lastCmd := opField (encode i) }, curCmd := encode i, tStart := s.time }

/-- R305: what `complete(r)` makes of STATUS. -/
def Status.completed (r : Result) (st : Status) : Status :=
  { st with ovr := st.ovr || st.done, result := r, done := true, err := st.err || decide (r ≠ .ok) }

/-- R305: `complete(r)`, the block's whole trap entry. -/
def complete (r : Result) (s : State) : State := { s with status := s.status.completed r, pos := none }

/-- R71, R72, R305: a receive command that got past its start checks completes: RXSTAT shows a discarded pair, and RXBUF
from RXLEN on is unspecified, with its written marks kept (R331). -/
def completeReceive (r : Result) (s : State) : State :=
  { complete r s with
    rxstat := { s.rxstat with dleUnk := s.rxstat.dleUnk || s.heldDleUnk }, heldDleUnk := false
    rxbuf := s.rxbuf.dropFrom s.rxlen.toNat, rxMarks := s.rxMarks ||| s.rxbuf.marks, rxFreeFrom := s.rxlen.toNat }

/-- R306: a STATUS write clears DONE, ERR, HAZARD and OVR where a 1 is written, and nothing else. -/
def acknowledge (v : Word) (s : State) : State :=
  { s with status := { s.status with done := s.status.done && !v.getLsbD 1, err := s.status.err && !v.getLsbD 2
                                     hazard := s.status.hazard && !v.getLsbD 3, ovr := s.status.ovr && !v.getLsbD 5 } }

/-- R80, R84: a word that is not legal completes at once with ILLEGAL_CMD. -/
def illegalCommand (w : Word) (s : State) : State :=
  complete .illegalCmd { s with status := { s.status with lastCmd := opField w } }

/-! ## Abort and resynchronise -/

/-- R243: `abort_sequence()` up to its first wait. -/
def beginAbort (after : AfterAbort) (s : State) : State :=
  goto (.abortFirst s.time after) (send [.byte s.seqcfg.breakChar] s)

/-- R243: the first wait ended without OK: `Cmd(AT)` and the second wait. -/
def forceOk (after : AfterAbort) (s : State) : State :=
  goto (.abortSecond s.time after) (send [.cmd .attention] s)

/-- R243: `abort_sequence()` from the end of its waits on, and the caller's completion. -/
def endAbort (sawOk : Bool) (after : AfterAbort) (s : State) : State :=
  let s1 := txReset (rxReset (setLink (if sawOk then .idle else .unknown) s))
  match after with
  | .timeout => complete .timeout s1
  | .receiveTimeout n => completeReceive .timeout (setRxlen n s1)
  | .abortCmd => complete (if s1.link = .idle then .ok else .timeout) s1

/-! ## Resets and time -/

/-- R330: hard reset. The DCE channel is outside the block (R333), and the model's own bookkeeping is not reset. -/
def hardReset (s : State) : State :=
  { State.reset with inbound := s.inbound, outbound := s.outbound, freeCount := s.freeCount, readData := s.readData
                     pending := s.pending }

/-- R332: soft reset. TIME, the buffers with their marks and the DCE channel are kept. -/
def softReset (s : State) : State :=
  { hardReset s with time := s.time, rxbuf := s.rxbuf, rxMarks := s.rxMarks, txbuf := s.txbuf, rxFreeFrom := s.rxFreeFrom }

/-- R33: a TICK step. -/
def tick (s : State) : State := { s with time := s.time + 1 }

end Sys2Proof.Machine
end

