-- ==== Sys2Proof/Machine/Operands.lean ====
section
/-! DEFINITION. The operands a command reads: the argument fields of its word (R82), the operand registers (R20), and
the deadline of each wait (R240). -/

namespace Sys2Proof.Machine

/-- R82: ARG8 of the running command. -/
def State.arg8 (s : State) : Byte := Sys2Proof.arg8 s.curCmd

/-- R82: ARG16 of the running command. -/
def State.arg16 (s : State) : Half := Sys2Proof.arg16 s.curCmd

/-- R82: HDLC = ARG16[0] of TX_CARRIER and RX_CARRIER. -/
def State.argHdlc (s : State) : Bool := s.arg16.getLsbD 0

/-- R217: the indicator WAIT_CHANNEL waits for, from AWAITCTRL = ARG8[0]. -/
def State.wantedIndicator (s : State) : Byte := if s.arg8.getLsbD 0 then Config.indCtrl else Config.indPri

/-- R28. -/
def State.txCount (s : State) : Nat := s.txlen.toNat

/-- R29. -/
def State.rxCount (s : State) : Nat := s.rxlen.toNat

/-- R179: OVERSIZE_GUARD. -/
def State.guard (s : State) : Nat := Config.oversizeGuard s.fs64

/-- R240: `expired((t0, D))`. -/
def State.expired (s : State) (t0 : Word) (d : Half) : Bool := d.toNat ≤ (s.time - t0).toNat

/-- R240, R243: the deadline of a wait point. -/
def State.deadline (s : State) : WaitPoint → Word × Half
  | .sendHdlc _ => (s.tStart, s.txcapMs)
  | .delay => (s.tStart, s.arg16)
  | .abortFirst t0 _ | .abortSecond t0 _ => (t0, s.seqcfg.abortWaitMs)
  | .recvHdlcData _ _ _ | .recvHdlcDle _ _ _ | .recvHdlcEnd _ _ | .recvRaw _ | .recvRawDle _ | .recvRawEnd _
  | .recvBits | .recvBitsDle | .recvBitsEnd | .recvV34 _ _ | .recvV34Dle _ _ | .waitChannel | .waitChannelDle
  | .txCarrier | .rxCarrier | .txSilence | .rxSilence | .rxDropWait | .txEnd => (s.tStart, s.timeoutMs)

/-- R241: the deadline of the running command's wait has passed. -/
def State.waitExpired (s : State) : Bool :=
  match s.pos with
  | none => false
  | some w => s.expired (s.deadline w).1 (s.deadline w).2

/-- R302: the dialect and link requirement of a command. -/
def requireMode (allowed : Bool) (s : State) (k : StepOutcome) : StepOutcome :=
  if allowed then k else .next (complete .modeError s)

/-- R130: the send length check with minimum `m`; OVERSIZE is tested first. -/
def sendLenCheck (m : Nat) (s : State) (k : Nat → StepOutcome) : StepOutcome :=
  if Config.txbufSize < s.txCount then .next (complete .oversize s)
  else if s.txCount < m then .next (complete .tooShort s)
  else k s.txCount

end Sys2Proof.Machine
end

