-- ==== Sys2Proof/Machine/Flags.lean ====
section
/-! DEFINITION. The flags: result codes (R24), the packed registers STATUS, RXSTAT, CTRL, SEQCFG, CHMODE and BITSTATE,
the interrupt line (R310), and the frame check procedure that computes RXSTAT (R106). -/

namespace Sys2Proof.Machine

/-- R24: the result codes. -/
def Result.code : Result → Byte
  | .ok => 0x00 | .timeout => 0x01 | .badFcs => 0x02 | .badAddr => 0x03 | .badCtrl => 0x04 | .tooShort => 0x05
  | .truncated => 0x06 | .carrierLost => 0x07 | .oversize => 0x08 | .aborted => 0x09 | .badAlign => 0x0A
  | .peerEot => 0x0B | .dceError => 0x0C | .wrongCarrier => 0x0D | .modeError => 0x0E | .illegalCmd => 0x0F

/-- R36: the values of `link`. -/
def Link.code : Link → Byte
  | .unknown => 0 | .idle => 1 | .txHdlc => 2 | .rxHdlc => 3 | .txData => 4 | .rxData => 5

/-- R36: STATUS.CARRIER. -/
def Link.carrier : Link → Bool
  | .unknown | .idle => false
  | .txHdlc | .rxHdlc | .txData | .rxData => true

/-- A Bool at bit `p` of a word. -/
def bitAt (p : Nat) (x : Bool) : Word := if x then (1 : Word) <<< p else 0

/-- A value in the field of a word that starts at bit `p`. -/
def fieldAt {n : Nat} (p : Nat) (x : BitVec n) : Word := x.zeroExtend 32 <<< p

/-- R22: CTRL as the host reads it. -/
def Ctrl.word (c : Ctrl) : Word :=
  bitAt 0 c.ieDone ||| bitAt 1 c.ieErr ||| bitAt 2 c.rxCrcCheck ||| bitAt 3 c.txFcsByte ||| bitAt 4 c.rcpFix
    ||| bitAt 5 c.v34

/-- R22, R65: the fields a CTRL write stores. -/
def Ctrl.ofWord (v : Word) : Ctrl :=
  { ieDone := v.getLsbD 0, ieErr := v.getLsbD 1, rxCrcCheck := v.getLsbD 2, txFcsByte := v.getLsbD 3
    rcpFix := v.getLsbD 4, v34 := v.getLsbD 5 }

/-- R23: STATUS as the host reads it. -/
def statusWord (s : State) : Word :=
  bitAt 0 s.busy ||| bitAt 1 s.status.done ||| bitAt 2 s.status.err ||| bitAt 3 s.status.hazard
    ||| bitAt 4 s.link.carrier ||| bitAt 5 s.status.ovr ||| fieldAt 8 s.status.result.code
    ||| fieldAt 16 s.status.lastCmd ||| fieldAt 24 s.link.code

/-- R30: RXSTAT as the host reads it. -/
def RxStat.word (x : RxStat) : Word :=
  bitAt 0 x.valid ||| bitAt 1 x.lenOk ||| bitAt 2 x.addrOk ||| bitAt 3 x.ctrlOk ||| bitAt 4 x.crcOk
    ||| bitAt 5 x.crcChecked ||| bitAt 6 x.final ||| bitAt 7 x.rcpSubst ||| fieldAt 8 x.fcf ||| bitAt 16 x.dleUnk
    ||| bitAt 17 x.alignErr ||| bitAt 18 x.dceFcsErr

/-- R32: SEQCFG as the host reads it. -/
def SeqCfg.word (c : SeqCfg) : Word := fieldAt 0 c.rearmMax ||| fieldAt 8 c.breakChar ||| fieldAt 16 c.abortWaitMs

/-- R32, R65: the fields a SEQCFG write stores. -/
def SeqCfg.ofWord (v : Word) : SeqCfg :=
  { rearmMax := v.extractLsb' 0 4, breakChar := v.extractLsb' 8 8, abortWaitMs := v.extractLsb' 16 16 }

/-- R35: CHMODE as the host reads it. -/
def ChMode.word (c : ChMode) : Word :=
  bitAt 0 c.controlActive ||| bitAt 1 c.gotEot ||| bitAt 2 c.retrain ||| fieldAt 8 c.prate ||| fieldAt 16 c.crate
    ||| fieldAt 24 c.lastInd

/-- R35, R65: a CHMODE write clears GOT_EOT and RETRAIN where a 1 is written. -/
def ChMode.clear (v : Word) (c : ChMode) : ChMode :=
  { c with gotEot := c.gotEot && !v.getLsbD 1, retrain := c.retrain && !v.getLsbD 2 }

/-- R37: BITSTATE as the host reads it. -/
def bitstateWord (s : State) : Word :=
  fieldAt 0 (BitVec.ofNat 3 s.rx.ones) ||| bitAt 3 (s.rx.sync == .sync) ||| fieldAt 4 (BitVec.ofNat 3 s.tx.ones)
    ||| fieldAt 8 (BitVec.ofNat 3 s.tx.nbits) ||| fieldAt 12 (BitVec.ofNat 3 s.rx.backlog.length)
    ||| fieldAt 16 (BitVec.ofNat 16 (min s.rx.pend.length 0xFFFF))

/-- R43, R310: the interrupt output. -/
def irq (s : State) : Bool := (s.status.done && s.ctrl.ieDone) || (s.status.err && s.ctrl.ieErr)

/-- R104: byte `i` of a frame, 0 where the frame is shorter; used only behind a length test. -/
def frameByte (frame : List Byte) (i : Nat) : Byte := frame.getD i 0

/-- R106: the address test. -/
def addrOk (frame : List Byte) : Bool := 1 ≤ frame.length && frameByte frame 0 == Config.addrValue

/-- R106: the control test. -/
def ctrlOk (frame : List Byte) : Bool :=
  2 ≤ frame.length && (frameByte frame 1 &&& Config.ctrlMask) == Config.ctrlValue

/-- R104: the "last frame" flag. -/
def finalBit (frame : List Byte) : Bool := 2 ≤ frame.length && (frameByte frame 1).getLsbD 3

/-- R102: the frame checks out. -/
def crcOk (frame : List Byte) : Bool := crc16 Config.crcInit frame == Config.crcResidue

/-- R106, R107: the result of the frame checks, in their order of precedence. -/
def frameVerdict (frame : List Byte) (minlen : Nat) (chk : Bool) : Result :=
  if frame.length < minlen then .tooShort
  else if !addrOk frame then .badAddr
  else if !ctrlOk frame then .badCtrl
  else if chk && !crcOk frame then .badFcs
  else .ok

/-- R106: RXSTAT bits 15:0 but RCP_SUBST, from a frame. -/
def frameStat (frame : List Byte) (minlen : Nat) (chk : Bool) (x : RxStat) : RxStat :=
  { x with
    lenOk := minlen ≤ frame.length, addrOk := addrOk frame, ctrlOk := ctrlOk frame, crcOk := crcOk frame
    crcChecked := chk, final := finalBit frame, fcf := if 3 ≤ frame.length then frameByte frame 2 else 0
    valid := frameVerdict frame minlen chk == .ok }

/-- R106: what `check` writes, for the frame it read. -/
def applyCheck (frame : List Byte) (minlen : Nat) (chk : Bool) (s : State) : State :=
  { s with crc := crc16 Config.crcInit frame, rxstat := frameStat frame minlen chk s.rxstat }

/-- R106: `check(n, minlen, chk)`; the continuation takes its result. -/
def check (n minlen : Nat) (chk : Bool) (s : State) (k : Result → State → StepOutcome) : StepOutcome :=
  withBytes (readRx 0 n s) fun p => k (frameVerdict p.1 minlen chk) (applyCheck p.1 minlen chk p.2)

/-- R106: RXSTAT.VALID follows the final result, and the receive command completes with it. -/
def finishFrame (r : Result) (s : State) : State :=
  completeReceive r { s with rxstat := { s.rxstat with valid := r == .ok } }

end Sys2Proof.Machine
end

