-- ==== Sys2Proof/Machine/Framing.lean ====
section
/-! DEFINITION. What the framing commands share: DLE escaping on send (R131), the frame a send command transmits,
and the wait for a DCE result (R244). -/

namespace Sys2Proof.Machine

/-- R131: `dce_put(d)`: one DCE data byte, with DLE doubled. -/
def dcePut (d : Byte) : List OutToken :=
  if d = Config.dle then [.byte d, .byte Config.dle] else [.byte d]

/-- R131: `dce_end()`: the end marker. -/
def dceEnd : List OutToken := [.byte Config.dle, .byte Config.etx]

/-- R132, R215: the frame body with its FCS if CTRL.TX_FCS_BYTE is set. -/
def withFcs (append : Bool) (body : List Byte) : List Byte := if append then body ++ fcsBytes body else body

/-- R132: the tokens of an HDLC-mode frame. -/
def hdlcTokens (frame : List Byte) : List OutToken := frame.flatMap (fun b => dcePut (dceOctet b)) ++ dceEnd

/-- R215: one V.34 frame byte, escaped as V34_TX_DLE_ESCAPE says. -/
def v34Put (v : Byte) : List OutToken :=
  if Config.v34TxDleEscape && v == Config.dle then [.byte v, .byte Config.dle] else [.byte v]

/-- R215: the tokens of a V.34 frame. -/
def v34Tokens (frame : List Byte) : List OutToken := frame.flatMap (fun b => v34Put (dceOctet b)) ++ dceEnd

/-- R244: `wait_result(d)` with a token in hand: bytes and other result lines are discarded and the wait goes on. -/
def awaitResult (t : InToken) (s : State) (k : DceRes → StepOutcome) : StepOutcome :=
  match t with
  | .byte _ => .next s
  | .res .other => .next s
  | .res r => k r

/-- R243, R304: the caller's `RXLEN <- n; abort_sequence(); complete(TIMEOUT)` in a receive command. RXLEN takes `n` at the
completion (R71, assumption 9). -/
def receiveTimeout (n : Nat) (s : State) : State := beginAbort (.receiveTimeout n) s

/-- R138, R142, R183, R187: a receive command ends with RXLEN = `n`. -/
def endReceive (n : Nat) (r : Result) (s : State) : State := completeReceive r (setRxlen n s)

end Sys2Proof.Machine
end

