-- ==== Sys2Proof/Machine/BitEngine.lean ====
section
/-! DEFINITION. The transmit and receive bit engines (R170 to R181): packing line bits into DCE bytes, zero-bit
stuffing, flags and padding; flag detection, destuffing, abort and the oversize guard. -/

namespace Sys2Proof.Machine

/-! ## Transmit -/

/-- R171: `put_line_bit(x)`, with the tokens it sends. -/
def TxEngine.putLineBit (x : Bool) (e : TxEngine) : TxEngine × List OutToken :=
  let acc := setBit8 e.acc (if Config.dceLsbFirst then e.nbits else 7 - e.nbits) x
  if e.nbits + 1 = 8 then ({ e with acc := 0, nbits := 0 }, dcePut acc)
  else ({ e with acc := acc, nbits := e.nbits + 1 }, [])

/-- R173: `put_data_bit(x)`: a 0 follows every fifth consecutive 1. -/
def TxEngine.putDataBit (x : Bool) (e : TxEngine) : TxEngine × List OutToken :=
  let (e1, ts1) := e.putLineBit x
  if x then
    if e1.ones + 1 = 5 then
      let (e2, ts2) := TxEngine.putLineBit false { e1 with ones := 5 }
      ({ e2 with ones := 0 }, ts1 ++ ts2)
    else ({ e1 with ones := e1.ones + 1 }, ts1)
  else ({ e1 with ones := 0 }, ts1)

/-- A bit list through one of the two put functions. -/
def TxEngine.putAll (put : Bool → TxEngine → TxEngine × List OutToken) :
    List Bool → TxEngine → TxEngine × List OutToken
  | [], e => (e, [])
  | x :: xs, e =>
    let (e1, ts1) := put x e
    let (e2, ts2) := TxEngine.putAll put xs e1
    (e2, ts1 ++ ts2)

/-- R174: `put_flag()`. -/
def TxEngine.putFlag (e : TxEngine) : TxEngine × List OutToken :=
  let (e1, ts) := e.putAll TxEngine.putLineBit flagBits
  ({ e1 with ones := 0 }, ts)

/-- R186: `n` flags. -/
def TxEngine.putFlags : Nat → TxEngine → TxEngine × List OutToken
  | 0, e => (e, [])
  | n + 1, e =>
    let (e1, ts1) := e.putFlag
    let (e2, ts2) := TxEngine.putFlags n e1
    (e2, ts1 ++ ts2)

/-- R175: `flush_pad()`: the first `8 - tx_nbits` bits of a flag complete a partial byte. -/
def TxEngine.flushPad (e : TxEngine) : TxEngine × List OutToken :=
  let pad := if e.nbits = 0 then [] else flagBits.take (8 - e.nbits)
  let (e1, ts) := e.putAll TxEngine.putLineBit pad
  ({ e1 with ones := 0 }, ts)

/-- R186: a frame body with its FCS, stuffed, and the closing flag. -/
def TxEngine.putFrame (body : List Byte) (e : TxEngine) : TxEngine × List OutToken :=
  let (e1, ts1) := e.putAll TxEngine.putDataBit ((body ++ fcsBytes body).flatMap bitsMsb)
  let (e2, ts2) := e1.putFlag
  (e2, ts1 ++ ts2)

/-- R186: opening flags, the frame if there is one, and the flush if it is asked for. -/
def TxEngine.sendFrame (flags : Nat) (body : List Byte) (flush : Bool) (e : TxEngine) : TxEngine × List OutToken :=
  let (e1, ts1) := e.putFlags flags
  let (e2, ts2) := if body = [] then (e1, []) else e1.putFrame body
  let (e3, ts3) := if flush then e2.flushPad else (e2, [])
  (e3, ts1 ++ ts2 ++ ts3)

/-- The transmit engine's new state and its tokens, in the whole state. -/
def withTx (p : TxEngine × List OutToken) (s : State) : State := send p.2 { s with tx := p.1 }

/-! ## Receive -/

/-- R176: what one line bit gives. -/
inductive RxEvent where
  | none
  | frame (bits : List Bool)
  | abort
  | oversize
  deriving DecidableEq, Repr

/-- R176, R179: `push(x)` under an oversize guard of `guard` bytes. -/
def RxEngine.push (guard : Nat) (x : Bool) (e : RxEngine) : RxEngine × RxEvent :=
  let pend := e.pend ++ [x]
  if pend.length = 8 * (guard + 1) then ({ e with sync := .hunt, pend := [] }, .oversize)
  else ({ e with pend := pend }, .none)

/-- R177: `flag_seen()`. -/
def RxEngine.flagSeen (e : RxEngine) : RxEngine × RxEvent :=
  match e.sync with
  | .hunt => ({ e with sync := .sync, pend := [] }, .none)
  | .sync =>
    let frame := e.pend.take (e.pend.length - min 7 e.pend.length)
    ({ e with pend := [] }, if 8 ≤ frame.length then .frame frame else .none)

/-- R178: seven 1s in a row: an abort if at least 8 content bits came before them. -/
def RxEngine.sevenOnes (e : RxEngine) : RxEngine × RxEvent :=
  match e.sync with
  | .hunt => (e, .none)
  | .sync => ({ e with sync := .hunt, pend := [] }, if 8 + 6 ≤ e.pend.length then .abort else .none)

/-- R176: `rx_bit(x)`. -/
def RxEngine.rxBit (guard : Nat) (x : Bool) (e : RxEngine) : RxEngine × RxEvent :=
  if x then
    let e1 := { e with ones := min (e.ones + 1) 7 }
    if e1.ones = 7 then e1.sevenOnes
    else if e1.sync = .sync then e1.push guard true
    else (e1, .none)
  else
    let e1 := { e with ones := 0 }
    if e.ones = 6 then e1.flagSeen
    else if e.ones = 5 then (e1, .none)
    else if e.ones = 7 then (e1, .none)
    else if e1.sync = .sync then e1.push guard false
    else (e1, .none)

/-- R180: a malformed RCP. -/
def rcpBad (fix : Bool) (frame : List Byte) (resid : Nat) (truncated : Bool) : Bool :=
  fix && 3 ≤ frame.length && frameByte frame 0 == Config.addrValue
    && (frameByte frame 1 &&& Config.ctrlMask) == Config.ctrlValue && frameByte frame 2 == Config.fcfRcp
    && (frame.length != 5 || !crcOk frame || resid != 0 || truncated)

end Sys2Proof.Machine
end

