-- ==== Sys2Proof/Machine/BitSync.lean ====
section
/-! DEFINITION. The bit-level synchroniser commands, family 0x2_ (R182 to R187). -/

namespace Sys2Proof.Machine

/-- R185: BITS_RESET. -/
def execBitsReset (rx tx : Bool) (s : State) : StepOutcome :=
  let s1 := accept (.bitsReset rx tx) s
  let s2 := if rx then rxReset s1 else s1
  .next (complete .ok (if tx then txReset s2 else s2))

/-- R186: SEND_BITS. TXLEN = 0 sends flags only. -/
def execSendBits (flags : Byte) (flush : Bool) (s : State) : StepOutcome :=
  let s1 := accept (.sendBits flags flush) s
  requireMode (!s1.ctrl.v34 && s1.link == .txData) s1 <|
    sendLenCheck (if s1.txCount = 0 then 0 else Config.frameMinLen) s1 fun n =>
      withBytes (readTx 0 n s1) fun body =>
        .next (complete .ok (withTx (s1.tx.sendFrame flags.toNat body flush) s1))

/-- R180, R182: the canonical RCP takes a malformed one's place. -/
def substituteRcp (s : State) : StepOutcome :=
  check 5 Config.rxMinLen true (setRxlen 5 (storeRxAll 0 Config.canonicalRcp s)) fun _ s1 =>
    .next (completeReceive .ok { s1 with rxstat := { s1.rxstat with rcpSubst := true, alignErr := false } })

/-- R182: the result of a frame on the bit path. -/
def bitFrameResult (truncated : Bool) (resid : Nat) (r : Result) : Result :=
  if truncated then .truncated else if r != .tooShort && resid != 0 then .badAlign else r

/-- R182: `frame_end(F, truncated)`. -/
def frameEnd (bits : List Bool) (truncated : Bool) (s : State) : StepOutcome :=
  let frame := octets bits
  let resid := bits.length % 8
  if rcpBad s.ctrl.rcpFix frame resid truncated then substituteRcp s
  else
    check frame.length Config.rxMinLen true (setRxlen frame.length (storeRxAll 0 frame s)) fun r s1 =>
      .next (finishFrame (bitFrameResult truncated resid r)
        { s1 with rxstat := { s1.rxstat with alignErr := resid != 0 } })

/-- R183: `lost_carrier()`. -/
def lostCarrier (s : State) : StepOutcome :=
  let bits := if s.rx.sync = .sync then s.rx.pend else []
  if 8 ≤ bits.length then frameEnd bits true (rxReset s)
  else .next (endReceive 0 .carrierLost (rxReset s))

/-- R187: what an event of the receive engine does; `k` goes on with the backlog where there is none. -/
def onRxEvent (ev : RxEvent) (s : State) (k : StepOutcome) : StepOutcome :=
  match ev with
  | .none => k
  | .frame bits => frameEnd bits false s
  | .abort => .next (endReceive 0 .aborted s)
  | .oversize => .next (endReceive 0 .oversize s)

/-- R184, R187: the backlog goes through `rx_bit` bit by bit; an event ends the command and keeps the rest. -/
def runBacklog : List Bool → State → StepOutcome
  | [], s => .next (goto .recvBits { s with rx := { s.rx with backlog := [] } })
  | x :: xs, s =>
    let (e, ev) := RxEngine.rxBit s.guard x { s.rx with backlog := xs }
    let s1 := { s with rx := e }
    onRxEvent ev s1 (runBacklog xs s1)

/-- R187: RECV_BITS up to its first wait, the backlog of earlier bytes included (R184). -/
def execRecvBits (s : State) : StepOutcome :=
  let s1 := accept .recvBits s
  requireMode (!s1.ctrl.v34 && s1.link == .rxData) s1 <| runBacklog s1.rx.backlog (startReceive s1)

/-- R187: the line bits of one data byte. -/
def bitsByte (v : Byte) (s : State) : StepOutcome := runBacklog (lineBits v) s

/-- R187: `bits_result(r)`. -/
def bitsResult (r : DceRes) (s : State) : StepOutcome :=
  match r with
  | .noCarrier => lostCarrier (setLink .idle s)
  | .ok | .error => .next (endReceive 0 .dceError (rxReset (setLink .idle s)))
  | .connect | .fcerror | .other => .next (goto .recvBits s)

/-- R187: a token of the data phase. -/
def recvBitsToken (t : InToken) (s : State) : StepOutcome :=
  match t with
  | .byte v => if v = Config.dle then .next (goto .recvBitsDle s) else bitsByte v s
  | .res r => bitsResult r s

/-- R134, R187: the token after a DLE. -/
def recvBitsDleToken (t : InToken) (s : State) : StepOutcome :=
  match t with
  | .byte x =>
    if x = Config.dle then bitsByte Config.dle s
    else if x = Config.etx then .next (goto .recvBitsEnd s)
    else .next (goto .recvBits (noteUnknownPair s))
  | .res r => bitsResult r s

/-- R187: `end_wait()`, after `<DLE><ETX>`. -/
def recvBitsEndToken (t : InToken) (s : State) : StepOutcome :=
  awaitResult t s fun r =>
    match r with
    | .ok | .noCarrier | .error => lostCarrier (setLink .idle s)
    | .connect | .fcerror | .other => .next s

end Sys2Proof.Machine
end

