-- ==== Sys2Proof/Machine/Sequencer.lean ====
section
/-! DEFINITION. The modem command sequencer, family 0x4_ (R250 to R257), and abort_sequence's waits (R243). -/

namespace Sys2Proof.Machine

/-- R250: the command that raises a transmit carrier. -/
def txCarrierCmd (mod : Byte) (hdlc : Bool) : OutToken := .cmd (if hdlc then .fth mod else .ftm mod)

/-- R251: the command that arms the receiver. -/
def rxCarrierCmd (mod : Byte) (hdlc : Bool) : OutToken := .cmd (if hdlc then .frh mod else .frm mod)

/-- R254: V.21 channel 2's receive command. -/
def dropWaitCmd : OutToken := .cmd (.frh Config.v21Mod)

/-- R250: TX_CARRIER up to its wait. -/
def execTxCarrier (mod : Byte) (hdlc : Bool) (s : State) : StepOutcome :=
  let s1 := accept (.txCarrier mod hdlc) s
  requireMode (s1.link == .idle) s1 <| .next (goto .txCarrier (send [txCarrierCmd mod hdlc] s1))

/-- R250: TX_CARRIER's wait. -/
def txCarrierToken (t : InToken) (s : State) : StepOutcome :=
  awaitResult t s fun r =>
    match r with
    | .connect =>
      .next (complete .ok (if s.argHdlc then setLink .txHdlc s else txReset (setLink .txData s)))
    | .error | .ok => .next (complete .dceError (setLink .idle s))
    | .noCarrier => .next (complete .carrierLost (setLink .idle s))
    | .fcerror | .other => .next s

/-- R251: RX_CARRIER up to its wait. -/
def execRxCarrier (mod : Byte) (hdlc : Bool) (s : State) : StepOutcome :=
  let s1 := accept (.rxCarrier mod hdlc) s
  requireMode (s1.link == .idle) s1 <|
    .next (goto .rxCarrier (send [rxCarrierCmd mod hdlc] { s1 with rearm := 0 }))

/-- R251: a wrong-carrier response re-arms at most REARM_MAX times. -/
def wrongCarrier (s : State) : State :=
  if s.rearm < s.seqcfg.rearmMax.toNat then send [rxCarrierCmd s.arg8 s.argHdlc] { s with rearm := s.rearm + 1 }
  else complete .wrongCarrier (setLink .idle s)

/-- R251: RX_CARRIER's wait. -/
def rxCarrierToken (t : InToken) (s : State) : StepOutcome :=
  awaitResult t s fun r =>
    match r with
    | .connect =>
      .next (complete .ok (if s.argHdlc then setLink .rxHdlc s else rxReset (setLink .rxData s)))
    | .fcerror => .next (wrongCarrier s)
    | .error | .ok => .next (complete .dceError (setLink .idle s))
    | .noCarrier => .next (complete .carrierLost (setLink .idle s))
    | .other => .next s

/-- R252: TX_SILENCE up to its wait. -/
def execTxSilence (n : Byte) (s : State) : StepOutcome :=
  let s1 := accept (.txSilence n) s
  requireMode (s1.link == .idle) s1 <| .next (goto .txSilence (send [.cmd (.fts n)] s1))

/-- R253: RX_SILENCE up to its wait. -/
def execRxSilence (n : Byte) (s : State) : StepOutcome :=
  let s1 := accept (.rxSilence n) s
  requireMode (s1.link == .idle) s1 <| .next (goto .rxSilence (send [.cmd (.frs n)] s1))

/-- R252, R253: the wait of both silence commands. -/
def silenceToken (t : InToken) (s : State) : StepOutcome :=
  awaitResult t s fun r =>
    match r with
    | .ok => .next (complete .ok s)
    | .error | .connect | .noCarrier => .next (complete .dceError s)
    | .fcerror | .other => .next s

/-- R254: RX_DROP_WAIT up to its wait. -/
def execRxDropWait (s : State) : StepOutcome :=
  let s1 := accept .rxDropWait s
  requireMode (s1.link == .idle) s1 <| .next (goto .rxDropWait (send [dropWaitCmd] s1))

/-- R254: RX_DROP_WAIT's wait. -/
def rxDropWaitToken (t : InToken) (s : State) : StepOutcome :=
  match t with
  | .res .noCarrier => .next (complete .ok (setLink .idle s))
  | .res .ok => .next (send [dropWaitCmd] s)
  | .res .error | .res .connect | .res .fcerror | .res .other | .byte _ => .next s

/-- R255: TX_END up to its wait. -/
def execTxEnd (s : State) : StepOutcome :=
  let s1 := accept .txEnd s
  requireMode (s1.link == .txData || s1.link == .txHdlc) s1 <|
    .next (goto .txEnd (send dceEnd (if s1.link = .txData then withTx s1.tx.flushPad s1 else s1)))

/-- R255: TX_END's wait. -/
def txEndToken (t : InToken) (s : State) : StepOutcome :=
  awaitResult t s fun r =>
    match r with
    | .ok => .next (complete .ok (setLink .idle s))
    | .error => .next (complete .dceError (setLink .idle s))
    | .noCarrier => .next (complete .carrierLost (setLink .idle s))
    | .connect | .fcerror | .other => .next s

/-- R256: DELAY up to its timer wait. -/
def execDelay (ms : Half) (s : State) : StepOutcome := .next (goto .delay (accept (.delay ms) s))

/-- R257: ABORT up to abort_sequence's first wait. -/
def execAbort (s : State) : StepOutcome := .next (beginAbort .abortCmd (accept .abort s))

/-- R243: `wait_ok(d)` with a token in hand, in either wait of abort_sequence. -/
def abortToken (after : AfterAbort) (t : InToken) (s : State) : StepOutcome :=
  awaitResult t s fun r =>
    match r with
    | .ok => .next (endAbort true after s)
    | .connect | .noCarrier | .error | .fcerror | .other => .next s

end Sys2Proof.Machine
end

