-- ==== Sys2Proof/Machine/ByteFraming.lean ====
section
/-! DEFINITION. The DCE byte framing commands, family 0x1_ (R130 to R142): the part of each that runs in the CMD write
step, and what each does with a token at its wait points. -/

namespace Sys2Proof.Machine

/-! ## SEND_HDLC -/

/-- R132: SEND_HDLC up to its completion wait. -/
def execSendHdlc (s : State) : StepOutcome :=
  let s1 := accept .sendHdlc s
  requireMode (!s1.ctrl.v34 && s1.link == .txHdlc) s1 <|
    sendLenCheck Config.frameMinLen s1 fun n =>
      withBytes (readTx 0 n s1) fun body =>
        .next (goto (.sendHdlc (finalBit body)) (send (hdlcTokens (withFcs s1.ctrl.txFcsByte body)) s1))

/-- R133: SEND_HDLC's completion wait. -/
def sendHdlcToken (final : Bool) (t : InToken) (s : State) : StepOutcome :=
  awaitResult t s fun r =>
    match r with
    | .ok => .next (complete .ok (setLink .idle s))
    | .connect => .next (if final then s else complete .ok s)
    | .error => .next (complete .dceError (setLink .idle s))
    | .noCarrier => .next (complete .carrierLost (setLink .idle s))
    | .fcerror | .other => .next s

/-! ## RECV_HDLC -/

/-- R136: RECV_HDLC up to its first wait. -/
def execRecvHdlc (s : State) : StepOutcome :=
  let s1 := accept .recvHdlc s
  requireMode (!s1.ctrl.v34 && s1.link == .rxHdlc) s1 <|
    .next (goto (.recvHdlcData 0 false false) (startReceive s1))

/-- R135: `put(v)`: bytes before the address are discarded, bytes past the buffer set the overflow flag. -/
def hdlcPut (n : Nat) (found ovf : Bool) (v : Byte) (s : State) : State :=
  if !found && dceOctet v != Config.addrValue then goto (.recvHdlcData n found ovf) s
  else if n < Config.rxbufSize then goto (.recvHdlcData (n + 1) true ovf) (storeRx n (dceOctet v) s)
  else goto (.recvHdlcData n true true) s

/-- R138: a result in the data phase. -/
def hdlcDataResult (n : Nat) (found ovf : Bool) (r : DceRes) (s : State) : State :=
  match r with
  | .noCarrier => endReceive n (if found then .truncated else .carrierLost) (setLink .idle s)
  | .ok | .error => endReceive n .dceError (setLink .idle s)
  | .connect | .fcerror | .other => goto (.recvHdlcData n found ovf) s

/-- R136: a token of the data phase. -/
def recvHdlcDataToken (n : Nat) (found ovf : Bool) (t : InToken) (s : State) : StepOutcome :=
  match t with
  | .byte v => .next (if v = Config.dle then goto (.recvHdlcDle n found ovf) s else hdlcPut n found ovf v s)
  | .res r => .next (hdlcDataResult n found ovf r s)

/-- R134, R136: the token after a DLE. -/
def recvHdlcDleToken (n : Nat) (found ovf : Bool) (t : InToken) (s : State) : StepOutcome :=
  match t with
  | .byte x =>
    .next (if x = Config.dle then hdlcPut n found ovf Config.dle s
           else if x = Config.etx then goto (.recvHdlcEnd n ovf) s
           else goto (.recvHdlcData n found ovf) (noteUnknownPair s))
  | .res r => .next (hdlcDataResult n found ovf r s)

/-- R137, R216: the overrides of a checked frame's result. -/
def overrideResult (ovf dceFcsErr : Bool) (r : Result) : Result :=
  if ovf then .oversize else if r == .ok && dceFcsErr then .badFcs else r

/-- R137, R216: RXLEN, the frame checks, their overrides and the completion. -/
def finishReceived (n minlen : Nat) (chk ovf : Bool) (s : State) : StepOutcome :=
  check n minlen chk (setRxlen n s) fun r s1 => .next (finishFrame (overrideResult ovf s1.rxstat.dceFcsErr r) s1)

/-- R137: RECV_HDLC's end-of-frame handling. -/
def recvHdlcEndToken (n : Nat) (ovf : Bool) (t : InToken) (s : State) : StepOutcome :=
  awaitResult t s fun r =>
    match r with
    | .ok | .noCarrier => finishReceived n Config.rxMinLen s.ctrl.rxCrcCheck ovf (setLink .idle s)
    | .error =>
      finishReceived n Config.rxMinLen s.ctrl.rxCrcCheck ovf
        { setLink .idle s with rxstat := { s.rxstat with dceFcsErr := true } }
    | .connect | .fcerror | .other => .next s

/-! ## SEND_RAW and RECV_RAW -/

/-- R140: SEND_RAW: the pending bits are flushed, then the bytes go unchanged but for DLE escaping (R141). -/
def execSendRaw (s : State) : StepOutcome :=
  let s1 := accept .sendRaw s
  requireMode (!s1.ctrl.v34 && s1.link == .txData) s1 <|
    sendLenCheck 0 s1 fun n =>
      withBytes (readTx 0 n s1) fun body =>
        .next (complete .ok (send (body.flatMap dcePut) (withTx s1.tx.flushPad s1)))

/-- R142: RECV_RAW with `n` of `count` bytes stored: it goes on or completes. -/
def rawContinue (n count : Nat) (s : State) : State :=
  if n < count then goto (.recvRaw n) s else endReceive count .ok s

/-- R142: RECV_RAW up to its first wait. -/
def execRecvRaw (count : Half) (s : State) : StepOutcome :=
  let s1 := accept (.recvRaw count) s
  requireMode (!s1.ctrl.v34 && s1.link == .rxData) s1 <| .next (rawContinue 0 count.toNat (startReceive s1))

/-- R142: one data byte. -/
def rawStore (n : Nat) (v : Byte) (s : State) : State := rawContinue (n + 1) s.arg16.toNat (storeRx n v s)

/-- R142: `raw_result(r)`. -/
def rawResult (n : Nat) (r : DceRes) (s : State) : State :=
  match r with
  | .noCarrier => endReceive n .carrierLost (setLink .idle s)
  | .ok | .error => endReceive n .dceError (setLink .idle s)
  | .connect | .fcerror | .other => goto (.recvRaw n) s

/-- R142: a token of the data phase. -/
def recvRawToken (n : Nat) (t : InToken) (s : State) : StepOutcome :=
  match t with
  | .byte v => .next (if v = Config.dle then goto (.recvRawDle n) s else rawStore n v s)
  | .res r => .next (rawResult n r s)

/-- R134, R142: the token after a DLE. -/
def recvRawDleToken (n : Nat) (t : InToken) (s : State) : StepOutcome :=
  match t with
  | .byte x =>
    .next (if x = Config.dle then rawStore n Config.dle s
           else if x = Config.etx then goto (.recvRawEnd n) s
           else goto (.recvRaw n) (noteUnknownPair s))
  | .res r => .next (rawResult n r s)

/-- R142: `stream_end()`, after `<DLE><ETX>`. -/
def recvRawEndToken (n : Nat) (t : InToken) (s : State) : StepOutcome :=
  awaitResult t s fun r =>
    match r with
    | .ok | .noCarrier | .error => .next (endReceive n .carrierLost (setLink .idle s))
    | .connect | .fcerror | .other => .next s

end Sys2Proof.Machine
end

