-- ==== Sys2Proof/Machine/V34.lean ====
section
/-! DEFINITION. The V.34 byte-transparent framing and channel-state commands, family 0x3_ (R210 to R218). -/

namespace Sys2Proof.Machine

/-- R215: SEND_V34. -/
def execSendV34 (s : State) : StepOutcome :=
  let s1 := accept .sendV34 s
  requireMode s1.ctrl.v34 s1 <|
    sendLenCheck Config.frameMinLen s1 fun n =>
      withBytes (readTx 0 n s1) fun body =>
        .next (complete .ok (send (v34Tokens (withFcs s1.ctrl.txFcsByte body)) s1))

/-- R213: what an indicator does to CHMODE. -/
def ChMode.indicate (x : Byte) (c : ChMode) : ChMode :=
  let c1 := { c with lastInd := x }
  if x = Config.indPri then { c1 with controlActive := false }
  else if x = Config.indCtrl then { c1 with controlActive := true }
  else if x = Config.indRetrain then { c1 with retrain := true }
  else if 0x6E ≤ x.toNat ∧ x.toNat ≤ 0x6F then { c1 with crate := x }
  else if 0x70 ≤ x.toNat ∧ x.toNat ≤ 0x7D then { c1 with prate := x }
  else c1

/-- R213: `indicator(x)`. -/
def indicator (x : Byte) (s : State) : State := { s with chmode := s.chmode.indicate x }

/-- R212: end of transmission. -/
def noteEot (s : State) : State := { s with chmode := { s.chmode with gotEot := true } }

/-- R216: RECV_V34 up to its first wait. -/
def execRecvV34 (s : State) : StepOutcome :=
  let s1 := accept .recvV34 s
  requireMode s1.ctrl.v34 s1 <| .next (goto (.recvV34 0 false) (startReceive s1))

/-- R216: `store(b)`. -/
def v34Store (n : Nat) (ovf : Bool) (b : Byte) (s : State) : State :=
  if n < Config.rxbufSize then goto (.recvV34 (n + 1) ovf) (storeRx n b s) else goto (.recvV34 n true) s

/-- R216: `v34_result(r)`. -/
def v34Result (n : Nat) (ovf : Bool) (r : DceRes) (s : State) : State :=
  match r with
  | .noCarrier => endReceive n (if 0 < n then .truncated else .carrierLost) s
  | .ok | .error => endReceive n .dceError s
  | .connect | .fcerror | .other => goto (.recvV34 n ovf) s

/-- R216: a token of the data phase. -/
def recvV34Token (n : Nat) (ovf : Bool) (t : InToken) (s : State) : StepOutcome :=
  match t with
  | .byte v => .next (if v = Config.dle then goto (.recvV34Dle n ovf) s else v34Store n ovf (dceOctet v) s)
  | .res r => .next (v34Result n ovf r s)

/-- R211, R216: the token after a DLE. -/
def recvV34DleToken (n : Nat) (ovf : Bool) (t : InToken) (s : State) : StepOutcome :=
  match t with
  | .byte x =>
    if x = Config.dle ∨ x = Config.sub then .next (v34Store n ovf (dceOctet Config.dle) s)
    else if x = Config.etx then finishReceived n Config.frameMinLen false ovf s
    else if x = Config.eot then .next (endReceive n .peerEot (noteEot s))
    else if x = Config.indFcsErr then
      finishReceived n Config.frameMinLen false ovf { s with rxstat := { s.rxstat with dceFcsErr := true } }
    else .next (goto (.recvV34 n ovf) (indicator x s))
  | .res r => .next (v34Result n ovf r s)

/-- R217: WAIT_CHANNEL up to its first wait. -/
def execWaitChannel (awaitCtrl : Bool) (s : State) : StepOutcome :=
  let s1 := accept (.waitChannel awaitCtrl) s
  requireMode s1.ctrl.v34 s1 <| .next (goto .waitChannel s1)

/-- R217: `chan_result(r)`. -/
def chanResult (r : DceRes) (s : State) : State :=
  match r with
  | .noCarrier => complete .carrierLost s
  | .ok | .error => complete .dceError s
  | .connect | .fcerror | .other => goto .waitChannel s

/-- R217: a token outside a DLE pair; data bytes are discarded. -/
def waitChannelToken (t : InToken) (s : State) : StepOutcome :=
  match t with
  | .byte v => .next (goto (if v = Config.dle then .waitChannelDle else .waitChannel) s)
  | .res r => .next (chanResult r s)

/-- R211, R217: the token after a DLE. -/
def waitChannelDleToken (t : InToken) (s : State) : StepOutcome :=
  match t with
  | .byte x =>
    if x = Config.eot then .next (complete .peerEot (noteEot s))
    else if x = Config.dle ∨ x = Config.sub ∨ x = Config.etx ∨ x = Config.indFcsErr then .next (goto .waitChannel s)
    else if x = s.wantedIndicator then .next (complete .ok (indicator x s))
    else .next (goto .waitChannel (indicator x s))
  | .res r => .next (chanResult r s)

/-- R218: SEND_IND. -/
def execSendInd (x : Byte) (s : State) : StepOutcome :=
  let s1 := accept (.sendInd x) s
  requireMode s1.ctrl.v34 s1 <| .next (complete .ok (send [.byte Config.dle, .byte x] s1))

end Sys2Proof.Machine
end

