-- ==== Sys2Proof/Machine/Engine.lean ====
section
/-! DEFINITION. The ENGINE step (R241): from the wait point where the command stands to the next wait point that
blocks, or to its completion. -/

namespace Sys2Proof.Machine

/-- R241: what the command does with the token its `DceRecv` returned. DELAY's timer wait takes no token (R256). -/
def onToken (w : WaitPoint) (t : InToken) (s : State) : StepOutcome :=
  match w with
  | .sendHdlc final => sendHdlcToken final t s
  | .recvHdlcData n found ovf => recvHdlcDataToken n found ovf t s
  | .recvHdlcDle n found ovf => recvHdlcDleToken n found ovf t s
  | .recvHdlcEnd n ovf => recvHdlcEndToken n ovf t s
  | .recvRaw n => recvRawToken n t s
  | .recvRawDle n => recvRawDleToken n t s
  | .recvRawEnd n => recvRawEndToken n t s
  | .recvBits => recvBitsToken t s
  | .recvBitsDle => recvBitsDleToken t s
  | .recvBitsEnd => recvBitsEndToken t s
  | .recvV34 n ovf => recvV34Token n ovf t s
  | .recvV34Dle n ovf => recvV34DleToken n ovf t s
  | .waitChannel => waitChannelToken t s
  | .waitChannelDle => waitChannelDleToken t s
  | .txCarrier => txCarrierToken t s
  | .rxCarrier => rxCarrierToken t s
  | .txSilence => silenceToken t s
  | .rxSilence => silenceToken t s
  | .rxDropWait => rxDropWaitToken t s
  | .txEnd => txEndToken t s
  | .delay => .next s
  | .abortFirst _ after => abortToken after t s
  | .abortSecond _ after => abortToken after t s

/-- R241, R304: what the command does where its wait returns TIMEOUT, or where DELAY's timer wait ends. -/
def onTimeout (w : WaitPoint) (s : State) : State :=
  match w with
  | .recvHdlcData n _ _ | .recvHdlcDle n _ _ | .recvHdlcEnd n _ => receiveTimeout n s
  | .recvRaw n | .recvRawDle n | .recvRawEnd n => receiveTimeout n s
  | .recvV34 n _ | .recvV34Dle n _ => receiveTimeout n s
  | .recvBits | .recvBitsDle | .recvBitsEnd => receiveTimeout 0 s
  | .sendHdlc _ | .waitChannel | .waitChannelDle | .txCarrier | .rxCarrier | .txSilence | .rxSilence | .rxDropWait
  | .txEnd => beginAbort .timeout s
  | .delay => complete .ok s
  | .abortFirst _ after => forceOk after s
  | .abortSecond _ after => endAbort false after s

/-- R241: the wait points that expire one after another with no token to take. A command has at most three: its own
wait and the two of abort_sequence. -/
def runTimeouts : Nat → State → State
  | 0, s => s
  | fuel + 1, s =>
    match s.pos with
    | none => s
    | some w => if s.waitExpired then runTimeouts fuel (onTimeout w s) else s

/-- R241: the ENGINE takes tokens while the command waits for one; an available token goes before the deadline. -/
def runTokens : List InToken → State → StepOutcome
  | [], s => .next (runTimeouts 3 s)
  | t :: ts, s =>
    match s.pos with
    | none => .next s
    | some w =>
      match onToken w t { s with inbound := ts } with
      | .next s1 => runTokens ts s1
      | .fault e => .fault e
      | .refused e => .refused e

/-- R241: one ENGINE step. With `busy` = 0 the ENGINE takes none (R40). -/
def engineStep (s : State) : StepOutcome :=
  match s.pos with
  | none => .next s
  | some .delay => .next (runTimeouts 3 s)
  | some _ => runTokens s.inbound s

/-- R241: an ENGINE step would not block at once. -/
def engineReady (s : State) : Bool :=
  match s.pos with
  | none => false
  | some .delay => s.waitExpired
  | some _ => !s.inbound.isEmpty || s.waitExpired

end Sys2Proof.Machine
end

