-- ==== Sys2Proof/Machine/FrameCrc.lean ====
section
/-! DEFINITION. The frame buffer and CRC commands, family 0x0_ (R110 to R114). -/

namespace Sys2Proof.Machine

/-- R111: NOP. -/
def execNop (s : State) : StepOutcome := .next (complete .ok (accept .nop s))

/-- R112: CRC_INIT. -/
def execCrcInit (s : State) : StepOutcome := .next (complete .ok { accept .crcInit s with crc := Config.crcInit })

/-- R113: CRC_FEED. -/
def execCrcFeed (b : Byte) (s : State) : StepOutcome :=
  .next (complete .ok { accept (.crcFeed b) s with crc := crc16 s.crc [b] })

/-- R110: what FRAME_FCS writes for the frame body it read. -/
def appendFcs (body : List Byte) (s : State) : State :=
  let c := crc16 Config.crcInit body
  let n := s.txCount
  { storeTx (n + 1) (loByte (~~~c)) (storeTx n (hiByte (~~~c)) s) with txlen := BitVec.ofNat 11 (n + 2), crc := c }

/-- R110: FRAME_FCS. -/
def execFrameFcs (s : State) : StepOutcome :=
  let s1 := accept .frameFcs s
  if Config.txbufSize < s1.txCount + 2 then .next (complete .oversize s1)
  else if s1.txCount < Config.frameMinLen then .next (complete .tooShort s1)
  else withBytes (readTx 0 s1.txCount s1) fun body => .next (complete .ok (appendFcs body s1))

/-- R114: FRAME_CHECK. -/
def execFrameCheck (chkCrc : Bool) (s : State) : StepOutcome :=
  let s1 := accept (.frameCheck chkCrc) s
  if Config.rxbufSize < s1.rxCount then .next (complete .oversize (clearRxStat s1))
  else
    check s1.rxCount Config.frameMinLen chkCrc
      { s1 with rxstat := { s1.rxstat with dleUnk := false, alignErr := false, dceFcsErr := false, rcpSubst := false } }
      fun r s2 => .next (complete r s2)

end Sys2Proof.Machine
end

