-- ==== Sys2Proof/Machine/Dispatch.lean ====
section
/-! DEFINITION. One arm per command: the part of it that runs in the CMD write step (R80). -/

namespace Sys2Proof.Machine

def exec (i : Instr) (s : State) : Host.Outcome State Fault Refusal :=
  match i with
  | .nop => Sys2Proof.Machine.execNop s
  | .crcInit => Sys2Proof.Machine.execCrcInit s
  | .crcFeed b => Sys2Proof.Machine.execCrcFeed b s
  | .frameFcs => Sys2Proof.Machine.execFrameFcs s
  | .frameCheck chkCrc => Sys2Proof.Machine.execFrameCheck chkCrc s
  | .sendHdlc => Sys2Proof.Machine.execSendHdlc s
  | .recvHdlc => Sys2Proof.Machine.execRecvHdlc s
  | .sendRaw => Sys2Proof.Machine.execSendRaw s
  | .recvRaw count => Sys2Proof.Machine.execRecvRaw count s
  | .bitsReset rx tx => Sys2Proof.Machine.execBitsReset rx tx s
  | .sendBits flags flush => Sys2Proof.Machine.execSendBits flags flush s
  | .recvBits => Sys2Proof.Machine.execRecvBits s
  | .sendV34 => Sys2Proof.Machine.execSendV34 s
  | .recvV34 => Sys2Proof.Machine.execRecvV34 s
  | .waitChannel awaitCtrl => Sys2Proof.Machine.execWaitChannel awaitCtrl s
  | .sendInd x => Sys2Proof.Machine.execSendInd x s
  | .txCarrier mod hdlc => Sys2Proof.Machine.execTxCarrier mod hdlc s
  | .rxCarrier mod hdlc => Sys2Proof.Machine.execRxCarrier mod hdlc s
  | .txSilence n => Sys2Proof.Machine.execTxSilence n s
  | .rxSilence n => Sys2Proof.Machine.execRxSilence n s
  | .rxDropWait => Sys2Proof.Machine.execRxDropWait s
  | .txEnd => Sys2Proof.Machine.execTxEnd s
  | .delay ms => Sys2Proof.Machine.execDelay ms s
  | .abort => Sys2Proof.Machine.execAbort s

end Sys2Proof.Machine
end

