-- ==== Sys2Proof/Machine/Bus.lean ====
section
/-! DEFINITION. The host window (R60 to R66): its map, access rules, register reads and writes, buffer accesses, the
CMD write that starts a command (R80), and the steps of the agents (R5). -/

namespace Sys2Proof.Machine

/-- R60: the host bus address at which a window offset appears; the platform chooses the base. -/
def busAddress (addr : BitVec 14) : Nat := Config.hfsBase + addr.toNat

/-- R10 register map: the offset of CMD. -/
def cmdOffset : BitVec 14 := 0x000C

/-- The bytes of an access. -/
def Width.bytes : Width → Nat
  | .w8 => 1 | .w16 => 2 | .w32 => 4

/-- R61: the regions of the host window. -/
inductive Region where
  /-- A register offset. -/
  | register (offset : Nat)
  /-- An index of a buffer window, which may lie at or above the buffer's size. -/
  | buffer (b : Buffer) (index : Nat)
  | unmapped
  deriving DecidableEq, Repr

/-- R61: the host window map; the region of an access is that of its first byte (assumption 8). -/
def region (addr : BitVec 14) : Region :=
  let a := addr.toNat
  if a < 0x40 then .register a
  else if a < 0x1000 then .unmapped
  else if a < 0x2000 then .buffer .rx (a - 0x1000)
  else if a < 0x3000 then .buffer .tx (a - 0x2000)
  else .unmapped

/-- R62, R63: the width and alignment a region takes. -/
def accessOk (w : Width) (addr : BitVec 14) : Bool :=
  match region addr with
  | .register _ => w == .w32 && addr.toNat % 4 == 0
  | .buffer _ _ => addr.toNat % w.bytes == 0
  | .unmapped => true

/-! ## Reads -/

/-- R21 to R37: what each register reads as; CMD, the reserved offset and every reserved bit read 0. -/
def readReg (offset : Nat) (s : State) : Word :=
  match offset with
  | 0x00 => 0x48460001
  | 0x04 => s.ctrl.word
  | 0x08 => statusWord s
  | 0x10 => fieldAt 0 s.timeoutMs
  | 0x14 => fieldAt 0 s.crc
  | 0x18 => fieldAt 0 s.txlen
  | 0x1C => fieldAt 0 s.rxlen
  | 0x20 => s.rxstat.word
  | 0x24 => bitAt 0 s.fs64
  | 0x28 => s.seqcfg.word
  | 0x2C => fieldAt 0 s.txcapMs
  | 0x30 => s.chmode.word
  | 0x34 => s.time
  | 0x38 => bitstateWord s
  | _ => 0

/-- R63, R72, R331: the host reads one buffer byte. An index at or above the size reads 0; an RXBUF byte is
unspecified while a command runs (assumption 4). -/
def hostReadByte (b : Buffer) (i : Nat) (s : State) : Except Fault (Byte × State) :=
  match b with
  | .rx =>
    if Config.rxbufSize ≤ i then .ok (0, s)
    else if s.busy then .ok (drawFree s)
    else hostRxByte i s
  | .tx =>
    if Config.txbufSize ≤ i then .ok (0, s)
    else match readTxByte i s with
      | .error e => .error e
      | .ok v => .ok (v, s)

/-- R63: `n` buffer bytes from index `i` on, little-endian. -/
def hostReadBytes (b : Buffer) : (i n : Nat) → State → Except Fault (Word × State)
  | _, 0, s => .ok (0, s)
  | i, n + 1, s =>
    match hostReadByte b i s with
    | .error e => .error e
    | .ok (v, s1) =>
      match hostReadBytes b (i + 1) n s1 with
      | .error e => .error e
      | .ok (rest, s2) => .ok (v.zeroExtend 32 ||| (rest <<< 8), s2)

/-- R9, R62 to R65: `MemRead(addr, n)`. The value goes to the host (`readData`); nothing else changes but the count
of free values drawn. -/
def hostRead (w : Width) (addr : BitVec 14) (s : State) : StepOutcome :=
  if !accessOk w addr then .fault (.busError w addr)
  else
    match region addr with
    | .register offset => .next { s with readData := readReg offset s }
    | .buffer b i => withBytes (hostReadBytes b i w.bytes s) fun p => .next { p.2 with readData := p.1 }
    | .unmapped => .next { s with readData := 0 }

/-! ## Writes -/

/-- R66: a dropped write marks HAZARD. -/
def setHazard (s : State) : State := { s with status := { s.status with hazard := true } }

/-- R66: a write that is dropped with HAZARD while a command runs. -/
def unlessBusy (s : State) (written : State) : State := if s.busy then setHazard s else written

/-- R66: the four option bits of two CTRL values agree. -/
def Ctrl.sameOptions (c d : Ctrl) : Bool :=
  c.rxCrcCheck == d.rxCrcCheck && c.txFcsByte == d.txFcsByte && c.rcpFix == d.rcpFix && c.v34 == d.v34

/-- R65, R66, R332: a CTRL write. -/
def writeCtrl (v : Word) (s : State) : State :=
  let c := Ctrl.ofWord v
  if v.getLsbD 7 then softReset s
  else if s.busy then
    let s1 := if s.ctrl.sameOptions c then s else setHazard s
    { s1 with ctrl := { s1.ctrl with ieDone := c.ieDone, ieErr := c.ieErr } }
  else { s with ctrl := c }

/-- R80: a command word written while no command runs. -/
def startCommand (w : Word) (s : State) : StepOutcome :=
  match decode w with
  | .ok i => exec i s
  | .error _ => .next (illegalCommand w s)

/-- R65, R66, R80: a register write. -/
def writeReg (offset : Nat) (v : Word) (s : State) : StepOutcome :=
  match offset with
  | 0x04 => .next (writeCtrl v s)
  | 0x08 => .next (acknowledge v s)
  | 0x0C => if s.busy then .next (setHazard s) else startCommand v s
  | 0x10 => .next (unlessBusy s { s with timeoutMs := v.extractLsb' 0 16 })
  | 0x14 => .next (unlessBusy s { s with crc := v.extractLsb' 0 16 })
  | 0x18 => .next (unlessBusy s { s with txlen := v.extractLsb' 0 11 })
  | 0x1C => .next (unlessBusy s { s with rxlen := v.extractLsb' 0 11 })
  | 0x24 => .next (unlessBusy s { s with fs64 := v.getLsbD 0 })
  | 0x28 => .next (unlessBusy s { s with seqcfg := SeqCfg.ofWord v })
  | 0x2C => .next (unlessBusy s { s with txcapMs := v.extractLsb' 0 16 })
  | 0x30 => .next { s with chmode := s.chmode.clear v }
  | _ => .next s

/-- R63, R66: the host writes one buffer byte; an index at or above the size is ignored. -/
def hostWriteByte (b : Buffer) (i : Nat) (v : Byte) (s : State) : State :=
  match b with
  | .rx => if i < Config.rxbufSize then unlessBusy s (storeRx i v s) else s
  | .tx => if i < Config.txbufSize then unlessBusy s (storeTx i v s) else s

/-- R63: the low `n` bytes of a word from index `i` on, little-endian. -/
def hostWriteBytes (b : Buffer) : (i n : Nat) → Word → State → State
  | _, 0, _, s => s
  | i, n + 1, v, s => hostWriteBytes b (i + 1) n (v >>> 8) (hostWriteByte b i (v.extractLsb' 0 8) s)

/-- R9, R62 to R66: `MemWrite(addr, n, v)`. -/
def hostWrite (w : Width) (addr : BitVec 14) (v : Word) (s : State) : StepOutcome :=
  if !accessOk w addr then .fault (.busError w addr)
  else
    match region addr with
    | .register offset => writeReg offset v s
    | .buffer b i => .next (hostWriteBytes b i w.bytes v s)
    | .unmapped => .next s

/-! ## The agents -/

/-- R5: one step of one agent, and the platform's reset input (R330). -/
def agentStep (a : Action) (s : State) : StepOutcome :=
  match a with
  | .host (.read w addr) => hostRead w addr s
  | .host (.write w addr v) => hostWrite w addr v s
  | .engine => engineStep s
  | .deliver t => .next { s with inbound := s.inbound ++ [t] }
  | .consume => .next { s with outbound := s.outbound.drop 1 }
  | .tick => .next (tick s)
  | .hardReset => .next (hardReset s)

/-- The step of a machine that nobody drives: the ENGINE goes on if it can, else time passes (assumption 7). -/
def idleStep (s : State) : StepOutcome := if engineReady s then engineStep s else .next (tick s)

/-- R5: the next pending action, or the idle step. -/
def nextStep (s : State) : StepOutcome :=
  match s.pending with
  | [] => idleStep s
  | a :: rest => agentStep a { s with pending := rest }

/-- R80, R93: the host action that writes a command word to CMD. -/
def cmdWrite (w : Word) : Action := .host (.write .w32 cmdOffset w)

/-- The state in which the next step writes word `w` to CMD while no command runs. -/
def fetching (w : Word) (s : State) : State := { s with pos := none, pending := cmdWrite w :: s.pending }

end Sys2Proof.Machine
end

