-- ==== Sys2Proof/Machine/Step.lean ====
section
/-! DEFINITION. One step of the machine (R5, R70), and the state whose next step runs a given command word. -/

namespace Sys2Proof.Machine

/-- R5, R70: one step of one agent. -/
def step (s : State) : Host.Outcome State Fault Refusal := nextStep s

/-- The next step is the host's write of the word to CMD with no command running: HFS-T30 fetches no instructions
(R20, R73). -/
def State.withFetchWord (s : State) (nbits w : Nat) : State := fetching (tableWord nbits w) s

end Sys2Proof.Machine
end

