-- ==== Sys2Proof/Safety.lean ====
section
/-! DEFINITION. What the claims call a good state: the invariant that every step keeps, and the state of a run that
stops for no fault. -/

namespace Sys2Proof.Machine

/-- The first `n` RXBUF bytes are held and lie inside the buffer. -/
def Stored (n : Nat) (s : State) : Prop := n ≤ Config.rxbufSize ∧ ∀ i, i < n → (s.rxbuf.read i).isSome = true

/-- The running command's opcode. -/
def State.curOp (s : State) : Byte := opField s.curCmd

/-- The commands whose TIMEOUT leaves RXBUF past RXLEN unspecified, by opcode (R72). -/
def isReceiveOp (op : Byte) : Bool := op == 0x11 || op == 0x13 || op == 0x22 || op == 0x31

/-- R302, R240: which command an abort_sequence belongs to. -/
def AfterAbort.fits (s : State) : AfterAbort → Prop
  | .timeout => isReceiveOp s.curOp = false ∧ s.curOp ≠ 0x47
  | .receiveTimeout n => isReceiveOp s.curOp = true ∧ Stored n s
  | .abortCmd => s.curOp = 0x47

/-- What holds of the state while a command stands at a wait point: its opcode, the dialect and link state its start
check asked for (R302), and what its local variables mean. -/
def WaitPoint.fits (s : State) : WaitPoint → Prop
  | .sendHdlc _ => s.curOp = 0x10 ∧ s.ctrl.v34 = false ∧ s.link = .txHdlc
  | .recvHdlcData n found ovf | .recvHdlcDle n found ovf =>
    s.curOp = 0x11 ∧ s.ctrl.v34 = false ∧ s.link = .rxHdlc ∧ Stored n s ∧ (found = false → n = 0 ∧ ovf = false)
      ∧ (ovf = true → n = Config.rxbufSize)
  | .recvHdlcEnd n ovf =>
    s.curOp = 0x11 ∧ s.ctrl.v34 = false ∧ s.link = .rxHdlc ∧ Stored n s ∧ (ovf = true → n = Config.rxbufSize)
  | .recvRaw n | .recvRawDle n | .recvRawEnd n =>
    s.curOp = 0x13 ∧ s.ctrl.v34 = false ∧ s.link = .rxData ∧ Stored n s ∧ n < s.arg16.toNat
      ∧ s.arg16.toNat ≤ Config.rxbufSize
  | .recvBits | .recvBitsDle | .recvBitsEnd =>
    s.curOp = 0x22 ∧ s.ctrl.v34 = false ∧ s.link = .rxData ∧ s.rx.backlog = []
  | .recvV34 n ovf | .recvV34Dle n ovf =>
    s.curOp = 0x31 ∧ s.ctrl.v34 = true ∧ Stored n s ∧ (ovf = true → n = Config.rxbufSize)
  | .waitChannel | .waitChannelDle => s.curOp = 0x32 ∧ s.ctrl.v34 = true
  | .txCarrier => s.curOp = 0x40 ∧ s.link = .idle
  | .rxCarrier => s.curOp = 0x41 ∧ s.link = .idle ∧ s.rearm ≤ s.seqcfg.rearmMax.toNat
  | .txSilence => s.curOp = 0x42 ∧ s.link = .idle
  | .rxSilence => s.curOp = 0x43 ∧ s.link = .idle
  | .rxDropWait => s.curOp = 0x44 ∧ s.link = .idle
  | .txEnd => s.curOp = 0x45 ∧ (s.link = .txData ∨ s.link = .txHdlc) ∧ s.tx.nbits = 0
  | .delay => s.curOp = 0x46
  | .abortFirst _ after | .abortSecond _ after => after.fits s

/-- The wait points at which RECV_BITS may hold the bits of a frame in progress. -/
def WaitPoint.holdsBits : WaitPoint → Prop
  | .recvBits | .recvBitsDle | .recvBitsEnd => True
  | .abortFirst _ (.receiveTimeout _) | .abortSecond _ (.receiveTimeout _) => True
  | _ => False

/-- The invariant of the machine. -/
structure Inv (s : State) : Prop where
  /-- The buffers keep their canonical form. -/
  rxbufWf : s.rxbuf.wf = true
  txbufWf : s.txbuf.wf = true
  /-- R38: `rx_ones` ∈ 0..7. -/
  rxOnes : s.rx.ones ≤ 7
  /-- R38: `rx_pend` has at most 8 × (OVERSIZE_GUARD + 1) − 1 bits. -/
  rxPend : s.rx.pend.length < 8 * (s.guard + 1)
  /-- R176: in HUNT no bit is kept. -/
  rxHunt : s.rx.sync = .hunt → s.rx.pend = []
  /-- R38: `rx_backlog` has at most 7 bits. -/
  rxBacklog : s.rx.backlog.length ≤ 7
  /-- R39: `tx_nbits` ∈ 0..7. -/
  txNbits : s.tx.nbits ≤ 7
  /-- R173: `tx_ones` = 0 at every completion, and no wait point stands inside a frame. -/
  txOnes : s.tx.ones = 0
  /-- R171: the bits of `tx_acc` not yet packed are 0. -/
  txAcc : s.tx.acc.toNat < 2 ^ s.tx.nbits
  /-- R255: outside TX_DATA no bits are pending. -/
  txOwner : s.link ≠ .txData → s.tx.nbits = 0
  /-- R184: bits of a frame in progress are held only while RECV_BITS runs. -/
  rxOwner : ∀ w, s.pos = some w → s.rx.pend ≠ [] → w.holdsBits
  rxIdle : s.pos = none → s.rx.pend = []
  /-- R40, R71: only a running receive command holds a discarded pair back. -/
  heldPair : s.heldDleUnk = true → s.busy = true ∧ isReceiveOp s.curOp = true
  /-- R23: LASTCMD is the running command's opcode. -/
  lastCmd : s.busy = true → s.status.lastCmd = s.curOp
  /-- The wait point fits the rest of the state. -/
  waits : ∀ w, s.pos = some w → w.fits s

/-- R331, R62: a step that stops for no fault. -/
def StepsOn (s : State) : Prop := ∃ t, step s = .next t

end Sys2Proof.Machine
end

