-- ==== Sys2Proof/Certificates/Slice0/Obligations.lean ====
section
/-! DEFINITION. The statements for the provers, and the few words they are written in (namespace Sys2Proof.Claims). -/

namespace Sys2Proof.Claims

open Sys2Proof.Machine

/-- R80: the state after the first line of an accepted command word. -/
def accepted (w : Word) (s : State) : State :=
  { s with status := { s.status with lastCmd := w.extractLsb' 0 8 }, curCmd := w, tStart := s.time }

/-- R305: the state after `complete(r)`. -/
def finished (r : Result) (s : State) : State :=
  { s with
    pos := none
    status := { s.status with ovr := s.status.ovr || s.status.done, result := r, done := true
                              err := s.status.err || r != .ok } }

/-- The command stands at a wait point. -/
def waiting (w : WaitPoint) (s : State) : State := { s with pos := some w }

/-- The bit engines as R185 resets them. -/
def rxClear : RxEngine := { sync := .hunt, ones := 0, pend := [], backlog := [] }
def txClear : TxEngine := { acc := 0, nbits := 0, ones := 0 }

/-- RXSTAT = 0. -/
def rxstatClear : RxStat :=
  { valid := false, lenOk := false, addrOk := false, ctrlOk := false, crcOk := false, crcChecked := false
    final := false, rcpSubst := false, fcf := 0, dleUnk := false, alignErr := false, dceFcsErr := false }

/-- A buffer holds a byte list at its start. -/
def Holds (m : Memory) (bytes : List Byte) : Prop := ∀ i, i < bytes.length → m.read i = bytes[i]?

/-- A buffer holds a byte list at its start and no known byte after it. -/
def HoldsOnly (m : Memory) (bytes : List Byte) : Prop := ∀ i, m.read i = bytes[i]?

/-- TXBUF[0..TXLEN) is a frame body. -/
def TxBody (s : State) (body : List Byte) : Prop := s.txlen.toNat = body.length ∧ Holds s.txbuf body

/-- R131: a DCE data byte on send, DLE doubled. -/
def escaped (d : Byte) : List OutToken := if d = 0x10 then [.byte 0x10, .byte 0x10] else [.byte d]

/-- R131: `<DLE><ETX>`. -/
def endMarker : List OutToken := [.byte 0x10, .byte 0x03]

/-- R101: a frame body with its FCS if it is to be appended. -/
def framed (append : Bool) (body : List Byte) : List Byte := if append then body ++ fcsBytes body else body

/-- The byte tokens of an outbound sequence, as the far DCE delivers them. -/
def delivered (ts : List OutToken) : List InToken :=
  ts.filterMap fun t => match t with
    | .byte b => some (.byte b)
    | .cmd _ => none

/-- The bytes whose DLE-escaped form an outbound sequence is. -/
def escapedAll (bytes : List Byte) : List OutToken := bytes.flatMap escaped

/-- R104: the address and control tests of a frame. -/
def addrCtrlOk (frame : List Byte) : Prop := frame[0]? = some 0xFF ∧ ∃ c, frame[1]? = some c ∧ c &&& 0xF7 = 0xC0

/-- R173: zero-bit stuffing of a bit list, with a run of `ones` 1s before it. -/
def stuff : (ones : Nat) → List Bool → List Bool
  | _, [] => []
  | ones, true :: rest => if ones + 1 = 5 then true :: false :: stuff 0 rest else true :: stuff (ones + 1) rest
  | _, false :: rest => false :: stuff 0 rest

/-- R106, R107, R137, R216: the result of a received frame, the first failing test's code. -/
def receivedResult (minlen : Nat) (chk ovf dceFcsErr : Bool) (frame : List Byte) : Result :=
  if ovf then .oversize
  else if frame.length < minlen then .tooShort
  else if frame[0]? ≠ some 0xFF then .badAddr
  else if frame.getD 1 0 &&& 0xF7 ≠ 0xC0 then .badCtrl
  else if chk ∧ crc16 0xFFFF frame ≠ 0x1D0F then .badFcs
  else if dceFcsErr then .badFcs
  else .ok

/-- R106: RXSTAT bits 15:0 of a frame that ends with a result, over what the other bits hold. -/
def receivedStat (minlen : Nat) (chk : Bool) (frame : List Byte) (r : Result) (x : RxStat) : RxStat :=
  { x with
    valid := r == .ok, lenOk := decide (minlen ≤ frame.length), addrOk := frame[0]? == some 0xFF
    ctrlOk := decide (2 ≤ frame.length) && frame.getD 1 0 &&& 0xF7 == 0xC0, crcOk := crc16 0xFFFF frame == 0x1D0F
    crcChecked := chk, final := (frame.getD 1 0).getLsbD 3, fcf := frame.getD 2 0 }

/-- R180: a frame's octets, its count of left-over bits, and whether the carrier ended it, are a malformed RCP. -/
def MalformedRcp (rcpFix : Bool) (frame : List Byte) (resid : Nat) (truncated : Bool) : Prop :=
  rcpFix = true ∧ 3 ≤ frame.length ∧ frame[0]? = some 0xFF ∧ (∃ c, frame[1]? = some c ∧ c &&& 0xF7 = 0xC0)
    ∧ frame[2]? = some 0x61
    ∧ (frame.length ≠ 5 ∨ crc16 0xFFFF frame ≠ 0x1D0F ∨ resid ≠ 0 ∨ truncated = true)

/-- R30, R80: the state after the start of an accepted receive command. -/
def receiveStarted (w : Word) (s : State) : State :=
  { accepted w s with rxstat := rxstatClear, heldDleUnk := false }

/-- R71, R72: a receive command completed with RXLEN = `n`. What RXBUF holds is said beside it. A discarded pair shows in
DLE_UNK from the completion on (assumption 9). -/
def ReceiveOver (r : Result) (n : Nat) (s u : State) : Prop :=
  u = finished r { s with
    rxlen := BitVec.ofNat 11 n, rxbuf := u.rxbuf, rxMarks := u.rxMarks, rxFreeFrom := n
    rxstat := { s.rxstat with dleUnk := s.rxstat.dleUnk || s.heldDleUnk }, heldDleUnk := false }

/-- R71, R72, R331: a receive command completed with a byte list as what RXBUF holds, no known byte after it, RXLEN its length,
a discarded pair shown in DLE_UNK, and the written marks of its bytes set, the others as before. -/
def EndsReceive (r : Result) (bytes : List Byte) (s u : State) : Prop :=
  HoldsOnly u.rxbuf bytes ∧ (∀ i, i < 1048 → u.rxWritten i = (s.rxWritten i || decide (i < bytes.length)))
    ∧ ReceiveOver r bytes.length s u

/-- R134: a data byte as it comes from the DCE, DLE doubled. -/
def inDoubled (v : Byte) : List InToken := if v = 0x10 then [.byte 0x10, .byte 0x10] else [.byte v]

/-- R134: a result may come where a pair's second byte was due; the DLE is then discarded. -/
def afterDle (dle : Bool) : List InToken := if dle then [.byte 0x10] else []

/-- R138, R142, R187, R216: a DCE result in a receive command's data phase. `lost` is the result of NO_CARRIER, and `ended` the
state that a NO_CARRIER, OK or ERROR leaves but for the completion. -/
def DataResult (r : DceRes) (lost : Result) (bytes : List Byte) (ended s : State) (rest : List InToken) : Prop :=
  match r with
  | .noCarrier => ∃ u, engineStep s = .next u ∧ EndsReceive lost bytes ended u
  | .ok | .error => ∃ u, engineStep s = .next u ∧ EndsReceive .dceError bytes ended u
  | .connect | .fcerror | .other => engineStep s = engineStep { s with inbound := rest }

/-- R184: line bits through the receive engine until one of them gives an event; the bits not used come with it. -/
def feed (guard : Nat) : List Bool → RxEngine → RxEngine × RxEvent × List Bool
  | [], e => (e, .none, [])
  | x :: more, e =>
    match e.rxBit guard x with
    | (e1, .none) => feed guard more e1
    | (e1, ev) => (e1, ev, more)

/-- R184, R187: the outcome of RECV_BITS after line bits went through its engine, `k` where none of them gave an event. -/
def BitsTaken (p : RxEngine × RxEvent × List Bool) (s : State) (o : StepOutcome) (k : State → StepOutcome) : Prop :=
  match p.2.1 with
  | .none => o = k { s with rx := { p.1 with backlog := [] } }
  | .frame bits => o = frameEnd bits false { s with rx := { p.1 with backlog := p.2.2 } }
  | .abort => ∃ u, o = .next u ∧ EndsReceive .aborted [] { s with rx := { p.1 with backlog := p.2.2 } } u
  | .oversize => ∃ u, o = .next u ∧ EndsReceive .oversize [] { s with rx := { p.1 with backlog := p.2.2 } } u

/-- R243, R257, R304: the end of abort_sequence, with or without an OK, and its caller's completion. -/
def AbortEnds (after : AfterAbort) (sawOk : Bool) (s u : State) : Prop :=
  let s1 := { s with link := if sawOk then .idle else .unknown, rx := rxClear, tx := txClear }
  match after with
  | .timeout => u = finished .timeout s1
  | .receiveTimeout n =>
    (∀ i, u.rxbuf.read i = if i < n % 2048 then s.rxbuf.read i else none)
      ∧ (∀ i, i < 1048 → u.rxWritten i = s.rxWritten i) ∧ ReceiveOver .timeout (n % 2048) s1 u
  | .abortCmd => u = finished (if sawOk then .ok else .timeout) s1

/-- R61: an access that lies inside an unmapped region. -/
def insideUnmapped (w : Width) (addr : BitVec 14) : Prop :=
  (0x40 ≤ addr.toNat ∧ addr.toNat + w.bytes ≤ 0x1000) ∨ (0x3000 ≤ addr.toNat ∧ addr.toNat + w.bytes ≤ 0x4000)

/-- R302: the dialect and link state in which a command is allowed. -/
def modeOk (i : Instr) (s : State) : Bool :=
  match i with
  | .nop | .crcInit | .crcFeed _ | .frameFcs | .frameCheck _ | .bitsReset _ _ | .delay _ | .abort => true
  | .sendHdlc => !s.ctrl.v34 && s.link == .txHdlc
  | .recvHdlc => !s.ctrl.v34 && s.link == .rxHdlc
  | .sendRaw | .sendBits _ _ => !s.ctrl.v34 && s.link == .txData
  | .recvRaw _ | .recvBits => !s.ctrl.v34 && s.link == .rxData
  | .sendV34 | .recvV34 | .waitChannel _ | .sendInd _ => s.ctrl.v34
  | .txCarrier _ _ | .rxCarrier _ _ | .txSilence _ | .rxSilence _ | .rxDropWait => s.link == .idle
  | .txEnd => s.link == .txData || s.link == .txHdlc

/-- R83: the commands of kind "immediate". -/
def isImmediate : Instr → Bool
  | .nop | .crcInit | .crcFeed _ | .frameFcs | .frameCheck _ | .sendRaw | .bitsReset _ _ | .sendBits _ _ | .sendV34
  | .sendInd _ => true
  | .sendHdlc | .recvHdlc | .recvRaw _ | .recvBits | .recvV34 | .waitChannel _ | .txCarrier _ _ | .rxCarrier _ _
  | .txSilence _ | .rxSilence _ | .rxDropWait | .txEnd | .delay _ | .abort => false

/-- R304: the length a receive command's TIMEOUT records; `none` for a command that writes no length. -/
def timeoutLength : WaitPoint → Option Nat
  | .recvHdlcData n _ _ | .recvHdlcDle n _ _ | .recvHdlcEnd n _ | .recvRaw n | .recvRawDle n | .recvRawEnd n
  | .recvV34 n _ | .recvV34Dle n _ => some n
  | .recvBits | .recvBitsDle | .recvBitsEnd => some 0
  | .sendHdlc _ | .waitChannel | .waitChannelDle | .txCarrier | .rxCarrier | .txSilence | .rxSilence | .rxDropWait
  | .txEnd | .delay | .abortFirst _ _ | .abortSecond _ _ => none

/-- R243, R304: what follows the abort_sequence of a timed-out command. -/
def afterTimeout (w : WaitPoint) : AfterAbort :=
  match timeoutLength w with
  | some n => .receiveTimeout n
  | none => .timeout

/-- R240: a wait point whose deadline is the command's own TIMEOUT or TXCAP. -/
def commandWait : WaitPoint → Bool
  | .delay | .abortFirst _ _ | .abortSecond _ _ => false
  | .sendHdlc _ | .recvHdlcData _ _ _ | .recvHdlcDle _ _ _ | .recvHdlcEnd _ _ | .recvRaw _ | .recvRawDle _
  | .recvRawEnd _ | .recvBits | .recvBitsDle | .recvBitsEnd | .recvV34 _ _ | .recvV34Dle _ _ | .waitChannel
  | .waitChannelDle | .txCarrier | .rxCarrier | .txSilence | .rxSilence | .rxDropWait | .txEnd => true

/-- R240: the duration of a command's own wait. -/
def waitMs (w : WaitPoint) (s : State) : Half :=
  match w with
  | .sendHdlc _ => s.txcapMs
  | _ => s.timeoutMs

/-- R240, R243, R256: the deadline of the running command's wait has not passed. -/
def beforeDeadline (w : WaitPoint) (s : State) : Prop :=
  match w with
  | .delay => (s.time - s.tStart).toNat < (s.curCmd.extractLsb' 16 16).toNat
  | .abortFirst t0 _ | .abortSecond t0 _ => (s.time - t0).toNat < s.seqcfg.abortWaitMs.toNat
  | w => (s.time - s.tStart).toNat < (waitMs w s).toNat

/-- The wait points of the two commands that write CHMODE (R219). -/
def writesChmode : WaitPoint → Bool
  | .recvV34 _ _ | .recvV34Dle _ _ | .waitChannel | .waitChannelDle => true
  | _ => false

/-- CRC_FEED of every byte of a list, in order. -/
def feedAll : List Byte → State → StepOutcome
  | [], s => .next s
  | b :: rest, s =>
    match exec (.crcFeed b) s with
    | .next t => feedAll rest t
    | other => other

end Sys2Proof.Claims

open Sys2Proof Sys2Proof.Machine Sys2Proof.Claims

/-! ## Encoding -/

/-- R81 to R84: decoding the word of a well-formed instruction gives it back. -/
def Obligations.DecodeOfEncode : Prop := ∀ i : Instr, WellFormed i → decode (encode i) = .ok i

/-- R81 to R84: a word that decodes is the word of the well-formed instruction it decodes to, so no bit is dropped. -/
def Obligations.EncodeOfDecode : Prop :=
  ∀ (w : Word) (i : Instr), decode w = .ok i → encode i = w ∧ WellFormed i

/-- R84: the legal words are those of the match and mask table, and any other word completes with ILLEGAL_CMD and
changes nothing but LASTCMD, RESULT, DONE, ERR and OVR. -/
def Obligations.LegalWordsAndIllegalEffect : Prop :=
  (∀ w : Word, legal w = true ↔ ∃ i, decode w = .ok i)
    ∧ ∀ (w : Word) (s : State), s.pos = none → legal w = false →
      startCommand w s
        = .next { s with status := { s.status with
                    lastCmd := w.extractLsb' 0 8, result := .illegalCmd, done := true, err := true
                    ovr := s.status.ovr || s.status.done } }

/-- R93, section 7.1 of the test vectors: words written out from the encoding. -/
def Obligations.SpecWordsDecode : Prop :=
  decode 0x00000000 = .ok .nop ∧ decode 0x00005F02 = .ok (.crcFeed 0x5F) ∧ decode 0x00000104 = .ok (.frameCheck true)
    ∧ decode 0x01000013 = .ok (.recvRaw 256) ∧ decode 0x00000320 = .ok (.bitsReset true true)
    ∧ decode 0x00010221 = .ok (.sendBits 2 true) ∧ decode 0x00006D33 = .ok (.sendInd 0x6D)
    ∧ decode 0x00001840 = .ok (.txCarrier 24 false) ∧ decode 0x00010341 = .ok (.rxCarrier 3 true)
    ∧ decode 0x004B0046 = .ok (.delay 75) ∧ decode 0x00010010 = .error .reservedBits
    ∧ decode 0x04190013 = .error .countOutOfRange ∧ decode 0x00000048 = .error .reservedOpcode

/-- R80: the host's write of a word to CMD while no command runs starts the command it decodes to. -/
def Obligations.StepRunsTheDecodedCommand : Prop :=
  ∀ (s : State) (w : Word) (i : Instr) (rest : List Action),
    s.pos = none → s.pending = .host (.write .w32 0x000C w) :: rest → decode w = .ok i →
      step s = exec i { s with pending := rest }

/-! ## Bits, CRC -/

/-- R68: `dce_octet` is an involution, it is `rev8`, and only the buffer byte 0x08 becomes DLE. R67, R170: the line bits of a
buffer byte run from bit 7 to bit 0, those of the DCE byte it becomes from bit 0 to bit 7, and both are the same. -/
def Obligations.DceOctetReverses : Prop :=
  ∀ b : Byte, dceOctet (dceOctet b) = b ∧ (∀ i, i < 8 → (dceOctet b).getLsbD i = b.getLsbD (7 - i))
    ∧ (dceOctet b = 0x10 ↔ b = 0x08) ∧ lineBits (dceOctet b) = bitsMsb b
    ∧ ∀ k, k < 8 → (lineBits b)[k]? = some (b.getLsbD k) ∧ (bitsMsb b)[k]? = some (b.getLsbD (7 - k))

/-- R102: a frame followed by its FCS has residue 0x1D0F, and changing any one byte of a frame that checks out, so
every single-bit error, is detected. R101: the FCS of the spec's examples. -/
def Obligations.CrcResidueAndErrorDetection : Prop :=
  (∀ body : List Byte, crc16 0xFFFF (body ++ fcsBytes body) = 0x1D0F)
    ∧ (∀ (before after : List Byte) (b b' : Byte), b ≠ b' →
        crc16 0xFFFF (before ++ b :: after) = 0x1D0F → crc16 0xFFFF (before ++ b' :: after) ≠ 0x1D0F)
    ∧ (∀ body : List Byte, fcs body = ~~~(crc16 0xFFFF body)
        ∧ fcsBytes body = [(fcs body).extractLsb' 8 8, (fcs body).extractLsb' 0 8])
    ∧ fcs [0xFF, 0xC0, 0x61] = 0x96D3 ∧ fcs [0xFF, 0xC8, 0x5F] = 0xC8E7 ∧ fcs [0xFF, 0xC8, 0x31] = 0x458F
    ∧ fcs [0xFF, 0xC8, 0x7D] = 0xCCC7 ∧ fcs [0xFF, 0xC8, 0xDF] = 0x596F ∧ fcs [0xFF, 0xC0, 0x60, 0x00] = 0x1D41
    ∧ crc16 0xFFFF [0x31, 0x32, 0x33, 0x34, 0x35, 0x36, 0x37, 0x38, 0x39] = 0x29B1

/-- R103: CRC_INIT and then CRC_FEED of every byte leaves the CRC of the byte list, whatever the state, and feeding the
two FCS bytes after it leaves the residue. The register reads with bits 31:16 zero. -/
def Obligations.IncrementalCrc : Prop :=
  ∀ (body : List Byte) (s : State), ∃ t u v, exec .crcInit s = .next t ∧ t.crc = 0xFFFF ∧ feedAll body t = .next u
    ∧ u.crc = crc16 0xFFFF body ∧ ~~~u.crc = fcs body
    ∧ u = { s with crc := u.crc, status := u.status, curCmd := u.curCmd, tStart := u.tStart, pos := none }
    ∧ feedAll (fcsBytes body) u = .next v ∧ v.crc = 0x1D0F
    ∧ readReg 0x14 u = (crc16 0xFFFF body).zeroExtend 32

/-! ## The immediate commands -/

/-- R111 to R113: NOP completes with OK and changes nothing else, CRC_INIT sets the CRC register to 0xFFFF and CRC_FEED
feeds it one byte; all three complete with OK in every state, and reserved argument bits make the word illegal. -/
def Obligations.NopAndCrcCommands : Prop :=
  (∀ s : State, exec .nop s = .next (finished .ok (accepted 0x00000000 s)))
    ∧ (∀ s : State, exec .crcInit s = .next (finished .ok { accepted 0x00000001 s with crc := 0xFFFF }))
    ∧ (∀ (b : Byte) (s : State),
        exec (.crcFeed b) s
          = .next (finished .ok { accepted (0x00000002 ||| (b.zeroExtend 32 <<< 8)) s with crc := crc16 s.crc [b] }))
    ∧ (∀ w : Word, w.extractLsb' 0 8 = (0x00 : Byte) → w ≠ 0 → decode w = .error .reservedBits)
    ∧ (∀ w : Word, w.extractLsb' 0 8 = (0x01 : Byte) → w ≠ 1 → decode w = .error .reservedBits)
    ∧ ∀ w : Word, w.extractLsb' 0 8 = (0x02 : Byte) → w.extractLsb' 16 16 ≠ (0 : Half) → decode w = .error .reservedBits

/-- R110: FRAME_FCS appends the FCS of TXBUF[0..TXLEN) and completes with OK. Without room for the FCS, or on a body that
is too short, it writes nothing but STATUS (and `cur_cmd` and `t_start`); OVERSIZE is tested first. -/
def Obligations.FrameFcsAppends : Prop :=
  (∀ (s : State) (body : List Byte), TxBody s body → 3 ≤ body.length → body.length + 2 ≤ 1048 →
    ∃ t, exec .frameFcs s = .next t
      ∧ (∀ i, t.txbuf.read i
          = if i = body.length then some ((~~~(crc16 0xFFFF body)).extractLsb' 8 8)
            else if i = body.length + 1 then some ((~~~(crc16 0xFFFF body)).extractLsb' 0 8)
            else s.txbuf.read i)
      ∧ t = finished .ok { accepted 0x00000003 s with
              txbuf := t.txbuf, txlen := BitVec.ofNat 11 (body.length + 2), crc := crc16 0xFFFF body })
    ∧ (∀ s : State, 1046 < s.txlen.toNat → exec .frameFcs s = .next (finished .oversize (accepted 0x00000003 s)))
    ∧ (∀ s : State, s.txlen.toNat < 3 → exec .frameFcs s = .next (finished .tooShort (accepted 0x00000003 s)))
    ∧ ∀ w : Word, w.extractLsb' 0 8 = (0x03 : Byte) → w ≠ 3 → decode w = .error .reservedBits

/-- R106, R107, R114: FRAME_CHECK of a frame held in RXBUF, and FRAME_CHECK with RXLEN > RXBUF_SIZE. -/
def Obligations.FrameCheckReports : Prop :=
  (∀ (s : State) (chk : Bool) (frame : List Byte),
    s.rxlen.toNat = frame.length → frame.length ≤ 1048 → Holds s.rxbuf frame →
    ∃ (r : Result) (x : RxStat),
      exec (.frameCheck chk) s
        = .next (finished r { accepted (0x00000004 ||| if chk then 0x100 else 0) s with
                                crc := crc16 0xFFFF frame, rxstat := x })
      ∧ x.lenOk = decide (3 ≤ frame.length) ∧ x.addrOk = decide (frame[0]? = some 0xFF)
      ∧ (x.ctrlOk = true ↔ ∃ c, frame[1]? = some c ∧ c &&& 0xF7 = 0xC0)
      ∧ x.crcOk = decide (crc16 0xFFFF frame = 0x1D0F) ∧ x.crcChecked = chk
      ∧ (x.final = true ↔ ∃ c, frame[1]? = some c ∧ c.getLsbD 3 = true)
      ∧ x.fcf = frame.getD 2 0 ∧ x.valid = decide (r = .ok)
      ∧ x.rcpSubst = false ∧ x.dleUnk = false ∧ x.alignErr = false ∧ x.dceFcsErr = false
      ∧ r = (if !x.lenOk then .tooShort else if !x.addrOk then .badAddr else if !x.ctrlOk then .badCtrl
             else if chk && !x.crcOk then .badFcs else .ok))
    ∧ (∀ (s : State) (chk : Bool), 1048 < s.rxlen.toNat →
        exec (.frameCheck chk) s
          = .next (finished .oversize
              { accepted (0x00000004 ||| if chk then 0x100 else 0) s with rxstat := rxstatClear }))
    ∧ ∀ w : Word, w.extractLsb' 0 8 = (0x04 : Byte) → w ≠ 0x004 → w ≠ 0x104 → decode w = .error .reservedBits

/-- R185: BITS_RESET resets the engines its two bits name, in every link state and dialect. -/
def Obligations.BitsResetResets : Prop :=
  (∀ (s : State) (rx tx : Bool),
    exec (.bitsReset rx tx) s
      = .next (finished .ok { accepted (0x00000020 ||| (if rx then 0x100 else 0) ||| if tx then 0x200 else 0) s with
                                rx := if rx then rxClear else s.rx, tx := if tx then txClear else s.tx }))
    ∧ ∀ w : Word, w.extractLsb' 0 8 = (0x20 : Byte) → w.extractLsb' 10 22 ≠ (0 : BitVec 22) →
        decode w = .error .reservedBits

/-- R175: `flush_pad` sends nothing with no bits pending; with 1 to 7 bits pending it sends one DCE byte made of them
and of the first bits of a flag, and leaves the engine empty. -/
def Obligations.FlushPadCompletesOneByte : Prop :=
  ∀ e : TxEngine,
    (e.nbits = 0 → e.flushPad = ({ e with ones := 0 }, []))
      ∧ (0 < e.nbits → e.nbits ≤ 7 → e.acc.toNat < 2 ^ e.nbits →
          ∃ v : Byte, e.flushPad = (txClear, escaped v)
            ∧ ∀ k, k < 8 → (lineBits v)[k]? = some (if k < e.nbits then e.acc.getLsbD k
                                                     else flagBits.getD (k - e.nbits) false))

/-- R140, R141: SEND_RAW flushes the pending bits and sends TXBUF[0..TXLEN) unchanged but for DLE doubling. -/
def Obligations.SendRawSends : Prop :=
  ∀ (s : State) (body : List Byte), s.ctrl.v34 = false → s.link = .txData → TxBody s body → body.length ≤ 1048 →
    exec .sendRaw s
      = .next (finished .ok { accepted 0x00000012 s with
                                tx := s.tx.flushPad.1
                                outbound := s.outbound ++ s.tx.flushPad.2 ++ escapedAll body })

/-- R186: SEND_BITS passes TXBUF[0..TXLEN) through the transmit engine and completes with OK. What the engine sends is
TransmitEngineLineBits, and for FLUSH with FlushPadCompletesOneByte. -/
def Obligations.SendBitsSends : Prop :=
  ∀ (s : State) (flags : Byte) (flush : Bool) (body : List Byte),
    s.ctrl.v34 = false → s.link = .txData → TxBody s body → body.length ≤ 1048 →
    (body.length = 0 ∨ 3 ≤ body.length) →
    exec (.sendBits flags flush) s
      = .next (finished .ok
          { accepted (0x00000021 ||| (flags.zeroExtend 32 <<< 8) ||| if flush then 0x10000 else 0) s with
              tx := (s.tx.sendFrame flags.toNat body flush).1
              outbound := s.outbound ++ (s.tx.sendFrame flags.toNat body flush).2 })

/-- R171 to R175, R186: the line bits of what SEND_BITS sends, with the bits left in the partial byte, are the bits
that were pending, the opening flags, the stuffed frame with its FCS, and the closing flag. The DCE bytes are escaped. With
FLUSH, `flush_pad` follows, with or without a frame. -/
def Obligations.TransmitEngineLineBits : Prop :=
  (∀ (e : TxEngine) (flags : Nat) (body : List Byte),
    e.nbits ≤ 7 → e.acc.toNat < 2 ^ e.nbits → e.ones = 0 →
    ∃ bytes : List Byte, (e.sendFrame flags body false).2 = escapedAll bytes
      ∧ (e.sendFrame flags body false).1.nbits ≤ 7 ∧ (e.sendFrame flags body false).1.ones = 0
      ∧ bytes.flatMap lineBits
            ++ (lineBits (e.sendFrame flags body false).1.acc).take (e.sendFrame flags body false).1.nbits
          = (lineBits e.acc).take e.nbits ++ (List.replicate flags flagBits).flatten
            ++ (if body = [] then [] else stuff 0 ((body ++ fcsBytes body).flatMap bitsMsb) ++ flagBits))
    ∧ ∀ (e : TxEngine) (flags : Nat) (body : List Byte),
      e.sendFrame flags body true
        = ((e.sendFrame flags body false).1.flushPad.1,
            (e.sendFrame flags body false).2 ++ (e.sendFrame flags body false).1.flushPad.2)

/-- R215: SEND_V34 sends the frame DLE-escaped, with its FCS if TX_FCS_BYTE is set, and completes without a wait. -/
def Obligations.SendV34Sends : Prop :=
  ∀ (s : State) (body : List Byte), s.ctrl.v34 = true → TxBody s body → 3 ≤ body.length → body.length ≤ 1048 →
    exec .sendV34 s
      = .next (finished .ok { accepted 0x00000030 s with
                                outbound := s.outbound ++ escapedAll ((framed s.ctrl.txFcsByte body).map dceOctet)
                                              ++ endMarker })

/-- R218: SEND_IND sends `<DLE><x>` for every x and changes no other state; outside the V.34 dialect it completes with
MODE_ERROR. -/
def Obligations.SendIndSends : Prop :=
  (∀ (s : State) (x : Byte), s.ctrl.v34 = true →
    exec (.sendInd x) s
      = .next (finished .ok { accepted (0x00000033 ||| (x.zeroExtend 32 <<< 8)) s with
                                outbound := s.outbound ++ [.byte 0x10, .byte x] }))
    ∧ (∀ (s : State) (x : Byte), s.ctrl.v34 = false →
        exec (.sendInd x) s = .next (finished .modeError (accepted (0x00000033 ||| (x.zeroExtend 32 <<< 8)) s)))
    ∧ ∀ w : Word, w.extractLsb' 0 8 = (0x33 : Byte) → w.extractLsb' 16 16 ≠ (0 : Half) → decode w = .error .reservedBits

/-! ## Start checks -/

/-- R302: a command completes with MODE_ERROR exactly in a dialect or link state that its row does not allow, and then
changes nothing but STATUS, `cur_cmd` and `t_start`. -/
def Obligations.ModeErrorsChangeOnlyStatus : Prop :=
  ∀ (i : Instr) (s : State),
    (modeOk i s = false → exec i s = .next (finished .modeError (accepted (encode i) s)))
      ∧ ∀ t, modeOk i s = true → exec i s = .next t → t.pos = none → t.status.result ≠ .modeError

/-- R130, R303: the length checks of the send commands, after the mode check, OVERSIZE first. Nothing is sent. -/
def Obligations.SendLengthErrors : Prop :=
  ∀ (i : Instr) (s : State), modeOk i s = true →
    ((i = .sendHdlc ∨ i = .sendV34 ∨ i = .sendRaw ∨ ∃ f fl, i = .sendBits f fl) → 1048 < s.txlen.toNat →
        exec i s = .next (finished .oversize (accepted (encode i) s)))
      ∧ ((i = .sendHdlc ∨ i = .sendV34) → s.txlen.toNat < 3 →
        exec i s = .next (finished .tooShort (accepted (encode i) s)))
      ∧ ((∃ f fl, i = .sendBits f fl) → (s.txlen.toNat = 1 ∨ s.txlen.toNat = 2) →
        exec i s = .next (finished .tooShort (accepted (encode i) s)))

/-! ## The waiting commands -/

/-- R136, R142, R187, R216: each receive command, in the state its row of R302 allows, sets RXSTAT to 0 and stands at
its first wait when the CMD write step ends. RECV_BITS first processes the backlog that the last one left (R184). -/
def Obligations.ReceiveCommandsStart : Prop :=
  ∀ s : State,
    (s.ctrl.v34 = false → s.link = .rxHdlc →
        exec .recvHdlc s = .next (waiting (.recvHdlcData 0 false false) (receiveStarted 0x00000011 s)))
      ∧ (∀ n : Half, s.ctrl.v34 = false → s.link = .rxData → 1 ≤ n.toNat →
          exec (.recvRaw n) s
            = .next (waiting (.recvRaw 0) (receiveStarted (0x00000013 ||| (n.zeroExtend 32 <<< 16)) s)))
      ∧ (s.ctrl.v34 = false → s.link = .rxData → s.rx.backlog = [] →
          exec .recvBits s = .next (waiting .recvBits (receiveStarted 0x00000022 s)))
      ∧ (s.ctrl.v34 = false → s.link = .rxData →
          BitsTaken (feed s.guard s.rx.backlog s.rx) (receiveStarted 0x00000022 s) (exec .recvBits s)
            (fun t => .next (waiting .recvBits t)))
      ∧ (s.ctrl.v34 = true →
          exec .recvV34 s = .next (waiting (.recvV34 0 false) (receiveStarted 0x00000031 s)))

/-- R132, R133, R244: SEND_HDLC sends its frame in the CMD write step and waits; each token then ends it or is
discarded as R133 says. -/
def Obligations.SendHdlcSendsAndCompletes : Prop :=
  ∀ (s : State) (body : List Byte),
    s.ctrl.v34 = false → s.link = .txHdlc → TxBody s body → 3 ≤ body.length → body.length ≤ 1048 →
    ∃ (t : State) (final : Bool),
      exec .sendHdlc s = .next t
      ∧ (final = true ↔ ∃ c, body[1]? = some c ∧ c.getLsbD 3 = true)
      ∧ t = waiting (.sendHdlc final) { accepted 0x00000010 s with
              outbound := s.outbound ++ escapedAll ((framed s.ctrl.txFcsByte body).map dceOctet) ++ endMarker }
      ∧ ∀ (x : InToken) (rest : List InToken),
          engineStep { t with inbound := x :: rest } =
            match x with
            | .res .ok => .next (finished .ok { t with inbound := rest, link := .idle })
            | .res .connect => if final then engineStep { t with inbound := rest }
                               else .next (finished .ok { t with inbound := rest })
            | .res .error => .next (finished .dceError { t with inbound := rest, link := .idle })
            | .res .noCarrier => .next (finished .carrierLost { t with inbound := rest, link := .idle })
            | .res .fcerror | .res .other | .byte _ => engineStep { t with inbound := rest }

/-- R139: a frame that SEND_HDLC sends with its FCS, followed by OK, is what RECV_HDLC receives. -/
def Obligations.HdlcFrameRoundTrip : Prop :=
  ∀ (a : State) (body : List Byte),
    a.ctrl.v34 = false → a.link = .txHdlc → a.ctrl.txFcsByte = true → TxBody a body → 3 ≤ body.length →
    body.length + 2 ≤ 1048 → body[0]? = some 0xFF →
    ∃ (b : State) (sent : List OutToken), exec .sendHdlc a = .next b ∧ b.outbound = a.outbound ++ sent
      ∧ ∀ (s : State) (rest : List InToken),
          s.ctrl.v34 = false → s.link = .rxHdlc → s.inbound = delivered sent ++ .res .ok :: rest →
          ∃ (t u : State) (r : Result), exec .recvHdlc s = .next t
            ∧ t = waiting (.recvHdlcData 0 false false) (receiveStarted 0x00000011 s) ∧ engineStep t = .next u
            ∧ EndsReceive r (body ++ fcsBytes body)
                { t with crc := 0x1D0F, rxstat := u.rxstat, link := .idle, inbound := rest } u
            ∧ (addrCtrlOk body → r = .ok ∧ u.rxstat.valid = true)

/-- R71, R134, R135, R136, R138: RECV_HDLC's data phase. A carrier loss before any address byte is CARRIER_LOST, and after it
TRUNCATED with the partial frame in RXBUF, RXSTAT bits 15:0 staying 0 and CRC unwritten; OK and ERROR are DCE_ERROR; the
other results are discarded, also where a lone DLE comes before them. An unknown pair is discarded; the model's choice
(assumption 9): it is noted, and RXSTAT.DLE_UNK, which the pseudocode writes at the pair, shows it at the completion (R71).
A data byte is stored once the address has been seen, and one that finds RXBUF full sets the overflow flag. -/
def Obligations.RecvHdlcCarrierLoss : Prop :=
  (∀ (s : State) (noise frame : List Byte) (rest : List InToken),
    s.ctrl.v34 = false → s.link = .rxHdlc →
    (∀ v ∈ noise, v ≠ 0x10 ∧ v ≠ 0xFF) → (∀ v ∈ frame, v ≠ 0x10) → (frame = [] ∨ frame[0]? = some 0xFF) →
    frame.length ≤ 1048 →
    s.inbound = noise.map .byte ++ frame.map .byte ++ .res .noCarrier :: rest →
    ∃ t u, exec .recvHdlc s = .next t ∧ t = waiting (.recvHdlcData 0 false false) (receiveStarted 0x00000011 s)
      ∧ engineStep t = .next u
      ∧ EndsReceive (if frame = [] then .carrierLost else .truncated) (frame.map dceOctet)
          { t with link := .idle, inbound := rest } u)
    ∧ ∀ (s : State) (bytes : List Byte) (found ovf dle : Bool) (rest : List InToken),
      s.pos = some (.recvHdlcData bytes.length found ovf) → bytes.length ≤ 1048 → Holds s.rxbuf bytes →
      (∀ r : DceRes, s.inbound = afterDle dle ++ .res r :: rest →
        DataResult r (if found then .truncated else .carrierLost) bytes { s with inbound := rest, link := .idle } s rest)
      ∧ (∀ x : Byte, x ≠ 0x10 → x ≠ 0x03 → s.inbound = .byte 0x10 :: .byte x :: rest →
          engineStep s = engineStep { s with inbound := rest, heldDleUnk := true })
      ∧ ∀ v : Byte, s.inbound = inDoubled v ++ rest →
          engineStep s = engineStep
            (if found = false ∧ dceOctet v ≠ 0xFF then { s with inbound := rest }
             else if bytes.length < 1048 then
               { s with inbound := rest, pos := some (.recvHdlcData (bytes.length + 1) true ovf)
                        rxbuf := s.rxbuf.write bytes.length (dceOctet v) }
             else { s with inbound := rest, pos := some (.recvHdlcData bytes.length true true) })

/-- R107, R137: RECV_HDLC's end of frame. `<DLE><ETX>` ends the data phase; the DCE's result then ends the wait, and
CONNECT, FCERROR, other lines and data bytes are discarded; OVERSIZE overrides every check, and a DCE-reported FCS error
gives BAD_FCS only where every test passes. -/
def Obligations.RecvHdlcEndOfFrame : Prop :=
  (∀ (s : State) (n : Nat) (found ovf : Bool) (rest : List InToken),
    s.pos = some (.recvHdlcData n found ovf) → s.inbound = .byte 0x10 :: .byte 0x03 :: rest →
      engineStep s = engineStep { s with inbound := rest, pos := some (.recvHdlcEnd n ovf) })
    ∧ ∀ (s : State) (frame : List Byte) (ovf : Bool) (x : InToken) (rest : List InToken),
    s.pos = some (.recvHdlcEnd frame.length ovf) → frame.length ≤ 1048 → Holds s.rxbuf frame → s.inbound = x :: rest →
    ((x = .res .ok ∨ x = .res .noCarrier ∨ x = .res .error) →
      ∃ (u : State) (e : Bool) (r : Result), engineStep s = .next u ∧ e = (s.rxstat.dceFcsErr || x == .res .error)
        ∧ r = receivedResult 4 s.ctrl.rxCrcCheck ovf e frame
        ∧ EndsReceive r frame { s with
            inbound := rest, link := .idle, crc := crc16 0xFFFF frame
            rxstat := receivedStat 4 s.ctrl.rxCrcCheck frame r { s.rxstat with dceFcsErr := e } } u)
      ∧ (x ≠ .res .ok → x ≠ .res .noCarrier → x ≠ .res .error → engineStep s = engineStep { s with inbound := rest })

/-- R71, R134, R140 to R142: RECV_RAW of the N bytes that a SEND_RAW with no line bits pending sent stores them unchanged and
leaves the carrier up; where the stream ends before N bytes, `<DLE><ETX>` and any of OK, NO_CARRIER and ERROR end it with
CARRIER_LOST and the bytes before it in RXBUF. In the data phase NO_CARRIER is CARRIER_LOST, OK and ERROR are DCE_ERROR, the
other results are discarded, and so is an unknown pair; the model's choice (assumption 9): it is noted, and RXSTAT.DLE_UNK,
which the pseudocode writes at the pair, shows it at the completion (R71). A data byte is stored, and the N-th one completes
the command with OK. `<DLE><ETX>` leads to the wait for the result that ends the stream. -/
def Obligations.RawStreamRoundTrip : Prop :=
  (∀ (a : State) (body : List Byte),
    a.ctrl.v34 = false → a.link = .txData → a.tx.nbits = 0 → TxBody a body → body.length ≤ 1048 →
    ∃ (b : State) (sent : List OutToken), exec .sendRaw a = .next b ∧ b.outbound = a.outbound ++ sent
      ∧ ∀ (s : State) (n : Half) (r : DceRes) (rest : List InToken), s.ctrl.v34 = false → s.link = .rxData →
          (1 ≤ n.toNat → n.toNat = body.length → s.inbound = delivered sent ++ rest →
            ∃ t u, exec (.recvRaw n) s = .next t ∧ engineStep t = .next u
              ∧ t = waiting (.recvRaw 0) (receiveStarted (0x00000013 ||| (n.zeroExtend 32 <<< 16)) s)
              ∧ EndsReceive .ok body { t with inbound := rest } u)
          ∧ (body.length < n.toNat → n.toNat ≤ 1048 → (r = .ok ∨ r = .noCarrier ∨ r = .error) →
            s.inbound = delivered (sent ++ endMarker) ++ .res r :: rest →
            ∃ t u, exec (.recvRaw n) s = .next t ∧ engineStep t = .next u
              ∧ t = waiting (.recvRaw 0) (receiveStarted (0x00000013 ||| (n.zeroExtend 32 <<< 16)) s)
              ∧ EndsReceive .carrierLost body { t with link := .idle, inbound := rest } u))
    ∧ (∀ (s : State) (bytes : List Byte) (dle : Bool) (rest : List InToken),
      s.pos = some (.recvRaw bytes.length) → bytes.length ≤ 1048 → Holds s.rxbuf bytes →
      (∀ r : DceRes, s.inbound = afterDle dle ++ .res r :: rest →
        DataResult r .carrierLost bytes { s with inbound := rest, link := .idle } s rest)
      ∧ (∀ x : Byte, x ≠ 0x10 → x ≠ 0x03 → s.inbound = .byte 0x10 :: .byte x :: rest →
          engineStep s = engineStep { s with inbound := rest, heldDleUnk := true })
      ∧ (∀ (v : Byte) (count : Nat), count = (s.curCmd.extractLsb' 16 16).toNat → count ≤ 1048 →
          s.inbound = inDoubled v ++ rest →
          (bytes.length + 1 < count → engineStep s = engineStep { s with
              inbound := rest, pos := some (.recvRaw (bytes.length + 1)), rxbuf := s.rxbuf.write bytes.length v })
          ∧ (bytes.length + 1 = count → ∃ u, engineStep s = .next u
              ∧ EndsReceive .ok (bytes ++ [v]) { s with inbound := rest } u))
      ∧ (s.inbound = .byte 0x10 :: .byte 0x03 :: rest →
          engineStep s = engineStep { s with inbound := rest, pos := some (.recvRawEnd bytes.length) }))
    ∧ ∀ (s : State) (bytes : List Byte) (r : DceRes) (rest : List InToken),
      s.pos = some (.recvRawEnd bytes.length) → bytes.length ≤ 1048 → Holds s.rxbuf bytes →
      (r = .ok ∨ r = .noCarrier ∨ r = .error) → s.inbound = .res r :: rest →
      ∃ u, engineStep s = .next u ∧ EndsReceive .carrierLost bytes { s with inbound := rest, link := .idle } u

/-- R188: a frame that SEND_BITS sends from a reset transmit engine, with at least one opening flag and a flush, is what
RECV_BITS with a reset receive engine receives. -/
def Obligations.BitFrameRoundTrip : Prop :=
  ∀ (a : State) (flags : Byte) (body : List Byte),
    a.ctrl.v34 = false → a.link = .txData → a.tx = txClear → TxBody a body → 3 ≤ body.length →
    body.length ≤ 1048 → flags ≠ 0 →
    ∃ (b : State) (sent : List OutToken), exec (.sendBits flags true) a = .next b ∧ b.outbound = a.outbound ++ sent
      ∧ ∀ (s : State) (rest : List InToken),
          s.ctrl.v34 = false → s.link = .rxData → s.rx = rxClear → body.length + 2 ≤ s.guard →
          ¬ MalformedRcp s.ctrl.rcpFix (body ++ fcsBytes body) 0 false → s.inbound = delivered sent ++ rest →
          ∃ (t u : State) (r : Result), exec .recvBits s = .next t
            ∧ t = waiting .recvBits (receiveStarted 0x00000022 s) ∧ engineStep t = .next u
            ∧ u.rx.sync = .sync ∧ u.rx.pend = [] ∧ u.rxstat.alignErr = false
            ∧ EndsReceive r (body ++ fcsBytes body)
                { t with crc := 0x1D0F, rxstat := u.rxstat, rx := u.rx, inbound := rest } u
            ∧ (addrCtrlOk body → r = .ok ∧ u.rxstat.valid = true)

/-- R72, R176 to R179, R181 to R184, R187: how RECV_BITS ends with no malformed RCP. A frame completes with its octets in RXBUF and
TRUNCATED, TOO_SHORT, BAD_ALIGN or the result of its checks. A carrier that ends with an octet or more pending, by
NO_CARRIER or by `<DLE><ETX>` and its result (which may come in a later ENGINE step), ends the frame so. A data byte's line bits go through the receive engine one by
one until an event ends the command, and the bits not used stay in the backlog. In the engine, wherever in a byte they
fall: a 0 after six 1s is a flag, a 0 after five is removed, seven 1s in a row abort a frame of at least 8 bits and end an
idle flag, and the bit that reaches the oversize guard cuts the frame off; in HUNT only the run of 1s is kept. Octet `i` of a
bit list is its bits from 8i on, the first of them bit 7, and the guard is (FRAME_SIZE + 6) × 4. -/
def Obligations.RecvBitsEnds : Prop :=
  (∀ (s : State) (bits : List Bool) (truncated : Bool) (frame : List Byte),
    frame = octets bits → frame.length ≤ 1048 → ¬ MalformedRcp s.ctrl.rcpFix frame (bits.length % 8) truncated →
    ∃ (u : State) (r : Result), frameEnd bits truncated s = .next u
      ∧ r = (if truncated then .truncated
             else if 4 ≤ frame.length ∧ bits.length % 8 ≠ 0 then .badAlign
             else receivedResult 4 true false false frame)
      ∧ EndsReceive r frame { s with
          crc := crc16 0xFFFF frame
          rxstat := { receivedStat 4 true frame r s.rxstat with alignErr := decide (bits.length % 8 ≠ 0) } } u)
    ∧ (∀ (s : State) (r : DceRes) (dle : Bool) (rest : List InToken),
      s.rx.sync = .sync → 8 ≤ s.rx.pend.length →
      (s.pos = some .recvBits ∧ s.inbound = afterDle dle ++ .res .noCarrier :: rest
        ∨ (r = .ok ∨ r = .noCarrier ∨ r = .error)
          ∧ (s.pos = some .recvBits ∧ s.inbound = .byte 0x10 :: .byte 0x03 :: .res r :: rest
            ∨ s.pos = some .recvBitsEnd ∧ s.inbound = .res r :: rest)) →
      engineStep s = frameEnd s.rx.pend true { s with inbound := rest, link := .idle, rx := rxClear })
    ∧ (∀ (s : State) (v : Byte) (rest : List InToken), s.pos = some .recvBits → s.inbound = inDoubled v ++ rest →
      BitsTaken (feed s.guard (lineBits v) s.rx) { s with inbound := rest } (engineStep s) engineStep)
    ∧ (∀ (guard : Nat) (e : RxEngine) (more : List Bool),
      (e.ones = 6 → feed guard (false :: more) e =
        match e.sync with
        | .hunt => feed guard more { e with sync := .sync, ones := 0, pend := [] }
        | .sync => if 15 ≤ e.pend.length
                   then ({ e with ones := 0, pend := [] }, .frame (e.pend.take (e.pend.length - 7)), more)
                   else feed guard more { e with ones := 0, pend := [] })
        ∧ (e.ones = 5 ∨ e.ones = 7 → feed guard (false :: more) e = feed guard more { e with ones := 0 })
        ∧ (e.sync = .sync → e.ones ≤ 6 → e.pend.length + 6 < 8 * (guard + 1) + e.ones →
          feed guard (List.replicate (7 - e.ones) true ++ more) e =
            if 8 + e.ones ≤ e.pend.length then ({ e with sync := .hunt, ones := 7, pend := [] }, .abort, more)
            else feed guard more { e with sync := .hunt, ones := 7, pend := [] })
        ∧ ∀ x : Bool, e.sync = .sync → (if x then e.ones ≤ 5 else e.ones ≤ 4) →
          feed guard (x :: more) e =
            let ones := if x then e.ones + 1 else 0
            if e.pend.length + 1 = 8 * (guard + 1) then
              ({ e with sync := .hunt, ones := ones, pend := [] }, .oversize, more)
            else feed guard more { e with ones := ones, pend := e.pend ++ [x] })
    ∧ (∀ (guard : Nat) (e : RxEngine) (more : List Bool) (x : Bool), e.sync = .hunt → (x = true ∨ e.ones ≠ 6) →
        feed guard (x :: more) e = feed guard more { e with ones := if x then min (e.ones + 1) 7 else 0 })
    ∧ (∀ bits : List Bool, (octets bits).length = bits.length / 8
        ∧ ∀ i k, i < bits.length / 8 → k < 8 → ((octets bits).getD i 0).getLsbD (7 - k) = bits.getD (8 * i + k) false)
    ∧ ∀ s : State, s.guard = (if s.fs64 then 64 + 6 else 256 + 6) * 4

/-- R180, R182: a malformed RCP is replaced by the canonical one. It is a frame that, with RCP_FIX set, has at least three octets,
begins with 0xFF, passes the control test and has FCF 0x61, and that is not five octets long, has a wrong CRC or left-over
bits, or was cut off by the carrier's end. -/
def Obligations.MalformedRcpIsReplaced : Prop :=
  ∀ (s : State) (bits : List Bool) (truncated : Bool),
    MalformedRcp s.ctrl.rcpFix (octets bits) (bits.length % 8) truncated →
    ∃ u, frameEnd bits truncated s = .next u
      ∧ EndsReceive .ok [0xFF, 0xC0, 0x61, 0x96, 0xD3] { s with
          crc := 0x1D0F
          rxstat := { s.rxstat with valid := true, lenOk := true, addrOk := true, ctrlOk := true, crcOk := true
                                    crcChecked := true, final := false, rcpSubst := true, fcf := 0x61
                                    alignErr := false } } u

/-- R71, R134, R183, R187: RECV_BITS with less than one octet in progress. A carrier that ends, by NO_CARRIER in the data phase or by
a result after `<DLE><ETX>`, ends it with CARRIER_LOST, RXLEN = 0 and the receive engine reset. OK and ERROR in the data
phase are DCE_ERROR, whatever is in progress. `<DLE><ETX>` leads to the wait for its result; the other results are discarded, in the data phase and after `<DLE><ETX>`, and
so is an unknown pair; the model's choice (assumption 9): it is noted, and RXSTAT.DLE_UNK, which the pseudocode writes at the
pair, shows it at the completion (R71). -/
def Obligations.RecvBitsCarrierLoss : Prop :=
  (∀ (s : State) (dle : Bool) (rest : List InToken), s.pos = some .recvBits →
    (∀ r : DceRes, s.inbound = afterDle dle ++ .res r :: rest → (r = .noCarrier → s.rx.sync = .hunt ∨ s.rx.pend.length < 8) →
        DataResult r .carrierLost [] { s with inbound := rest, link := .idle, rx := rxClear } s rest)
      ∧ (∀ r : DceRes, (r = .ok ∨ r = .noCarrier ∨ r = .error) → (s.rx.sync = .hunt ∨ s.rx.pend.length < 8) →
        s.inbound = .byte 0x10 :: .byte 0x03 :: .res r :: rest →
        ∃ u, engineStep s = .next u
          ∧ EndsReceive .carrierLost [] { s with inbound := rest, link := .idle, rx := rxClear } u)
      ∧ (∀ x : Byte, x ≠ 0x10 → x ≠ 0x03 → s.inbound = .byte 0x10 :: .byte x :: rest →
          engineStep s = engineStep { s with inbound := rest, heldDleUnk := true })
      ∧ (s.inbound = .byte 0x10 :: .byte 0x03 :: rest →
          engineStep s = engineStep { s with inbound := rest, pos := some .recvBitsEnd }))
    ∧ (∀ (s : State) (r : DceRes) (rest : List InToken), s.pos = some .recvBitsEnd →
      (r = .ok ∨ r = .noCarrier ∨ r = .error) → (s.rx.sync = .hunt ∨ s.rx.pend.length < 8) → s.inbound = .res r :: rest →
      ∃ u, engineStep s = .next u
        ∧ EndsReceive .carrierLost [] { s with inbound := rest, link := .idle, rx := rxClear } u)
    ∧ ∀ (s : State) (w : WaitPoint) (x : InToken) (rest : List InToken),
      (w = .recvBitsEnd ∨ ∃ n, w = .recvRawEnd n) → s.pos = some w → s.inbound = x :: rest →
      x ≠ .res .ok → x ≠ .res .noCarrier → x ≠ .res .error → engineStep s = engineStep { s with inbound := rest }

/-- R211, R215, R216: a frame that SEND_V34 sends is what RECV_V34 receives, FCS or not; CRC_CHECKED is 0. -/
def Obligations.V34FrameRoundTrip : Prop :=
  ∀ (a : State) (body : List Byte),
    a.ctrl.v34 = true → TxBody a body → 3 ≤ body.length → body.length + 2 ≤ 1048 →
    ∃ (b : State) (sent : List OutToken), exec .sendV34 a = .next b ∧ b.outbound = a.outbound ++ sent
      ∧ ∀ (s : State) (rest : List InToken), s.ctrl.v34 = true → s.inbound = delivered sent ++ rest →
          ∃ (t u : State) (r : Result), exec .recvV34 s = .next t
            ∧ t = waiting (.recvV34 0 false) (receiveStarted 0x00000031 s) ∧ engineStep t = .next u
            ∧ EndsReceive r (framed a.ctrl.txFcsByte body)
                { t with
                  crc := crc16 0xFFFF (framed a.ctrl.txFcsByte body), rxstat := u.rxstat, inbound := rest } u
            ∧ u.rxstat.crcChecked = false ∧ (addrCtrlOk body → r = .ok ∧ u.rxstat.valid = true)

/-- R211, R212, R214, R216: how RECV_V34 ends. `<DLE><ETX>` and `<DLE><0x07>` end the frame with the result of its checks,
the second with BAD_FCS where every test passes; `<DLE><EOT>` gives PEER_EOT; a result gives TRUNCATED, CARRIER_LOST or
DCE_ERROR, or is discarded, also after a lone DLE. An indicator inside a frame is recorded and the frame goes on; a data
byte is stored, and one that finds RXBUF full sets the overflow flag. -/
def Obligations.RecvV34Ends : Prop :=
  ∀ (s : State) (frame : List Byte) (ovf : Bool) (rest : List InToken),
    s.pos = some (.recvV34 frame.length ovf) → frame.length ≤ 1048 → Holds s.rxbuf frame →
    (∀ x : Byte, (x = 0x03 ∨ x = 0x07) → s.inbound = .byte 0x10 :: .byte x :: rest →
      ∃ (u : State) (e : Bool) (r : Result), engineStep s = .next u ∧ e = (s.rxstat.dceFcsErr || x == 0x07)
        ∧ r = receivedResult 3 false ovf e frame
        ∧ EndsReceive r frame { s with
            inbound := rest, crc := crc16 0xFFFF frame
            rxstat := receivedStat 3 false frame r { s.rxstat with dceFcsErr := e } } u)
      ∧ (∀ (r : DceRes) (dle : Bool), s.inbound = afterDle dle ++ .res r :: rest →
        DataResult r (if frame = [] then .carrierLost else .truncated) frame { s with inbound := rest } s rest)
      ∧ (s.inbound = .byte 0x10 :: .byte 0x04 :: rest →
        ∃ u, engineStep s = .next u
          ∧ EndsReceive .peerEot frame { s with inbound := rest, chmode := { s.chmode with gotEot := true } } u)
      ∧ (∀ x : Byte, x ∉ [(0x10 : Byte), 0x1A, 0x03, 0x04, 0x07] → s.inbound = .byte 0x10 :: .byte x :: rest →
        engineStep s = engineStep { indicator x s with inbound := rest })
      ∧ ∀ v : Byte, (s.inbound = inDoubled v ++ rest ∨ v = 0x10 ∧ s.inbound = .byte 0x10 :: .byte 0x1A :: rest) →
        engineStep s = engineStep
          (if frame.length < 1048 then
             { s with inbound := rest, pos := some (.recvV34 (frame.length + 1) ovf)
                      rxbuf := s.rxbuf.write frame.length (dceOctet v) }
           else { s with inbound := rest, pos := some (.recvV34 frame.length true) })

/-- R211, R212, R213, R217: what an indicator does to CHMODE; WAIT_CHANNEL waits for a fresh indicator of the channel asked
for, whatever CHMODE shows, records every other indicator, ends on EOT and on NO_CARRIER, OK and ERROR, and discards every
other token and pair with CHMODE unchanged. A result after a lone DLE acts as one alone. -/
def Obligations.WaitChannelCompletes : Prop :=
  (∀ (x : Byte) (s : State),
    indicator x s = { s with chmode := { s.chmode with
      lastInd := x
      controlActive := if x = 0x6B then false else if x = 0x6D then true else s.chmode.controlActive
      retrain := if x = 0x6C then true else s.chmode.retrain
      crate := if x = 0x6E ∨ x = 0x6F then x else s.chmode.crate
      prate := if 0x70 ≤ x.toNat ∧ x.toNat ≤ 0x7D then x else s.chmode.prate } })
    ∧ ∀ (s : State) (ctrl : Bool), s.ctrl.v34 = true →
    ∃ t, exec (.waitChannel ctrl) s = .next t
      ∧ t = waiting .waitChannel (accepted (0x00000032 ||| if ctrl then 0x100 else 0) s)
      ∧ ∀ (c : ChMode) (rest : List InToken),
          engineStep { t with chmode := c, inbound := .byte 0x10 :: .byte (if ctrl then 0x6D else 0x6B) :: rest }
              = .next (finished .ok { t with
                  inbound := rest
                  chmode := { c with lastInd := if ctrl then 0x6D else 0x6B, controlActive := ctrl } })
          ∧ engineStep { t with chmode := c, inbound := .byte 0x10 :: .byte 0x04 :: rest }
              = .next (finished .peerEot { t with inbound := rest, chmode := { c with gotEot := true } })
          ∧ (∀ x : Byte, x ≠ 0x04 → x ≠ 0x10 → x ≠ 0x1A → x ≠ 0x03 → x ≠ 0x07 → x ≠ (if ctrl then 0x6D else 0x6B) →
              engineStep { t with chmode := c, inbound := .byte 0x10 :: .byte x :: rest }
                = engineStep { indicator x { t with chmode := c } with inbound := rest })
          ∧ (∀ x ∈ [(0x10 : Byte), 0x1A, 0x03, 0x07],
              engineStep { t with chmode := c, inbound := .byte 0x10 :: .byte x :: rest }
                = engineStep { t with chmode := c, inbound := rest })
          ∧ (∀ v : Byte, v ≠ 0x10 →
              engineStep { t with chmode := c, inbound := .byte v :: rest } = engineStep { t with chmode := c, inbound := rest })
          ∧ ∀ (dle : Bool) (r : DceRes),
              engineStep { t with chmode := c, inbound := afterDle dle ++ .res r :: rest } =
                match r with
                | .noCarrier => .next (finished .carrierLost { t with chmode := c, inbound := rest })
                | .ok | .error => .next (finished .dceError { t with chmode := c, inbound := rest })
                | .connect | .fcerror | .other => engineStep { t with chmode := c, inbound := rest }

/-- R244, R250: TX_CARRIER sends its command in the CMD write step, and each token ends it or is discarded. -/
def Obligations.TxCarrierRaises : Prop :=
  ∀ (s : State) (mod : Byte) (hdlc : Bool), s.link = .idle →
    ∃ t, exec (.txCarrier mod hdlc) s = .next t
      ∧ t = waiting .txCarrier
          { accepted (0x00000040 ||| (mod.zeroExtend 32 <<< 8) ||| if hdlc then 0x10000 else 0) s with
              outbound := s.outbound ++ [.cmd (if hdlc then .fth mod else .ftm mod)] }
      ∧ ∀ (x : InToken) (rest : List InToken),
          engineStep { t with inbound := x :: rest } =
            match x with
            | .res .connect => .next (finished .ok { t with
                inbound := rest, link := if hdlc then .txHdlc else .txData, tx := if hdlc then s.tx else txClear })
            | .res .error | .res .ok => .next (finished .dceError { t with inbound := rest })
            | .res .noCarrier => .next (finished .carrierLost { t with inbound := rest })
            | .res .fcerror | .res .other | .byte _ => engineStep { t with inbound := rest }

/-- R244, R251: RX_CARRIER re-arms at most REARM_MAX times; CONNECT, OK, ERROR and NO_CARRIER end it, and other lines and
data bytes are discarded. Said of k FCERRORs in a row from the start, and of one token however often it has re-armed. -/
def Obligations.RxCarrierRearms : Prop :=
  ∀ (s : State) (mod : Byte) (hdlc : Bool), s.link = .idle →
    ∃ (t : State) (c : OutToken), exec (.rxCarrier mod hdlc) s = .next t
      ∧ c = .cmd (if hdlc then .frh mod else .frm mod)
      ∧ t = waiting .rxCarrier
          { accepted (0x00000041 ||| (mod.zeroExtend 32 <<< 8) ||| if hdlc then 0x10000 else 0) s with
              outbound := s.outbound ++ [c], rearm := 0 }
      ∧ (∀ (k : Nat) (rest : List InToken), k ≤ s.seqcfg.rearmMax.toNat →
          (engineStep { t with inbound := List.replicate k (.res .fcerror) ++ .res .connect :: rest }
            = .next (finished .ok { t with
                inbound := rest, outbound := t.outbound ++ List.replicate k c, rearm := k
                link := if hdlc then .rxHdlc else .rxData, rx := if hdlc then s.rx else rxClear }))
          ∧ (∀ r, (r = DceRes.ok ∨ r = .error) →
              engineStep { t with inbound := List.replicate k (.res .fcerror) ++ .res r :: rest }
                = .next (finished .dceError { t with
                    inbound := rest, outbound := t.outbound ++ List.replicate k c, rearm := k }))
          ∧ engineStep { t with inbound := List.replicate k (.res .fcerror) ++ .res .noCarrier :: rest }
              = .next (finished .carrierLost { t with
                  inbound := rest, outbound := t.outbound ++ List.replicate k c, rearm := k })
          ∧ engineStep { t with inbound := List.replicate (s.seqcfg.rearmMax.toNat + 1) (.res .fcerror) ++ rest }
              = .next (finished .wrongCarrier { t with
                  inbound := rest, outbound := t.outbound ++ List.replicate s.seqcfg.rearmMax.toNat c
                  rearm := s.seqcfg.rearmMax.toNat }))
      ∧ ∀ (j : Nat) (sent : List OutToken) (x : InToken) (rest : List InToken),
          engineStep { t with rearm := j, outbound := sent, inbound := x :: rest } =
            match x with
            | .res .connect => .next (finished .ok { t with
                rearm := j, outbound := sent, inbound := rest
                link := if hdlc then .rxHdlc else .rxData, rx := if hdlc then s.rx else rxClear })
            | .res .fcerror =>
              if j < s.seqcfg.rearmMax.toNat then
                engineStep { t with rearm := j + 1, outbound := sent ++ [c], inbound := rest }
              else .next (finished .wrongCarrier { t with rearm := j, outbound := sent, inbound := rest })
            | .res .ok | .res .error => .next (finished .dceError { t with rearm := j, outbound := sent, inbound := rest })
            | .res .noCarrier => .next (finished .carrierLost { t with rearm := j, outbound := sent, inbound := rest })
            | .res .other | .byte _ => engineStep { t with rearm := j, outbound := sent, inbound := rest }

/-- R244, R252, R253: the two silence commands send their DCE command and end on the DCE's result. -/
def Obligations.SilenceCommandsWait : Prop :=
  ∀ (s : State) (n : Byte) (rx : Bool), s.link = .idle →
    ∃ t, exec (if rx then .rxSilence n else .txSilence n) s = .next t
      ∧ t = waiting (if rx then .rxSilence else .txSilence)
          { accepted ((if rx then 0x00000043 else 0x00000042) ||| (n.zeroExtend 32 <<< 8)) s with
              outbound := s.outbound ++ [.cmd (if rx then .frs n else .fts n)] }
      ∧ ∀ (x : InToken) (rest : List InToken),
          engineStep { t with inbound := x :: rest } =
            match x with
            | .res .ok => .next (finished .ok { t with inbound := rest })
            | .res .error | .res .connect | .res .noCarrier => .next (finished .dceError { t with inbound := rest })
            | .res .fcerror | .res .other | .byte _ => engineStep { t with inbound := rest }

/-- R254: RX_DROP_WAIT discards everything until NO_CARRIER, and re-arms at every OK. -/
def Obligations.RxDropWaitEndsOnNoCarrier : Prop :=
  ∀ (s : State), s.link = .idle →
    ∃ t, exec .rxDropWait s = .next t
      ∧ t = waiting .rxDropWait { accepted 0x00000044 s with outbound := s.outbound ++ [.cmd (.frh 3)] }
      ∧ ∀ (tokens rest : List InToken), (∀ x ∈ tokens, x ≠ .res .noCarrier) →
          engineStep { t with inbound := tokens ++ .res .noCarrier :: rest }
            = .next (finished .ok { t with
                inbound := rest
                outbound := t.outbound ++ List.replicate (tokens.count (.res .ok)) (.cmd (.frh 3)) })

/-- R244, R255: TX_END flushes the pending bits of a data stream, sends the end marker, and ends on the DCE's result. -/
def Obligations.TxEndDropsTheCarrier : Prop :=
  ∀ (s : State), (s.link = .txData ∨ s.link = .txHdlc) →
    ∃ t, exec .txEnd s = .next t
      ∧ t = waiting .txEnd { accepted 0x00000045 s with
              tx := if s.link = .txData then s.tx.flushPad.1 else s.tx
              outbound := s.outbound ++ (if s.link = .txData then s.tx.flushPad.2 else []) ++ endMarker }
      ∧ ∀ (x : InToken) (rest : List InToken),
          engineStep { t with inbound := x :: rest } =
            match x with
            | .res .ok => .next (finished .ok { t with inbound := rest, link := .idle })
            | .res .error => .next (finished .dceError { t with inbound := rest, link := .idle })
            | .res .noCarrier => .next (finished .carrierLost { t with inbound := rest, link := .idle })
            | .res .connect | .res .fcerror | .res .other | .byte _ => engineStep { t with inbound := rest }

/-- R256: DELAY waits until its milliseconds have passed since its start, across the wrap of TIME, and reads no
token. -/
def Obligations.DelayWaitsItsTime : Prop :=
  (∀ (s : State) (ms : Half),
    ∃ t, exec (.delay ms) s = .next t
      ∧ t = waiting .delay (accepted (0x00000046 ||| (ms.zeroExtend 32 <<< 16)) s)
      ∧ ∀ k : Word, engineStep { t with time := s.time + k }
          = .next (if ms.toNat ≤ k.toNat then finished .ok { t with time := s.time + k }
                   else { t with time := s.time + k }))
    ∧ ∀ w : Word, w.extractLsb' 0 8 = (0x46 : Byte) → w.extractLsb' 8 8 ≠ (0 : Byte) → decode w = .error .reservedBits

/-- R243, R257: ABORT sends the break character in every state; it then discards every token up to the first OK, resets
both bit engines and leaves the link IDLE. With no OK it sends Cmd(AT) after one ABORT_WAIT_MS; an OK in the second wait ends
it as in the first, and without one it completes with TIMEOUT and link UNKNOWN after a second ABORT_WAIT_MS, at once where
ABORT_WAIT_MS is 0. -/
def Obligations.AbortResynchronises : Prop :=
  ∀ s : State, ∃ t, exec .abort s = .next t
    ∧ t = waiting (.abortFirst s.time .abortCmd)
        { accepted 0x00000047 s with outbound := s.outbound ++ [.byte s.seqcfg.breakChar] }
    ∧ (∀ noise rest : List InToken, (∀ x ∈ noise, x ≠ .res .ok) → s.inbound = noise ++ .res .ok :: rest →
        engineStep t = .next (finished .ok { t with inbound := rest, link := .idle, rx := rxClear, tx := txClear }))
    ∧ ((∀ x ∈ s.inbound, x ≠ .res .ok) → s.seqcfg.abortWaitMs ≠ 0 →
        (∀ k : Word, k.toNat < s.seqcfg.abortWaitMs.toNat →
          engineStep { t with time := s.time + k } = .next { t with time := s.time + k, inbound := [] })
        ∧ ∃ u, engineStep { t with time := s.time + s.seqcfg.abortWaitMs.zeroExtend 32 } = .next u
          ∧ u = waiting (.abortSecond (s.time + s.seqcfg.abortWaitMs.zeroExtend 32) .abortCmd)
              { t with time := s.time + s.seqcfg.abortWaitMs.zeroExtend 32
                       inbound := [], outbound := t.outbound ++ [.cmd .attention] }
          ∧ (∀ noise rest : List InToken, (∀ x ∈ noise, x ≠ .res .ok) →
              engineStep { u with inbound := noise ++ .res .ok :: rest }
                = .next (finished .ok { u with inbound := rest, link := .idle, rx := rxClear, tx := txClear }))
          ∧ engineStep { u with time := u.time + s.seqcfg.abortWaitMs.zeroExtend 32 }
              = .next (finished .timeout { u with
                  time := u.time + s.seqcfg.abortWaitMs.zeroExtend 32
                  link := .unknown, rx := rxClear, tx := txClear }))
    ∧ ((∀ x ∈ s.inbound, x ≠ .res .ok) → s.seqcfg.abortWaitMs = 0 →
        engineStep t = .next (finished .timeout { t with
          inbound := [], outbound := t.outbound ++ [.cmd .attention], link := .unknown, rx := rxClear, tx := txClear }))

/-- R71, R241, R243, R304: a command whose deadline has passed with an empty FIFO starts abort_sequence, and runs it to its
end where ABORT_WAIT_MS is 0. The model's choice (assumption 9): the length a receive command's pseudocode writes to RXLEN
before abort_sequence is held in the command's position until the completion, as R71 asks of every register. -/
def Obligations.TimeoutStartsAbortSequence : Prop :=
  ∀ (s : State) (w : WaitPoint), s.pos = some w → commandWait w = true → s.inbound = [] →
    (waitMs w s).toNat ≤ (s.time - s.tStart).toNat →
    (s.seqcfg.abortWaitMs ≠ 0 →
      engineStep s = .next { s with
        outbound := s.outbound ++ [.byte s.seqcfg.breakChar], pos := some (.abortFirst s.time (afterTimeout w)) })
      ∧ (s.seqcfg.abortWaitMs = 0 →
        ∃ u, engineStep s = .next u
          ∧ AbortEnds (afterTimeout w) false
              { s with outbound := s.outbound ++ [.byte s.seqcfg.breakChar, .cmd .attention] } u)

/-- R71, R72, R243, R304: abort_sequence of a timed-out command, and of ABORT, in either of its waits. OK ends it; other tokens are
discarded, and once ABORT_WAIT_MS has passed the first wait gives way to the second, after Cmd(AT), and the second to the
end with link UNKNOWN. A timed-out command then completes with TIMEOUT; a receive command's RXLEN takes the length held since the
timeout (the model's choice, assumption 9). -/
def Obligations.TimeoutCompletes : Prop :=
  ∀ (s : State) (t0 : Word) (after : AfterAbort) (second : Bool),
    s.pos = some (if second then .abortSecond t0 after else .abortFirst t0 after) →
    (∀ noise rest : List InToken, (∀ x ∈ noise, x ≠ .res .ok) → s.inbound = noise ++ .res .ok :: rest →
        ∃ u, engineStep s = .next u ∧ AbortEnds after true { s with inbound := rest } u)
      ∧ ((∀ x ∈ s.inbound, x ≠ .res .ok) → (s.time - t0).toNat < s.seqcfg.abortWaitMs.toNat →
        engineStep s = .next { s with inbound := [] })
      ∧ ((∀ x ∈ s.inbound, x ≠ .res .ok) → s.seqcfg.abortWaitMs.toNat ≤ (s.time - t0).toNat →
        (second = true → ∃ u, engineStep s = .next u ∧ AbortEnds after false { s with inbound := [] } u)
          ∧ (second = false → s.seqcfg.abortWaitMs ≠ 0 →
            engineStep s = .next { s with
              inbound := [], outbound := s.outbound ++ [.cmd .attention], pos := some (.abortSecond s.time after) })
          ∧ (second = false → s.seqcfg.abortWaitMs = 0 →
            ∃ u, engineStep s = .next u
              ∧ AbortEnds after false { s with inbound := [], outbound := s.outbound ++ [.cmd .attention] } u))

/-! ## The machine as a whole -/

/-- The invariant holds after reset. -/
def Obligations.ResetSatisfiesTheInvariant : Prop := Inv State.reset

/-- Every step of every agent keeps the invariant, from every state that meets it. -/
def Obligations.StepKeepsTheInvariant : Prop := ∀ s t : State, Inv s → step s = .next t → Inv t

/-- An ENGINE step of a state that meets the invariant stops for no fault. -/
def Obligations.EngineStepsOn : Prop := ∀ s : State, Inv s → ∃ t, engineStep s = .next t

/-- R70, R241: an ENGINE step runs to a wait point that blocks or to completion, so a second one changes nothing; an ENGINE
that waits for a token with an empty FIFO before its deadline changes nothing; and tokens that come after an ENGINE step that
ran before the deadline, at whatever TIME, act as if they had stood behind the tokens it took. -/
def Obligations.EngineStepRunsUntilItBlocks : Prop :=
  (∀ s t : State, engineStep s = .next t → engineStep t = .next t)
    ∧ (∀ (s : State) (w : WaitPoint), s.pos = some w → commandWait w = true → s.inbound = [] →
      (s.time - s.tStart).toNat < (waitMs w s).toNat → engineStep s = .next s)
    ∧ ∀ (s t : State) (w : WaitPoint) (later : List InToken) (now : Word),
      s.pos = some w → beforeDeadline w s → engineStep s = .next t →
      engineStep { t with inbound := t.inbound ++ later, time := now }
        = engineStep { s with inbound := s.inbound ++ later, time := now }

/-- R70, R71: what no ENGINE step changes, that it takes tokens from the head of the FIFO and appends to the outbound
sequence, and that a step after which the command still runs changes no register but CHMODE, BITSTATE and RXBUF. -/
def Obligations.EngineStepFrame : Prop :=
  ∀ s t : State, engineStep s = .next t →
    t.ctrl = s.ctrl ∧ t.timeoutMs = s.timeoutMs ∧ t.txlen = s.txlen ∧ t.fs64 = s.fs64 ∧ t.seqcfg = s.seqcfg
      ∧ t.txcapMs = s.txcapMs ∧ t.time = s.time ∧ t.curCmd = s.curCmd ∧ t.tStart = s.tStart ∧ t.txbuf = s.txbuf
      ∧ t.status.lastCmd = s.status.lastCmd ∧ t.status.hazard = s.status.hazard ∧ t.readData = s.readData
      ∧ t.pending = s.pending ∧ (∃ k, t.inbound = s.inbound.drop k) ∧ (∃ ts, t.outbound = s.outbound ++ ts)
      ∧ (t.busy = true → ∀ k, k < 16 → k ∉ [12, 14] → readReg (4 * k) t = readReg (4 * k) s)

/-- R41, R80, R83, R242, R219: what no CMD write step of any command changes; TXBUF and TXLEN only FRAME_FCS writes; and an
immediate command is over when the step ends. -/
def Obligations.CommandStartFrame : Prop :=
  ∀ (i : Instr) (s t : State), exec i s = .next t →
    t.ctrl = s.ctrl ∧ t.timeoutMs = s.timeoutMs ∧ t.fs64 = s.fs64 ∧ t.seqcfg = s.seqcfg ∧ t.txcapMs = s.txcapMs
      ∧ t.chmode = s.chmode ∧ t.time = s.time ∧ t.link = s.link ∧ t.inbound = s.inbound
      ∧ t.readData = s.readData ∧ t.pending = s.pending ∧ t.status.hazard = s.status.hazard
      ∧ t.status.lastCmd = opField (encode i) ∧ t.curCmd = encode i ∧ t.tStart = s.time
      ∧ (i ≠ .frameFcs → t.txbuf = s.txbuf ∧ t.txlen = s.txlen) ∧ (∃ ts, t.outbound = s.outbound ++ ts)
      ∧ (isImmediate i = true → t.busy = false ∧ t.status.done = true)

/-- R219, R242: the link transitions of an ENGINE step, and that of the ENGINE only RECV_V34 and WAIT_CHANNEL change
CHMODE. -/
def Obligations.LinkAndChmodeOwners : Prop :=
  ∀ s t : State, engineStep s = .next t →
    (t.link = s.link ∨ t.link = .idle ∨ (t.link = .unknown ∧ t.status.result = .timeout)
      ∨ (s.pos = some .txCarrier ∧ (t.link = .txHdlc ∨ t.link = .txData))
      ∨ (s.pos = some .rxCarrier ∧ (t.link = .rxHdlc ∨ t.link = .rxData)))
      ∧ (t.chmode ≠ s.chmode → ∃ w, s.pos = some w ∧ writesChmode w = true)

/-- R305, R307: a command ends only by a completion, which sets DONE, or by a reset. -/
def Obligations.BusyFallsWithDone : Prop :=
  ∀ (a : Action) (s t : State), agentStep a s = .next t → s.busy = true → t.busy = false →
    t.status.done = true ∨ a = .hardReset
      ∨ ∃ v : Word, a = .host (.write .w32 0x0004 v) ∧ v.getLsbD 7 = true

/-- R33, R332, R350: TIME advances only by a TICK step, and only a hard reset clears it. R5, R42, R70: the step takes the
pending agent step; the DCE appends a token at the tail of the inbound FIFO or takes the head of the outbound sequence, TICK
adds one to TIME, and each changes nothing else; the other agents' steps are their own functions. -/
def Obligations.TimeAdvancesOnlyByTick : Prop :=
  (∀ (a : Action) (s t : State), agentStep a s = .next t →
    t.time = if a = .tick then s.time + 1 else if a = .hardReset then 0 else s.time)
    ∧ (∀ (s : State) (a : Action) (rest : List Action), s.pending = a :: rest →
      step s = agentStep a { s with pending := rest })
    ∧ ∀ s : State,
      (∀ x : InToken, agentStep (.deliver x) s = .next { s with inbound := s.inbound ++ [x] })
      ∧ (∀ (x : OutToken) (rest : List OutToken), s.outbound = x :: rest →
          agentStep .consume s = .next { s with outbound := rest })
      ∧ (s.outbound = [] → agentStep .consume s = .next s)
      ∧ agentStep .tick s = .next { s with time := s.time + 1 }
      ∧ agentStep .engine s = engineStep s ∧ agentStep .hardReset s = .next (hardReset s)
      ∧ ∀ (w : Width) (addr : BitVec 14) (v : Word),
          agentStep (.host (.read w addr)) s = hostRead w addr s
            ∧ agentStep (.host (.write w addr v)) s = hostWrite w addr v s

/-! ## The host window and the resets -/

/-- R62, R64: bus errors of the register region; the unmapped regions take every access that stays inside them; and a
host read changes nothing of the block, only the value the host gets and the model's count of free values. -/
def Obligations.HostAccessRules : Prop :=
  ∀ (w : Width) (addr : BitVec 14) (v : Word) (s : State),
    (addr.toNat < 0x40 → (w ≠ .w32 ∨ addr.toNat % 4 ≠ 0) →
        hostRead w addr s = .fault (.busError w addr) ∧ hostWrite w addr v s = .fault (.busError w addr))
      ∧ (insideUnmapped w addr →
        hostRead w addr s = .next { s with readData := 0 } ∧ hostWrite w addr v s = .next s)
      ∧ (addr.toNat < 0x40 → w = .w32 → addr.toNat % 4 = 0 →
        hostRead w addr s = .next { s with readData := readReg addr.toNat s })
      ∧ ∀ t, hostRead w addr s = .next t → t = { s with readData := t.readData, freeCount := t.freeCount }

/-- R65: register writes with no command running. An RW field stores the written bits and reads back with its reserved
bits 0, nothing else of the window changing; RO and reserved offsets ignore the write; W1C bits clear; CMD starts a
command. -/
def Obligations.RegisterWritesWhenIdle : Prop :=
  ∀ (s : State) (v : Word), s.pos = none →
    (∀ p ∈ [((0x0010 : BitVec 14), (0x0000FFFF : Word)), (0x0014, 0x0000FFFF), (0x0018, 0x000007FF),
            (0x001C, 0x000007FF), (0x0024, 0x00000001), (0x0028, 0xFFFFFF0F), (0x002C, 0x0000FFFF),
            (0x0004, if v.getLsbD 7 then 0 else 0x0000003F)],
        p.2 ≠ 0 →
        ∃ t, hostWrite .w32 p.1 v s = .next t ∧ readReg p.1.toNat t = v &&& p.2
          ∧ (∀ k, k < 16 → 4 * k ≠ p.1.toNat → readReg (4 * k) t = readReg (4 * k) s)
          ∧ t = { s with timeoutMs := t.timeoutMs, crc := t.crc, txlen := t.txlen, rxlen := t.rxlen, fs64 := t.fs64
                         seqcfg := t.seqcfg, txcapMs := t.txcapMs, ctrl := t.ctrl })
      ∧ (∀ a ∈ [(0x0000 : BitVec 14), 0x0020, 0x0034, 0x0038, 0x003C], hostWrite .w32 a v s = .next s)
      ∧ hostWrite .w32 0x0008 v s
          = .next { s with status := { s.status with
              done := s.status.done && !v.getLsbD 1, err := s.status.err && !v.getLsbD 2
              hazard := s.status.hazard && !v.getLsbD 3, ovr := s.status.ovr && !v.getLsbD 5 } }
      ∧ hostWrite .w32 0x0030 v s
          = .next { s with chmode := { s.chmode with
              gotEot := s.chmode.gotEot && !v.getLsbD 1, retrain := s.chmode.retrain && !v.getLsbD 2 } }
      ∧ hostWrite .w32 0x000C v s = startCommand v s

/-- R63: an aligned access inside TXBUF or RXBUF reads and stores its bytes little-endian; a misaligned one is a bus error;
an index at or above the buffer's size reads 0 and ignores the write. While a command runs, a store is dropped (R66) and an
RXBUF read is unspecified (R72), so those clauses are of an idle block. -/
def Obligations.BufferAccessesAreLittleEndian : Prop :=
  ∀ (s : State) (w : Width) (i : Nat) (v : Word),
    (i % w.bytes = 0 → i + w.bytes ≤ 1048 →
      (s.pos = none → ∃ t, hostWrite w (BitVec.ofNat 14 (0x2000 + i)) v s = .next t
        ∧ (∀ j, t.txbuf.read j = if i ≤ j ∧ j < i + w.bytes then some (v.extractLsb' (8 * (j - i)) 8)
                                 else s.txbuf.read j)
        ∧ t = { s with txbuf := t.txbuf })
      ∧ (s.pos = none → ∃ t, hostWrite w (BitVec.ofNat 14 (0x1000 + i)) v s = .next t
        ∧ (∀ j, t.rxbuf.read j = if i ≤ j ∧ j < i + w.bytes then some (v.extractLsb' (8 * (j - i)) 8)
                                 else s.rxbuf.read j)
        ∧ t = { s with rxbuf := t.rxbuf })
      ∧ ((∀ k, k < w.bytes → s.txbuf.read (i + k) = some (v.extractLsb' (8 * k) 8)) →
          hostRead w (BitVec.ofNat 14 (0x2000 + i)) s
            = .next { s with readData := BitVec.ofNat 32 (v.toNat % 2 ^ (8 * w.bytes)) })
      ∧ (s.pos = none → (∀ k, k < w.bytes → s.rxbuf.read (i + k) = some (v.extractLsb' (8 * k) 8)) →
          hostRead w (BitVec.ofNat 14 (0x1000 + i)) s
            = .next { s with readData := BitVec.ofNat 32 (v.toNat % 2 ^ (8 * w.bytes)) }))
    ∧ ∀ base, (base = 0x1000 ∨ base = 0x2000) → i < 0x1000 →
      (i % w.bytes ≠ 0 →
        hostRead w (BitVec.ofNat 14 (base + i)) s = .fault (.busError w (BitVec.ofNat 14 (base + i)))
          ∧ hostWrite w (BitVec.ofNat 14 (base + i)) v s = .fault (.busError w (BitVec.ofNat 14 (base + i))))
      ∧ (i % w.bytes = 0 → 1048 ≤ i →
        hostRead w (BitVec.ofNat 14 (base + i)) s = .next { s with readData := 0 }
          ∧ hostWrite w (BitVec.ofNat 14 (base + i)) v s = .next s)

/-- R66, R332: what a host write does while a command runs. That a CTRL write with SOFT_RESET leaves HAZARD 0, whatever option
bits it would change, is read from R332 (assumption 21). -/
def Obligations.HostWritesWhileBusy : Prop :=
  ∀ (s : State) (p : WaitPoint) (w : Width) (addr : BitVec 14) (v : Word) (t : State),
    s.pos = some p → hostWrite w addr v s = .next t →
    (addr.toNat ∈ [0x0C, 0x10, 0x14, 0x18, 0x1C, 0x24, 0x28, 0x2C]
          ∨ (0x1000 ≤ addr.toNat ∧ addr.toNat < 0x1000 + 1048) ∨ (0x2000 ≤ addr.toNat ∧ addr.toNat < 0x2000 + 1048) →
        t = { s with status := { s.status with hazard := true } })
      ∧ (addr = 0x0004 → v.getLsbD 7 = true → t = softReset s)
      ∧ (addr = 0x0004 → v.getLsbD 7 = false →
        t = { s with
          ctrl := { s.ctrl with ieDone := v.getLsbD 0, ieErr := v.getLsbD 1 }
          status := { s.status with
            hazard := s.status.hazard || v.getLsbD 2 != s.ctrl.rxCrcCheck || v.getLsbD 3 != s.ctrl.txFcsByte
                        || v.getLsbD 4 != s.ctrl.rcpFix || v.getLsbD 5 != s.ctrl.v34 } })
      ∧ (addr = 0x0008 →
        t = { s with status := { s.status with
                done := s.status.done && !v.getLsbD 1, err := s.status.err && !v.getLsbD 2
                hazard := s.status.hazard && !v.getLsbD 3, ovr := s.status.ovr && !v.getLsbD 5 } })
      ∧ (addr = 0x0030 →
        t = { s with chmode := { s.chmode with
                gotEot := s.chmode.gotEot && !v.getLsbD 1, retrain := s.chmode.retrain && !v.getLsbD 2 } })
      ∧ (addr.toNat ∈ [0x00, 0x20, 0x34, 0x38, 0x3C] ∨ insideUnmapped w addr
          ∨ (0x1000 + 1048 ≤ addr.toNat ∧ addr.toNat < 0x2000) ∨ (0x2000 + 1048 ≤ addr.toNat ∧ addr.toNat < 0x3000) →
        t = s)

/-- R331: after a hard reset, a host read of any byte of either buffer faults; a send command and FRAME_FCS fault at the first
TXBUF byte of the body that has never been written, and FRAME_CHECK at the first such RXBUF byte, also after a receive command. The model's choice (assumptions 3, 4 and 16) for R72:
an RXBUF byte that the host reads while a command runs, and one past the bytes a receive command left, is a free value, for
every value the free values take, and so is such a byte for FRAME_CHECK if it has been written. The model's choice
(assumption 8) too: an access that begins in an unmapped region and runs out of it reads 0 and writes nothing. -/
def Obligations.BufferBytesWithoutAValue : Prop :=
  (∀ (s : State) (i : Nat), i < 1048 →
      hostRead .w8 (BitVec.ofNat 14 (0x1000 + i)) (hardReset s) = .fault (.unwritten .rx i)
      ∧ hostRead .w8 (BitVec.ofNat 14 (0x2000 + i)) (hardReset s) = .fault (.unwritten .tx i))
    ∧ (∀ (s : State) (body : List Byte) (i : Instr), modeOk i s = true →
        (i = .frameFcs ∧ 3 ≤ s.txlen.toNat ∧ s.txlen.toNat ≤ 1046 ∨ i = .sendRaw ∧ s.txlen.toNat ≤ 1048
          ∨ (i = .sendHdlc ∨ i = .sendV34 ∨ ∃ f fl, i = .sendBits f fl) ∧ 3 ≤ s.txlen.toNat ∧ s.txlen.toNat ≤ 1048) →
        body.length < s.txlen.toNat → Holds s.txbuf body → s.txbuf.read body.length = none →
        exec i s = .fault (.unwritten .tx body.length))
    ∧ (∀ (s : State) (frame : List Byte) (chk : Bool), frame.length < s.rxlen.toNat → s.rxlen.toNat ≤ 1048 →
        Holds s.rxbuf frame → s.rxbuf.read frame.length = none →
        (s.rxMarks.getLsbD frame.length = false →
          exec (.frameCheck chk) s = .fault (.unwritten .rx frame.length))
        ∧ (s.rxMarks.getLsbD frame.length = true → s.rxlen.toNat = frame.length + 1 →
          ∃ u, exec (.frameCheck chk) { s with
                rxbuf := s.rxbuf.write frame.length (Config.freeByte s.freeCount) } = .next u
            ∧ exec (.frameCheck chk) s = .next { u with rxbuf := s.rxbuf, freeCount := s.freeCount + 1 }))
    ∧ (∀ (s : State) (i : Nat), i < 1048 →
      ((∃ p, s.pos = some p)
        ∨ (s.pos = none ∧ s.rxbuf.read i = none ∧ (s.rxFreeFrom ≤ i ∨ s.rxMarks.getLsbD i = true))) →
      hostRead .w8 (BitVec.ofNat 14 (0x1000 + i)) s
        = .next { s with readData := (Config.freeByte s.freeCount).zeroExtend 32, freeCount := s.freeCount + 1 })
    ∧ ∀ (s : State) (w : Width) (addr : BitVec 14) (v : Word),
      (addr.toNat < 0x1000 ∧ 0x1000 < addr.toNat + w.bytes) ∨ 0x4000 < addr.toNat + w.bytes →
      hostRead w addr s = .next { s with readData := 0 } ∧ hostWrite w addr v s = .next s

/-- R330, R333: a hard reset from any state. -/
def Obligations.HardResetValues : Prop :=
  ∀ s : State,
    (List.range 16).map (fun k => readReg (4 * k) (hardReset s))
        = [0x48460001, 0x0000001C, 0, 0, 0x00000BB8, 0x0000FFFF, 0, 0, 0, 0, 0x03E81803, 0x000009F6, 0, 0, 0, 0]
      ∧ (hardReset s).link = .unknown ∧ (hardReset s).busy = false ∧ (hardReset s).curCmd = 0
      ∧ (hardReset s).tStart = 0 ∧ (hardReset s).rearm = 0 ∧ (hardReset s).rx = rxClear ∧ (hardReset s).tx = txClear
      ∧ (hardReset s).heldDleUnk = false ∧ irq (hardReset s) = false
      ∧ (∀ i, (hardReset s).rxWritten i = false ∧ (hardReset s).txbuf.read i = none)
      ∧ (hardReset s).inbound = s.inbound ∧ (hardReset s).outbound = s.outbound

/-- R332: a CTRL write with bit 7 set performs a soft reset, whether or not a command runs. -/
def Obligations.SoftReset : Prop :=
  ∀ (s : State) (v : Word), v.getLsbD 7 = true →
    ∃ t, hostWrite .w32 0x0004 v s = .next t
      ∧ (List.range 16).map (fun k => readReg (4 * k) t)
          = [0x48460001, 0x0000001C, 0, 0, 0x00000BB8, 0x0000FFFF, 0, 0, 0, 0, 0x03E81803, 0x000009F6, 0, s.time, 0, 0]
      ∧ t.link = .unknown ∧ t.busy = false ∧ t.curCmd = 0 ∧ t.tStart = 0 ∧ t.rearm = 0 ∧ t.rx = rxClear
      ∧ t.tx = txClear ∧ t.heldDleUnk = false ∧ irq t = false ∧ t.rxbuf = s.rxbuf ∧ t.rxMarks = s.rxMarks
      ∧ t.txbuf = s.txbuf ∧ t.rxFreeFrom = s.rxFreeFrom ∧ t.inbound = s.inbound ∧ t.outbound = s.outbound

/-- R21 to R37, R43, R310: the bits of every register as the host reads it (CMD and the reserved offset read 0), the result
and link codes, and the interrupt line, which is 0 after reset. -/
def Obligations.StatusViewsAndIrq : Prop :=
  (∀ s : State, ∀ k, k < 32 →
    ((readReg 0x04 s).getLsbD k = ([s.ctrl.ieDone, s.ctrl.ieErr, s.ctrl.rxCrcCheck, s.ctrl.txFcsByte, s.ctrl.rcpFix,
        s.ctrl.v34] : List Bool).getD k false)
      ∧ ((readReg 0x08 s).getLsbD k
        = if k < 8 then ([s.busy, s.status.done, s.status.err, s.status.hazard,
              decide (s.link = .txHdlc ∨ s.link = .rxHdlc ∨ s.link = .txData ∨ s.link = .rxData),
              s.status.ovr] : List Bool).getD k false
          else if k < 16 then s.status.result.code.getLsbD (k - 8)
          else if k < 24 then s.status.lastCmd.getLsbD (k - 16) else s.link.code.getLsbD (k - 24))
      ∧ ((readReg 0x10 s).getLsbD k = s.timeoutMs.getLsbD k) ∧ ((readReg 0x14 s).getLsbD k = s.crc.getLsbD k)
      ∧ ((readReg 0x18 s).getLsbD k = s.txlen.getLsbD k) ∧ ((readReg 0x1C s).getLsbD k = s.rxlen.getLsbD k)
      ∧ ((readReg 0x20 s).getLsbD k
        = if k < 8 then ([s.rxstat.valid, s.rxstat.lenOk, s.rxstat.addrOk, s.rxstat.ctrlOk, s.rxstat.crcOk,
              s.rxstat.crcChecked, s.rxstat.final, s.rxstat.rcpSubst] : List Bool).getD k false
          else if k < 16 then s.rxstat.fcf.getLsbD (k - 8)
          else ([s.rxstat.dleUnk, s.rxstat.alignErr, s.rxstat.dceFcsErr] : List Bool).getD (k - 16) false)
      ∧ ((readReg 0x24 s).getLsbD k = (decide (k = 0) && s.fs64))
      ∧ ((readReg 0x28 s).getLsbD k
        = if k < 8 then s.seqcfg.rearmMax.getLsbD k else if k < 16 then s.seqcfg.breakChar.getLsbD (k - 8)
          else s.seqcfg.abortWaitMs.getLsbD (k - 16))
      ∧ ((readReg 0x2C s).getLsbD k = s.txcapMs.getLsbD k)
      ∧ ((readReg 0x30 s).getLsbD k
        = if k < 8 then ([s.chmode.controlActive, s.chmode.gotEot, s.chmode.retrain] : List Bool).getD k false
          else if k < 16 then s.chmode.prate.getLsbD (k - 8)
          else if k < 24 then s.chmode.crate.getLsbD (k - 16) else s.chmode.lastInd.getLsbD (k - 24))
      ∧ ((readReg 0x34 s).getLsbD k = s.time.getLsbD k)
      ∧ ((readReg 0x38 s).getLsbD k
        = if k < 3 then s.rx.ones.testBit k else if k = 3 then decide (s.rx.sync = .sync)
          else if k < 7 then s.tx.ones.testBit (k - 4) else if k = 7 then false
          else if k < 11 then s.tx.nbits.testBit (k - 8) else if k = 11 then false
          else if k < 15 then s.rx.backlog.length.testBit (k - 12) else if k = 15 then false
          else (min s.rx.pend.length 0xFFFF).testBit (k - 16)))
    ∧ (∀ s : State, readReg 0x00 s = 0x48460001 ∧ readReg 0x0C s = 0 ∧ readReg 0x3C s = 0)
    ∧ (∀ s : State, irq s = (s.status.done && s.ctrl.ieDone || s.status.err && s.ctrl.ieErr))
    ∧ [Result.ok, .timeout, .badFcs, .badAddr, .badCtrl, .tooShort, .truncated, .carrierLost, .oversize, .aborted,
        .badAlign, .peerEot, .dceError, .wrongCarrier, .modeError, .illegalCmd].map Result.code
        = [0, 1, 2, 3, 4, 5, 6, 7, 8, 9, 10, 11, 12, 13, 14, 15]
    ∧ [Link.unknown, .idle, .txHdlc, .rxHdlc, .txData, .rxData].map Link.code = [0, 1, 2, 3, 4, 5]
    ∧ irq State.reset = false

/-- R305, R306: completion, after which no ENGINE step changes anything, and its acknowledgement by `wr STATUS, 0x2E`. -/
def Obligations.CompletionAndAcknowledgement : Prop :=
  (∀ (r : Result) (s : State), complete r s = finished r s ∧ engineStep (finished r s) = .next (finished r s))
    ∧ ∀ s : State, hostWrite .w32 0x0008 0x0000002E s
        = .next { s with status := { s.status with done := false, err := false, hazard := false, ovr := false } }
end

