-- ==== Sys2Proof/Laws/Memory.lean ====
section
/-! SUPPORT. The laws of the buffers: what a read gives after each memory operation, and that every memory operation
keeps the canonical form. -/

namespace Sys2Proof.Machine

/-! ## Reads after writes -/

@[simp] theorem Memory.read_nil (i : Nat) : Memory.read [] i = none := rfl

theorem Memory.read_cons (c : Host.Cell) (m : Memory) (i : Nat) :
    Memory.read (c :: m) i = if c.1 = i then some c.2 else m.read i := rfl

theorem Memory.read_write (m : Memory) (i : Nat) (v : Byte) (j : Nat) :
    (m.write i v).read j = if j = i then some v else m.read j := by
  induction m with
  | nil => simp only [Memory.write, Memory.read, eq_comm]
  | cons c m ih =>
    obtain ⟨a, b⟩ := c
    simp only [Memory.write]
    split
    · simp only [Memory.read_cons, eq_comm]
    · split
      · rename_i h; subst h
        by_cases h : i = j
        · subst h; simp [Memory.read_cons]
        · simp [Memory.read_cons, h, Ne.symm h]
      · rename_i h1 h2
        simp only [Memory.read_cons, ih]
        by_cases h : a = j
        · subst h; simp [Ne.symm h2]
        · simp [h]

@[simp] theorem Memory.read_write_same (m : Memory) (i : Nat) (v : Byte) : (m.write i v).read i = some v := by
  simp [Memory.read_write]

theorem Memory.read_write_other {m : Memory} {i j : Nat} {v : Byte} (h : j ≠ i) : (m.write i v).read j = m.read j := by
  simp [Memory.read_write, h]

theorem Memory.read_dropFrom (m : Memory) (k i : Nat) :
    (m.dropFrom k).read i = if i < k then m.read i else none := by
  induction m with
  | nil => simp [Memory.dropFrom]
  | cons c m ih =>
    simp only [Memory.dropFrom] at ih ⊢
    rw [List.filter_cons]
    split
    · rename_i h; simp only [Memory.read_cons, ih]
      by_cases hc : c.1 = i
      · subst hc; simp_all
      · simp [hc]
    · rename_i h; simp only [Memory.read_cons, ih]
      by_cases hc : c.1 = i
      · subst hc; rw [if_neg (by simpa using h), if_neg (by simpa using h)]
      · simp [hc]

theorem Memory.read_writeAll (bytes : List Byte) : ∀ (m : Memory) (i j : Nat),
    (m.writeAll i bytes).read j
      = if i ≤ j ∧ j < i + bytes.length then bytes[j - i]? else m.read j := by
  induction bytes with
  | nil =>
    intro m i j
    have : ¬(i ≤ j ∧ j < i) := by omega
    simp [Memory.writeAll, this]
  | cons b rest ih =>
    intro m i j
    simp only [Memory.writeAll, ih, Memory.read_write, List.length_cons]
    rcases Nat.lt_trichotomy j i with h | h | h
    · rw [if_neg (by omega), if_neg (by omega), if_neg (by omega)]
    · subst h; rw [if_neg (by omega), if_pos rfl, if_pos (by omega)]; simp
    · by_cases h2 : j < i + (rest.length + 1)
      · rw [if_pos (by omega), if_pos (by omega), show j - i = (j - (i + 1)) + 1 by omega]; simp
      · rw [if_neg (by omega), if_neg (by omega), if_neg (by omega)]

/-! ## The canonical form -/

theorem Memory.wfBelow_iff (size : Nat) (m : Memory) :
    m.wfBelow size = true ↔ m.Pairwise (fun c d => c.1 < d.1) ∧ ∀ c ∈ m, c.1 < size := by
  simp [Memory.wfBelow, List.all_eq_true]

/-- Every index of a memory after a write is the one written or was there before. -/
theorem Memory.mem_write {m : Memory} {i : Nat} {v : Byte} {c : Host.Cell} (h : c ∈ m.write i v) :
    c = (i, v) ∨ c ∈ m := by
  induction m with
  | nil => simpa [Memory.write] using h
  | cons d m ih =>
    obtain ⟨a, b⟩ := d
    simp only [Memory.write] at h
    split at h
    · simpa using h
    · split at h
      · rcases List.mem_cons.mp h with h | h
        · exact .inl h
        · exact .inr (List.mem_cons_of_mem _ h)
      · rcases List.mem_cons.mp h with h | h
        · exact .inr (h ▸ List.mem_cons_self)
        · rcases ih h with h | h
          · exact .inl h
          · exact .inr (List.mem_cons_of_mem _ h)

theorem Memory.write_wfBelow {size : Nat} {m : Memory} {i : Nat} (v : Byte) (h : m.wfBelow size = true) (hi : i < size) :
    (m.write i v).wfBelow size = true := by
  rw [Memory.wfBelow_iff] at h ⊢
  refine ⟨?_, fun c hc => ?_⟩
  · obtain ⟨hp, -⟩ := h
    induction m with
    | nil => simp [Memory.write]
    | cons d m ih =>
      obtain ⟨a, b⟩ := d
      rw [List.pairwise_cons] at hp
      simp only [Memory.write]
      split
      · rename_i hlt
        refine List.pairwise_cons.mpr ⟨fun c hc => ?_, List.pairwise_cons.mpr hp⟩
        rcases List.mem_cons.mp hc with rfl | hc
        · exact hlt
        · exact Nat.lt_trans hlt (hp.1 c hc)
      · split
        · rename_i _ he; subst he; exact List.pairwise_cons.mpr hp
        · rename_i h1 h2
          refine List.pairwise_cons.mpr ⟨fun c hc => ?_, ih hp.2⟩
          rcases Memory.mem_write hc with rfl | hc
          · show a < i; omega
          · exact hp.1 c hc
  · rcases Memory.mem_write hc with rfl | hc
    · exact hi
    · exact h.2 c hc

theorem Memory.dropFrom_wfBelow {size : Nat} {m : Memory} (k : Nat) (h : m.wfBelow size = true) :
    (m.dropFrom k).wfBelow size = true := by
  rw [Memory.wfBelow_iff] at h ⊢
  exact ⟨h.1.filter _, fun c hc => h.2 c (List.mem_of_mem_filter hc)⟩

theorem Memory.writeAll_wfBelow {size : Nat} (bytes : List Byte) : ∀ {m : Memory} {i : Nat},
    m.wfBelow size = true → i + bytes.length ≤ size → (m.writeAll i bytes).wfBelow size = true := by
  induction bytes with
  | nil => intro m i h _; exact h
  | cons b rest ih =>
    intro m i h hi
    rw [List.length_cons] at hi
    exact ih (Memory.write_wfBelow b h (by omega)) (by omega)

theorem Memory.dropFrom_wf {m : Memory} (k : Nat) (h : m.wf = true) : (m.dropFrom k).wf = true :=
  Memory.dropFrom_wfBelow k h

/-- The marks of a memory are the indices it lists. -/
theorem Memory.marks_getLsbD (m : Memory) {i : Nat} (hi : i < 1048) : m.marks.getLsbD i = (m.read i).isSome := by
  induction m with
  | nil => simp [Memory.marks]
  | cons c m ih =>
    have hc : Memory.marks (c :: m) = BitVec.twoPow 1048 c.1 ||| Memory.marks m := rfl
    rw [hc, BitVec.getLsbD_or, ih, BitVec.getLsbD_twoPow, Memory.read_cons]
    by_cases h : c.1 = i <;> simp [h, hi]

/-! ## The stores of a buffer -/

theorem storeRx_read (i : Nat) (b : Byte) (s : State) (j : Nat) :
    (storeRx i b s).rxbuf.read j = if j = i ∧ i < Config.rxbufSize then some b else s.rxbuf.read j := by
  unfold storeRx
  split
  · rename_i h; simp [Memory.read_write, h]
  · rename_i h; simp [h]

theorem storeTx_read (i : Nat) (b : Byte) (s : State) (j : Nat) :
    (storeTx i b s).txbuf.read j = if j = i ∧ i < Config.txbufSize then some b else s.txbuf.read j := by
  unfold storeTx
  split
  · rename_i h; simp [Memory.read_write, h]
  · rename_i h; simp [h]

/-- A store to RXBUF changes RXBUF and nothing else. -/
theorem storeRx_frame (i : Nat) (b : Byte) (s : State) : storeRx i b s = { s with rxbuf := (storeRx i b s).rxbuf } := by
  unfold storeRx; split <;> rfl

/-- A store to TXBUF changes TXBUF and nothing else. -/
theorem storeTx_frame (i : Nat) (b : Byte) (s : State) : storeTx i b s = { s with txbuf := (storeTx i b s).txbuf } := by
  unfold storeTx; split <;> rfl

/-- Inside the buffer, storing a byte list is one `writeAll`. -/
theorem storeRxAll_eq (bytes : List Byte) : ∀ (i : Nat) (s : State), i + bytes.length ≤ Config.rxbufSize →
    storeRxAll i bytes s = { s with rxbuf := s.rxbuf.writeAll i bytes } := by
  induction bytes with
  | nil => intro i s _; rfl
  | cons b rest ih =>
    intro i s h
    rw [List.length_cons] at h
    rw [storeRxAll, ih _ _ (by omega), storeRx, if_pos (by omega)]
    rfl

theorem storeRx_wf {s : State} (i : Nat) (b : Byte) (h : s.rxbuf.wf = true) : (storeRx i b s).rxbuf.wf = true := by
  unfold storeRx
  split
  · rename_i hi; exact Memory.write_wfBelow b h hi
  · exact h

theorem storeTx_wf {s : State} (i : Nat) (b : Byte) (h : s.txbuf.wf = true) : (storeTx i b s).txbuf.wf = true := by
  unfold storeTx
  split
  · rename_i hi; exact Memory.write_wfBelow b h hi
  · exact h

theorem storeRxAll_wf (bytes : List Byte) : ∀ (i : Nat) {s : State}, s.rxbuf.wf = true →
    (storeRxAll i bytes s).rxbuf.wf = true := by
  induction bytes with
  | nil => intro i s h; exact h
  | cons b rest ih => intro i s h; exact ih _ (storeRx_wf i b h)

/-- Memory after reset lists nothing. -/
theorem reset_memory_wf : State.reset.rxbuf.wf = true ∧ State.reset.txbuf.wf = true := by decide

end Sys2Proof.Machine
end

