-- ==== Sys2Proof/Laws/State.lean ====
section
/-! SUPPORT. One lemma per field per named update of State: what the update leaves in that field. -/

namespace Sys2Proof.Machine

/-! ## `send` -/

@[simp] theorem send_ctrl (ts : List OutToken) (s : State) : (send ts s).ctrl = s.ctrl := rfl
@[simp] theorem send_status (ts : List OutToken) (s : State) : (send ts s).status = s.status := rfl
@[simp] theorem send_timeoutMs (ts : List OutToken) (s : State) : (send ts s).timeoutMs = s.timeoutMs := rfl
@[simp] theorem send_crc (ts : List OutToken) (s : State) : (send ts s).crc = s.crc := rfl
@[simp] theorem send_txlen (ts : List OutToken) (s : State) : (send ts s).txlen = s.txlen := rfl
@[simp] theorem send_rxlen (ts : List OutToken) (s : State) : (send ts s).rxlen = s.rxlen := rfl
@[simp] theorem send_rxstat (ts : List OutToken) (s : State) : (send ts s).rxstat = s.rxstat := rfl
@[simp] theorem send_fs64 (ts : List OutToken) (s : State) : (send ts s).fs64 = s.fs64 := rfl
@[simp] theorem send_seqcfg (ts : List OutToken) (s : State) : (send ts s).seqcfg = s.seqcfg := rfl
@[simp] theorem send_txcapMs (ts : List OutToken) (s : State) : (send ts s).txcapMs = s.txcapMs := rfl
@[simp] theorem send_chmode (ts : List OutToken) (s : State) : (send ts s).chmode = s.chmode := rfl
@[simp] theorem send_time (ts : List OutToken) (s : State) : (send ts s).time = s.time := rfl
@[simp] theorem send_link (ts : List OutToken) (s : State) : (send ts s).link = s.link := rfl
@[simp] theorem send_rx (ts : List OutToken) (s : State) : (send ts s).rx = s.rx := rfl
@[simp] theorem send_tx (ts : List OutToken) (s : State) : (send ts s).tx = s.tx := rfl
@[simp] theorem send_curCmd (ts : List OutToken) (s : State) : (send ts s).curCmd = s.curCmd := rfl
@[simp] theorem send_tStart (ts : List OutToken) (s : State) : (send ts s).tStart = s.tStart := rfl
@[simp] theorem send_rearm (ts : List OutToken) (s : State) : (send ts s).rearm = s.rearm := rfl
@[simp] theorem send_pos (ts : List OutToken) (s : State) : (send ts s).pos = s.pos := rfl
@[simp] theorem send_rxbuf (ts : List OutToken) (s : State) : (send ts s).rxbuf = s.rxbuf := rfl
@[simp] theorem send_txbuf (ts : List OutToken) (s : State) : (send ts s).txbuf = s.txbuf := rfl
@[simp] theorem send_inbound (ts : List OutToken) (s : State) : (send ts s).inbound = s.inbound := rfl
@[simp] theorem send_outbound (ts : List OutToken) (s : State) : (send ts s).outbound = s.outbound ++ ts := rfl
@[simp] theorem send_rxFreeFrom (ts : List OutToken) (s : State) : (send ts s).rxFreeFrom = s.rxFreeFrom := rfl
@[simp] theorem send_rxMarks (ts : List OutToken) (s : State) : (send ts s).rxMarks = s.rxMarks := rfl
@[simp] theorem send_heldDleUnk (ts : List OutToken) (s : State) : (send ts s).heldDleUnk = s.heldDleUnk := rfl
@[simp] theorem send_freeCount (ts : List OutToken) (s : State) : (send ts s).freeCount = s.freeCount := rfl
@[simp] theorem send_readData (ts : List OutToken) (s : State) : (send ts s).readData = s.readData := rfl
@[simp] theorem send_pending (ts : List OutToken) (s : State) : (send ts s).pending = s.pending := rfl

/-! ## `goto` -/

@[simp] theorem goto_ctrl (w : WaitPoint) (s : State) : (goto w s).ctrl = s.ctrl := rfl
@[simp] theorem goto_status (w : WaitPoint) (s : State) : (goto w s).status = s.status := rfl
@[simp] theorem goto_timeoutMs (w : WaitPoint) (s : State) : (goto w s).timeoutMs = s.timeoutMs := rfl
@[simp] theorem goto_crc (w : WaitPoint) (s : State) : (goto w s).crc = s.crc := rfl
@[simp] theorem goto_txlen (w : WaitPoint) (s : State) : (goto w s).txlen = s.txlen := rfl
@[simp] theorem goto_rxlen (w : WaitPoint) (s : State) : (goto w s).rxlen = s.rxlen := rfl
@[simp] theorem goto_rxstat (w : WaitPoint) (s : State) : (goto w s).rxstat = s.rxstat := rfl
@[simp] theorem goto_fs64 (w : WaitPoint) (s : State) : (goto w s).fs64 = s.fs64 := rfl
@[simp] theorem goto_seqcfg (w : WaitPoint) (s : State) : (goto w s).seqcfg = s.seqcfg := rfl
@[simp] theorem goto_txcapMs (w : WaitPoint) (s : State) : (goto w s).txcapMs = s.txcapMs := rfl
@[simp] theorem goto_chmode (w : WaitPoint) (s : State) : (goto w s).chmode = s.chmode := rfl
@[simp] theorem goto_time (w : WaitPoint) (s : State) : (goto w s).time = s.time := rfl
@[simp] theorem goto_link (w : WaitPoint) (s : State) : (goto w s).link = s.link := rfl
@[simp] theorem goto_rx (w : WaitPoint) (s : State) : (goto w s).rx = s.rx := rfl
@[simp] theorem goto_tx (w : WaitPoint) (s : State) : (goto w s).tx = s.tx := rfl
@[simp] theorem goto_curCmd (w : WaitPoint) (s : State) : (goto w s).curCmd = s.curCmd := rfl
@[simp] theorem goto_tStart (w : WaitPoint) (s : State) : (goto w s).tStart = s.tStart := rfl
@[simp] theorem goto_rearm (w : WaitPoint) (s : State) : (goto w s).rearm = s.rearm := rfl
@[simp] theorem goto_pos (w : WaitPoint) (s : State) : (goto w s).pos = some w := rfl
@[simp] theorem goto_rxbuf (w : WaitPoint) (s : State) : (goto w s).rxbuf = s.rxbuf := rfl
@[simp] theorem goto_txbuf (w : WaitPoint) (s : State) : (goto w s).txbuf = s.txbuf := rfl
@[simp] theorem goto_inbound (w : WaitPoint) (s : State) : (goto w s).inbound = s.inbound := rfl
@[simp] theorem goto_outbound (w : WaitPoint) (s : State) : (goto w s).outbound = s.outbound := rfl
@[simp] theorem goto_rxFreeFrom (w : WaitPoint) (s : State) : (goto w s).rxFreeFrom = s.rxFreeFrom := rfl
@[simp] theorem goto_rxMarks (w : WaitPoint) (s : State) : (goto w s).rxMarks = s.rxMarks := rfl
@[simp] theorem goto_heldDleUnk (w : WaitPoint) (s : State) : (goto w s).heldDleUnk = s.heldDleUnk := rfl
@[simp] theorem goto_freeCount (w : WaitPoint) (s : State) : (goto w s).freeCount = s.freeCount := rfl
@[simp] theorem goto_readData (w : WaitPoint) (s : State) : (goto w s).readData = s.readData := rfl
@[simp] theorem goto_pending (w : WaitPoint) (s : State) : (goto w s).pending = s.pending := rfl

/-! ## `rxReset` -/

@[simp] theorem rxReset_ctrl (s : State) : (rxReset s).ctrl = s.ctrl := rfl
@[simp] theorem rxReset_status (s : State) : (rxReset s).status = s.status := rfl
@[simp] theorem rxReset_timeoutMs (s : State) : (rxReset s).timeoutMs = s.timeoutMs := rfl
@[simp] theorem rxReset_crc (s : State) : (rxReset s).crc = s.crc := rfl
@[simp] theorem rxReset_txlen (s : State) : (rxReset s).txlen = s.txlen := rfl
@[simp] theorem rxReset_rxlen (s : State) : (rxReset s).rxlen = s.rxlen := rfl
@[simp] theorem rxReset_rxstat (s : State) : (rxReset s).rxstat = s.rxstat := rfl
@[simp] theorem rxReset_fs64 (s : State) : (rxReset s).fs64 = s.fs64 := rfl
@[simp] theorem rxReset_seqcfg (s : State) : (rxReset s).seqcfg = s.seqcfg := rfl
@[simp] theorem rxReset_txcapMs (s : State) : (rxReset s).txcapMs = s.txcapMs := rfl
@[simp] theorem rxReset_chmode (s : State) : (rxReset s).chmode = s.chmode := rfl
@[simp] theorem rxReset_time (s : State) : (rxReset s).time = s.time := rfl
@[simp] theorem rxReset_link (s : State) : (rxReset s).link = s.link := rfl
@[simp] theorem rxReset_rx (s : State) : (rxReset s).rx = RxEngine.init := rfl
@[simp] theorem rxReset_tx (s : State) : (rxReset s).tx = s.tx := rfl
@[simp] theorem rxReset_curCmd (s : State) : (rxReset s).curCmd = s.curCmd := rfl
@[simp] theorem rxReset_tStart (s : State) : (rxReset s).tStart = s.tStart := rfl
@[simp] theorem rxReset_rearm (s : State) : (rxReset s).rearm = s.rearm := rfl
@[simp] theorem rxReset_pos (s : State) : (rxReset s).pos = s.pos := rfl
@[simp] theorem rxReset_rxbuf (s : State) : (rxReset s).rxbuf = s.rxbuf := rfl
@[simp] theorem rxReset_txbuf (s : State) : (rxReset s).txbuf = s.txbuf := rfl
@[simp] theorem rxReset_inbound (s : State) : (rxReset s).inbound = s.inbound := rfl
@[simp] theorem rxReset_outbound (s : State) : (rxReset s).outbound = s.outbound := rfl
@[simp] theorem rxReset_rxFreeFrom (s : State) : (rxReset s).rxFreeFrom = s.rxFreeFrom := rfl
@[simp] theorem rxReset_rxMarks (s : State) : (rxReset s).rxMarks = s.rxMarks := rfl
@[simp] theorem rxReset_heldDleUnk (s : State) : (rxReset s).heldDleUnk = s.heldDleUnk := rfl
@[simp] theorem rxReset_freeCount (s : State) : (rxReset s).freeCount = s.freeCount := rfl
@[simp] theorem rxReset_readData (s : State) : (rxReset s).readData = s.readData := rfl
@[simp] theorem rxReset_pending (s : State) : (rxReset s).pending = s.pending := rfl

/-! ## `txReset` -/

@[simp] theorem txReset_ctrl (s : State) : (txReset s).ctrl = s.ctrl := rfl
@[simp] theorem txReset_status (s : State) : (txReset s).status = s.status := rfl
@[simp] theorem txReset_timeoutMs (s : State) : (txReset s).timeoutMs = s.timeoutMs := rfl
@[simp] theorem txReset_crc (s : State) : (txReset s).crc = s.crc := rfl
@[simp] theorem txReset_txlen (s : State) : (txReset s).txlen = s.txlen := rfl
@[simp] theorem txReset_rxlen (s : State) : (txReset s).rxlen = s.rxlen := rfl
@[simp] theorem txReset_rxstat (s : State) : (txReset s).rxstat = s.rxstat := rfl
@[simp] theorem txReset_fs64 (s : State) : (txReset s).fs64 = s.fs64 := rfl
@[simp] theorem txReset_seqcfg (s : State) : (txReset s).seqcfg = s.seqcfg := rfl
@[simp] theorem txReset_txcapMs (s : State) : (txReset s).txcapMs = s.txcapMs := rfl
@[simp] theorem txReset_chmode (s : State) : (txReset s).chmode = s.chmode := rfl
@[simp] theorem txReset_time (s : State) : (txReset s).time = s.time := rfl
@[simp] theorem txReset_link (s : State) : (txReset s).link = s.link := rfl
@[simp] theorem txReset_rx (s : State) : (txReset s).rx = s.rx := rfl
@[simp] theorem txReset_tx (s : State) : (txReset s).tx = TxEngine.init := rfl
@[simp] theorem txReset_curCmd (s : State) : (txReset s).curCmd = s.curCmd := rfl
@[simp] theorem txReset_tStart (s : State) : (txReset s).tStart = s.tStart := rfl
@[simp] theorem txReset_rearm (s : State) : (txReset s).rearm = s.rearm := rfl
@[simp] theorem txReset_pos (s : State) : (txReset s).pos = s.pos := rfl
@[simp] theorem txReset_rxbuf (s : State) : (txReset s).rxbuf = s.rxbuf := rfl
@[simp] theorem txReset_txbuf (s : State) : (txReset s).txbuf = s.txbuf := rfl
@[simp] theorem txReset_inbound (s : State) : (txReset s).inbound = s.inbound := rfl
@[simp] theorem txReset_outbound (s : State) : (txReset s).outbound = s.outbound := rfl
@[simp] theorem txReset_rxFreeFrom (s : State) : (txReset s).rxFreeFrom = s.rxFreeFrom := rfl
@[simp] theorem txReset_rxMarks (s : State) : (txReset s).rxMarks = s.rxMarks := rfl
@[simp] theorem txReset_heldDleUnk (s : State) : (txReset s).heldDleUnk = s.heldDleUnk := rfl
@[simp] theorem txReset_freeCount (s : State) : (txReset s).freeCount = s.freeCount := rfl
@[simp] theorem txReset_readData (s : State) : (txReset s).readData = s.readData := rfl
@[simp] theorem txReset_pending (s : State) : (txReset s).pending = s.pending := rfl

/-! ## `setLink` -/

@[simp] theorem setLink_ctrl (l : Link) (s : State) : (setLink l s).ctrl = s.ctrl := rfl
@[simp] theorem setLink_status (l : Link) (s : State) : (setLink l s).status = s.status := rfl
@[simp] theorem setLink_timeoutMs (l : Link) (s : State) : (setLink l s).timeoutMs = s.timeoutMs := rfl
@[simp] theorem setLink_crc (l : Link) (s : State) : (setLink l s).crc = s.crc := rfl
@[simp] theorem setLink_txlen (l : Link) (s : State) : (setLink l s).txlen = s.txlen := rfl
@[simp] theorem setLink_rxlen (l : Link) (s : State) : (setLink l s).rxlen = s.rxlen := rfl
@[simp] theorem setLink_rxstat (l : Link) (s : State) : (setLink l s).rxstat = s.rxstat := rfl
@[simp] theorem setLink_fs64 (l : Link) (s : State) : (setLink l s).fs64 = s.fs64 := rfl
@[simp] theorem setLink_seqcfg (l : Link) (s : State) : (setLink l s).seqcfg = s.seqcfg := rfl
@[simp] theorem setLink_txcapMs (l : Link) (s : State) : (setLink l s).txcapMs = s.txcapMs := rfl
@[simp] theorem setLink_chmode (l : Link) (s : State) : (setLink l s).chmode = s.chmode := rfl
@[simp] theorem setLink_time (l : Link) (s : State) : (setLink l s).time = s.time := rfl
@[simp] theorem setLink_link (l : Link) (s : State) : (setLink l s).link = l := rfl
@[simp] theorem setLink_rx (l : Link) (s : State) : (setLink l s).rx = s.rx := rfl
@[simp] theorem setLink_tx (l : Link) (s : State) : (setLink l s).tx = s.tx := rfl
@[simp] theorem setLink_curCmd (l : Link) (s : State) : (setLink l s).curCmd = s.curCmd := rfl
@[simp] theorem setLink_tStart (l : Link) (s : State) : (setLink l s).tStart = s.tStart := rfl
@[simp] theorem setLink_rearm (l : Link) (s : State) : (setLink l s).rearm = s.rearm := rfl
@[simp] theorem setLink_pos (l : Link) (s : State) : (setLink l s).pos = s.pos := rfl
@[simp] theorem setLink_rxbuf (l : Link) (s : State) : (setLink l s).rxbuf = s.rxbuf := rfl
@[simp] theorem setLink_txbuf (l : Link) (s : State) : (setLink l s).txbuf = s.txbuf := rfl
@[simp] theorem setLink_inbound (l : Link) (s : State) : (setLink l s).inbound = s.inbound := rfl
@[simp] theorem setLink_outbound (l : Link) (s : State) : (setLink l s).outbound = s.outbound := rfl
@[simp] theorem setLink_rxFreeFrom (l : Link) (s : State) : (setLink l s).rxFreeFrom = s.rxFreeFrom := rfl
@[simp] theorem setLink_rxMarks (l : Link) (s : State) : (setLink l s).rxMarks = s.rxMarks := rfl
@[simp] theorem setLink_heldDleUnk (l : Link) (s : State) : (setLink l s).heldDleUnk = s.heldDleUnk := rfl
@[simp] theorem setLink_freeCount (l : Link) (s : State) : (setLink l s).freeCount = s.freeCount := rfl
@[simp] theorem setLink_readData (l : Link) (s : State) : (setLink l s).readData = s.readData := rfl
@[simp] theorem setLink_pending (l : Link) (s : State) : (setLink l s).pending = s.pending := rfl

/-! ## `setRxlen` -/

@[simp] theorem setRxlen_ctrl (n : Nat) (s : State) : (setRxlen n s).ctrl = s.ctrl := rfl
@[simp] theorem setRxlen_status (n : Nat) (s : State) : (setRxlen n s).status = s.status := rfl
@[simp] theorem setRxlen_timeoutMs (n : Nat) (s : State) : (setRxlen n s).timeoutMs = s.timeoutMs := rfl
@[simp] theorem setRxlen_crc (n : Nat) (s : State) : (setRxlen n s).crc = s.crc := rfl
@[simp] theorem setRxlen_txlen (n : Nat) (s : State) : (setRxlen n s).txlen = s.txlen := rfl
@[simp] theorem setRxlen_rxlen (n : Nat) (s : State) : (setRxlen n s).rxlen = BitVec.ofNat 11 n := rfl
@[simp] theorem setRxlen_rxstat (n : Nat) (s : State) : (setRxlen n s).rxstat = s.rxstat := rfl
@[simp] theorem setRxlen_fs64 (n : Nat) (s : State) : (setRxlen n s).fs64 = s.fs64 := rfl
@[simp] theorem setRxlen_seqcfg (n : Nat) (s : State) : (setRxlen n s).seqcfg = s.seqcfg := rfl
@[simp] theorem setRxlen_txcapMs (n : Nat) (s : State) : (setRxlen n s).txcapMs = s.txcapMs := rfl
@[simp] theorem setRxlen_chmode (n : Nat) (s : State) : (setRxlen n s).chmode = s.chmode := rfl
@[simp] theorem setRxlen_time (n : Nat) (s : State) : (setRxlen n s).time = s.time := rfl
@[simp] theorem setRxlen_link (n : Nat) (s : State) : (setRxlen n s).link = s.link := rfl
@[simp] theorem setRxlen_rx (n : Nat) (s : State) : (setRxlen n s).rx = s.rx := rfl
@[simp] theorem setRxlen_tx (n : Nat) (s : State) : (setRxlen n s).tx = s.tx := rfl
@[simp] theorem setRxlen_curCmd (n : Nat) (s : State) : (setRxlen n s).curCmd = s.curCmd := rfl
@[simp] theorem setRxlen_tStart (n : Nat) (s : State) : (setRxlen n s).tStart = s.tStart := rfl
@[simp] theorem setRxlen_rearm (n : Nat) (s : State) : (setRxlen n s).rearm = s.rearm := rfl
@[simp] theorem setRxlen_pos (n : Nat) (s : State) : (setRxlen n s).pos = s.pos := rfl
@[simp] theorem setRxlen_rxbuf (n : Nat) (s : State) : (setRxlen n s).rxbuf = s.rxbuf := rfl
@[simp] theorem setRxlen_txbuf (n : Nat) (s : State) : (setRxlen n s).txbuf = s.txbuf := rfl
@[simp] theorem setRxlen_inbound (n : Nat) (s : State) : (setRxlen n s).inbound = s.inbound := rfl
@[simp] theorem setRxlen_outbound (n : Nat) (s : State) : (setRxlen n s).outbound = s.outbound := rfl
@[simp] theorem setRxlen_rxFreeFrom (n : Nat) (s : State) : (setRxlen n s).rxFreeFrom = s.rxFreeFrom := rfl
@[simp] theorem setRxlen_rxMarks (n : Nat) (s : State) : (setRxlen n s).rxMarks = s.rxMarks := rfl
@[simp] theorem setRxlen_heldDleUnk (n : Nat) (s : State) : (setRxlen n s).heldDleUnk = s.heldDleUnk := rfl
@[simp] theorem setRxlen_freeCount (n : Nat) (s : State) : (setRxlen n s).freeCount = s.freeCount := rfl
@[simp] theorem setRxlen_readData (n : Nat) (s : State) : (setRxlen n s).readData = s.readData := rfl
@[simp] theorem setRxlen_pending (n : Nat) (s : State) : (setRxlen n s).pending = s.pending := rfl

/-! ## `clearRxStat` -/

@[simp] theorem clearRxStat_ctrl (s : State) : (clearRxStat s).ctrl = s.ctrl := rfl
@[simp] theorem clearRxStat_status (s : State) : (clearRxStat s).status = s.status := rfl
@[simp] theorem clearRxStat_timeoutMs (s : State) : (clearRxStat s).timeoutMs = s.timeoutMs := rfl
@[simp] theorem clearRxStat_crc (s : State) : (clearRxStat s).crc = s.crc := rfl
@[simp] theorem clearRxStat_txlen (s : State) : (clearRxStat s).txlen = s.txlen := rfl
@[simp] theorem clearRxStat_rxlen (s : State) : (clearRxStat s).rxlen = s.rxlen := rfl
@[simp] theorem clearRxStat_rxstat (s : State) : (clearRxStat s).rxstat = RxStat.zero := rfl
@[simp] theorem clearRxStat_fs64 (s : State) : (clearRxStat s).fs64 = s.fs64 := rfl
@[simp] theorem clearRxStat_seqcfg (s : State) : (clearRxStat s).seqcfg = s.seqcfg := rfl
@[simp] theorem clearRxStat_txcapMs (s : State) : (clearRxStat s).txcapMs = s.txcapMs := rfl
@[simp] theorem clearRxStat_chmode (s : State) : (clearRxStat s).chmode = s.chmode := rfl
@[simp] theorem clearRxStat_time (s : State) : (clearRxStat s).time = s.time := rfl
@[simp] theorem clearRxStat_link (s : State) : (clearRxStat s).link = s.link := rfl
@[simp] theorem clearRxStat_rx (s : State) : (clearRxStat s).rx = s.rx := rfl
@[simp] theorem clearRxStat_tx (s : State) : (clearRxStat s).tx = s.tx := rfl
@[simp] theorem clearRxStat_curCmd (s : State) : (clearRxStat s).curCmd = s.curCmd := rfl
@[simp] theorem clearRxStat_tStart (s : State) : (clearRxStat s).tStart = s.tStart := rfl
@[simp] theorem clearRxStat_rearm (s : State) : (clearRxStat s).rearm = s.rearm := rfl
@[simp] theorem clearRxStat_pos (s : State) : (clearRxStat s).pos = s.pos := rfl
@[simp] theorem clearRxStat_rxbuf (s : State) : (clearRxStat s).rxbuf = s.rxbuf := rfl
@[simp] theorem clearRxStat_txbuf (s : State) : (clearRxStat s).txbuf = s.txbuf := rfl
@[simp] theorem clearRxStat_inbound (s : State) : (clearRxStat s).inbound = s.inbound := rfl
@[simp] theorem clearRxStat_outbound (s : State) : (clearRxStat s).outbound = s.outbound := rfl
@[simp] theorem clearRxStat_rxFreeFrom (s : State) : (clearRxStat s).rxFreeFrom = s.rxFreeFrom := rfl
@[simp] theorem clearRxStat_rxMarks (s : State) : (clearRxStat s).rxMarks = s.rxMarks := rfl
@[simp] theorem clearRxStat_heldDleUnk (s : State) : (clearRxStat s).heldDleUnk = s.heldDleUnk := rfl
@[simp] theorem clearRxStat_freeCount (s : State) : (clearRxStat s).freeCount = s.freeCount := rfl
@[simp] theorem clearRxStat_readData (s : State) : (clearRxStat s).readData = s.readData := rfl
@[simp] theorem clearRxStat_pending (s : State) : (clearRxStat s).pending = s.pending := rfl

/-! ## `startReceive` -/

@[simp] theorem startReceive_ctrl (s : State) : (startReceive s).ctrl = s.ctrl := rfl
@[simp] theorem startReceive_status (s : State) : (startReceive s).status = s.status := rfl
@[simp] theorem startReceive_timeoutMs (s : State) : (startReceive s).timeoutMs = s.timeoutMs := rfl
@[simp] theorem startReceive_crc (s : State) : (startReceive s).crc = s.crc := rfl
@[simp] theorem startReceive_txlen (s : State) : (startReceive s).txlen = s.txlen := rfl
@[simp] theorem startReceive_rxlen (s : State) : (startReceive s).rxlen = s.rxlen := rfl
@[simp] theorem startReceive_rxstat (s : State) : (startReceive s).rxstat = RxStat.zero := rfl
@[simp] theorem startReceive_fs64 (s : State) : (startReceive s).fs64 = s.fs64 := rfl
@[simp] theorem startReceive_seqcfg (s : State) : (startReceive s).seqcfg = s.seqcfg := rfl
@[simp] theorem startReceive_txcapMs (s : State) : (startReceive s).txcapMs = s.txcapMs := rfl
@[simp] theorem startReceive_chmode (s : State) : (startReceive s).chmode = s.chmode := rfl
@[simp] theorem startReceive_time (s : State) : (startReceive s).time = s.time := rfl
@[simp] theorem startReceive_link (s : State) : (startReceive s).link = s.link := rfl
@[simp] theorem startReceive_rx (s : State) : (startReceive s).rx = s.rx := rfl
@[simp] theorem startReceive_tx (s : State) : (startReceive s).tx = s.tx := rfl
@[simp] theorem startReceive_curCmd (s : State) : (startReceive s).curCmd = s.curCmd := rfl
@[simp] theorem startReceive_tStart (s : State) : (startReceive s).tStart = s.tStart := rfl
@[simp] theorem startReceive_rearm (s : State) : (startReceive s).rearm = s.rearm := rfl
@[simp] theorem startReceive_pos (s : State) : (startReceive s).pos = s.pos := rfl
@[simp] theorem startReceive_rxbuf (s : State) : (startReceive s).rxbuf = s.rxbuf := rfl
@[simp] theorem startReceive_txbuf (s : State) : (startReceive s).txbuf = s.txbuf := rfl
@[simp] theorem startReceive_inbound (s : State) : (startReceive s).inbound = s.inbound := rfl
@[simp] theorem startReceive_outbound (s : State) : (startReceive s).outbound = s.outbound := rfl
@[simp] theorem startReceive_rxFreeFrom (s : State) : (startReceive s).rxFreeFrom = s.rxFreeFrom := rfl
@[simp] theorem startReceive_rxMarks (s : State) : (startReceive s).rxMarks = s.rxMarks := rfl
@[simp] theorem startReceive_heldDleUnk (s : State) : (startReceive s).heldDleUnk = false := rfl
@[simp] theorem startReceive_freeCount (s : State) : (startReceive s).freeCount = s.freeCount := rfl
@[simp] theorem startReceive_readData (s : State) : (startReceive s).readData = s.readData := rfl
@[simp] theorem startReceive_pending (s : State) : (startReceive s).pending = s.pending := rfl

/-! ## `noteUnknownPair` -/

@[simp] theorem noteUnknownPair_ctrl (s : State) : (noteUnknownPair s).ctrl = s.ctrl := rfl
@[simp] theorem noteUnknownPair_status (s : State) : (noteUnknownPair s).status = s.status := rfl
@[simp] theorem noteUnknownPair_timeoutMs (s : State) : (noteUnknownPair s).timeoutMs = s.timeoutMs := rfl
@[simp] theorem noteUnknownPair_crc (s : State) : (noteUnknownPair s).crc = s.crc := rfl
@[simp] theorem noteUnknownPair_txlen (s : State) : (noteUnknownPair s).txlen = s.txlen := rfl
@[simp] theorem noteUnknownPair_rxlen (s : State) : (noteUnknownPair s).rxlen = s.rxlen := rfl
@[simp] theorem noteUnknownPair_rxstat (s : State) : (noteUnknownPair s).rxstat = s.rxstat := rfl
@[simp] theorem noteUnknownPair_fs64 (s : State) : (noteUnknownPair s).fs64 = s.fs64 := rfl
@[simp] theorem noteUnknownPair_seqcfg (s : State) : (noteUnknownPair s).seqcfg = s.seqcfg := rfl
@[simp] theorem noteUnknownPair_txcapMs (s : State) : (noteUnknownPair s).txcapMs = s.txcapMs := rfl
@[simp] theorem noteUnknownPair_chmode (s : State) : (noteUnknownPair s).chmode = s.chmode := rfl
@[simp] theorem noteUnknownPair_time (s : State) : (noteUnknownPair s).time = s.time := rfl
@[simp] theorem noteUnknownPair_link (s : State) : (noteUnknownPair s).link = s.link := rfl
@[simp] theorem noteUnknownPair_rx (s : State) : (noteUnknownPair s).rx = s.rx := rfl
@[simp] theorem noteUnknownPair_tx (s : State) : (noteUnknownPair s).tx = s.tx := rfl
@[simp] theorem noteUnknownPair_curCmd (s : State) : (noteUnknownPair s).curCmd = s.curCmd := rfl
@[simp] theorem noteUnknownPair_tStart (s : State) : (noteUnknownPair s).tStart = s.tStart := rfl
@[simp] theorem noteUnknownPair_rearm (s : State) : (noteUnknownPair s).rearm = s.rearm := rfl
@[simp] theorem noteUnknownPair_pos (s : State) : (noteUnknownPair s).pos = s.pos := rfl
@[simp] theorem noteUnknownPair_rxbuf (s : State) : (noteUnknownPair s).rxbuf = s.rxbuf := rfl
@[simp] theorem noteUnknownPair_txbuf (s : State) : (noteUnknownPair s).txbuf = s.txbuf := rfl
@[simp] theorem noteUnknownPair_inbound (s : State) : (noteUnknownPair s).inbound = s.inbound := rfl
@[simp] theorem noteUnknownPair_outbound (s : State) : (noteUnknownPair s).outbound = s.outbound := rfl
@[simp] theorem noteUnknownPair_rxFreeFrom (s : State) : (noteUnknownPair s).rxFreeFrom = s.rxFreeFrom := rfl
@[simp] theorem noteUnknownPair_rxMarks (s : State) : (noteUnknownPair s).rxMarks = s.rxMarks := rfl
@[simp] theorem noteUnknownPair_heldDleUnk (s : State) : (noteUnknownPair s).heldDleUnk = true := rfl
@[simp] theorem noteUnknownPair_freeCount (s : State) : (noteUnknownPair s).freeCount = s.freeCount := rfl
@[simp] theorem noteUnknownPair_readData (s : State) : (noteUnknownPair s).readData = s.readData := rfl
@[simp] theorem noteUnknownPair_pending (s : State) : (noteUnknownPair s).pending = s.pending := rfl

/-! ## `accept` -/

@[simp] theorem accept_ctrl (i : Instr) (s : State) : (accept i s).ctrl = s.ctrl := rfl
@[simp] theorem accept_status (i : Instr) (s : State) : (accept i s).status = { s.status with lastCmd := opField (encode i) } :=
  rfl
@[simp] theorem accept_timeoutMs (i : Instr) (s : State) : (accept i s).timeoutMs = s.timeoutMs := rfl
@[simp] theorem accept_crc (i : Instr) (s : State) : (accept i s).crc = s.crc := rfl
@[simp] theorem accept_txlen (i : Instr) (s : State) : (accept i s).txlen = s.txlen := rfl
@[simp] theorem accept_rxlen (i : Instr) (s : State) : (accept i s).rxlen = s.rxlen := rfl
@[simp] theorem accept_rxstat (i : Instr) (s : State) : (accept i s).rxstat = s.rxstat := rfl
@[simp] theorem accept_fs64 (i : Instr) (s : State) : (accept i s).fs64 = s.fs64 := rfl
@[simp] theorem accept_seqcfg (i : Instr) (s : State) : (accept i s).seqcfg = s.seqcfg := rfl
@[simp] theorem accept_txcapMs (i : Instr) (s : State) : (accept i s).txcapMs = s.txcapMs := rfl
@[simp] theorem accept_chmode (i : Instr) (s : State) : (accept i s).chmode = s.chmode := rfl
@[simp] theorem accept_time (i : Instr) (s : State) : (accept i s).time = s.time := rfl
@[simp] theorem accept_link (i : Instr) (s : State) : (accept i s).link = s.link := rfl
@[simp] theorem accept_rx (i : Instr) (s : State) : (accept i s).rx = s.rx := rfl
@[simp] theorem accept_tx (i : Instr) (s : State) : (accept i s).tx = s.tx := rfl
@[simp] theorem accept_curCmd (i : Instr) (s : State) : (accept i s).curCmd = encode i := rfl
@[simp] theorem accept_tStart (i : Instr) (s : State) : (accept i s).tStart = s.time := rfl
@[simp] theorem accept_rearm (i : Instr) (s : State) : (accept i s).rearm = s.rearm := rfl
@[simp] theorem accept_pos (i : Instr) (s : State) : (accept i s).pos = s.pos := rfl
@[simp] theorem accept_rxbuf (i : Instr) (s : State) : (accept i s).rxbuf = s.rxbuf := rfl
@[simp] theorem accept_txbuf (i : Instr) (s : State) : (accept i s).txbuf = s.txbuf := rfl
@[simp] theorem accept_inbound (i : Instr) (s : State) : (accept i s).inbound = s.inbound := rfl
@[simp] theorem accept_outbound (i : Instr) (s : State) : (accept i s).outbound = s.outbound := rfl
@[simp] theorem accept_rxFreeFrom (i : Instr) (s : State) : (accept i s).rxFreeFrom = s.rxFreeFrom := rfl
@[simp] theorem accept_rxMarks (i : Instr) (s : State) : (accept i s).rxMarks = s.rxMarks := rfl
@[simp] theorem accept_heldDleUnk (i : Instr) (s : State) : (accept i s).heldDleUnk = s.heldDleUnk := rfl
@[simp] theorem accept_freeCount (i : Instr) (s : State) : (accept i s).freeCount = s.freeCount := rfl
@[simp] theorem accept_readData (i : Instr) (s : State) : (accept i s).readData = s.readData := rfl
@[simp] theorem accept_pending (i : Instr) (s : State) : (accept i s).pending = s.pending := rfl

/-! ## `complete` -/

@[simp] theorem complete_ctrl (r : Result) (s : State) : (complete r s).ctrl = s.ctrl := rfl
@[simp] theorem complete_status (r : Result) (s : State) : (complete r s).status = s.status.completed r := rfl
@[simp] theorem complete_timeoutMs (r : Result) (s : State) : (complete r s).timeoutMs = s.timeoutMs := rfl
@[simp] theorem complete_crc (r : Result) (s : State) : (complete r s).crc = s.crc := rfl
@[simp] theorem complete_txlen (r : Result) (s : State) : (complete r s).txlen = s.txlen := rfl
@[simp] theorem complete_rxlen (r : Result) (s : State) : (complete r s).rxlen = s.rxlen := rfl
@[simp] theorem complete_rxstat (r : Result) (s : State) : (complete r s).rxstat = s.rxstat := rfl
@[simp] theorem complete_fs64 (r : Result) (s : State) : (complete r s).fs64 = s.fs64 := rfl
@[simp] theorem complete_seqcfg (r : Result) (s : State) : (complete r s).seqcfg = s.seqcfg := rfl
@[simp] theorem complete_txcapMs (r : Result) (s : State) : (complete r s).txcapMs = s.txcapMs := rfl
@[simp] theorem complete_chmode (r : Result) (s : State) : (complete r s).chmode = s.chmode := rfl
@[simp] theorem complete_time (r : Result) (s : State) : (complete r s).time = s.time := rfl
@[simp] theorem complete_link (r : Result) (s : State) : (complete r s).link = s.link := rfl
@[simp] theorem complete_rx (r : Result) (s : State) : (complete r s).rx = s.rx := rfl
@[simp] theorem complete_tx (r : Result) (s : State) : (complete r s).tx = s.tx := rfl
@[simp] theorem complete_curCmd (r : Result) (s : State) : (complete r s).curCmd = s.curCmd := rfl
@[simp] theorem complete_tStart (r : Result) (s : State) : (complete r s).tStart = s.tStart := rfl
@[simp] theorem complete_rearm (r : Result) (s : State) : (complete r s).rearm = s.rearm := rfl
@[simp] theorem complete_pos (r : Result) (s : State) : (complete r s).pos = none := rfl
@[simp] theorem complete_rxbuf (r : Result) (s : State) : (complete r s).rxbuf = s.rxbuf := rfl
@[simp] theorem complete_txbuf (r : Result) (s : State) : (complete r s).txbuf = s.txbuf := rfl
@[simp] theorem complete_inbound (r : Result) (s : State) : (complete r s).inbound = s.inbound := rfl
@[simp] theorem complete_outbound (r : Result) (s : State) : (complete r s).outbound = s.outbound := rfl
@[simp] theorem complete_rxFreeFrom (r : Result) (s : State) : (complete r s).rxFreeFrom = s.rxFreeFrom := rfl
@[simp] theorem complete_rxMarks (r : Result) (s : State) : (complete r s).rxMarks = s.rxMarks := rfl
@[simp] theorem complete_heldDleUnk (r : Result) (s : State) : (complete r s).heldDleUnk = s.heldDleUnk := rfl
@[simp] theorem complete_freeCount (r : Result) (s : State) : (complete r s).freeCount = s.freeCount := rfl
@[simp] theorem complete_readData (r : Result) (s : State) : (complete r s).readData = s.readData := rfl
@[simp] theorem complete_pending (r : Result) (s : State) : (complete r s).pending = s.pending := rfl

/-! ## `completeReceive` -/

@[simp] theorem completeReceive_ctrl (r : Result) (s : State) : (completeReceive r s).ctrl = s.ctrl := rfl
@[simp] theorem completeReceive_status (r : Result) (s : State) : (completeReceive r s).status = s.status.completed r :=
  rfl
@[simp] theorem completeReceive_timeoutMs (r : Result) (s : State) : (completeReceive r s).timeoutMs = s.timeoutMs :=
  rfl
@[simp] theorem completeReceive_crc (r : Result) (s : State) : (completeReceive r s).crc = s.crc := rfl
@[simp] theorem completeReceive_txlen (r : Result) (s : State) : (completeReceive r s).txlen = s.txlen := rfl
@[simp] theorem completeReceive_rxlen (r : Result) (s : State) : (completeReceive r s).rxlen = s.rxlen := rfl
@[simp] theorem completeReceive_rxstat (r : Result) (s : State) : (completeReceive r s).rxstat
    = { s.rxstat with dleUnk := s.rxstat.dleUnk || s.heldDleUnk } := rfl
@[simp] theorem completeReceive_fs64 (r : Result) (s : State) : (completeReceive r s).fs64 = s.fs64 := rfl
@[simp] theorem completeReceive_seqcfg (r : Result) (s : State) : (completeReceive r s).seqcfg = s.seqcfg := rfl
@[simp] theorem completeReceive_txcapMs (r : Result) (s : State) : (completeReceive r s).txcapMs = s.txcapMs := rfl
@[simp] theorem completeReceive_chmode (r : Result) (s : State) : (completeReceive r s).chmode = s.chmode := rfl
@[simp] theorem completeReceive_time (r : Result) (s : State) : (completeReceive r s).time = s.time := rfl
@[simp] theorem completeReceive_link (r : Result) (s : State) : (completeReceive r s).link = s.link := rfl
@[simp] theorem completeReceive_rx (r : Result) (s : State) : (completeReceive r s).rx = s.rx := rfl
@[simp] theorem completeReceive_tx (r : Result) (s : State) : (completeReceive r s).tx = s.tx := rfl
@[simp] theorem completeReceive_curCmd (r : Result) (s : State) : (completeReceive r s).curCmd = s.curCmd := rfl
@[simp] theorem completeReceive_tStart (r : Result) (s : State) : (completeReceive r s).tStart = s.tStart := rfl
@[simp] theorem completeReceive_rearm (r : Result) (s : State) : (completeReceive r s).rearm = s.rearm := rfl
@[simp] theorem completeReceive_pos (r : Result) (s : State) : (completeReceive r s).pos = none := rfl
@[simp] theorem completeReceive_rxbuf (r : Result) (s : State) : (completeReceive r s).rxbuf = s.rxbuf.dropFrom s.rxlen.toNat :=
  rfl
@[simp] theorem completeReceive_txbuf (r : Result) (s : State) : (completeReceive r s).txbuf = s.txbuf := rfl
@[simp] theorem completeReceive_inbound (r : Result) (s : State) : (completeReceive r s).inbound = s.inbound := rfl
@[simp] theorem completeReceive_outbound (r : Result) (s : State) : (completeReceive r s).outbound = s.outbound := rfl
@[simp] theorem completeReceive_rxFreeFrom (r : Result) (s : State) : (completeReceive r s).rxFreeFrom = s.rxlen.toNat :=
  rfl
@[simp] theorem completeReceive_rxMarks (r : Result) (s : State) : (completeReceive r s).rxMarks = s.rxMarks ||| s.rxbuf.marks :=
  rfl
@[simp] theorem completeReceive_heldDleUnk (r : Result) (s : State) : (completeReceive r s).heldDleUnk = false := rfl
@[simp] theorem completeReceive_freeCount (r : Result) (s : State) : (completeReceive r s).freeCount = s.freeCount :=
  rfl
@[simp] theorem completeReceive_readData (r : Result) (s : State) : (completeReceive r s).readData = s.readData := rfl
@[simp] theorem completeReceive_pending (r : Result) (s : State) : (completeReceive r s).pending = s.pending := rfl

/-! ## `beginAbort` -/

@[simp] theorem beginAbort_ctrl (a : AfterAbort) (s : State) : (beginAbort a s).ctrl = s.ctrl := rfl
@[simp] theorem beginAbort_status (a : AfterAbort) (s : State) : (beginAbort a s).status = s.status := rfl
@[simp] theorem beginAbort_timeoutMs (a : AfterAbort) (s : State) : (beginAbort a s).timeoutMs = s.timeoutMs := rfl
@[simp] theorem beginAbort_crc (a : AfterAbort) (s : State) : (beginAbort a s).crc = s.crc := rfl
@[simp] theorem beginAbort_txlen (a : AfterAbort) (s : State) : (beginAbort a s).txlen = s.txlen := rfl
@[simp] theorem beginAbort_rxlen (a : AfterAbort) (s : State) : (beginAbort a s).rxlen = s.rxlen := rfl
@[simp] theorem beginAbort_rxstat (a : AfterAbort) (s : State) : (beginAbort a s).rxstat = s.rxstat := rfl
@[simp] theorem beginAbort_fs64 (a : AfterAbort) (s : State) : (beginAbort a s).fs64 = s.fs64 := rfl
@[simp] theorem beginAbort_seqcfg (a : AfterAbort) (s : State) : (beginAbort a s).seqcfg = s.seqcfg := rfl
@[simp] theorem beginAbort_txcapMs (a : AfterAbort) (s : State) : (beginAbort a s).txcapMs = s.txcapMs := rfl
@[simp] theorem beginAbort_chmode (a : AfterAbort) (s : State) : (beginAbort a s).chmode = s.chmode := rfl
@[simp] theorem beginAbort_time (a : AfterAbort) (s : State) : (beginAbort a s).time = s.time := rfl
@[simp] theorem beginAbort_link (a : AfterAbort) (s : State) : (beginAbort a s).link = s.link := rfl
@[simp] theorem beginAbort_rx (a : AfterAbort) (s : State) : (beginAbort a s).rx = s.rx := rfl
@[simp] theorem beginAbort_tx (a : AfterAbort) (s : State) : (beginAbort a s).tx = s.tx := rfl
@[simp] theorem beginAbort_curCmd (a : AfterAbort) (s : State) : (beginAbort a s).curCmd = s.curCmd := rfl
@[simp] theorem beginAbort_tStart (a : AfterAbort) (s : State) : (beginAbort a s).tStart = s.tStart := rfl
@[simp] theorem beginAbort_rearm (a : AfterAbort) (s : State) : (beginAbort a s).rearm = s.rearm := rfl
@[simp] theorem beginAbort_pos (a : AfterAbort) (s : State) : (beginAbort a s).pos = some (.abortFirst s.time a) := rfl
@[simp] theorem beginAbort_rxbuf (a : AfterAbort) (s : State) : (beginAbort a s).rxbuf = s.rxbuf := rfl
@[simp] theorem beginAbort_txbuf (a : AfterAbort) (s : State) : (beginAbort a s).txbuf = s.txbuf := rfl
@[simp] theorem beginAbort_inbound (a : AfterAbort) (s : State) : (beginAbort a s).inbound = s.inbound := rfl
@[simp] theorem beginAbort_outbound (a : AfterAbort) (s : State) : (beginAbort a s).outbound = s.outbound ++ [.byte s.seqcfg.breakChar] :=
  rfl
@[simp] theorem beginAbort_rxFreeFrom (a : AfterAbort) (s : State) : (beginAbort a s).rxFreeFrom = s.rxFreeFrom := rfl
@[simp] theorem beginAbort_rxMarks (a : AfterAbort) (s : State) : (beginAbort a s).rxMarks = s.rxMarks := rfl
@[simp] theorem beginAbort_heldDleUnk (a : AfterAbort) (s : State) : (beginAbort a s).heldDleUnk = s.heldDleUnk := rfl
@[simp] theorem beginAbort_freeCount (a : AfterAbort) (s : State) : (beginAbort a s).freeCount = s.freeCount := rfl
@[simp] theorem beginAbort_readData (a : AfterAbort) (s : State) : (beginAbort a s).readData = s.readData := rfl
@[simp] theorem beginAbort_pending (a : AfterAbort) (s : State) : (beginAbort a s).pending = s.pending := rfl

/-! ## `forceOk` -/

@[simp] theorem forceOk_ctrl (a : AfterAbort) (s : State) : (forceOk a s).ctrl = s.ctrl := rfl
@[simp] theorem forceOk_status (a : AfterAbort) (s : State) : (forceOk a s).status = s.status := rfl
@[simp] theorem forceOk_timeoutMs (a : AfterAbort) (s : State) : (forceOk a s).timeoutMs = s.timeoutMs := rfl
@[simp] theorem forceOk_crc (a : AfterAbort) (s : State) : (forceOk a s).crc = s.crc := rfl
@[simp] theorem forceOk_txlen (a : AfterAbort) (s : State) : (forceOk a s).txlen = s.txlen := rfl
@[simp] theorem forceOk_rxlen (a : AfterAbort) (s : State) : (forceOk a s).rxlen = s.rxlen := rfl
@[simp] theorem forceOk_rxstat (a : AfterAbort) (s : State) : (forceOk a s).rxstat = s.rxstat := rfl
@[simp] theorem forceOk_fs64 (a : AfterAbort) (s : State) : (forceOk a s).fs64 = s.fs64 := rfl
@[simp] theorem forceOk_seqcfg (a : AfterAbort) (s : State) : (forceOk a s).seqcfg = s.seqcfg := rfl
@[simp] theorem forceOk_txcapMs (a : AfterAbort) (s : State) : (forceOk a s).txcapMs = s.txcapMs := rfl
@[simp] theorem forceOk_chmode (a : AfterAbort) (s : State) : (forceOk a s).chmode = s.chmode := rfl
@[simp] theorem forceOk_time (a : AfterAbort) (s : State) : (forceOk a s).time = s.time := rfl
@[simp] theorem forceOk_link (a : AfterAbort) (s : State) : (forceOk a s).link = s.link := rfl
@[simp] theorem forceOk_rx (a : AfterAbort) (s : State) : (forceOk a s).rx = s.rx := rfl
@[simp] theorem forceOk_tx (a : AfterAbort) (s : State) : (forceOk a s).tx = s.tx := rfl
@[simp] theorem forceOk_curCmd (a : AfterAbort) (s : State) : (forceOk a s).curCmd = s.curCmd := rfl
@[simp] theorem forceOk_tStart (a : AfterAbort) (s : State) : (forceOk a s).tStart = s.tStart := rfl
@[simp] theorem forceOk_rearm (a : AfterAbort) (s : State) : (forceOk a s).rearm = s.rearm := rfl
@[simp] theorem forceOk_pos (a : AfterAbort) (s : State) : (forceOk a s).pos = some (.abortSecond s.time a) := rfl
@[simp] theorem forceOk_rxbuf (a : AfterAbort) (s : State) : (forceOk a s).rxbuf = s.rxbuf := rfl
@[simp] theorem forceOk_txbuf (a : AfterAbort) (s : State) : (forceOk a s).txbuf = s.txbuf := rfl
@[simp] theorem forceOk_inbound (a : AfterAbort) (s : State) : (forceOk a s).inbound = s.inbound := rfl
@[simp] theorem forceOk_outbound (a : AfterAbort) (s : State) : (forceOk a s).outbound = s.outbound ++ [.cmd .attention] :=
  rfl
@[simp] theorem forceOk_rxFreeFrom (a : AfterAbort) (s : State) : (forceOk a s).rxFreeFrom = s.rxFreeFrom := rfl
@[simp] theorem forceOk_rxMarks (a : AfterAbort) (s : State) : (forceOk a s).rxMarks = s.rxMarks := rfl
@[simp] theorem forceOk_heldDleUnk (a : AfterAbort) (s : State) : (forceOk a s).heldDleUnk = s.heldDleUnk := rfl
@[simp] theorem forceOk_freeCount (a : AfterAbort) (s : State) : (forceOk a s).freeCount = s.freeCount := rfl
@[simp] theorem forceOk_readData (a : AfterAbort) (s : State) : (forceOk a s).readData = s.readData := rfl
@[simp] theorem forceOk_pending (a : AfterAbort) (s : State) : (forceOk a s).pending = s.pending := rfl

/-! ## `applyCheck` -/

@[simp] theorem applyCheck_ctrl (frame : List Byte) (m : Nat) (chk : Bool) (s : State) : (applyCheck frame m chk s).ctrl = s.ctrl :=
  rfl
@[simp] theorem applyCheck_status (frame : List Byte) (m : Nat) (chk : Bool) (s : State) : (applyCheck frame m chk s).status = s.status :=
  rfl
@[simp] theorem applyCheck_timeoutMs (frame : List Byte) (m : Nat) (chk : Bool) (s : State) : (applyCheck frame m chk s).timeoutMs = s.timeoutMs :=
  rfl
@[simp] theorem applyCheck_crc (frame : List Byte) (m : Nat) (chk : Bool) (s : State) : (applyCheck frame m chk s).crc = crc16 Config.crcInit frame :=
  rfl
@[simp] theorem applyCheck_txlen (frame : List Byte) (m : Nat) (chk : Bool) (s : State) : (applyCheck frame m chk s).txlen = s.txlen :=
  rfl
@[simp] theorem applyCheck_rxlen (frame : List Byte) (m : Nat) (chk : Bool) (s : State) : (applyCheck frame m chk s).rxlen = s.rxlen :=
  rfl
@[simp] theorem applyCheck_rxstat (frame : List Byte) (m : Nat) (chk : Bool) (s : State) : (applyCheck frame m chk s).rxstat = frameStat frame m chk s.rxstat :=
  rfl
@[simp] theorem applyCheck_fs64 (frame : List Byte) (m : Nat) (chk : Bool) (s : State) : (applyCheck frame m chk s).fs64 = s.fs64 :=
  rfl
@[simp] theorem applyCheck_seqcfg (frame : List Byte) (m : Nat) (chk : Bool) (s : State) : (applyCheck frame m chk s).seqcfg = s.seqcfg :=
  rfl
@[simp] theorem applyCheck_txcapMs (frame : List Byte) (m : Nat) (chk : Bool) (s : State) : (applyCheck frame m chk s).txcapMs = s.txcapMs :=
  rfl
@[simp] theorem applyCheck_chmode (frame : List Byte) (m : Nat) (chk : Bool) (s : State) : (applyCheck frame m chk s).chmode = s.chmode :=
  rfl
@[simp] theorem applyCheck_time (frame : List Byte) (m : Nat) (chk : Bool) (s : State) : (applyCheck frame m chk s).time = s.time :=
  rfl
@[simp] theorem applyCheck_link (frame : List Byte) (m : Nat) (chk : Bool) (s : State) : (applyCheck frame m chk s).link = s.link :=
  rfl
@[simp] theorem applyCheck_rx (frame : List Byte) (m : Nat) (chk : Bool) (s : State) : (applyCheck frame m chk s).rx = s.rx :=
  rfl
@[simp] theorem applyCheck_tx (frame : List Byte) (m : Nat) (chk : Bool) (s : State) : (applyCheck frame m chk s).tx = s.tx :=
  rfl
@[simp] theorem applyCheck_curCmd (frame : List Byte) (m : Nat) (chk : Bool) (s : State) : (applyCheck frame m chk s).curCmd = s.curCmd :=
  rfl
@[simp] theorem applyCheck_tStart (frame : List Byte) (m : Nat) (chk : Bool) (s : State) : (applyCheck frame m chk s).tStart = s.tStart :=
  rfl
@[simp] theorem applyCheck_rearm (frame : List Byte) (m : Nat) (chk : Bool) (s : State) : (applyCheck frame m chk s).rearm = s.rearm :=
  rfl
@[simp] theorem applyCheck_pos (frame : List Byte) (m : Nat) (chk : Bool) (s : State) : (applyCheck frame m chk s).pos = s.pos :=
  rfl
@[simp] theorem applyCheck_rxbuf (frame : List Byte) (m : Nat) (chk : Bool) (s : State) : (applyCheck frame m chk s).rxbuf = s.rxbuf :=
  rfl
@[simp] theorem applyCheck_txbuf (frame : List Byte) (m : Nat) (chk : Bool) (s : State) : (applyCheck frame m chk s).txbuf = s.txbuf :=
  rfl
@[simp] theorem applyCheck_inbound (frame : List Byte) (m : Nat) (chk : Bool) (s : State) : (applyCheck frame m chk s).inbound = s.inbound :=
  rfl
@[simp] theorem applyCheck_outbound (frame : List Byte) (m : Nat) (chk : Bool) (s : State) : (applyCheck frame m chk s).outbound = s.outbound :=
  rfl
@[simp] theorem applyCheck_rxFreeFrom (frame : List Byte) (m : Nat) (chk : Bool) (s : State) : (applyCheck frame m chk s).rxFreeFrom = s.rxFreeFrom :=
  rfl
@[simp] theorem applyCheck_rxMarks (frame : List Byte) (m : Nat) (chk : Bool) (s : State) : (applyCheck frame m chk s).rxMarks = s.rxMarks :=
  rfl
@[simp] theorem applyCheck_heldDleUnk (frame : List Byte) (m : Nat) (chk : Bool) (s : State) : (applyCheck frame m chk s).heldDleUnk = s.heldDleUnk :=
  rfl
@[simp] theorem applyCheck_freeCount (frame : List Byte) (m : Nat) (chk : Bool) (s : State) : (applyCheck frame m chk s).freeCount = s.freeCount :=
  rfl
@[simp] theorem applyCheck_readData (frame : List Byte) (m : Nat) (chk : Bool) (s : State) : (applyCheck frame m chk s).readData = s.readData :=
  rfl
@[simp] theorem applyCheck_pending (frame : List Byte) (m : Nat) (chk : Bool) (s : State) : (applyCheck frame m chk s).pending = s.pending :=
  rfl

/-! ## `withTx` -/

@[simp] theorem withTx_ctrl (p : TxEngine × List OutToken) (s : State) : (withTx p s).ctrl = s.ctrl := rfl
@[simp] theorem withTx_status (p : TxEngine × List OutToken) (s : State) : (withTx p s).status = s.status := rfl
@[simp] theorem withTx_timeoutMs (p : TxEngine × List OutToken) (s : State) : (withTx p s).timeoutMs = s.timeoutMs :=
  rfl
@[simp] theorem withTx_crc (p : TxEngine × List OutToken) (s : State) : (withTx p s).crc = s.crc := rfl
@[simp] theorem withTx_txlen (p : TxEngine × List OutToken) (s : State) : (withTx p s).txlen = s.txlen := rfl
@[simp] theorem withTx_rxlen (p : TxEngine × List OutToken) (s : State) : (withTx p s).rxlen = s.rxlen := rfl
@[simp] theorem withTx_rxstat (p : TxEngine × List OutToken) (s : State) : (withTx p s).rxstat = s.rxstat := rfl
@[simp] theorem withTx_fs64 (p : TxEngine × List OutToken) (s : State) : (withTx p s).fs64 = s.fs64 := rfl
@[simp] theorem withTx_seqcfg (p : TxEngine × List OutToken) (s : State) : (withTx p s).seqcfg = s.seqcfg := rfl
@[simp] theorem withTx_txcapMs (p : TxEngine × List OutToken) (s : State) : (withTx p s).txcapMs = s.txcapMs := rfl
@[simp] theorem withTx_chmode (p : TxEngine × List OutToken) (s : State) : (withTx p s).chmode = s.chmode := rfl
@[simp] theorem withTx_time (p : TxEngine × List OutToken) (s : State) : (withTx p s).time = s.time := rfl
@[simp] theorem withTx_link (p : TxEngine × List OutToken) (s : State) : (withTx p s).link = s.link := rfl
@[simp] theorem withTx_rx (p : TxEngine × List OutToken) (s : State) : (withTx p s).rx = s.rx := rfl
@[simp] theorem withTx_tx (p : TxEngine × List OutToken) (s : State) : (withTx p s).tx = p.1 := rfl
@[simp] theorem withTx_curCmd (p : TxEngine × List OutToken) (s : State) : (withTx p s).curCmd = s.curCmd := rfl
@[simp] theorem withTx_tStart (p : TxEngine × List OutToken) (s : State) : (withTx p s).tStart = s.tStart := rfl
@[simp] theorem withTx_rearm (p : TxEngine × List OutToken) (s : State) : (withTx p s).rearm = s.rearm := rfl
@[simp] theorem withTx_pos (p : TxEngine × List OutToken) (s : State) : (withTx p s).pos = s.pos := rfl
@[simp] theorem withTx_rxbuf (p : TxEngine × List OutToken) (s : State) : (withTx p s).rxbuf = s.rxbuf := rfl
@[simp] theorem withTx_txbuf (p : TxEngine × List OutToken) (s : State) : (withTx p s).txbuf = s.txbuf := rfl
@[simp] theorem withTx_inbound (p : TxEngine × List OutToken) (s : State) : (withTx p s).inbound = s.inbound := rfl
@[simp] theorem withTx_outbound (p : TxEngine × List OutToken) (s : State) : (withTx p s).outbound = s.outbound ++ p.2 :=
  rfl
@[simp] theorem withTx_rxFreeFrom (p : TxEngine × List OutToken) (s : State) : (withTx p s).rxFreeFrom = s.rxFreeFrom :=
  rfl
@[simp] theorem withTx_rxMarks (p : TxEngine × List OutToken) (s : State) : (withTx p s).rxMarks = s.rxMarks :=
  rfl
@[simp] theorem withTx_heldDleUnk (p : TxEngine × List OutToken) (s : State) : (withTx p s).heldDleUnk = s.heldDleUnk :=
  rfl
@[simp] theorem withTx_freeCount (p : TxEngine × List OutToken) (s : State) : (withTx p s).freeCount = s.freeCount :=
  rfl
@[simp] theorem withTx_readData (p : TxEngine × List OutToken) (s : State) : (withTx p s).readData = s.readData := rfl
@[simp] theorem withTx_pending (p : TxEngine × List OutToken) (s : State) : (withTx p s).pending = s.pending := rfl

/-! ## `indicator` -/

@[simp] theorem indicator_ctrl (x : Byte) (s : State) : (indicator x s).ctrl = s.ctrl := rfl
@[simp] theorem indicator_status (x : Byte) (s : State) : (indicator x s).status = s.status := rfl
@[simp] theorem indicator_timeoutMs (x : Byte) (s : State) : (indicator x s).timeoutMs = s.timeoutMs := rfl
@[simp] theorem indicator_crc (x : Byte) (s : State) : (indicator x s).crc = s.crc := rfl
@[simp] theorem indicator_txlen (x : Byte) (s : State) : (indicator x s).txlen = s.txlen := rfl
@[simp] theorem indicator_rxlen (x : Byte) (s : State) : (indicator x s).rxlen = s.rxlen := rfl
@[simp] theorem indicator_rxstat (x : Byte) (s : State) : (indicator x s).rxstat = s.rxstat := rfl
@[simp] theorem indicator_fs64 (x : Byte) (s : State) : (indicator x s).fs64 = s.fs64 := rfl
@[simp] theorem indicator_seqcfg (x : Byte) (s : State) : (indicator x s).seqcfg = s.seqcfg := rfl
@[simp] theorem indicator_txcapMs (x : Byte) (s : State) : (indicator x s).txcapMs = s.txcapMs := rfl
@[simp] theorem indicator_chmode (x : Byte) (s : State) : (indicator x s).chmode = s.chmode.indicate x := rfl
@[simp] theorem indicator_time (x : Byte) (s : State) : (indicator x s).time = s.time := rfl
@[simp] theorem indicator_link (x : Byte) (s : State) : (indicator x s).link = s.link := rfl
@[simp] theorem indicator_rx (x : Byte) (s : State) : (indicator x s).rx = s.rx := rfl
@[simp] theorem indicator_tx (x : Byte) (s : State) : (indicator x s).tx = s.tx := rfl
@[simp] theorem indicator_curCmd (x : Byte) (s : State) : (indicator x s).curCmd = s.curCmd := rfl
@[simp] theorem indicator_tStart (x : Byte) (s : State) : (indicator x s).tStart = s.tStart := rfl
@[simp] theorem indicator_rearm (x : Byte) (s : State) : (indicator x s).rearm = s.rearm := rfl
@[simp] theorem indicator_pos (x : Byte) (s : State) : (indicator x s).pos = s.pos := rfl
@[simp] theorem indicator_rxbuf (x : Byte) (s : State) : (indicator x s).rxbuf = s.rxbuf := rfl
@[simp] theorem indicator_txbuf (x : Byte) (s : State) : (indicator x s).txbuf = s.txbuf := rfl
@[simp] theorem indicator_inbound (x : Byte) (s : State) : (indicator x s).inbound = s.inbound := rfl
@[simp] theorem indicator_outbound (x : Byte) (s : State) : (indicator x s).outbound = s.outbound := rfl
@[simp] theorem indicator_rxFreeFrom (x : Byte) (s : State) : (indicator x s).rxFreeFrom = s.rxFreeFrom := rfl
@[simp] theorem indicator_rxMarks (x : Byte) (s : State) : (indicator x s).rxMarks = s.rxMarks := rfl
@[simp] theorem indicator_heldDleUnk (x : Byte) (s : State) : (indicator x s).heldDleUnk = s.heldDleUnk := rfl
@[simp] theorem indicator_freeCount (x : Byte) (s : State) : (indicator x s).freeCount = s.freeCount := rfl
@[simp] theorem indicator_readData (x : Byte) (s : State) : (indicator x s).readData = s.readData := rfl
@[simp] theorem indicator_pending (x : Byte) (s : State) : (indicator x s).pending = s.pending := rfl

/-! ## `noteEot` -/

@[simp] theorem noteEot_ctrl (s : State) : (noteEot s).ctrl = s.ctrl := rfl
@[simp] theorem noteEot_status (s : State) : (noteEot s).status = s.status := rfl
@[simp] theorem noteEot_timeoutMs (s : State) : (noteEot s).timeoutMs = s.timeoutMs := rfl
@[simp] theorem noteEot_crc (s : State) : (noteEot s).crc = s.crc := rfl
@[simp] theorem noteEot_txlen (s : State) : (noteEot s).txlen = s.txlen := rfl
@[simp] theorem noteEot_rxlen (s : State) : (noteEot s).rxlen = s.rxlen := rfl
@[simp] theorem noteEot_rxstat (s : State) : (noteEot s).rxstat = s.rxstat := rfl
@[simp] theorem noteEot_fs64 (s : State) : (noteEot s).fs64 = s.fs64 := rfl
@[simp] theorem noteEot_seqcfg (s : State) : (noteEot s).seqcfg = s.seqcfg := rfl
@[simp] theorem noteEot_txcapMs (s : State) : (noteEot s).txcapMs = s.txcapMs := rfl
@[simp] theorem noteEot_chmode (s : State) : (noteEot s).chmode = { s.chmode with gotEot := true } := rfl
@[simp] theorem noteEot_time (s : State) : (noteEot s).time = s.time := rfl
@[simp] theorem noteEot_link (s : State) : (noteEot s).link = s.link := rfl
@[simp] theorem noteEot_rx (s : State) : (noteEot s).rx = s.rx := rfl
@[simp] theorem noteEot_tx (s : State) : (noteEot s).tx = s.tx := rfl
@[simp] theorem noteEot_curCmd (s : State) : (noteEot s).curCmd = s.curCmd := rfl
@[simp] theorem noteEot_tStart (s : State) : (noteEot s).tStart = s.tStart := rfl
@[simp] theorem noteEot_rearm (s : State) : (noteEot s).rearm = s.rearm := rfl
@[simp] theorem noteEot_pos (s : State) : (noteEot s).pos = s.pos := rfl
@[simp] theorem noteEot_rxbuf (s : State) : (noteEot s).rxbuf = s.rxbuf := rfl
@[simp] theorem noteEot_txbuf (s : State) : (noteEot s).txbuf = s.txbuf := rfl
@[simp] theorem noteEot_inbound (s : State) : (noteEot s).inbound = s.inbound := rfl
@[simp] theorem noteEot_outbound (s : State) : (noteEot s).outbound = s.outbound := rfl
@[simp] theorem noteEot_rxFreeFrom (s : State) : (noteEot s).rxFreeFrom = s.rxFreeFrom := rfl
@[simp] theorem noteEot_rxMarks (s : State) : (noteEot s).rxMarks = s.rxMarks := rfl
@[simp] theorem noteEot_heldDleUnk (s : State) : (noteEot s).heldDleUnk = s.heldDleUnk := rfl
@[simp] theorem noteEot_freeCount (s : State) : (noteEot s).freeCount = s.freeCount := rfl
@[simp] theorem noteEot_readData (s : State) : (noteEot s).readData = s.readData := rfl
@[simp] theorem noteEot_pending (s : State) : (noteEot s).pending = s.pending := rfl

/-! ## `setHazard` -/

@[simp] theorem setHazard_ctrl (s : State) : (setHazard s).ctrl = s.ctrl := rfl
@[simp] theorem setHazard_status (s : State) : (setHazard s).status = { s.status with hazard := true } := rfl
@[simp] theorem setHazard_timeoutMs (s : State) : (setHazard s).timeoutMs = s.timeoutMs := rfl
@[simp] theorem setHazard_crc (s : State) : (setHazard s).crc = s.crc := rfl
@[simp] theorem setHazard_txlen (s : State) : (setHazard s).txlen = s.txlen := rfl
@[simp] theorem setHazard_rxlen (s : State) : (setHazard s).rxlen = s.rxlen := rfl
@[simp] theorem setHazard_rxstat (s : State) : (setHazard s).rxstat = s.rxstat := rfl
@[simp] theorem setHazard_fs64 (s : State) : (setHazard s).fs64 = s.fs64 := rfl
@[simp] theorem setHazard_seqcfg (s : State) : (setHazard s).seqcfg = s.seqcfg := rfl
@[simp] theorem setHazard_txcapMs (s : State) : (setHazard s).txcapMs = s.txcapMs := rfl
@[simp] theorem setHazard_chmode (s : State) : (setHazard s).chmode = s.chmode := rfl
@[simp] theorem setHazard_time (s : State) : (setHazard s).time = s.time := rfl
@[simp] theorem setHazard_link (s : State) : (setHazard s).link = s.link := rfl
@[simp] theorem setHazard_rx (s : State) : (setHazard s).rx = s.rx := rfl
@[simp] theorem setHazard_tx (s : State) : (setHazard s).tx = s.tx := rfl
@[simp] theorem setHazard_curCmd (s : State) : (setHazard s).curCmd = s.curCmd := rfl
@[simp] theorem setHazard_tStart (s : State) : (setHazard s).tStart = s.tStart := rfl
@[simp] theorem setHazard_rearm (s : State) : (setHazard s).rearm = s.rearm := rfl
@[simp] theorem setHazard_pos (s : State) : (setHazard s).pos = s.pos := rfl
@[simp] theorem setHazard_rxbuf (s : State) : (setHazard s).rxbuf = s.rxbuf := rfl
@[simp] theorem setHazard_txbuf (s : State) : (setHazard s).txbuf = s.txbuf := rfl
@[simp] theorem setHazard_inbound (s : State) : (setHazard s).inbound = s.inbound := rfl
@[simp] theorem setHazard_outbound (s : State) : (setHazard s).outbound = s.outbound := rfl
@[simp] theorem setHazard_rxFreeFrom (s : State) : (setHazard s).rxFreeFrom = s.rxFreeFrom := rfl
@[simp] theorem setHazard_rxMarks (s : State) : (setHazard s).rxMarks = s.rxMarks := rfl
@[simp] theorem setHazard_heldDleUnk (s : State) : (setHazard s).heldDleUnk = s.heldDleUnk := rfl
@[simp] theorem setHazard_freeCount (s : State) : (setHazard s).freeCount = s.freeCount := rfl
@[simp] theorem setHazard_readData (s : State) : (setHazard s).readData = s.readData := rfl
@[simp] theorem setHazard_pending (s : State) : (setHazard s).pending = s.pending := rfl

/-! ## `tick` -/

@[simp] theorem tick_ctrl (s : State) : (tick s).ctrl = s.ctrl := rfl
@[simp] theorem tick_status (s : State) : (tick s).status = s.status := rfl
@[simp] theorem tick_timeoutMs (s : State) : (tick s).timeoutMs = s.timeoutMs := rfl
@[simp] theorem tick_crc (s : State) : (tick s).crc = s.crc := rfl
@[simp] theorem tick_txlen (s : State) : (tick s).txlen = s.txlen := rfl
@[simp] theorem tick_rxlen (s : State) : (tick s).rxlen = s.rxlen := rfl
@[simp] theorem tick_rxstat (s : State) : (tick s).rxstat = s.rxstat := rfl
@[simp] theorem tick_fs64 (s : State) : (tick s).fs64 = s.fs64 := rfl
@[simp] theorem tick_seqcfg (s : State) : (tick s).seqcfg = s.seqcfg := rfl
@[simp] theorem tick_txcapMs (s : State) : (tick s).txcapMs = s.txcapMs := rfl
@[simp] theorem tick_chmode (s : State) : (tick s).chmode = s.chmode := rfl
@[simp] theorem tick_time (s : State) : (tick s).time = s.time + 1 := rfl
@[simp] theorem tick_link (s : State) : (tick s).link = s.link := rfl
@[simp] theorem tick_rx (s : State) : (tick s).rx = s.rx := rfl
@[simp] theorem tick_tx (s : State) : (tick s).tx = s.tx := rfl
@[simp] theorem tick_curCmd (s : State) : (tick s).curCmd = s.curCmd := rfl
@[simp] theorem tick_tStart (s : State) : (tick s).tStart = s.tStart := rfl
@[simp] theorem tick_rearm (s : State) : (tick s).rearm = s.rearm := rfl
@[simp] theorem tick_pos (s : State) : (tick s).pos = s.pos := rfl
@[simp] theorem tick_rxbuf (s : State) : (tick s).rxbuf = s.rxbuf := rfl
@[simp] theorem tick_txbuf (s : State) : (tick s).txbuf = s.txbuf := rfl
@[simp] theorem tick_inbound (s : State) : (tick s).inbound = s.inbound := rfl
@[simp] theorem tick_outbound (s : State) : (tick s).outbound = s.outbound := rfl
@[simp] theorem tick_rxFreeFrom (s : State) : (tick s).rxFreeFrom = s.rxFreeFrom := rfl
@[simp] theorem tick_rxMarks (s : State) : (tick s).rxMarks = s.rxMarks := rfl
@[simp] theorem tick_heldDleUnk (s : State) : (tick s).heldDleUnk = s.heldDleUnk := rfl
@[simp] theorem tick_freeCount (s : State) : (tick s).freeCount = s.freeCount := rfl
@[simp] theorem tick_readData (s : State) : (tick s).readData = s.readData := rfl
@[simp] theorem tick_pending (s : State) : (tick s).pending = s.pending := rfl

/-! ## `storeRx` -/

@[simp] theorem storeRx_ctrl (i : Nat) (b : Byte) (s : State) : (storeRx i b s).ctrl = s.ctrl :=
  by unfold storeRx; split <;> rfl
@[simp] theorem storeRx_status (i : Nat) (b : Byte) (s : State) : (storeRx i b s).status = s.status :=
  by unfold storeRx; split <;> rfl
@[simp] theorem storeRx_timeoutMs (i : Nat) (b : Byte) (s : State) : (storeRx i b s).timeoutMs = s.timeoutMs :=
  by unfold storeRx; split <;> rfl
@[simp] theorem storeRx_crc (i : Nat) (b : Byte) (s : State) : (storeRx i b s).crc = s.crc :=
  by unfold storeRx; split <;> rfl
@[simp] theorem storeRx_txlen (i : Nat) (b : Byte) (s : State) : (storeRx i b s).txlen = s.txlen :=
  by unfold storeRx; split <;> rfl
@[simp] theorem storeRx_rxlen (i : Nat) (b : Byte) (s : State) : (storeRx i b s).rxlen = s.rxlen :=
  by unfold storeRx; split <;> rfl
@[simp] theorem storeRx_rxstat (i : Nat) (b : Byte) (s : State) : (storeRx i b s).rxstat = s.rxstat :=
  by unfold storeRx; split <;> rfl
@[simp] theorem storeRx_fs64 (i : Nat) (b : Byte) (s : State) : (storeRx i b s).fs64 = s.fs64 :=
  by unfold storeRx; split <;> rfl
@[simp] theorem storeRx_seqcfg (i : Nat) (b : Byte) (s : State) : (storeRx i b s).seqcfg = s.seqcfg :=
  by unfold storeRx; split <;> rfl
@[simp] theorem storeRx_txcapMs (i : Nat) (b : Byte) (s : State) : (storeRx i b s).txcapMs = s.txcapMs :=
  by unfold storeRx; split <;> rfl
@[simp] theorem storeRx_chmode (i : Nat) (b : Byte) (s : State) : (storeRx i b s).chmode = s.chmode :=
  by unfold storeRx; split <;> rfl
@[simp] theorem storeRx_time (i : Nat) (b : Byte) (s : State) : (storeRx i b s).time = s.time :=
  by unfold storeRx; split <;> rfl
@[simp] theorem storeRx_link (i : Nat) (b : Byte) (s : State) : (storeRx i b s).link = s.link :=
  by unfold storeRx; split <;> rfl
@[simp] theorem storeRx_rx (i : Nat) (b : Byte) (s : State) : (storeRx i b s).rx = s.rx :=
  by unfold storeRx; split <;> rfl
@[simp] theorem storeRx_tx (i : Nat) (b : Byte) (s : State) : (storeRx i b s).tx = s.tx :=
  by unfold storeRx; split <;> rfl
@[simp] theorem storeRx_curCmd (i : Nat) (b : Byte) (s : State) : (storeRx i b s).curCmd = s.curCmd :=
  by unfold storeRx; split <;> rfl
@[simp] theorem storeRx_tStart (i : Nat) (b : Byte) (s : State) : (storeRx i b s).tStart = s.tStart :=
  by unfold storeRx; split <;> rfl
@[simp] theorem storeRx_rearm (i : Nat) (b : Byte) (s : State) : (storeRx i b s).rearm = s.rearm :=
  by unfold storeRx; split <;> rfl
@[simp] theorem storeRx_pos (i : Nat) (b : Byte) (s : State) : (storeRx i b s).pos = s.pos :=
  by unfold storeRx; split <;> rfl
@[simp] theorem storeRx_txbuf (i : Nat) (b : Byte) (s : State) : (storeRx i b s).txbuf = s.txbuf :=
  by unfold storeRx; split <;> rfl
@[simp] theorem storeRx_inbound (i : Nat) (b : Byte) (s : State) : (storeRx i b s).inbound = s.inbound :=
  by unfold storeRx; split <;> rfl
@[simp] theorem storeRx_outbound (i : Nat) (b : Byte) (s : State) : (storeRx i b s).outbound = s.outbound :=
  by unfold storeRx; split <;> rfl
@[simp] theorem storeRx_rxFreeFrom (i : Nat) (b : Byte) (s : State) : (storeRx i b s).rxFreeFrom = s.rxFreeFrom :=
  by unfold storeRx; split <;> rfl
@[simp] theorem storeRx_rxMarks (i : Nat) (b : Byte) (s : State) : (storeRx i b s).rxMarks = s.rxMarks :=
  by unfold storeRx; split <;> rfl
@[simp] theorem storeRx_heldDleUnk (i : Nat) (b : Byte) (s : State) : (storeRx i b s).heldDleUnk = s.heldDleUnk :=
  by unfold storeRx; split <;> rfl
@[simp] theorem storeRx_freeCount (i : Nat) (b : Byte) (s : State) : (storeRx i b s).freeCount = s.freeCount :=
  by unfold storeRx; split <;> rfl
@[simp] theorem storeRx_readData (i : Nat) (b : Byte) (s : State) : (storeRx i b s).readData = s.readData :=
  by unfold storeRx; split <;> rfl
@[simp] theorem storeRx_pending (i : Nat) (b : Byte) (s : State) : (storeRx i b s).pending = s.pending :=
  by unfold storeRx; split <;> rfl

/-! ## `storeTx` -/

@[simp] theorem storeTx_ctrl (i : Nat) (b : Byte) (s : State) : (storeTx i b s).ctrl = s.ctrl :=
  by unfold storeTx; split <;> rfl
@[simp] theorem storeTx_status (i : Nat) (b : Byte) (s : State) : (storeTx i b s).status = s.status :=
  by unfold storeTx; split <;> rfl
@[simp] theorem storeTx_timeoutMs (i : Nat) (b : Byte) (s : State) : (storeTx i b s).timeoutMs = s.timeoutMs :=
  by unfold storeTx; split <;> rfl
@[simp] theorem storeTx_crc (i : Nat) (b : Byte) (s : State) : (storeTx i b s).crc = s.crc :=
  by unfold storeTx; split <;> rfl
@[simp] theorem storeTx_txlen (i : Nat) (b : Byte) (s : State) : (storeTx i b s).txlen = s.txlen :=
  by unfold storeTx; split <;> rfl
@[simp] theorem storeTx_rxlen (i : Nat) (b : Byte) (s : State) : (storeTx i b s).rxlen = s.rxlen :=
  by unfold storeTx; split <;> rfl
@[simp] theorem storeTx_rxstat (i : Nat) (b : Byte) (s : State) : (storeTx i b s).rxstat = s.rxstat :=
  by unfold storeTx; split <;> rfl
@[simp] theorem storeTx_fs64 (i : Nat) (b : Byte) (s : State) : (storeTx i b s).fs64 = s.fs64 :=
  by unfold storeTx; split <;> rfl
@[simp] theorem storeTx_seqcfg (i : Nat) (b : Byte) (s : State) : (storeTx i b s).seqcfg = s.seqcfg :=
  by unfold storeTx; split <;> rfl
@[simp] theorem storeTx_txcapMs (i : Nat) (b : Byte) (s : State) : (storeTx i b s).txcapMs = s.txcapMs :=
  by unfold storeTx; split <;> rfl
@[simp] theorem storeTx_chmode (i : Nat) (b : Byte) (s : State) : (storeTx i b s).chmode = s.chmode :=
  by unfold storeTx; split <;> rfl
@[simp] theorem storeTx_time (i : Nat) (b : Byte) (s : State) : (storeTx i b s).time = s.time :=
  by unfold storeTx; split <;> rfl
@[simp] theorem storeTx_link (i : Nat) (b : Byte) (s : State) : (storeTx i b s).link = s.link :=
  by unfold storeTx; split <;> rfl
@[simp] theorem storeTx_rx (i : Nat) (b : Byte) (s : State) : (storeTx i b s).rx = s.rx :=
  by unfold storeTx; split <;> rfl
@[simp] theorem storeTx_tx (i : Nat) (b : Byte) (s : State) : (storeTx i b s).tx = s.tx :=
  by unfold storeTx; split <;> rfl
@[simp] theorem storeTx_curCmd (i : Nat) (b : Byte) (s : State) : (storeTx i b s).curCmd = s.curCmd :=
  by unfold storeTx; split <;> rfl
@[simp] theorem storeTx_tStart (i : Nat) (b : Byte) (s : State) : (storeTx i b s).tStart = s.tStart :=
  by unfold storeTx; split <;> rfl
@[simp] theorem storeTx_rearm (i : Nat) (b : Byte) (s : State) : (storeTx i b s).rearm = s.rearm :=
  by unfold storeTx; split <;> rfl
@[simp] theorem storeTx_pos (i : Nat) (b : Byte) (s : State) : (storeTx i b s).pos = s.pos :=
  by unfold storeTx; split <;> rfl
@[simp] theorem storeTx_rxbuf (i : Nat) (b : Byte) (s : State) : (storeTx i b s).rxbuf = s.rxbuf :=
  by unfold storeTx; split <;> rfl
@[simp] theorem storeTx_inbound (i : Nat) (b : Byte) (s : State) : (storeTx i b s).inbound = s.inbound :=
  by unfold storeTx; split <;> rfl
@[simp] theorem storeTx_outbound (i : Nat) (b : Byte) (s : State) : (storeTx i b s).outbound = s.outbound :=
  by unfold storeTx; split <;> rfl
@[simp] theorem storeTx_rxFreeFrom (i : Nat) (b : Byte) (s : State) : (storeTx i b s).rxFreeFrom = s.rxFreeFrom :=
  by unfold storeTx; split <;> rfl
@[simp] theorem storeTx_rxMarks (i : Nat) (b : Byte) (s : State) : (storeTx i b s).rxMarks = s.rxMarks :=
  by unfold storeTx; split <;> rfl
@[simp] theorem storeTx_heldDleUnk (i : Nat) (b : Byte) (s : State) : (storeTx i b s).heldDleUnk = s.heldDleUnk :=
  by unfold storeTx; split <;> rfl
@[simp] theorem storeTx_freeCount (i : Nat) (b : Byte) (s : State) : (storeTx i b s).freeCount = s.freeCount :=
  by unfold storeTx; split <;> rfl
@[simp] theorem storeTx_readData (i : Nat) (b : Byte) (s : State) : (storeTx i b s).readData = s.readData :=
  by unfold storeTx; split <;> rfl
@[simp] theorem storeTx_pending (i : Nat) (b : Byte) (s : State) : (storeTx i b s).pending = s.pending :=
  by unfold storeTx; split <;> rfl

end Sys2Proof.Machine
end

