-- ==== Sys2Proof/Laws/Ops.lean ====
section
/-! SUPPORT. One lemma per shared operation that says once everything it can do, for proofs to cite instead of unfolding
it. -/

namespace Sys2Proof.Machine

/-! ## Buffer reads -/

theorem withBytes_next {α : Type} {r : Except Fault α} {k : α → StepOutcome} {t : State} (h : withBytes r k = .next t) :
    ∃ x, r = .ok x ∧ k x = .next t := by
  cases r with
  | error e => cases h
  | ok x => exact ⟨x, rfl, h⟩

@[simp] theorem withBytes_ok {α : Type} (x : α) (k : α → StepOutcome) : withBytes (.ok x) k = k x := rfl

@[simp] theorem withBytes_error {α : Type} (e : Fault) (k : α → StepOutcome) :
    withBytes (.error e) k = .fault e := rfl

/-- `readTx` answers exactly the bytes that TXBUF holds. -/
theorem readTx_ok_iff (s : State) (n : Nat) : ∀ (i : Nat) (bytes : List Byte),
    readTx i n s = .ok bytes ↔ bytes.length = n ∧ ∀ k, k < n → s.txbuf.read (i + k) = bytes[k]? := by
  induction n with
  | zero =>
    intro i bytes
    constructor
    · intro h; cases h; exact ⟨rfl, fun k hk => absurd hk (by omega)⟩
    · rintro ⟨hl, -⟩; rw [List.length_eq_zero_iff.mp hl]; rfl
  | succ n ih =>
    intro i bytes
    cases hb : s.txbuf.read i with
    | none =>
      simp only [readTx, readTxByte, hb]
      refine ⟨nofun, fun ⟨hl, hk⟩ => ?_⟩
      have := hk 0 (by omega)
      simp [hb, hl] at this
    | some b =>
      simp only [readTx, readTxByte, hb]
      constructor
      · intro h
        cases hr : readTx (i + 1) n s with
        | error e => simp [hr] at h
        | ok bs =>
          simp only [hr, Except.ok.injEq] at h
          obtain ⟨hl, hk⟩ := (ih _ _).mp hr
          subst h
          refine ⟨by simp [hl], fun k hlt => ?_⟩
          cases k with
          | zero => simpa using hb
          | succ k => simpa [Nat.add_assoc, Nat.add_comm 1 k] using hk k (by omega)
      · rintro ⟨hl, hk⟩
        cases bytes with
        | nil => simp at hl
        | cons c cs =>
          have h0 : b = c := by simpa [hb] using hk 0 (by omega)
          have := (ih (i + 1) cs).mpr ⟨by simpa using hl, fun k hlt => by
            simpa [Nat.add_assoc, Nat.add_comm 1 k] using hk (k + 1) (by omega)⟩
          simp [this, h0]

/-- `readTx` faults only on a byte that TXBUF does not hold. -/
theorem readTx_error (s : State) (n : Nat) : ∀ (i : Nat) (f : Fault), readTx i n s = .error f →
    ∃ k, k < n ∧ f = .unwritten .tx (i + k) ∧ s.txbuf.read (i + k) = none := by
  induction n with
  | zero => intro i f h; cases h
  | succ n ih =>
    intro i f h
    cases hb : s.txbuf.read i with
    | none =>
      simp only [readTx, readTxByte, hb, Except.error.injEq] at h
      exact ⟨0, by omega, by simpa using h.symm, hb⟩
    | some b =>
      simp only [readTx, readTxByte, hb] at h
      cases hr : readTx (i + 1) n s with
      | ok bs => simp [hr] at h
      | error e =>
        simp only [hr, Except.error.injEq] at h
        obtain ⟨k, hk, hf, hn⟩ := ih _ _ hr
        exact ⟨k + 1, by omega, by rw [← h, hf]; congr 1; omega, by rwa [show i + (k + 1) = i + 1 + k by omega]⟩

/-- R72, R331: one RXBUF byte is the known byte, the next free value where it is unspecified, or else a fault. -/
theorem rxByte_cases (unspecified : Bool) (i : Nat) (s : State) :
    (∃ b, s.rxbuf.read i = some b ∧ rxByte unspecified i s = .ok (b, s))
      ∨ (s.rxbuf.read i = none ∧ unspecified = true ∧ rxByte unspecified i s = .ok (drawFree s))
      ∨ (s.rxbuf.read i = none ∧ unspecified = false ∧ rxByte unspecified i s = .error (.unwritten .rx i)) := by
  unfold rxByte
  cases s.rxbuf.read i <;> cases unspecified <;> simp

/-- Where RXBUF holds the bytes, `readRx` answers them and changes nothing. -/
theorem readRx_known (s : State) (bytes : List Byte) : ∀ (i : Nat),
    (∀ k, k < bytes.length → s.rxbuf.read (i + k) = bytes[k]?) → readRx i bytes.length s = .ok (bytes, s) := by
  induction bytes with
  | nil => intro i _; rfl
  | cons b rest ih =>
    intro i h
    have h0 : s.rxbuf.read i = some b := by simpa using h 0 (by simp)
    have hr := ih (i + 1) fun k hk => by
      simpa [Nat.add_assoc, Nat.add_comm 1 k] using h (k + 1) (by simpa using hk)
    simp [readRx, readRxByte, rxByte, h0, hr]

/-- `readRx` answers as many bytes as it is asked for, each the one RXBUF holds where it holds one, and changes only the
count of free values. -/
theorem readRx_ok (n : Nat) : ∀ (i : Nat) (s t : State) (bytes : List Byte), readRx i n s = .ok (bytes, t) →
    bytes.length = n ∧ t = { s with freeCount := t.freeCount }
      ∧ ∀ k b, k < n → s.rxbuf.read (i + k) = some b → bytes[k]? = some b := by
  induction n with
  | zero =>
    intro i s t bytes h
    simp only [readRx, Except.ok.injEq, Prod.mk.injEq] at h
    obtain ⟨rfl, rfl⟩ := h
    exact ⟨rfl, rfl, fun k b hk => absurd hk (by omega)⟩
  | succ n ih =>
    intro i s t bytes h
    simp only [readRx] at h
    cases hb : readRxByte i s with
    | error e => simp [hb] at h
    | ok p =>
      obtain ⟨b, s1⟩ := p
      simp only [hb] at h
      cases hr : readRx (i + 1) n s1 with
      | error e => simp [hr] at h
      | ok q =>
        obtain ⟨bs, s2⟩ := q
        simp only [hr, Except.ok.injEq, Prod.mk.injEq] at h
        obtain ⟨rfl, rfl⟩ := h
        obtain ⟨hl, hs, hk⟩ := ih _ _ _ _ hr
        have h1 : s1 = { s with freeCount := s1.freeCount } ∧ ∀ c, s.rxbuf.read i = some c → b = c := by
          rcases rxByte_cases (s.rxWritten i) i s with ⟨c, hc, e⟩ | ⟨hc, -, e⟩ | ⟨-, -, e⟩ <;>
            cases e.symm.trans hb
          · exact ⟨rfl, fun d hd => by simpa [hc] using hd⟩
          · exact ⟨rfl, fun d hd => by simp [hc] at hd⟩
        refine ⟨by simp [hl], by rw [hs, h1.1], fun k c hk' hc => ?_⟩
        cases k with
        | zero => simpa using h1.2 c (by simpa using hc)
        | succ k =>
          have hrx : s1.rxbuf = s.rxbuf := by rw [h1.1]
          have := hk k c (by omega) (by rw [hrx, show i + 1 + k = i + (k + 1) by omega]; exact hc)
          simpa using this

/-- The first `n` bytes that a state stores can be read, and reading them changes nothing. -/
theorem readRx_stored {n : Nat} {s : State} (h : Stored n s) :
    ∃ bytes : List Byte, bytes.length = n ∧ readRx 0 n s = .ok (bytes, s) := by
  refine ⟨(List.range n).map fun i => (s.rxbuf.read i).getD 0, by simp, ?_⟩
  have := readRx_known s ((List.range n).map fun i => (s.rxbuf.read i).getD 0) 0 fun k hk => by
    simp only [List.length_map, List.length_range] at hk
    obtain ⟨b, hb⟩ := Option.isSome_iff_exists.mp (h.2 k hk)
    simp [hk, hb]
  simpa using this

/-! ## Start checks and completions -/

theorem requireMode_next {allowed : Bool} {s t : State} {k : StepOutcome} (h : requireMode allowed s k = .next t) :
    (allowed = true ∧ k = .next t) ∨ (allowed = false ∧ t = complete .modeError s) := by
  unfold requireMode at h
  cases allowed with
  | true => exact .inl ⟨rfl, by simpa using h⟩
  | false => exact .inr ⟨rfl, by simpa using h.symm⟩

@[simp] theorem requireMode_true (s : State) (k : StepOutcome) : requireMode true s k = k := rfl

@[simp] theorem requireMode_false (s : State) (k : StepOutcome) :
    requireMode false s k = .next (complete .modeError s) := rfl

theorem sendLenCheck_next {m : Nat} {s t : State} {k : Nat → StepOutcome} (h : sendLenCheck m s k = .next t) :
    (Config.txbufSize < s.txCount ∧ t = complete .oversize s)
      ∨ (s.txCount ≤ Config.txbufSize ∧ s.txCount < m ∧ t = complete .tooShort s)
      ∨ (m ≤ s.txCount ∧ s.txCount ≤ Config.txbufSize ∧ k s.txCount = .next t) := by
  unfold sendLenCheck at h
  split at h
  · rename_i h1; exact .inl ⟨h1, by simpa using h.symm⟩
  · split at h
    · rename_i h1 h2; exact .inr (.inl ⟨by omega, h2, by simpa using h.symm⟩)
    · rename_i h1 h2; exact .inr (.inr ⟨by omega, by omega, h⟩)

/-- R305: what `complete` writes. -/
theorem complete_spec (r : Result) (s : State) :
    complete r s = { s with
      pos := none
      status := { done := true, err := s.status.err || decide (r ≠ .ok), hazard := s.status.hazard
                  ovr := s.status.ovr || s.status.done, result := r, lastCmd := s.status.lastCmd } } := rfl

/-- R72, R305: what the completion of a receive command writes. -/
theorem completeReceive_spec (r : Result) (s : State) :
    completeReceive r s
      = { complete r s with
          rxstat := { s.rxstat with dleUnk := s.rxstat.dleUnk || s.heldDleUnk }, heldDleUnk := false
          rxbuf := s.rxbuf.dropFrom s.rxlen.toNat, rxMarks := s.rxMarks ||| s.rxbuf.marks
          rxFreeFrom := s.rxlen.toNat } := rfl

theorem completeReceive_read (r : Result) (s : State) (i : Nat) :
    (completeReceive r s).rxbuf.read i = if i < s.rxlen.toNat then s.rxbuf.read i else none :=
  Memory.read_dropFrom _ _ _

/-- R331: the completion of a receive command keeps every written mark. -/
theorem completeReceive_rxWritten (r : Result) (s : State) {i : Nat} (hi : i < 1048) :
    (completeReceive r s).rxWritten i = s.rxWritten i := by
  simp only [State.rxWritten, completeReceive_read, completeReceive_rxMarks, BitVec.getLsbD_or, Memory.marks_getLsbD _ hi]
  split <;> cases (s.rxbuf.read i).isSome <;> simp

/-- R331: a store marks its byte and no other. -/
theorem storeRx_rxWritten (i : Nat) (b : Byte) (s : State) {j : Nat} (hi : i < Config.rxbufSize) :
    (storeRx i b s).rxWritten j = (s.rxWritten j || decide (j = i)) := by
  simp only [State.rxWritten, storeRx_read, storeRx_rxMarks, hi, and_true]
  split <;> simp_all

/-- R331: `readRx` faults only on a byte without the written mark. -/
theorem readRxByte_error {i : Nat} {s : State} {f : Fault} (h : readRxByte i s = .error f) :
    f = .unwritten .rx i ∧ s.rxWritten i = false := by
  rcases rxByte_cases (s.rxWritten i) i s with ⟨b, -, e⟩ | ⟨-, -, e⟩ | ⟨-, hw, e⟩ <;> cases e.symm.trans h
  exact ⟨rfl, hw⟩

/-- R243: the end of abort_sequence leaves the link IDLE or UNKNOWN, the bit engines reset and the command complete. -/
theorem endAbort_spec (sawOk : Bool) (after : AfterAbort) (s : State) :
    (endAbort sawOk after s).link = (if sawOk then Link.idle else .unknown)
      ∧ (endAbort sawOk after s).rx = RxEngine.init ∧ (endAbort sawOk after s).tx = TxEngine.init
      ∧ (endAbort sawOk after s).pos = none ∧ (endAbort sawOk after s).status.done = true := by
  cases sawOk <;> cases after <;> exact ⟨rfl, rfl, rfl, rfl, rfl⟩

/-! ## The frame check -/

/-- R106: what `check` does. -/
theorem check_next {n minlen : Nat} {chk : Bool} {s t : State} {k : Result → State → StepOutcome}
    (h : check n minlen chk s k = .next t) :
    ∃ (frame : List Byte) (s1 : State), readRx 0 n s = .ok (frame, s1)
      ∧ k (frameVerdict frame minlen chk) (applyCheck frame minlen chk s1) = .next t := by
  obtain ⟨⟨frame, s1⟩, hr, hk⟩ := withBytes_next h
  exact ⟨frame, s1, hr, hk⟩

/-- R106: `check` over bytes that RXBUF holds. -/
theorem check_known {minlen : Nat} {chk : Bool} {s : State} {k : Result → State → StepOutcome} (frame : List Byte)
    (h : ∀ i, i < frame.length → s.rxbuf.read i = frame[i]?) :
    check frame.length minlen chk s k
      = k (frameVerdict frame minlen chk) (applyCheck frame minlen chk s) := by
  unfold check
  rw [readRx_known s frame 0 fun i hi => by simpa using h i hi]
  rfl

/-! ## Waiting -/

/-- R244: `wait_result` with a token in hand. -/
theorem awaitResult_next {t : InToken} {s u : State} {k : DceRes → StepOutcome} (h : awaitResult t s k = .next u) :
    (((∃ b, t = .byte b) ∨ t = .res .other) ∧ u = s) ∨ ∃ r, r ≠ .other ∧ t = .res r ∧ k r = .next u := by
  unfold awaitResult at h
  split at h
  · exact .inl ⟨.inl ⟨_, rfl⟩, by simpa using h.symm⟩
  · exact .inl ⟨.inr rfl, by simpa using h.symm⟩
  · rename_i r hr
    exact .inr ⟨r, hr, rfl, h⟩

/-- R241: what holds of a state and is kept by every expired wait holds after `runTimeouts`. -/
theorem runTimeouts_induction {P : State → Prop}
    (hstep : ∀ s w, s.pos = some w → s.waitExpired = true → P s → P (onTimeout w s)) :
    ∀ (fuel : Nat) (s : State), P s → P (runTimeouts fuel s) := by
  intro fuel
  induction fuel with
  | zero => intro s h; exact h
  | succ fuel ih =>
    intro s h
    unfold runTimeouts
    split
    · exact h
    · rename_i w hw
      split
      · rename_i he; exact ih _ (hstep s w hw he h)
      · exact h

/-- R241: what holds of a state, is kept by every token taken and by every expired wait, holds after `runTokens`. -/
theorem runTokens_induction {P : State → Prop}
    (htok : ∀ s t w x ts, s.pos = some w → P s → onToken w x { s with inbound := ts } = .next t → P t)
    (htime : ∀ s w, s.pos = some w → s.waitExpired = true → P s → P (onTimeout w s)) :
    ∀ (ts : List InToken) (s t : State), P s → runTokens ts s = .next t → P t := by
  intro ts
  induction ts with
  | nil =>
    intro s t h hr
    have : runTimeouts 3 s = t := by simpa [runTokens] using hr
    exact this ▸ runTimeouts_induction htime 3 s h
  | cons x ts ih =>
    intro s t h hr
    unfold runTokens at hr
    split at hr
    · have : s = t := by simpa using hr
      exact this ▸ h
    · rename_i w hw
      split at hr
      · rename_i s1 hs1; exact ih s1 t (htok s s1 w x ts hw h hs1) hr
      · cases hr
      · cases hr

/-- R241: an ENGINE step keeps what every token taken and every expired wait keep. -/
theorem engineStep_induction {P : State → Prop}
    (htok : ∀ s t w x ts, s.pos = some w → P s → onToken w x { s with inbound := ts } = .next t → P t)
    (htime : ∀ s w, s.pos = some w → s.waitExpired = true → P s → P (onTimeout w s))
    {s t : State} (h : P s) (hr : engineStep s = .next t) : P t := by
  unfold engineStep at hr
  split at hr
  · have : s = t := by simpa using hr
    exact this ▸ h
  · have : runTimeouts 3 s = t := by simpa using hr
    exact this ▸ runTimeouts_induction htime 3 s h
  · exact runTokens_induction htok htime _ s t h hr

@[simp] theorem runTokens_nil (s : State) : runTokens [] s = .next (runTimeouts 3 s) := rfl

/-- R241: the ENGINE takes the head token at a wait point. -/
theorem runTokens_cons {s s1 : State} {w : WaitPoint} {x : InToken} {ts : List InToken} (hw : s.pos = some w)
    (h : onToken w x { s with inbound := ts } = .next s1) : runTokens (x :: ts) s = runTokens ts s1 := by
  unfold runTokens
  split
  · rename_i hn; simp [hw] at hn
  · rename_i w' hw'
    have : w' = w := by simpa [hw, eq_comm] using hw'
    subst this
    rw [h]
    cases ts <;> rfl

/-- R305: after the completion the ENGINE takes no step. -/
theorem runTokens_idle {s : State} (hw : s.pos = none) (ts : List InToken) : runTokens ts s = .next s := by
  cases ts with
  | nil => simp [runTokens, runTimeouts, hw]
  | cons x ts => simp [runTokens, hw]

/-! ## The host window -/

theorem unlessBusy_idle {s : State} (h : s.pos = none) (written : State) : unlessBusy s written = written := by
  simp [unlessBusy, State.busy, h]

theorem unlessBusy_busy {s : State} {w : WaitPoint} (h : s.pos = some w) (written : State) :
    unlessBusy s written = setHazard s := by
  simp [unlessBusy, State.busy, h]

/-- R80: a CMD write with no command running runs the decoded command, or completes with ILLEGAL_CMD. -/
theorem startCommand_next {w : Word} {s t : State} (h : startCommand w s = .next t) :
    (∃ i, decode w = .ok i ∧ exec i s = .next t) ∨ ((∃ e, decode w = .error e) ∧ t = illegalCommand w s) := by
  unfold startCommand at h
  split at h
  · rename_i i hi; exact .inl ⟨i, hi, h⟩
  · rename_i e he; exact .inr ⟨⟨e, he⟩, by simpa using h.symm⟩

end Sys2Proof.Machine
end

