-- ==== Sys2Proof/Laws/PerInstr.lean ====
section
/-! SUPPORT. The fields of an assembled command word, and the family EncodeLegal: the word of a well-formed instruction is
legal by R84's table. -/

namespace Sys2Proof

/-! ## The fields of a command word -/

@[simp] theorem opField_cmdWord (op a8 : Byte) (a16 : Half) : opField (cmdWord op a8 a16) = op := by
  apply BitVec.eq_of_getLsbD_eq
  intro i hi
  simp only [opField, cmdWord, BitVec.getLsbD_extractLsb', BitVec.getLsbD_append]
  simp [hi, show i < 16 by omega]

@[simp] theorem arg8_cmdWord (op a8 : Byte) (a16 : Half) : arg8 (cmdWord op a8 a16) = a8 := by
  apply BitVec.eq_of_getLsbD_eq
  intro i hi
  simp only [arg8, cmdWord, BitVec.getLsbD_extractLsb', BitVec.getLsbD_append]
  simp [hi, show 8 + i < 16 by omega]

@[simp] theorem arg16_cmdWord (op a8 : Byte) (a16 : Half) : arg16 (cmdWord op a8 a16) = a16 := by
  apply BitVec.eq_of_getLsbD_eq
  intro i hi
  simp only [arg16, cmdWord, BitVec.getLsbD_extractLsb', BitVec.getLsbD_append]
  simp [hi]

/-- A row whose mask leaves ARG16 free accepts the word of its opcode whatever ARG16 is. -/
theorem cmdWord_lowHalf (op a8 : Byte) (a16 : Half) :
    cmdWord op a8 a16 &&& 0x0000FFFF = cmdWord op a8 0 := by
  apply BitVec.eq_of_getLsbD_eq
  intro i hi
  simp only [cmdWord, BitVec.getLsbD_and, BitVec.getLsbD_append]
  have hm : ∀ j : Fin 32, (65535#32).getLsbD j.val = decide (j.val < 16) := by decide
  have hmi := hm ⟨i, hi⟩
  by_cases h : i < 16 <;> simp [h] at hmi ⊢ <;> simp [hmi]

/-- A word that a row of the table accepts is legal. -/
theorem legal_of_row {r : OpRow} {w : Word} (hr : r ∈ opRows) (h : r.accepts w = true) : legal w = true :=
  List.any_eq_true.mpr ⟨r, hr, h⟩

namespace Laws.EncodeLegal

/-- R84: the word of a well-formed instruction is legal. -/
def Statement (i : Instr) : Prop := WellFormed i → legal (encode i) = true

theorem nop : Statement .nop := fun _ => by decide
theorem crcInit : Statement .crcInit := fun _ => by decide
theorem crcFeed (b : Byte) : Statement (.crcFeed b) := fun _ => by revert b; decide
theorem frameFcs : Statement .frameFcs := fun _ => by decide
theorem frameCheck (chkCrc : Bool) : Statement (.frameCheck chkCrc) := fun _ => by revert chkCrc; decide
theorem sendHdlc : Statement .sendHdlc := fun _ => by decide
theorem recvHdlc : Statement .recvHdlc := fun _ => by decide
theorem sendRaw : Statement .sendRaw := fun _ => by decide

theorem recvRaw (count : Half) : Statement (.recvRaw count) := by
  intro h
  refine legal_of_row (r := ⟨0x13, 0x0000FFFF, true⟩) (by decide) ?_
  simp only [WellFormed, wellFormed, Bool.and_eq_true, decide_eq_true_eq] at h
  simp only [OpRow.accepts, encode, cmdWord_lowHalf, arg16_cmdWord]
  simpa using ⟨by decide, h⟩

theorem bitsReset (rx tx : Bool) : Statement (.bitsReset rx tx) := fun _ => by revert rx tx; decide
theorem sendBits (flags : Byte) (flush : Bool) : Statement (.sendBits flags flush) := fun _ => by
  revert flags flush; decide
theorem recvBits : Statement .recvBits := fun _ => by decide
theorem sendV34 : Statement .sendV34 := fun _ => by decide
theorem recvV34 : Statement .recvV34 := fun _ => by decide
theorem waitChannel (awaitCtrl : Bool) : Statement (.waitChannel awaitCtrl) := fun _ => by revert awaitCtrl; decide
theorem sendInd (x : Byte) : Statement (.sendInd x) := fun _ => by revert x; decide
theorem txCarrier (mod : Byte) (hdlc : Bool) : Statement (.txCarrier mod hdlc) := fun _ => by revert mod hdlc; decide
theorem rxCarrier (mod : Byte) (hdlc : Bool) : Statement (.rxCarrier mod hdlc) := fun _ => by revert mod hdlc; decide
theorem txSilence (n : Byte) : Statement (.txSilence n) := fun _ => by revert n; decide
theorem rxSilence (n : Byte) : Statement (.rxSilence n) := fun _ => by revert n; decide
theorem rxDropWait : Statement .rxDropWait := fun _ => by decide
theorem txEnd : Statement .txEnd := fun _ => by decide

theorem delay (ms : Half) : Statement (.delay ms) := by
  intro _
  refine legal_of_row (r := ⟨0x46, 0x0000FFFF, false⟩) (by decide) ?_
  simp only [OpRow.accepts, encode, cmdWord_lowHalf, Bool.not_false, Bool.true_or, Bool.and_true]
  decide

theorem abort : Statement .abort := fun _ => by decide

end Laws.EncodeLegal

end Sys2Proof
end

