-- ==== Sys2Proof/Tests/Slice0.lean ====
section
/-! SUPPORT. Tests: ill-formed terms refused, every constructor's decoding from a word of R93's table, one-step runs of the
spec's own examples, and for every statement with hypotheses a state and operands that meet them. -/

namespace Sys2Proof.Tests

open Sys2Proof.Machine Sys2Proof.Claims

/-! ## Well-formedness -/

theorem test_recvRaw_zero_refused : wellFormed (.recvRaw 0) = false := by decide
theorem test_recvRaw_past_buffer_refused : wellFormed (.recvRaw 1049) = false := by decide
theorem test_recvRaw_bounds_accepted : wellFormed (.recvRaw 1) = true ∧ wellFormed (.recvRaw 1048) = true := by decide

/-! ## Decoding: the words of R93's table, written as they stand there -/

theorem test_decode_nop : decode 0x00000000 = .ok .nop := by decide
theorem test_decode_crcInit : decode 0x00000001 = .ok .crcInit := by decide
theorem test_decode_crcFeed : decode 0x00005F02 = .ok (.crcFeed 0x5F) := by decide
theorem test_decode_frameFcs : decode 0x00000003 = .ok .frameFcs := by decide
theorem test_decode_frameCheck :
    decode 0x00000104 = .ok (.frameCheck true) ∧ decode 0x00000004 = .ok (.frameCheck false) := by decide
theorem test_decode_sendHdlc : decode 0x00000010 = .ok .sendHdlc := by decide
theorem test_decode_recvHdlc : decode 0x00000011 = .ok .recvHdlc := by decide
theorem test_decode_sendRaw : decode 0x00000012 = .ok .sendRaw := by decide
theorem test_decode_recvRaw : decode 0x01000013 = .ok (.recvRaw 256) := by decide
theorem test_decode_bitsReset : decode 0x00000320 = .ok (.bitsReset true true) := by decide
theorem test_decode_sendBits :
    decode 0x00010221 = .ok (.sendBits 2 true) ∧ decode 0x00000021 = .ok (.sendBits 0 false) := by decide
theorem test_decode_recvBits : decode 0x00000022 = .ok .recvBits := by decide
theorem test_decode_sendV34 : decode 0x00000030 = .ok .sendV34 := by decide
theorem test_decode_recvV34 : decode 0x00000031 = .ok .recvV34 := by decide
theorem test_decode_waitChannel : decode 0x00000132 = .ok (.waitChannel true) := by decide
theorem test_decode_sendInd : decode 0x00006D33 = .ok (.sendInd 0x6D) := by decide
theorem test_decode_txCarrier :
    decode 0x00010340 = .ok (.txCarrier 3 true) ∧ decode 0x00001840 = .ok (.txCarrier 24 false) := by decide
theorem test_decode_rxCarrier :
    decode 0x00010341 = .ok (.rxCarrier 3 true) ∧ decode 0x00003041 = .ok (.rxCarrier 48 false) := by decide
theorem test_decode_txSilence : decode 0x00000842 = .ok (.txSilence 8) := by decide
theorem test_decode_rxSilence : decode 0x00001443 = .ok (.rxSilence 20) := by decide
theorem test_decode_rxDropWait : decode 0x00000044 = .ok .rxDropWait := by decide
theorem test_decode_txEnd : decode 0x00000045 = .ok .txEnd := by decide
theorem test_decode_delay : decode 0x004B0046 = .ok (.delay 75) := by decide
theorem test_decode_abort : decode 0x00000047 = .ok .abort := by decide

theorem test_decode_refusals :
    decode 0x00000048 = .error .reservedOpcode ∧ decode 0x00000005 = .error .reservedOpcode
      ∧ decode 0x00010010 = .error .reservedBits ∧ decode 0x00000204 = .error .reservedBits
      ∧ decode 0x00000013 = .error .countOutOfRange ∧ decode 0x04190013 = .error .countOutOfRange := by decide

/-- R84: no two rows of the table accept one word. -/
theorem test_rows_disjoint : opRows.Pairwise (fun a b => a.pattern &&& 0xFF ≠ b.pattern &&& 0xFF) := by decide

/-! ## Small states -/

/-- The state after reset with a frame body in TXBUF. -/
def txState (link : Link) (v34 : Bool) (body : List Byte) : State :=
  { State.reset with
    ctrl := { State.reset.ctrl with v34 := v34 }, link := link
    txlen := BitVec.ofNat 11 body.length, txbuf := Memory.writeAll [] 0 body }

/-- The state after reset with a link state, a dialect and tokens in the inbound FIFO. -/
def rxState (link : Link) (v34 : Bool) (script : List InToken) : State :=
  { State.reset with ctrl := { State.reset.ctrl with v34 := v34 }, link := link, inbound := script }

/-- The next state of an outcome. -/
def nextOf : StepOutcome → Option State
  | .next t => some t
  | _ => none

/-- The fault of an outcome. -/
def faultOf : StepOutcome → Option Fault
  | .fault f => some f
  | _ => none

/-- A command's CMD write step and one ENGINE step after it. -/
def ran (i : Instr) (s : State) : Option State := (nextOf (exec i s)).bind fun t => nextOf (engineStep t)

/-- DCE bytes as inbound tokens. -/
def inBytes (l : List Byte) : List InToken := l.map .byte

/-- DCE bytes as outbound tokens. -/
def outBytes (l : List Byte) : List OutToken := l.map .byte

/-! ## The spec's examples -/

/-- R101. -/
theorem test_fcs_rcp : fcs [0xFF, 0xC0, 0x61] = 0x96D3 := by decide +kernel

/-- R111. -/
theorem test_nop : (nextOf (exec .nop State.reset)).map (fun t => (t.status.result, t.status.done)) = some (.ok, true) := by
  decide +kernel

/-- R112. -/
theorem test_crcInit : (nextOf (exec .crcInit { State.reset with crc := 0x1234 })).map (·.crc) = some 0xFFFF := by decide +kernel

/-- R113. -/
theorem test_crcFeed : ((nextOf (feedAll [0xFF, 0xC8, 0x5F] State.reset)).map (·.crc)) = some 0x3718 := by decide +kernel

/-- R110. -/
theorem test_frameFcs : (nextOf (exec .frameFcs (txState .unknown false [0xFF, 0xC8, 0x5F]))).map
    (fun t => (t.txlen, t.crc, t.txbuf.map (·.2))) = some (5, 0x3718, [0xFF, 0xC8, 0x5F, 0xC8, 0xE7]) := by decide +kernel

/-- R114. -/
theorem test_frameCheck : (nextOf (exec (.frameCheck true)
      { State.reset with rxlen := 5, rxbuf := Memory.writeAll [] 0 [0xFF, 0xC8, 0x31, 0x45, 0x8F] })).map
    (fun t => (t.rxstat.word, t.crc, t.status.result)) = some (0x0000317F, 0x1D0F, .ok) := by decide +kernel

/-- R331: FRAME_CHECK of a byte past RXLEN that nothing has written faults after a receive command too. -/
theorem test_frameCheck_unwritten :
    (ran (.recvRaw 1) (rxState .rxData false (inBytes [0x55]))).map (fun t => faultOf (exec (.frameCheck false) { t with rxlen := 2 }))
      = some (some (.unwritten .rx 1)) := by decide +kernel

/-- R132. -/
theorem test_sendHdlc : (ran .sendHdlc { txState .txHdlc false [0xFF, 0xC8, 0x5F] with inbound := [.res .ok] }).map
    (fun t => (t.outbound, t.status.result, t.link))
      = some (outBytes [0xFF, 0x13, 0xFA, 0x13, 0xE7, 0x10, 0x03], .ok, .idle) := by decide +kernel

/-- R136. -/
theorem test_recvHdlc : (ran .recvHdlc
      (rxState .rxHdlc false (inBytes [0x55, 0xFF, 0x13, 0xFA, 0x13, 0xE7, 0x10, 0x03] ++ [.res .ok]))).map
    (fun t => (t.rxbuf.map (·.2), t.rxstat.fcf, t.status.result, t.link, t.crc))
      = some ([0xFF, 0xC8, 0x5F, 0xC8, 0xE7], 0x5F, .ok, .idle, 0x1D0F) := by decide +kernel

/-- V3.75: an unknown pair shows in DLE_UNK at the completion (R134), and not before it (R71). -/
theorem test_recvHdlc_unknown_pair :
    let s := rxState .rxHdlc false (inBytes [0xFF, 0x10, 0x41, 0x13, 0xFA, 0x13, 0xE7, 0x10, 0x03])
    (ran .recvHdlc s).map (·.rxstat.word) = some 0
      ∧ (ran .recvHdlc { s with inbound := s.inbound ++ [.res .ok] }).map (·.rxstat.word) = some 0x00015F7F := by
  decide +kernel

/-- R140. -/
theorem test_sendRaw : (nextOf (exec .sendRaw (txState .txData false [0x00, 0x10, 0x00]))).map
    (fun t => (t.outbound, t.status.result, t.link)) = some (outBytes [0x00, 0x10, 0x10, 0x00], .ok, .txData) := by decide +kernel

/-- R142. -/
theorem test_recvRaw : (ran (.recvRaw 4)
      (rxState .rxData false (inBytes [0x00, 0x10, 0x10, 0x00, 0x00, 0x10, 0x03] ++ [.res .noCarrier]))).map
    (fun t => (t.rxbuf.map (·.2), t.rxlen, t.status.result, t.inbound))
      = some ([0x00, 0x10, 0x00, 0x00], 4, .ok, inBytes [0x10, 0x03] ++ [.res .noCarrier]) := by decide +kernel

/-- R185. -/
theorem test_bitsReset : (nextOf (exec (.bitsReset true false)
      { State.reset with rx := { sync := .sync, ones := 0, pend := List.replicate 40 true, backlog := [] } })).map
    (fun t => (bitstateWord t)) = some 0 := by decide +kernel

/-- R186. -/
theorem test_sendBits : (nextOf (exec (.sendBits 1 true) (txState .txData false [0xFF, 0xC0, 0x61]))).map
    (fun t => (t.outbound, t.tx.nbits))
      = some (outBytes [0x7E, 0xDF, 0x07, 0x18, 0xA6, 0x2D, 0xFB, 0xF9], 0) := by decide +kernel

/-- R187. -/
theorem test_recvBits : (ran .recvBits
      (rxState .rxData false (inBytes [0x7E, 0xDF, 0x47, 0x30, 0x8A, 0xC6, 0xFB, 0xF9]))).map
    (fun t => (t.rxbuf.map (·.2), t.rxlen, t.status.result, t.rx.sync))
      = some ([0xFF, 0xC8, 0x31, 0x45, 0x8F], 5, .ok, .sync) := by decide +kernel

/-- R215. -/
theorem test_sendV34 : (nextOf (exec .sendV34 (txState .unknown true [0xFF, 0xC8, 0x31]))).map
    (fun t => (t.outbound, t.status.result))
      = some (outBytes [0xFF, 0x13, 0x8C, 0xA2, 0xF1, 0x10, 0x03], .ok) := by decide +kernel

/-- R216. -/
theorem test_recvV34 : (ran .recvV34
      (rxState .unknown true (inBytes [0x10, 0x6D, 0xFF, 0x13, 0x8C, 0xA2, 0xF1, 0x10, 0x03]))).map
    (fun t => (t.chmode.controlActive, t.chmode.lastInd, t.rxbuf.map (·.2), t.rxlen, t.status.result))
      = some (true, 0x6D, [0xFF, 0xC8, 0x31, 0x45, 0x8F], 5, .ok) := by decide +kernel

/-- R217. -/
theorem test_waitChannel : (ran (.waitChannel false)
      (rxState .unknown true (inBytes [0x10, 0x70, 0x10, 0x7A, 0x10, 0x6B]))).map
    (fun t => (t.chmode.prate, t.chmode.controlActive, t.chmode.lastInd, t.status.result))
      = some (0x7A, false, 0x6B, .ok) := by decide +kernel

/-- R218. -/
theorem test_sendInd : (nextOf (exec (.sendInd 0x6D) (rxState .unknown true []))).map (·.outbound)
    = some (outBytes [0x10, 0x6D]) := by decide +kernel

/-- R250. -/
theorem test_txCarrier : (ran (.txCarrier 3 true) (rxState .idle false [.res .connect])).map
    (fun t => (t.outbound, t.link, t.status.result)) = some ([.cmd (.fth 3)], .txHdlc, .ok) := by decide +kernel

/-- R251. -/
theorem test_rxCarrier : (ran (.rxCarrier 48 false) (rxState .idle false [.res .fcerror, .res .fcerror, .res .connect])).map
    (fun t => (t.outbound, t.link, t.status.result)) = some (List.replicate 3 (.cmd (.frm 48)), .rxData, .ok) := by decide +kernel

/-- R252. -/
theorem test_txSilence : (ran (.txSilence 8) (rxState .idle false [.res .ok])).map (fun t => (t.outbound, t.status.result))
    = some ([.cmd (.fts 8)], .ok) := by decide +kernel

/-- R253. -/
theorem test_rxSilence : (ran (.rxSilence 20) (rxState .idle false [.res .ok])).map (fun t => (t.outbound, t.status.result))
    = some ([.cmd (.frs 20)], .ok) := by decide +kernel

/-- R254. -/
theorem test_rxDropWait : (ran .rxDropWait (rxState .idle false [.res .error, .res .noCarrier])).map
    (fun t => (t.outbound, t.link, t.status.result)) = some ([.cmd (.frh 3)], .idle, .ok) := by decide +kernel

/-- R255. -/
theorem test_txEnd : (ran .txEnd (rxState .txData false [.res .ok])).map (fun t => (t.outbound, t.link, t.status.result))
    = some (outBytes [0x10, 0x03], .idle, .ok) := by decide +kernel

/-- R256: at TIME 1000, DELAY 75 is over at TIME 1075 and not before. -/
theorem test_delay :
    ((nextOf (exec (.delay 75) { State.reset with time := 1000 })).bind fun t =>
        nextOf (engineStep { t with time := 1074 })).map (·.busy) = some true
      ∧ ((nextOf (exec (.delay 75) { State.reset with time := 1000 })).bind fun t =>
        nextOf (engineStep { t with time := 1075 })).map (fun t => (t.busy, t.status.result)) = some (false, .ok) := by
  decide +kernel

/-- R257. -/
theorem test_abort : (ran .abort (rxState .unknown false [.res .ok])).map (fun t => (t.outbound, t.link, t.status.result))
    = some (outBytes [0x18], .idle, .ok) := by decide +kernel

/-- R302: RECV_BITS with the link IDLE. -/
theorem test_mode_error : (nextOf (exec .recvBits (rxState .idle false []))).map (fun t => (t.status.result, t.busy))
    = some (.modeError, false) := by decide +kernel

/-- R330: SEQCFG after reset. -/
theorem test_reset_seqcfg : readReg 0x28 State.reset = 0x03E81803 := by decide +kernel

/-! ## States and operands that meet the statements' hypotheses -/

theorem replicate_le {n m : Nat} {b : Byte} (h : n ≤ m) : (List.replicate n b).length ≤ m := by
  rw [List.length_replicate]; exact h

theorem le_replicate {n m : Nat} {b : Byte} (h : m ≤ n) : m ≤ (List.replicate n b).length := by
  rw [List.length_replicate]; exact h

/-- A body that `txState` holds. -/
theorem txState_body (link : Link) (v34 : Bool) (body : List Byte) (h : body.length ≤ 2047) :
    TxBody (txState link v34 body) body := by
  refine ⟨?_, fun i hi => ?_⟩
  · simp only [txState, BitVec.toNat_ofNat]; exact Nat.mod_eq_of_lt (by omega)
  · simp [txState, Memory.read_writeAll, hi]

theorem witness_DecodeOfEncode : WellFormed (.recvRaw 1) ∧ WellFormed (.recvRaw 1048) ∧ WellFormed .nop := by decide

theorem witness_EncodeOfDecode : decode 0x04180013 = .ok (.recvRaw 1048) ∧ decode 0xFFFF0046 = .ok (.delay 0xFFFF) := by
  decide

theorem witness_LegalWordsAndIllegalEffect :
    State.reset.pos = none ∧ legal 0x00000048 = false ∧ legal 0x04190013 = false := by decide

theorem witness_StepRunsTheDecodedCommand :
    let s := { State.reset with pending := [.host (.write .w32 0x000C 0x00005F02), .tick] }
    s.pos = none ∧ s.pending = .host (.write .w32 0x000C 0x00005F02) :: [.tick]
      ∧ decode 0x00005F02 = .ok (.crcFeed 0x5F) := by decide

theorem witness_CrcResidueAndErrorDetection :
    (0x61 : Byte) ≠ 0x60 ∧ crc16 0xFFFF ([0xFF, 0xC0] ++ 0x61 :: [0x96, 0xD3]) = 0x1D0F := by decide +kernel

theorem witness_NopAndCrcCommands :
    (0x00000100 : Word).extractLsb' 0 8 = (0x00 : Byte) ∧ (0x00000100 : Word) ≠ 0
      ∧ (0x80000001 : Word).extractLsb' 0 8 = (0x01 : Byte) ∧ (0x80000001 : Word) ≠ 1
      ∧ (0x00010002 : Word).extractLsb' 0 8 = (0x02 : Byte)
      ∧ (0x00010002 : Word).extractLsb' 16 16 ≠ (0 : Half) := by decide

theorem witness_FrameFcsAppends :
    (∃ body : List Byte, TxBody (txState .unknown false body) body ∧ body.length = 3)
      ∧ (∃ body : List Byte, TxBody (txState .unknown false body) body ∧ body.length + 2 = 1048)
      ∧ 1046 < ({ State.reset with txlen := 1047 } : State).txlen.toNat
      ∧ ({ State.reset with txlen := 2 } : State).txlen.toNat < 3
      ∧ (0x00000103 : Word).extractLsb' 0 8 = (0x03 : Byte) ∧ (0x00000103 : Word) ≠ 3 := by
  refine ⟨⟨[0xFF, 0xC8, 0x5F], txState_body _ _ _ (by decide), rfl⟩,
    ⟨List.replicate 1046 0, txState_body _ _ _ (replicate_le (by decide)), by rw [List.length_replicate]⟩, by decide, by decide, by decide, by decide⟩

/-- A frame that an RXBUF made of it holds. -/
theorem writeAll_holds (frame : List Byte) : Holds (Memory.writeAll [] 0 frame) frame := fun i hi => by
  simp [Memory.read_writeAll, hi]

theorem witness_FrameCheckReports :
    (∃ frame : List Byte, frame.length = 1048 ∧ Holds (Memory.writeAll [] 0 frame) frame
        ∧ ({ State.reset with rxlen := 1048 } : State).rxlen.toNat = frame.length)
      ∧ (∃ frame : List Byte, frame.length = 0 ∧ Holds (Memory.writeAll [] 0 frame) frame
        ∧ State.reset.rxlen.toNat = frame.length)
      ∧ 1048 < ({ State.reset with rxlen := 1049 } : State).rxlen.toNat
      ∧ (0x00000204 : Word).extractLsb' 0 8 = (0x04 : Byte) ∧ (0x00000204 : Word) ≠ 4 ∧ (0x00000204 : Word) ≠ 0x104 := by
  refine ⟨⟨List.replicate 1048 0, List.length_replicate, writeAll_holds _, by rw [List.length_replicate]; rfl⟩, ⟨[], rfl, writeAll_holds _, rfl⟩, by decide,
    by decide, by decide, by decide⟩

theorem witness_BitsResetResets :
    (0x00000420 : Word).extractLsb' 0 8 = (0x20 : Byte) ∧ (0x00000420 : Word).extractLsb' 10 22 ≠ (0 : BitVec 22) := by
  decide

theorem witness_FlushPadCompletesOneByte :
    (∃ e : TxEngine, e.nbits = 0) ∧ (∃ e : TxEngine, e.nbits = 1 ∧ e.acc.toNat < 2 ^ e.nbits)
      ∧ ∃ e : TxEngine, e.nbits = 7 ∧ e.acc.toNat < 2 ^ e.nbits :=
  ⟨⟨⟨0, 0, 0⟩, rfl⟩, ⟨⟨1, 1, 0⟩, by decide⟩, ⟨⟨127, 7, 0⟩, by decide⟩⟩

theorem witness_SendRawSends (body : List Byte) (h : body = [] ∨ body = List.replicate 1048 0x10) :
    let s := txState .txData false body
    s.ctrl.v34 = false ∧ s.link = .txData ∧ TxBody s body ∧ body.length ≤ 1048 := by
  rcases h with rfl | rfl
  · exact ⟨rfl, rfl, txState_body _ _ _ (by decide), by decide⟩
  · exact ⟨rfl, rfl, txState_body _ _ _ (replicate_le (by decide)), replicate_le (by decide)⟩

theorem witness_SendBitsSends (body : List Byte) (h : body = [] ∨ body = List.replicate 1048 0xFF) :
    let s := txState .txData false body
    s.ctrl.v34 = false ∧ s.link = .txData ∧ TxBody s body ∧ body.length ≤ 1048
      ∧ (body.length = 0 ∨ 3 ≤ body.length) := by
  rcases h with rfl | rfl
  · exact ⟨rfl, rfl, txState_body _ _ _ (by decide), by decide, by decide⟩
  · exact ⟨rfl, rfl, txState_body _ _ _ (replicate_le (by decide)), replicate_le (by decide), .inr (le_replicate (by decide))⟩

theorem witness_TransmitEngineLineBits :
    let e : TxEngine := ⟨0x7F, 7, 0⟩
    e.nbits ≤ 7 ∧ e.acc.toNat < 2 ^ e.nbits ∧ e.ones = 0 := by decide

theorem witness_SendV34Sends (body : List Byte) (h : body = [0xFF, 0xC8, 0x31] ∨ body = List.replicate 1048 0) :
    let s := txState .unknown true body
    s.ctrl.v34 = true ∧ TxBody s body ∧ 3 ≤ body.length ∧ body.length ≤ 1048 := by
  rcases h with rfl | rfl
  · exact ⟨rfl, txState_body _ _ _ (by decide), by decide, by decide⟩
  · exact ⟨rfl, txState_body _ _ _ (replicate_le (by decide)), le_replicate (by decide), replicate_le (by decide)⟩

theorem witness_SendIndSends :
    (rxState .idle true []).ctrl.v34 = true ∧ State.reset.ctrl.v34 = false
      ∧ (0x00010033 : Word).extractLsb' 0 8 = (0x33 : Byte) ∧ (0x00010033 : Word).extractLsb' 16 16 ≠ (0 : Half) := by
  decide

theorem witness_ModeErrorsChangeOnlyStatus :
    modeOk .sendHdlc State.reset = false
      ∧ ∃ t, modeOk .nop State.reset = true ∧ exec .nop State.reset = .next t ∧ t.pos = none :=
  ⟨by decide, _, by decide, rfl, rfl⟩

theorem witness_SendLengthErrors :
    (let s : State := { txState .txHdlc false [] with txlen := 1049 };
      modeOk .sendHdlc s = true ∧ 1048 < s.txlen.toNat)
      ∧ (let s : State := { txState .txData false [] with txlen := 2047 };
        modeOk .sendRaw s = true ∧ modeOk (.sendBits 1 true) s = true ∧ 1048 < s.txlen.toNat)
      ∧ (let s : State := { txState .idle true [] with txlen := 2 }; modeOk .sendV34 s = true ∧ s.txlen.toNat < 3)
      ∧ (let s : State := { txState .txData false [] with txlen := 2 };
        modeOk (.sendBits 0 false) s = true ∧ (s.txlen.toNat = 1 ∨ s.txlen.toNat = 2)) := by decide

theorem witness_ReceiveCommandsStart :
    (rxState .rxHdlc false []).ctrl.v34 = false ∧ (rxState .rxHdlc false []).link = .rxHdlc
      ∧ (rxState .rxData false []).ctrl.v34 = false ∧ (rxState .rxData false []).link = .rxData
      ∧ 1 ≤ (1 : Half).toNat ∧ (rxState .rxData false []).rx.backlog = [] ∧ (rxState .idle true []).ctrl.v34 = true
      ∧ (let s : State := { rxState .rxData false [] with
            rx := { sync := .hunt, ones := 6, pend := [], backlog := [false, true] } };
        s.ctrl.v34 = false ∧ s.link = .rxData ∧ feed s.guard s.rx.backlog s.rx
          = ({ sync := .sync, ones := 1, pend := [true], backlog := [false, true] }, .none, [])) := by
  decide

theorem witness_SendHdlcSendsAndCompletes (body : List Byte)
    (h : body = [0xFF, 0xC8, 0x5F] ∨ body = List.replicate 1048 0xFF) :
    let s := txState .txHdlc false body
    s.ctrl.v34 = false ∧ s.link = .txHdlc ∧ TxBody s body ∧ 3 ≤ body.length ∧ body.length ≤ 1048 := by
  rcases h with rfl | rfl
  · exact ⟨rfl, rfl, txState_body _ _ _ (by decide), by decide, by decide⟩
  · exact ⟨rfl, rfl, txState_body _ _ _ (replicate_le (by decide)), le_replicate (by decide), replicate_le (by decide)⟩

/-- The received frame FF C8 31 45 8F in RXBUF, at a wait point of its receive command. -/
def framedAt (w : WaitPoint) (script : List InToken) : State :=
  { rxState .rxHdlc true script with
    pos := some w, rxbuf := [(0, 0xFF), (1, 0xC8), (2, 0x31), (3, 0x45), (4, 0x8F)] }

theorem framedAt_holds (w : WaitPoint) (script : List InToken) :
    Holds (framedAt w script).rxbuf [0xFF, 0xC8, 0x31, 0x45, 0x8F] := by
  show ∀ i, i < 5 → Memory.read [(0, 0xFF), (1, 0xC8), (2, 0x31), (3, 0x45), (4, 0x8F)] i
    = ([0xFF, 0xC8, 0x31, 0x45, 0x8F] : List Byte)[i]?
  decide

/-- A byte list in RXBUF, at a wait point of its receive command. -/
def bufAt (bytes : List Byte) (w : WaitPoint) (script : List InToken) : State :=
  { rxState .rxHdlc true script with pos := some w, rxbuf := Memory.writeAll [] 0 bytes }

theorem bufAt_holds (bytes : List Byte) (w : WaitPoint) (script : List InToken) :
    Holds (bufAt bytes w script).rxbuf bytes := writeAll_holds bytes

theorem witness_HdlcFrameRoundTrip :
    let a := txState .txHdlc false [0xFF, 0xC8, 0x5F]
    let sent := outBytes [0xFF, 0x13, 0xFA, 0x13, 0xE7, 0x10, 0x03]
    let s := rxState .rxHdlc false (delivered sent ++ [.res .ok])
    a.ctrl.v34 = false ∧ a.link = .txHdlc ∧ a.ctrl.txFcsByte = true ∧ TxBody a [0xFF, 0xC8, 0x5F]
      ∧ (∃ b, exec .sendHdlc a = .next b ∧ b.outbound = a.outbound ++ sent)
      ∧ s.ctrl.v34 = false ∧ s.link = .rxHdlc ∧ s.inbound = delivered sent ++ .res .ok :: []
      ∧ addrCtrlOk [0xFF, 0xC8, 0x5F] :=
  ⟨rfl, rfl, rfl, txState_body _ _ _ (by decide), ⟨_, rfl, by decide +kernel⟩, rfl, rfl, rfl, rfl, 0xC8, rfl, by decide⟩

theorem witness_RecvHdlcCarrierLoss :
    (∀ v ∈ [(0x55 : Byte)], v ≠ 0x10 ∧ v ≠ 0xFF) ∧ (∀ v ∈ [(0xFF : Byte), 0x13], v ≠ 0x10)
      ∧ [(0xFF : Byte), 0x13][0]? = some 0xFF
      ∧ (let s := rxState .rxHdlc false (inBytes [0x55] ++ inBytes [0xFF, 0x13] ++ [.res .noCarrier]);
        s.ctrl.v34 = false ∧ s.link = .rxHdlc
          ∧ s.inbound = [(0x55 : Byte)].map .byte ++ [(0xFF : Byte), 0x13].map .byte ++ .res .noCarrier :: [])
      ∧ (∀ script, (framedAt (.recvHdlcData 5 true false) script).inbound = script)
      ∧ [InToken.byte 0x10, .res .error] = afterDle true ++ .res .error :: []
      ∧ (0x41 : Byte) ≠ 0x10 ∧ (0x41 : Byte) ≠ 0x03 ∧ [InToken.byte 0x10, .byte 0x10] = inDoubled 0x10 ++ []
      ∧ ∃ bytes, bytes.length = 1048 ∧ Holds (bufAt bytes (.recvHdlcData bytes.length true false) []).rxbuf bytes :=
  ⟨by decide, by decide, rfl, by decide, fun _ => rfl, rfl, by decide, by decide, rfl, List.replicate 1048 0xFF,
    List.length_replicate, bufAt_holds _ _ _⟩

theorem witness_RawStreamRoundTrip :
    let a := txState .txData false [0x10]
    let sent := escapedAll [0x10]
    a.ctrl.v34 = false ∧ a.link = .txData ∧ a.tx.nbits = 0 ∧ TxBody a [0x10]
      ∧ (∃ b, exec .sendRaw a = .next b ∧ b.outbound = a.outbound ++ sent)
      ∧ (let s := rxState .rxData false (delivered sent ++ [.res .ok]);
        s.ctrl.v34 = false ∧ s.link = .rxData ∧ 1 ≤ (1 : Half).toNat ∧ (1 : Half).toNat = [(0x10 : Byte)].length
          ∧ s.inbound = delivered sent ++ .res .ok :: [])
      ∧ (let s := rxState .rxData false (delivered (sent ++ endMarker) ++ [.res .noCarrier]);
        s.ctrl.v34 = false ∧ s.link = .rxData ∧ [(0x10 : Byte)].length < (1048 : Half).toNat ∧ (1048 : Half).toNat ≤ 1048
          ∧ s.inbound = delivered (sent ++ endMarker) ++ .res .noCarrier :: [])
      ∧ (let s := framedAt (.recvRaw 5) [.byte 0x10, .res .noCarrier];
        s.pos = some (.recvRaw [(0xFF : Byte), 0xC8, 0x31, 0x45, 0x8F].length) ∧ Holds s.rxbuf [0xFF, 0xC8, 0x31, 0x45, 0x8F]
          ∧ s.inbound = afterDle true ++ .res .noCarrier :: []
          ∧ (framedAt (.recvRaw 5) [.byte 0x10, .byte 0x41]).inbound = .byte 0x10 :: .byte 0x41 :: []
          ∧ (framedAt (.recvRaw 5) [.byte 0x10, .byte 0x03]).inbound = .byte 0x10 :: .byte 0x03 :: []
          ∧ (framedAt (.recvRaw 5) [.byte 0x10, .byte 0x10]).inbound = inDoubled 0x10 ++ [])
      ∧ (let s : State := { framedAt (.recvRaw 5) [] with curCmd := 0x00060013 };
        5 + 1 = (s.curCmd.extractLsb' 16 16).toNat
          ∧ 5 + 1 < (({ s with curCmd := 0x04180013 } : State).curCmd.extractLsb' 16 16).toNat)
      ∧ Holds (framedAt (.recvRawEnd 5) [.res .ok]).rxbuf [0xFF, 0xC8, 0x31, 0x45, 0x8F] :=
  ⟨rfl, rfl, rfl, txState_body _ _ _ (by decide), ⟨_, rfl, by decide +kernel⟩, by decide, by decide,
    ⟨rfl, framedAt_holds _ _, rfl, rfl, rfl, rfl⟩, by decide, framedAt_holds _ _⟩

theorem witness_BitFrameRoundTrip :
    let a := txState .txData false [0xFF, 0xC8, 0x31]
    let sent := outBytes [0x7E, 0xDF, 0x47, 0x30, 0x8A, 0xC6, 0xFB, 0xF9]
    let s := rxState .rxData false (delivered sent)
    a.ctrl.v34 = false ∧ a.link = .txData ∧ a.tx = txClear ∧ TxBody a [0xFF, 0xC8, 0x31]
      ∧ (∃ b, exec (.sendBits 1 true) a = .next b ∧ b.outbound = a.outbound ++ sent)
      ∧ s.ctrl.v34 = false ∧ s.link = .rxData ∧ s.rx = rxClear ∧ 5 ≤ s.guard
      ∧ ¬ MalformedRcp s.ctrl.rcpFix ([0xFF, 0xC8, 0x31] ++ fcsBytes [0xFF, 0xC8, 0x31]) 0 false
      ∧ s.inbound = delivered sent ++ [] ∧ addrCtrlOk [0xFF, 0xC8, 0x31] :=
  ⟨rfl, rfl, rfl, txState_body _ _ _ (by decide), ⟨_, rfl, by decide +kernel⟩, rfl, rfl, rfl, by decide,
    fun h => absurd h.2.2.2.2.1 (by decide +kernel), by decide, rfl, 0xC8, rfl, by decide⟩

/-- R180's four grounds, one at a time: a wrong length, a wrong CRC, left-over bits, and the carrier's end; and the well-formed
RCP, which is none. -/
theorem witness_MalformedRcpIsReplaced :
    MalformedRcp State.reset.ctrl.rcpFix (octets ([0xFF, 0xC0, 0x61].flatMap bitsMsb)) 0 false
      ∧ MalformedRcp true [0xFF, 0xC8, 0x61, 0x96, 0xD3] 0 false ∧ MalformedRcp true [0xFF, 0xC0, 0x61, 0x96, 0xD3] 1 false
      ∧ MalformedRcp true [0xFF, 0xC0, 0x61, 0x96, 0xD3] 0 true ∧ ¬ MalformedRcp true [0xFF, 0xC0, 0x61, 0x96, 0xD3] 0 false :=
  ⟨⟨rfl, by decide, rfl, ⟨_, rfl, by decide⟩, rfl, .inl (by decide)⟩,
    ⟨rfl, by decide, rfl, ⟨_, rfl, by decide⟩, rfl, .inr (.inl (by decide +kernel))⟩,
    ⟨rfl, by decide, rfl, ⟨_, rfl, by decide⟩, rfl, .inr (.inr (.inl (by decide)))⟩,
    ⟨rfl, by decide, rfl, ⟨_, rfl, by decide⟩, rfl, .inr (.inr (.inr rfl))⟩,
    fun h => absurd h.2.2.2.2.2 (by decide +kernel)⟩

theorem witness_RecvBitsCarrierLoss :
    (let s : State := { rxState .rxData false [.res .noCarrier] with pos := some .recvBits };
      s.pos = some .recvBits ∧ s.rx.sync = .hunt ∧ s.inbound = afterDle false ++ .res .noCarrier :: [])
      ∧ (let s : State := { rxState .rxData false [.byte 0x10, .res .error] with
            pos := some .recvBits, rx := { sync := .sync, ones := 0, pend := List.replicate 8 false, backlog := [] } };
        s.pos = some .recvBits ∧ s.inbound = afterDle true ++ .res .error :: [] ∧ DceRes.error ≠ .noCarrier)
      ∧ (let s : State := { rxState .rxData false [.byte 0x10, .byte 0x03, .res .error] with
            pos := some .recvBits, rx := { sync := .sync, ones := 0, pend := List.replicate 7 false, backlog := [] } };
        s.pos = some .recvBits ∧ s.rx.pend.length < 8
          ∧ s.inbound = .byte 0x10 :: .byte 0x03 :: .res .error :: []
          ∧ ({ s with pos := some .recvBitsEnd, inbound := [.res .ok] } : State).pos = some .recvBitsEnd)
      ∧ (rxState .rxData false [.byte 0x10, .byte 0x41]).inbound = .byte 0x10 :: .byte 0x41 :: []
      ∧ (framedAt (.recvRawEnd 5) [.res .connect]).pos = some (.recvRawEnd 5)
      ∧ (framedAt .recvBitsEnd [.byte 0x10]).inbound = .byte 0x10 :: [] ∧ InToken.byte 0x10 ≠ .res .ok := by
  decide

theorem witness_RecvHdlcEndOfFrame :
    let frame : List Byte := [0xFF, 0xC8, 0x31, 0x45, 0x8F]
    let s := framedAt (.recvHdlcEnd 5 false) [.res .error]
    s.pos = some (.recvHdlcEnd frame.length false) ∧ frame.length ≤ 1048 ∧ Holds s.rxbuf frame
      ∧ s.inbound = .res .error :: [] ∧ (framedAt (.recvHdlcEnd 5 false) [.byte 0x10]).inbound = .byte 0x10 :: []
      ∧ (framedAt (.recvHdlcData 5 true false) [.byte 0x10, .byte 0x03]).inbound = .byte 0x10 :: .byte 0x03 :: [] :=
  ⟨rfl, by decide, framedAt_holds _ _, rfl, rfl, rfl⟩

theorem witness_RecvBitsEnds :
    (octets (List.replicate 15 true)).length ≤ 1048 ∧ ¬ MalformedRcp true (octets (List.replicate 15 true)) 7 true
      ∧ (let e : RxEngine := { sync := .sync, ones := 0, pend := List.replicate 8 false, backlog := [] };
        let s (l : List InToken) : State := { rxState .rxData false l with pos := some .recvBits, rx := e };
        e.sync = .sync ∧ 8 ≤ e.pend.length ∧ (s [.byte 0x10, .res .noCarrier]).inbound = afterDle true ++ .res .noCarrier :: []
          ∧ (s [.byte 0x10, .byte 0x03, .res .ok]).inbound = .byte 0x10 :: .byte 0x03 :: .res .ok :: []
          ∧ ({ s [.res .ok] with pos := some .recvBitsEnd } : State).inbound = .res .ok :: []
          ∧ (s [.byte 0x10, .byte 0x10]).inbound = inDoubled 0x10 ++ []) := by
  exact ⟨by decide, fun h => absurd h.2.1 (by decide), by decide +kernel⟩

/-- A synchronised receive engine with a run of 1s and content bits before it. -/
def synced (ones bits : Nat) : RxEngine :=
  { sync := .sync, ones := ones, pend := List.replicate bits true, backlog := [] }

/-- The engine laws of RecvBitsEnds at their boundaries: a flag with 14 and with 15 bits pending, an abort with 8 content
bits and none with 7, the last bit that is kept and the one that is cut off. -/
theorem witness_RecvBitsEnds_engine :
    (synced 6 14).ones = 6 ∧ feed 264 [false] (synced 6 14) = ({ synced 0 0 with ones := 0 }, .none, [])
      ∧ (feed 264 [false] (synced 6 15)).2.1 = .frame (List.replicate 8 true)
      ∧ (synced 5 5).ones = 5 ∧ (synced 7 0).ones = 7
      ∧ ((synced 0 8).ones ≤ 6 ∧ (synced 0 8).pend.length + 6 < 8 * (264 + 1) + (synced 0 8).ones
          ∧ (feed 264 (List.replicate 7 true) (synced 0 8)).2.1 = .abort)
      ∧ (feed 264 [true] (synced 6 13)).2.1 = .none ∧ (feed 264 [true] (synced 6 14)).2.1 = .abort
      ∧ ((synced 5 14).ones ≤ 5 ∧ (synced 4 14).ones ≤ 4)
      ∧ (RxEngine.init.sync = .hunt ∧ RxEngine.init.ones ≠ 6)
      ∧ (feed 1 [true] (synced 5 14)).2.1 = .none ∧ (feed 1 [false] (synced 4 15)).2.1 = .oversize := by decide

theorem witness_RecvV34Ends :
    let frame : List Byte := [0xFF, 0xC8, 0x31, 0x45, 0x8F]
    let s (script : List InToken) := framedAt (.recvV34 5 false) script
    (∀ script, (s script).pos = some (.recvV34 frame.length false) ∧ Holds (s script).rxbuf frame
        ∧ (s script).inbound = script)
      ∧ frame.length ≤ 1048 ∧ (0x6D : Byte) ∉ [(0x10 : Byte), 0x1A, 0x03, 0x04, 0x07]
      ∧ [InToken.byte 0x10, .res .ok] = afterDle true ++ .res .ok :: [] ∧ [InToken.byte 0x08] = inDoubled 0x08 ++ []
      ∧ ∃ full, full.length = 1048 ∧ Holds (bufAt full (.recvV34 full.length false) []).rxbuf full :=
  ⟨fun _ => ⟨rfl, framedAt_holds _ _, rfl⟩, by decide, by decide, rfl, rfl, List.replicate 1048 0xFF, List.length_replicate,
    bufAt_holds _ _ _⟩

theorem witness_V34FrameRoundTrip :
    let a := txState .unknown true [0xFF, 0xC8, 0x31]
    let sent := outBytes [0xFF, 0x13, 0x8C, 0xA2, 0xF1, 0x10, 0x03]
    let s := rxState .unknown true (delivered sent)
    a.ctrl.v34 = true ∧ TxBody a [0xFF, 0xC8, 0x31]
      ∧ (∃ b, exec .sendV34 a = .next b ∧ b.outbound = a.outbound ++ sent)
      ∧ s.ctrl.v34 = true ∧ s.inbound = delivered sent ++ [] ∧ addrCtrlOk [0xFF, 0xC8, 0x31] :=
  ⟨rfl, txState_body _ _ _ (by decide), ⟨_, rfl, by decide +kernel⟩, rfl, by decide, rfl, 0xC8, rfl, by decide⟩

theorem witness_WaitChannelCompletes :
    (rxState .idle true []).ctrl.v34 = true ∧ (0x6B : Byte) ≠ 0x04 ∧ (0x6B : Byte) ≠ 0x10 ∧ (0x6B : Byte) ≠ 0x1A
      ∧ (0x6B : Byte) ≠ 0x03 ∧ (0x6B : Byte) ≠ 0x07 ∧ (0x6B : Byte) ≠ 0x6D ∧ (0x6D : Byte) ≠ 0x6B
      ∧ (0x1A : Byte) ∈ [(0x10 : Byte), 0x1A, 0x03, 0x07] ∧ (0x6B : Byte) ≠ 0x10 := by decide

theorem witness_TxCarrierRaises : (rxState .idle false []).link = .idle := rfl

theorem witness_RxCarrierRearms :
    (rxState .idle false []).link = .idle ∧ 3 ≤ (rxState .idle false []).seqcfg.rearmMax.toNat :=
  ⟨rfl, by decide⟩

theorem witness_SilenceCommandsWait : (rxState .idle true []).link = .idle := rfl

theorem witness_RxDropWaitEndsOnNoCarrier :
    (rxState .idle false []).link = .idle ∧ ∀ x ∈ [InToken.res .ok, .byte 0x10, .res .error], x ≠ .res .noCarrier := by
  decide

theorem witness_TxEndDropsTheCarrier :
    (rxState .txData false []).link = .txData ∧ (rxState .txHdlc false []).link = .txHdlc := ⟨rfl, rfl⟩

theorem witness_DelayWaitsItsTime :
    (0x004B0146 : Word).extractLsb' 0 8 = (0x46 : Byte) ∧ (0x004B0146 : Word).extractLsb' 8 8 ≠ (0 : Byte) := by decide

theorem witness_AbortResynchronises :
    (∀ x ∈ [InToken.res .error, .byte 0x00], x ≠ .res .ok)
      ∧ (rxState .txData false [.res .error, .byte 0x00, .res .ok]).inbound
          = [InToken.res .error, .byte 0x00] ++ .res .ok :: []
      ∧ State.reset.inbound = [] ∧ State.reset.seqcfg.abortWaitMs ≠ 0
      ∧ (999 : Word).toNat < State.reset.seqcfg.abortWaitMs.toNat
      ∧ ({ State.reset with seqcfg := { State.reset.seqcfg with abortWaitMs := 0 } } : State).seqcfg.abortWaitMs = 0 := by
  decide

/-- A command that waits, with its deadline just passed (SEND_HDLC: TXCAP, the others: TIMEOUT). -/
def expiredAt (w : WaitPoint) (t : Word) : State := { State.reset with pos := some w, time := t }

theorem witness_TimeoutStartsAbortSequence :
    (let s := expiredAt (.recvHdlcDle 5 true false) 3000;
      commandWait (.recvHdlcDle 5 true false) = true ∧ s.inbound = []
        ∧ (waitMs (.recvHdlcDle 5 true false) s).toNat ≤ (s.time - s.tStart).toNat ∧ s.seqcfg.abortWaitMs ≠ 0)
      ∧ (let s : State := { expiredAt (.sendHdlc true) 2550 with seqcfg := { State.reset.seqcfg with abortWaitMs := 0 } };
        commandWait (.sendHdlc true) = true ∧ s.inbound = []
          ∧ (waitMs (.sendHdlc true) s).toNat ≤ (s.time - s.tStart).toNat ∧ s.seqcfg.abortWaitMs = 0) := by decide

theorem witness_TimeoutCompletes :
    (let s : State := { State.reset with pos := some (.abortFirst 7 (.receiveTimeout 5)), inbound := [.byte 1, .res .ok] };
      s.pos = some (if false then .abortSecond 7 (.receiveTimeout 5) else .abortFirst 7 (.receiveTimeout 5))
        ∧ (∀ x ∈ [InToken.byte 1], x ≠ .res .ok) ∧ s.inbound = [.byte 1] ++ .res .ok :: [])
      ∧ (let s : State := { State.reset with pos := some (.abortSecond 7 .timeout), inbound := [.byte 1], time := 1007 };
        s.pos = some (if true then .abortSecond 7 .timeout else .abortFirst 7 .timeout)
          ∧ (∀ x ∈ s.inbound, x ≠ .res .ok) ∧ s.seqcfg.abortWaitMs.toNat ≤ (s.time - 7).toNat
          ∧ ((1006 : Word) - 7).toNat < s.seqcfg.abortWaitMs.toNat) := by decide

/-- TX_CARRIER at its wait, with CONNECT in the FIFO. -/
def carrierWait : State :=
  { State.reset with
    link := .idle, pos := some .txCarrier, curCmd := 0x00010340, inbound := [.res .connect], pending := [.engine]
    status := { State.reset.status with lastCmd := 0x40 } }

theorem carrierWait_inv : Inv carrierWait where
  rxbufWf := by decide
  txbufWf := by decide
  rxOnes := by decide
  rxPend := by decide
  rxHunt := by decide
  rxBacklog := by decide
  txNbits := by decide
  txOnes := by decide
  txAcc := by decide
  txOwner := by decide
  rxOwner := fun _ _ h => absurd rfl h
  rxIdle := nofun
  heldPair := nofun
  lastCmd := by decide
  waits := fun w hw => by
    have : w = .txCarrier := by simpa [carrierWait, eq_comm] using hw
    subst this
    exact ⟨by decide, rfl⟩

theorem witness_StepKeepsTheInvariant : Inv carrierWait ∧ ∃ t, step carrierWait = .next t := ⟨carrierWait_inv, _, rfl⟩

theorem witness_EngineStepsOn : Inv carrierWait := carrierWait_inv

theorem witness_EngineStepRunsUntilItBlocks :
    (∃ t, engineStep carrierWait = .next t)
      ∧ (let s := expiredAt .recvBits 2999;
        s.pos = some .recvBits ∧ commandWait .recvBits = true ∧ s.inbound = []
          ∧ (s.time - s.tStart).toNat < (waitMs .recvBits s).toNat)
      ∧ (beforeDeadline .recvBits (expiredAt .recvBits 2999) ∧ ∃ t, engineStep (expiredAt .recvBits 2999) = .next t)
      ∧ beforeDeadline .delay { expiredAt .delay 74 with curCmd := 0x004B0046 }
      ∧ beforeDeadline (.abortSecond 7 .timeout) (expiredAt (.abortSecond 7 .timeout) 1006) := by
  refine ⟨⟨_, rfl⟩, by decide, ⟨?_, _, rfl⟩, ?_, ?_⟩ <;> · unfold beforeDeadline; decide

theorem witness_EngineStepFrame :
    (∃ t, engineStep carrierWait = .next t)
      ∧ ∃ t, engineStep (framedAt (.recvHdlcData 5 true false) [.byte 0x10, .byte 0x41]) = .next t ∧ t.busy = true :=
  ⟨⟨_, rfl⟩, _, rfl, by decide⟩

theorem witness_CommandStartFrame : (∃ t, exec .abort State.reset = .next t)
    ∧ ∃ t, isImmediate .crcInit = true ∧ exec .crcInit State.reset = .next t := ⟨⟨_, rfl⟩, _, rfl, rfl⟩

theorem witness_LinkAndChmodeOwners :
    (∃ t, engineStep carrierWait = .next t)
      ∧ ∃ s t : State, engineStep s = .next t ∧ t.chmode.lastInd ≠ s.chmode.lastInd :=
  ⟨⟨_, rfl⟩, { rxState .unknown true (inBytes [0x10, 0x70]) with pos := some .waitChannel }, _, rfl, by decide⟩

theorem witness_BusyFallsWithDone :
    (∃ t, agentStep .engine carrierWait = .next t ∧ carrierWait.busy = true ∧ t.busy = false)
      ∧ ∃ t, agentStep (.host (.write .w32 0x0004 0x00000080)) carrierWait = .next t ∧ t.busy = false :=
  ⟨⟨_, rfl, rfl, rfl⟩, _, rfl, rfl⟩

theorem witness_TimeAdvancesOnlyByTick :
    (∃ t, agentStep .tick State.reset = .next t) ∧ carrierWait.pending = .engine :: [] ∧ State.reset.outbound = []
      ∧ ({ State.reset with outbound := outBytes [0x10, 0x03] } : State).outbound = .byte 0x10 :: [.byte 0x03] :=
  ⟨⟨_, rfl⟩, rfl, rfl, rfl⟩

theorem witness_HostAccessRules :
    ((0x003F : BitVec 14).toNat < 0x40 ∧ Width.w8 ≠ .w32) ∧ ((0x0002 : BitVec 14).toNat < 0x40 ∧ 2 % 4 ≠ 0)
      ∧ insideUnmapped .w8 0x0040 ∧ insideUnmapped .w32 0x0FFC ∧ ¬ insideUnmapped .w32 0x0FFD
      ∧ insideUnmapped .w16 0x3000 ∧ insideUnmapped .w16 0x3FFE ∧ ¬ insideUnmapped .w16 0x3FFF
      ∧ ∃ t, hostRead .w32 0x0008 State.reset = .next t := by
  refine ⟨by decide, by decide, ?_, ?_, ?_, ?_, ?_, ?_, _, rfl⟩ <;> · unfold insideUnmapped; decide

theorem witness_RegisterWritesWhenIdle :
    State.reset.pos = none ∧ (if (0x0000003F : Word).getLsbD 7 then (0 : Word) else 0x0000003F) ≠ 0 := by decide

theorem witness_BufferAccessesAreLittleEndian :
    State.reset.pos = none ∧ 1044 % Width.w32.bytes = 0 ∧ 1044 + Width.w32.bytes ≤ 1048
      ∧ 1046 % Width.w16.bytes = 0 ∧ 1046 + Width.w16.bytes ≤ 1048 ∧ 1047 + Width.w8.bytes ≤ 1048
      ∧ (let s := txState .unknown false [0x44, 0x33, 0x22, 0x11];
        ∀ k, k < Width.w32.bytes → s.txbuf.read (0 + k) = some ((0x11223344 : Word).extractLsb' (8 * k) 8))
      ∧ (let s : State := { State.reset with rxbuf := [(0, 0x44), (1, 0x33)] };
        ∀ k, k < Width.w16.bytes → s.rxbuf.read (0 + k) = some ((0x11223344 : Word).extractLsb' (8 * k) 8))
      ∧ 0xFFF % Width.w16.bytes ≠ 0 ∧ 1 % Width.w32.bytes ≠ 0 ∧ 0xFFC % Width.w32.bytes = 0 ∧ 1048 % Width.w32.bytes = 0 := by
  decide

theorem witness_HostWritesWhileBusy :
    carrierWait.pos = some .txCarrier
      ∧ (∃ t, hostWrite .w32 0x002C 5 carrierWait = .next t) ∧ (∃ t, hostWrite .w8 0x1417 5 carrierWait = .next t)
      ∧ (∃ t, hostWrite .w32 0x2414 5 carrierWait = .next t) ∧ (∃ t, hostWrite .w32 0x0004 0x80 carrierWait = .next t)
      ∧ (∃ t, hostWrite .w32 0x0004 0x3F carrierWait = .next t) ∧ (∃ t, hostWrite .w32 0x0008 0x2E carrierWait = .next t)
      ∧ (∃ t, hostWrite .w32 0x0030 6 carrierWait = .next t) ∧ (∃ t, hostWrite .w32 0x003C 6 carrierWait = .next t)
      ∧ (∃ t, hostWrite .w16 0x1418 6 carrierWait = .next t)
      ∧ insideUnmapped .w8 0x3FFF ∧ ∃ t, hostWrite .w8 0x3FFF 6 carrierWait = .next t :=
  ⟨rfl, ⟨_, rfl⟩, ⟨_, rfl⟩, ⟨_, rfl⟩, ⟨_, rfl⟩, ⟨_, rfl⟩, ⟨_, rfl⟩, ⟨_, rfl⟩, ⟨_, rfl⟩, ⟨_, rfl⟩,
    by unfold insideUnmapped; decide, _, rfl⟩

theorem witness_BufferBytesWithoutAValue :
    (let s : State := { State.reset with txlen := 1046 };
      modeOk .frameFcs s = true ∧ 3 ≤ s.txlen.toNat ∧ s.txlen.toNat ≤ 1046 ∧ ([] : List Byte).length < s.txlen.toNat
        ∧ s.txbuf.read 0 = none)
      ∧ (let s : State := { txState .txData false [0xFF] with txlen := 1048 };
        modeOk .sendRaw s = true ∧ modeOk (.sendBits 0 true) s = true ∧ 3 ≤ s.txlen.toNat ∧ s.txlen.toNat ≤ 1048
          ∧ [(0xFF : Byte)].length < s.txlen.toNat ∧ s.txbuf.read 0 = some 0xFF ∧ s.txbuf.read 1 = none)
      ∧ (let s : State := { txState .txHdlc false [] with txlen := 3 };
        modeOk .sendHdlc s = true ∧ 3 ≤ s.txlen.toNat ∧ ([] : List Byte).length < s.txlen.toNat ∧ s.txbuf.read 0 = none)
      ∧ (let s : State := { txState .idle true [] with txlen := 3 };
        modeOk .sendV34 s = true ∧ 3 ≤ s.txlen.toNat ∧ ([] : List Byte).length < s.txlen.toNat ∧ s.txbuf.read 0 = none)
      ∧ (let s : State := { State.reset with rxlen := 1048, rxFreeFrom := 0 };
        ([] : List Byte).length < s.rxlen.toNat ∧ s.rxlen.toNat ≤ 1048 ∧ s.rxbuf.read 0 = none ∧ s.rxMarks.getLsbD 0 = false)
      ∧ (let s : State := { State.reset with rxlen := 3, rxbuf := [(0, 0xFF), (1, 0xC0)], rxMarks := 4 };
        (∀ i, i < 2 → s.rxbuf.read i = ([0xFF, 0xC0] : List Byte)[i]?) ∧ s.rxbuf.read 2 = none
          ∧ s.rxMarks.getLsbD 2 = true ∧ s.rxlen.toNat = 2 + 1)
      ∧ carrierWait.pos = some .txCarrier
      ∧ (let s : State := { State.reset with rxFreeFrom := 0 };
        s.pos = none ∧ s.rxbuf.read 1047 = none ∧ s.rxFreeFrom ≤ 1047)
      ∧ ((0x0FFD : BitVec 14).toNat < 0x1000 ∧ 0x1000 < (0x0FFD : BitVec 14).toNat + Width.w32.bytes)
      ∧ 0x4000 < (0x3FFF : BitVec 14).toNat + Width.w16.bytes := by decide +kernel

theorem witness_SoftReset : (0x00000080 : Word).getLsbD 7 = true := by decide

end Sys2Proof.Tests
end

section
/-! PROOFS. What an outcome can answer: one rule per control operation that the commands share, for any property of the
next state. -/

namespace Sys2Proof.Machine

/-- Every next state that an outcome answers satisfies `P`. A fault or a refusal answers none. -/
def Answers (P : State → Prop) (o : StepOutcome) : Prop := ∀ t, o = .next t → P t

section
variable {P : State → Prop}

@[simp] theorem answers_next {t : State} : Answers P (.next t) ↔ P t :=
  ⟨fun h => h t rfl, fun h _ e => by cases e; exact h⟩

@[simp] theorem answers_fault (f : Fault) : Answers P (.fault f) := fun _ h => by cases h

theorem answers_requireMode {allowed : Bool} {s : State} {k : StepOutcome} (hfail : P (complete .modeError s))
    (hk : Answers P k) : Answers P (requireMode allowed s k) := by
  intro t h
  obtain ⟨-, h⟩ | ⟨-, rfl⟩ := requireMode_next h
  · exact hk t h
  · exact hfail

theorem answers_sendLenCheck {m : Nat} {s : State} {k : Nat → StepOutcome} (hfail : ∀ r, P (complete r s))
    (hk : ∀ n, Answers P (k n)) : Answers P (sendLenCheck m s k) := by
  intro t h
  obtain ⟨-, rfl⟩ | ⟨-, -, rfl⟩ | ⟨-, -, h⟩ := sendLenCheck_next h
  · exact hfail _
  · exact hfail _
  · exact hk _ t h

theorem answers_withBytes {α : Type} {r : Except Fault α} {k : α → StepOutcome}
    (hk : ∀ x, r = .ok x → Answers P (k x)) : Answers P (withBytes r k) := by
  intro t h
  obtain ⟨x, hr, h⟩ := withBytes_next h
  exact hk x hr t h

theorem answers_awaitResult {x : InToken} {s : State} {k : DceRes → StepOutcome} (hdiscard : P s)
    (hk : ∀ r, Answers P (k r)) : Answers P (awaitResult x s k) := by
  intro t h
  obtain ⟨-, rfl⟩ | ⟨r, -, -, h⟩ := awaitResult_next h
  · exact hdiscard
  · exact hk r t h

/-- R106: the frame check reads RXBUF, which draws free values and changes nothing else. -/
theorem answers_check {n minlen : Nat} {chk : Bool} {s : State} {k : Result → State → StepOutcome}
    (hk : ∀ r frame drawn, Answers P (k r (applyCheck frame minlen chk { s with freeCount := drawn }))) :
    Answers P (check n minlen chk s k) := by
  intro t h
  obtain ⟨frame, s1, hr, h⟩ := check_next h
  obtain ⟨-, hs1, -⟩ := readRx_ok _ _ _ _ _ hr
  rw [hs1] at h
  exact hk _ _ _ t h

theorem answers_onRxEvent {ev : RxEvent} {s : State} {k : StepOutcome} (hnone : Answers P k)
    (hframe : ∀ bits, Answers P (frameEnd bits false s)) (hend : ∀ r, P (endReceive 0 r s)) :
    Answers P (onRxEvent ev s k) := by
  cases ev with
  | none => exact hnone
  | frame bits => exact hframe bits
  | abort => exact answers_next.mpr (hend _)
  | oversize => exact answers_next.mpr (hend _)

end

end Sys2Proof.Machine
end

section
/-! PROOFS. TIME (R33) across the operations of the block: the commands, the ENGINE's wait points and the host window all
leave it as it is. -/

namespace Sys2Proof.Machine

/-- Every next state that the outcome answers has the TIME of `s`. -/
abbrev KeepsTime (s : State) (o : StepOutcome) : Prop := Answers (fun t => t.time = s.time) o

/-! ## The operations on the state -/

@[simp] theorem endReceive_time (n : Nat) (r : Result) (s : State) : (endReceive n r s).time = s.time := rfl
@[simp] theorem finishFrame_time (r : Result) (s : State) : (finishFrame r s).time = s.time := rfl
@[simp] theorem receiveTimeout_time (n : Nat) (s : State) : (receiveTimeout n s).time = s.time := rfl
@[simp] theorem acknowledge_time (v : Word) (s : State) : (acknowledge v s).time = s.time := rfl
@[simp] theorem illegalCommand_time (w : Word) (s : State) : (illegalCommand w s).time = s.time := rfl
@[simp] theorem softReset_time (s : State) : (softReset s).time = s.time := rfl
@[simp] theorem hardReset_time (s : State) : (hardReset s).time = 0 := rfl

@[simp] theorem endAbort_time (sawOk : Bool) (after : AfterAbort) (s : State) :
    (endAbort sawOk after s).time = s.time := by
  cases after <;> rfl

@[simp] theorem appendFcs_time (body : List Byte) (s : State) : (appendFcs body s).time = s.time := by
  simp [appendFcs]

@[simp] theorem storeRxAll_time (bytes : List Byte) : ∀ (i : Nat) (s : State), (storeRxAll i bytes s).time = s.time := by
  induction bytes with
  | nil => exact fun _ _ => rfl
  | cons b rest ih => intro i s; rw [storeRxAll, ih, storeRx_time]

@[simp] theorem wrongCarrier_time (s : State) : (wrongCarrier s).time = s.time := by
  unfold wrongCarrier; split <;> rfl

@[simp] theorem hdlcPut_time (n : Nat) (found ovf : Bool) (v : Byte) (s : State) :
    (hdlcPut n found ovf v s).time = s.time := by
  simp [hdlcPut, apply_ite State.time]

@[simp] theorem hdlcDataResult_time (n : Nat) (found ovf : Bool) (r : DceRes) (s : State) :
    (hdlcDataResult n found ovf r s).time = s.time := by
  cases r <;> rfl

@[simp] theorem rawContinue_time (n count : Nat) (s : State) : (rawContinue n count s).time = s.time := by
  simp [rawContinue, apply_ite State.time]

@[simp] theorem rawStore_time (n : Nat) (v : Byte) (s : State) : (rawStore n v s).time = s.time := by
  simp [rawStore]

@[simp] theorem rawResult_time (n : Nat) (r : DceRes) (s : State) : (rawResult n r s).time = s.time := by
  cases r <;> rfl

@[simp] theorem v34Store_time (n : Nat) (ovf : Bool) (b : Byte) (s : State) : (v34Store n ovf b s).time = s.time := by
  simp [v34Store, apply_ite State.time]

@[simp] theorem v34Result_time (n : Nat) (ovf : Bool) (r : DceRes) (s : State) :
    (v34Result n ovf r s).time = s.time := by
  cases r <;> rfl

@[simp] theorem chanResult_time (r : DceRes) (s : State) : (chanResult r s).time = s.time := by
  cases r <;> rfl

/-! ## Frame ends -/

theorem substituteRcp_time (s : State) : KeepsTime s (substituteRcp s) :=
  answers_check fun _ _ _ => by simp

theorem frameEnd_time (bits : List Bool) (truncated : Bool) (s : State) : KeepsTime s (frameEnd bits truncated s) := by
  simp only [frameEnd]
  split
  · exact substituteRcp_time s
  · exact answers_check fun _ _ _ => by simp

theorem lostCarrier_time (s : State) : KeepsTime s (lostCarrier s) := by
  simp only [lostCarrier]
  generalize (if s.rx.sync = .sync then s.rx.pend else []) = bits
  split
  · exact frameEnd_time bits true (rxReset s)
  · simp

/-- R184, R187: TIME does not depend on which event, if any, ends the backlog. -/
theorem runBacklog_time (xs : List Bool) : ∀ s : State, KeepsTime s (runBacklog xs s) := by
  induction xs with
  | nil => exact fun s => answers_next.mpr rfl
  | cons x xs ih =>
    intro s
    exact answers_onRxEvent (ih _) (fun bits => frameEnd_time bits false _) fun _ => rfl

theorem finishReceived_time (n minlen : Nat) (chk ovf : Bool) (s : State) :
    KeepsTime s (finishReceived n minlen chk ovf s) :=
  answers_check fun _ _ _ => by simp

/-! ## The tokens of each wait point -/

theorem sendHdlcToken_time (final : Bool) (x : InToken) (s : State) : KeepsTime s (sendHdlcToken final x s) :=
  answers_awaitResult rfl fun r => by cases r <;> simp [apply_ite State.time]

theorem recvHdlcDataToken_time (n : Nat) (found ovf : Bool) (x : InToken) (s : State) :
    KeepsTime s (recvHdlcDataToken n found ovf x s) := by
  cases x <;> simp [recvHdlcDataToken, apply_ite State.time]

theorem recvHdlcDleToken_time (n : Nat) (found ovf : Bool) (x : InToken) (s : State) :
    KeepsTime s (recvHdlcDleToken n found ovf x s) := by
  cases x <;> simp [recvHdlcDleToken, apply_ite State.time]

theorem recvHdlcEndToken_time (n : Nat) (ovf : Bool) (x : InToken) (s : State) :
    KeepsTime s (recvHdlcEndToken n ovf x s) :=
  answers_awaitResult rfl fun r => by
    cases r with
    | ok | noCarrier | error => exact finishReceived_time n _ _ ovf _
    | connect | fcerror | other => simp

theorem recvRawToken_time (n : Nat) (x : InToken) (s : State) : KeepsTime s (recvRawToken n x s) := by
  cases x <;> simp [recvRawToken, apply_ite State.time]

theorem recvRawDleToken_time (n : Nat) (x : InToken) (s : State) : KeepsTime s (recvRawDleToken n x s) := by
  cases x <;> simp [recvRawDleToken, apply_ite State.time]

theorem recvRawEndToken_time (n : Nat) (x : InToken) (s : State) : KeepsTime s (recvRawEndToken n x s) :=
  answers_awaitResult rfl fun r => by cases r <;> simp

theorem bitsResult_time (r : DceRes) (s : State) : KeepsTime s (bitsResult r s) := by
  cases r with
  | noCarrier => exact lostCarrier_time (setLink .idle s)
  | ok | error | connect | fcerror | other => simp [bitsResult]

theorem recvBitsToken_time (x : InToken) (s : State) : KeepsTime s (recvBitsToken x s) := by
  cases x with
  | byte v =>
    simp only [recvBitsToken]
    split
    · simp
    · exact runBacklog_time _ s
  | res r => exact bitsResult_time r s

theorem recvBitsDleToken_time (x : InToken) (s : State) : KeepsTime s (recvBitsDleToken x s) := by
  cases x with
  | byte v =>
    simp only [recvBitsDleToken]
    split
    · exact runBacklog_time _ s
    · split <;> simp
  | res r => exact bitsResult_time r s

theorem recvBitsEndToken_time (x : InToken) (s : State) : KeepsTime s (recvBitsEndToken x s) :=
  answers_awaitResult rfl fun r => by
    cases r with
    | ok | noCarrier | error => exact lostCarrier_time (setLink .idle s)
    | connect | fcerror | other => simp

theorem recvV34Token_time (n : Nat) (ovf : Bool) (x : InToken) (s : State) : KeepsTime s (recvV34Token n ovf x s) := by
  cases x <;> simp [recvV34Token, apply_ite State.time]

theorem recvV34DleToken_time (n : Nat) (ovf : Bool) (x : InToken) (s : State) :
    KeepsTime s (recvV34DleToken n ovf x s) := by
  cases x with
  | byte v =>
    simp only [recvV34DleToken]
    split
    case isTrue => simp
    split
    case isTrue => exact finishReceived_time n _ _ ovf s
    split
    case isTrue => simp
    split
    case isTrue => exact finishReceived_time n _ _ ovf _
    case isFalse => simp
  | res r => simp [recvV34DleToken]

theorem waitChannelToken_time (x : InToken) (s : State) : KeepsTime s (waitChannelToken x s) := by
  cases x <;> simp [waitChannelToken]

theorem waitChannelDleToken_time (x : InToken) (s : State) : KeepsTime s (waitChannelDleToken x s) := by
  cases x with
  | byte v => simp only [waitChannelDleToken]; split_ifs <;> simp
  | res r => simp [waitChannelDleToken]

theorem txCarrierToken_time (x : InToken) (s : State) : KeepsTime s (txCarrierToken x s) :=
  answers_awaitResult rfl fun r => by cases r <;> simp [apply_ite State.time]

theorem rxCarrierToken_time (x : InToken) (s : State) : KeepsTime s (rxCarrierToken x s) :=
  answers_awaitResult rfl fun r => by cases r <;> simp [apply_ite State.time]

theorem silenceToken_time (x : InToken) (s : State) : KeepsTime s (silenceToken x s) :=
  answers_awaitResult rfl fun r => by cases r <;> simp

theorem rxDropWaitToken_time (x : InToken) (s : State) : KeepsTime s (rxDropWaitToken x s) := by
  cases x with
  | byte v => simp [rxDropWaitToken]
  | res r => cases r <;> simp [rxDropWaitToken]

theorem txEndToken_time (x : InToken) (s : State) : KeepsTime s (txEndToken x s) :=
  answers_awaitResult rfl fun r => by cases r <;> simp

theorem abortToken_time (after : AfterAbort) (x : InToken) (s : State) : KeepsTime s (abortToken after x s) :=
  answers_awaitResult rfl fun r => by cases r <;> simp

/-! ## The ENGINE -/

theorem onToken_time (w : WaitPoint) (x : InToken) (s : State) : KeepsTime s (onToken w x s) := by
  cases w with
  | sendHdlc final => exact sendHdlcToken_time final x s
  | recvHdlcData n found ovf => exact recvHdlcDataToken_time n found ovf x s
  | recvHdlcDle n found ovf => exact recvHdlcDleToken_time n found ovf x s
  | recvHdlcEnd n ovf => exact recvHdlcEndToken_time n ovf x s
  | recvRaw n => exact recvRawToken_time n x s
  | recvRawDle n => exact recvRawDleToken_time n x s
  | recvRawEnd n => exact recvRawEndToken_time n x s
  | recvBits => exact recvBitsToken_time x s
  | recvBitsDle => exact recvBitsDleToken_time x s
  | recvBitsEnd => exact recvBitsEndToken_time x s
  | recvV34 n ovf => exact recvV34Token_time n ovf x s
  | recvV34Dle n ovf => exact recvV34DleToken_time n ovf x s
  | waitChannel => exact waitChannelToken_time x s
  | waitChannelDle => exact waitChannelDleToken_time x s
  | txCarrier => exact txCarrierToken_time x s
  | rxCarrier => exact rxCarrierToken_time x s
  | txSilence | rxSilence => exact silenceToken_time x s
  | rxDropWait => exact rxDropWaitToken_time x s
  | txEnd => exact txEndToken_time x s
  | delay => exact answers_next.mpr rfl
  | abortFirst _ after | abortSecond _ after => exact abortToken_time after x s

@[simp] theorem onTimeout_time (w : WaitPoint) (s : State) : (onTimeout w s).time = s.time := by
  cases w <;> simp [onTimeout]

/-- R33, R241: a deadline that passes is read from TIME and does not move it. -/
theorem engineStep_time (s : State) : KeepsTime s (engineStep s) := fun _ h =>
  engineStep_induction (P := fun u => u.time = s.time)
    (fun u t w x ts _ hu ht => (onToken_time w x { u with inbound := ts } t ht).trans hu)
    (fun u w _ _ hu => (onTimeout_time w u).trans hu) rfl h

/-! ## The CMD write step of each command -/

theorem execFrameFcs_time (s : State) : KeepsTime s (execFrameFcs s) := by
  simp only [execFrameFcs]
  split
  · simp
  · split
    · simp
    · exact answers_withBytes fun body _ => by simp

theorem execFrameCheck_time (chkCrc : Bool) (s : State) : KeepsTime s (execFrameCheck chkCrc s) := by
  simp only [execFrameCheck]
  split
  · simp
  · exact answers_check fun _ _ _ => by simp

theorem execSendHdlc_time (s : State) : KeepsTime s (execSendHdlc s) :=
  answers_requireMode rfl <| answers_sendLenCheck (fun _ => rfl) fun _ => answers_withBytes fun _ _ => by simp

theorem execRecvHdlc_time (s : State) : KeepsTime s (execRecvHdlc s) := answers_requireMode rfl (by simp)

theorem execSendRaw_time (s : State) : KeepsTime s (execSendRaw s) :=
  answers_requireMode rfl <| answers_sendLenCheck (fun _ => rfl) fun _ => answers_withBytes fun _ _ => by simp

theorem execRecvRaw_time (count : Half) (s : State) : KeepsTime s (execRecvRaw count s) :=
  answers_requireMode rfl (by simp)

theorem execBitsReset_time (rx tx : Bool) (s : State) : KeepsTime s (execBitsReset rx tx s) := by
  simp [execBitsReset, apply_ite State.time]

theorem execSendBits_time (flags : Byte) (flush : Bool) (s : State) : KeepsTime s (execSendBits flags flush s) :=
  answers_requireMode rfl <| answers_sendLenCheck (fun _ => rfl) fun _ => answers_withBytes fun _ _ => by simp

theorem execRecvBits_time (s : State) : KeepsTime s (execRecvBits s) :=
  answers_requireMode rfl (runBacklog_time _ (startReceive (accept .recvBits s)))

theorem execSendV34_time (s : State) : KeepsTime s (execSendV34 s) :=
  answers_requireMode rfl <| answers_sendLenCheck (fun _ => rfl) fun _ => answers_withBytes fun _ _ => by simp

theorem execTxEnd_time (s : State) : KeepsTime s (execTxEnd s) :=
  answers_requireMode rfl (by by_cases h : s.link = .txData <;> simp [h])

/-- R80: the part of a command that runs in the CMD write step leaves TIME as it is; `t_start` only copies it. -/
theorem exec_time (i : Instr) (s : State) : KeepsTime s (exec i s) := by
  cases i with
  | nop | crcInit | crcFeed | delay | abort => exact answers_next.mpr rfl
  | frameFcs => exact execFrameFcs_time s
  | frameCheck chkCrc => exact execFrameCheck_time chkCrc s
  | sendHdlc => exact execSendHdlc_time s
  | recvHdlc => exact execRecvHdlc_time s
  | sendRaw => exact execSendRaw_time s
  | recvRaw count => exact execRecvRaw_time count s
  | bitsReset rx tx => exact execBitsReset_time rx tx s
  | sendBits flags flush => exact execSendBits_time flags flush s
  | recvBits => exact execRecvBits_time s
  | sendV34 => exact execSendV34_time s
  | txEnd => exact execTxEnd_time s
  | recvV34 | waitChannel | sendInd | txCarrier | rxCarrier | txSilence | rxSilence | rxDropWait =>
    exact answers_requireMode rfl (answers_next.mpr rfl)

/-! ## The host window -/

/-- R63, R72: a host read of a buffer byte draws free values and changes nothing else. -/
theorem hostReadByte_frame {b : Buffer} {i : Nat} {s t : State} {v : Byte} (h : hostReadByte b i s = .ok (v, t)) :
    t = { s with freeCount := t.freeCount } := by
  cases b with
  | rx =>
    simp only [hostReadByte] at h
    split at h
    · cases h; rfl
    · split at h
      · cases h; rfl
      · rcases rxByte_cases (s.rxWritten i || decide (s.rxFreeFrom ≤ i)) i s with ⟨_, -, e⟩ | ⟨-, -, e⟩ | ⟨-, -, e⟩ <;>
          cases e.symm.trans h
        · rfl
        · rfl
  | tx =>
    simp only [hostReadByte] at h
    split at h
    · cases h; rfl
    · split at h <;> cases h
      rfl

theorem hostReadBytes_frame (b : Buffer) (n : Nat) : ∀ (i : Nat) (s t : State) (v : Word),
    hostReadBytes b i n s = .ok (v, t) → t = { s with freeCount := t.freeCount } := by
  induction n with
  | zero => intro i s t v h; cases h; rfl
  | succ n ih =>
    intro i s t v h
    simp only [hostReadBytes] at h
    split at h
    · cases h
    · rename_i _ b0 s1 hbyte
      split at h
      · cases h
      · rename_i _ rest s2 hrest
        cases h
        rw [ih _ _ _ _ hrest, hostReadByte_frame hbyte]

theorem hostRead_time (w : Width) (addr : BitVec 14) (s : State) : KeepsTime s (hostRead w addr s) := by
  unfold hostRead
  split
  · simp
  · split
    · simp
    · exact answers_withBytes fun p hp => by
        rw [answers_next, hostReadBytes_frame _ _ _ _ _ _ hp]
    · simp

theorem unlessBusy_time {s written : State} (h : written.time = s.time) : (unlessBusy s written).time = s.time := by
  unfold unlessBusy; split
  · rfl
  · exact h

@[simp] theorem writeCtrl_time (v : Word) (s : State) : (writeCtrl v s).time = s.time := by
  simp [writeCtrl, apply_ite State.time]

theorem startCommand_time (w : Word) (s : State) : KeepsTime s (startCommand w s) := by
  intro t h
  obtain ⟨i, -, h⟩ | ⟨-, rfl⟩ := startCommand_next h
  · exact exec_time i s t h
  · rfl

theorem writeReg_time (offset : Nat) (v : Word) (s : State) : KeepsTime s (writeReg offset v s) := by
  unfold writeReg
  split
  case h_3 => -- R80: the CMD register is the one whose write can run a command
    split
    · simp
    · exact startCommand_time v s
  all_goals simp [unlessBusy_time]

@[simp] theorem hostWriteByte_time (b : Buffer) (i : Nat) (v : Byte) (s : State) :
    (hostWriteByte b i v s).time = s.time := by
  cases b <;> simp [hostWriteByte, apply_ite State.time, unlessBusy_time]

@[simp] theorem hostWriteBytes_time (b : Buffer) (n : Nat) : ∀ (i : Nat) (v : Word) (s : State),
    (hostWriteBytes b i n v s).time = s.time := by
  induction n with
  | zero => exact fun _ _ _ => rfl
  | succ n ih => intro i v s; rw [hostWriteBytes, ih, hostWriteByte_time]

theorem hostWrite_time (w : Width) (addr : BitVec 14) (v : Word) (s : State) : KeepsTime s (hostWrite w addr v s) := by
  unfold hostWrite
  split
  · simp
  · split
    · exact writeReg_time _ v s
    · simp
    · simp

/-! ## The agents -/

/-- R33, R332, R350: only TICK advances TIME, and only a hard reset clears it. -/
theorem agentStep_time (a : Action) (s : State) :
    Answers (fun t => t.time = if a = .tick then s.time + 1 else if a = .hardReset then 0 else s.time) (agentStep a s) := by
  cases a with
  | host access =>
    cases access with
    | read w addr => simpa [agentStep] using hostRead_time w addr s
    | write w addr v => simpa [agentStep] using hostWrite_time w addr v s
  | engine => simpa [agentStep] using engineStep_time s
  | deliver x => simp [agentStep]
  | consume => simp [agentStep]
  | tick => simp [agentStep]
  | hardReset => simp [agentStep]

theorem step_of_pending {s : State} {a : Action} {rest : List Action} (h : s.pending = a :: rest) :
    step s = agentStep a { s with pending := rest } := by
  simp [step, nextStep, h]

theorem agentStep_consume_cons {s : State} {x : OutToken} {rest : List OutToken} (h : s.outbound = x :: rest) :
    agentStep .consume s = .next { s with outbound := rest } := by
  simp [agentStep, h]

theorem agentStep_consume_nil {s : State} (h : s.outbound = []) : agentStep .consume s = .next s := by
  rw [agentStep, h, List.drop_nil, ← h]

/-- Settles O51: TIME by the agent that steps, and the other agents' steps by the equations of `step` and `agentStep`. -/
theorem timeAdvancesOnlyByTick : Obligations.TimeAdvancesOnlyByTick := by
  refine ⟨fun a s => agentStep_time a s, fun _ _ _ => step_of_pending, fun s => ?_⟩
  exact ⟨fun _ => rfl, fun _ _ => agentStep_consume_cons, agentStep_consume_nil, rfl, rfl, rfl, fun _ _ _ => ⟨rfl, rfl⟩⟩

end Sys2Proof.Machine
end

section
/-! PROOFS. How a receive command ends and what RECV_BITS does with its bits: one inversion lemma per operation, for the
frame statements and for the invariant. -/

namespace Sys2Proof.Machine

/-! ## The completion of a receive command -/

/-- R72, R106, R182: `t` is `s` after a receive command completed, with whatever it left in RXBUF, RXLEN, CRC and RXSTAT, and
with the free values its check drew. -/
inductive ReceiveDone (s : State) : State → Prop
  | mk (r : Result) (rxbuf : Memory) (rxlen : BitVec 11) (crc : Half) (rxstat : RxStat) (drawn : Nat)
      (hwf : s.rxbuf.wf = true → rxbuf.wf = true) :
      ReceiveDone s (completeReceive r
        { s with rxbuf := rxbuf, rxlen := rxlen, crc := crc, rxstat := rxstat, freeCount := drawn })

theorem endReceive_done (n : Nat) (r : Result) (s : State) : ReceiveDone s (endReceive n r s) := .mk _ _ _ _ _ _ id

/-- The completion overwrites RXSTAT, so what it held before does not matter. -/
theorem ReceiveDone.of_rxstat {s t : State} {x : RxStat} (h : ReceiveDone { s with rxstat := x } t) : ReceiveDone s t := by
  obtain ⟨_, _, _, _, _, _, hwf⟩ := h
  exact .mk _ _ _ _ _ _ hwf

theorem storeRxAll_frame (bytes : List Byte) : ∀ (i : Nat) (s : State),
    storeRxAll i bytes s = { s with rxbuf := (storeRxAll i bytes s).rxbuf } := by
  induction bytes with
  | nil => exact fun _ _ => rfl
  | cons b rest ih => intro i s; rw [storeRxAll, ih, storeRx_frame]

/-- R106, R182: a frame is stored, checked and reported by the completion. -/
theorem answers_check_done {n minlen i len : Nat} {bytes : List Byte} {chk : Bool} {s : State}
    {k : Result → State → StepOutcome}
    (hk : ∀ r u, ∃ (r' : Result) (x : RxStat), k r u = .next (completeReceive r' { u with rxstat := x })) :
    Answers (ReceiveDone s) (check n minlen chk (setRxlen len (storeRxAll i bytes s)) k) :=
  answers_check fun r frame drawn => by
    obtain ⟨r', x, hx⟩ := hk r (applyCheck frame minlen chk { setRxlen len (storeRxAll i bytes s) with freeCount := drawn })
    rw [hx, answers_next, storeRxAll_frame]
    exact .mk _ _ _ _ _ _ (storeRxAll_wf bytes i)

theorem substituteRcp_done (s : State) : Answers (ReceiveDone s) (substituteRcp s) :=
  answers_check_done fun _ _ => ⟨_, _, rfl⟩

theorem frameEnd_done (bits : List Bool) (truncated : Bool) (s : State) :
    Answers (ReceiveDone s) (frameEnd bits truncated s) := by
  simp only [frameEnd]
  split
  · exact substituteRcp_done s
  · exact answers_check_done fun _ _ => ⟨_, _, rfl⟩

theorem lostCarrier_done (s : State) : Answers (ReceiveDone (rxReset s)) (lostCarrier s) := by
  simp only [lostCarrier]
  generalize (if s.rx.sync = .sync then s.rx.pend else []) = bits
  split
  · exact frameEnd_done bits true (rxReset s)
  · exact answers_next.mpr (endReceive_done 0 _ (rxReset s))

theorem finishReceived_done (n minlen : Nat) (chk ovf : Bool) (s : State) :
    Answers (ReceiveDone s) (finishReceived n minlen chk ovf s) :=
  answers_check_done (i := 0) (bytes := []) fun _ _ => ⟨_, _, rfl⟩

/-! ## The receive engine -/

/-- R38, R176: the ranges of the receive engine's fields under an oversize guard of `guard` bytes. -/
structure RxEngine.InRange (guard : Nat) (e : RxEngine) : Prop where
  ones : e.ones ≤ 7
  pend : e.pend.length < 8 * (guard + 1)
  hunt : e.sync = .hunt → e.pend = []

theorem RxEngine.init_inRange (guard : Nat) : RxEngine.init.InRange guard :=
  ⟨by decide, by simp [RxEngine.init], fun _ => rfl⟩

/-- R178: after an event no bit of the frame is kept. -/
def RxEngine.EventClears (p : RxEngine × RxEvent) : Prop := p.2 ≠ .none → p.1.pend = []

section
variable {guard : Nat} {x : Bool} {e : RxEngine}

/-- R179: a bit is kept only as long as the guard is not reached. -/
theorem RxEngine.push_inRange (h : e.InRange guard) (hs : e.sync = .sync) : (e.push guard x).1.InRange guard := by
  have hp := h.pend
  simp only [RxEngine.push]
  split
  · exact ⟨h.ones, Nat.succ_pos _, fun _ => rfl⟩
  · rename_i hne
    simp only [List.length_append, List.length_singleton] at hne
    exact ⟨h.ones, by simp only [List.length_append, List.length_singleton]; omega, fun hh => by simp [hs] at hh⟩

theorem RxEngine.push_eventClears : EventClears (e.push guard x) := by
  simp only [RxEngine.push, EventClears]
  split <;> simp

theorem RxEngine.flagSeen_inRange (h : e.InRange guard) : e.flagSeen.1.InRange guard := by
  cases hs : e.sync <;> simp only [RxEngine.flagSeen, hs] <;> exact ⟨h.ones, Nat.succ_pos _, fun _ => rfl⟩

theorem RxEngine.flagSeen_pend : e.flagSeen.1.pend = [] := by
  cases hs : e.sync <;> simp only [RxEngine.flagSeen, hs]

theorem RxEngine.sevenOnes_inRange (h : e.InRange guard) : e.sevenOnes.1.InRange guard := by
  cases hs : e.sync <;> simp only [RxEngine.sevenOnes, hs]
  · exact h
  · exact ⟨h.ones, Nat.succ_pos _, fun _ => rfl⟩

theorem RxEngine.sevenOnes_eventClears : EventClears e.sevenOnes := by
  cases hs : e.sync <;> simp [RxEngine.sevenOnes, EventClears, hs]

theorem RxEngine.rxBit_inRange (h : e.InRange guard) : (e.rxBit guard x).1.InRange guard := by
  have hones (n : Nat) (hn : n ≤ 7) : InRange guard { e with ones := n } := ⟨hn, h.pend, h.hunt⟩
  cases x with
  | true =>
    have h1 := hones (min (e.ones + 1) 7) (Nat.min_le_right ..)
    simp only [RxEngine.rxBit, if_true]
    split
    · exact sevenOnes_inRange h1
    · split
      · exact push_inRange h1 ‹_›
      · exact h1
  | false =>
    have h1 := hones 0 (Nat.zero_le _)
    simp only [RxEngine.rxBit, Bool.false_eq_true, if_false]
    split
    case isTrue => exact flagSeen_inRange h1
    split
    case isTrue => exact h1
    split
    case isTrue => exact h1
    split
    case isTrue => exact push_inRange h1 ‹_›
    case isFalse => exact h1

theorem RxEngine.rxBit_eventClears : EventClears (e.rxBit guard x) := by
  cases x with
  | true =>
    simp only [RxEngine.rxBit, if_true]
    split
    · exact sevenOnes_eventClears
    · split
      · exact push_eventClears
      · simp [EventClears]
  | false =>
    simp only [RxEngine.rxBit, Bool.false_eq_true, if_false]
    split
    case isTrue => exact fun _ => flagSeen_pend
    split
    case isTrue => simp [EventClears]
    split
    case isTrue => simp [EventClears]
    split
    case isTrue => exact push_eventClears
    case isFalse => simp [EventClears]

/-- R184: the bits not yet looked at are none of the engine's business. -/
theorem RxEngine.rxBit_backlog : (e.rxBit guard x).1.backlog = e.backlog := by
  have hpush (f : RxEngine) (y : Bool) : (f.push guard y).1.backlog = f.backlog := by
    simp only [RxEngine.push]; split <;> rfl
  have hflag (f : RxEngine) : f.flagSeen.1.backlog = f.backlog := by cases hs : f.sync <;> simp [RxEngine.flagSeen, hs]
  have hseven (f : RxEngine) : f.sevenOnes.1.backlog = f.backlog := by cases hs : f.sync <;> simp [RxEngine.sevenOnes, hs]
  simp only [RxEngine.rxBit, apply_ite Prod.fst, apply_ite RxEngine.backlog, hpush, hflag, hseven, ite_self]

end

/-! ## The bits of RECV_BITS -/

/-- R184, R187: `t` is what comes of line bits `xs` in `s`: the engine has taken them all and waits on, or one of them gave an
event, which ended the command with the bits behind it in the backlog. -/
def BitsRun (xs : List Bool) (s t : State) : Prop :=
  ∃ e : RxEngine, (s.rx.InRange s.guard → e.InRange s.guard) ∧
    ((e.backlog = [] ∧ t = goto .recvBits { s with rx := e })
      ∨ (e.backlog.length < xs.length ∧ e.pend = [] ∧ ReceiveDone { s with rx := e } t))

theorem runBacklog_run (xs : List Bool) : ∀ s : State, Answers (BitsRun xs s) (runBacklog xs s) := by
  induction xs with
  | nil => exact fun s => answers_next.mpr ⟨{ s.rx with backlog := [] }, fun h => ⟨h.ones, h.pend, h.hunt⟩, .inl ⟨rfl, rfl⟩⟩
  | cons x xs ih =>
    intro s
    obtain ⟨e, ev, he⟩ : ∃ e ev, RxEngine.rxBit s.guard x { s.rx with backlog := xs } = (e, ev) := ⟨_, _, rfl⟩
    have hrange : s.rx.InRange s.guard → e.InRange s.guard := fun h => by
      simpa [he] using RxEngine.rxBit_inRange (x := x) (e := { s.rx with backlog := xs }) ⟨h.ones, h.pend, h.hunt⟩
    have hclears : ev ≠ .none → e.pend = [] := by
      simpa [he, RxEngine.EventClears] using
        RxEngine.rxBit_eventClears (guard := s.guard) (x := x) (e := { s.rx with backlog := xs })
    have hbacklog : e.backlog = xs := by
      simpa [he] using RxEngine.rxBit_backlog (guard := s.guard) (x := x) (e := { s.rx with backlog := xs })
    have hdone (hev : ev ≠ .none) {t : State} (ht : ReceiveDone { s with rx := e } t) : BitsRun (x :: xs) s t :=
      ⟨e, hrange, .inr ⟨by simp [hbacklog], hclears hev, ht⟩⟩
    simp only [runBacklog, he]
    cases ev with
    | none =>
      intro t ht
      obtain ⟨e', hr, h⟩ := ih _ t ht
      refine ⟨e', fun h => hr (hrange h), ?_⟩
      obtain ⟨hb, rfl⟩ | ⟨hl, hp, hd⟩ := h
      · exact .inl ⟨hb, rfl⟩
      · exact .inr ⟨Nat.lt_succ_of_lt hl, hp, hd⟩
    | frame bits => exact fun t ht => hdone (by simp) (frameEnd_done bits false _ t ht)
    | abort => exact answers_next.mpr (hdone (by simp) (endReceive_done 0 _ _))
    | oversize => exact answers_next.mpr (hdone (by simp) (endReceive_done 0 _ _))

end Sys2Proof.Machine
end

section
/-! PROOFS. The ranges of the transmit engine (R39, R171) across the operations that put bits on the line. -/

namespace Sys2Proof.Machine

/-- R171: at most 7 bits wait for their byte, and the bits of `acc` above them are 0. -/
structure TxEngine.Packed (e : TxEngine) : Prop where
  nbits : e.nbits ≤ 7
  acc : e.acc.toNat < 2 ^ e.nbits

/-- Between frames the transmit engine counts no 1s (R173). -/
structure TxEngine.Rests (e : TxEngine) : Prop extends e.Packed where
  ones : e.ones = 0

theorem TxEngine.init_rests : TxEngine.init.Rests := ⟨⟨by decide, by decide⟩, rfl⟩

/-- R171: setting bit `p` of a byte of `p` bits gives a byte of `p + 1` bits. -/
theorem setBit8_toNat_lt {b : Byte} {p : Nat} (x : Bool) (h : b.toNat < 2 ^ p) :
    (setBit8 b p x).toNat < 2 ^ (p + 1) := by
  have hb : b.toNat < 2 ^ (p + 1) := Nat.lt_trans h (Nat.pow_lt_pow_right (by decide) (Nat.lt_succ_self p))
  cases x with
  | true =>
    have hp : ((1 : Byte) <<< p).toNat < 2 ^ (p + 1) := by
      rw [BitVec.toNat_shiftLeft, show (1 : Byte).toNat = 1 from rfl, Nat.one_shiftLeft]
      exact Nat.lt_of_le_of_lt (Nat.mod_le _ _) (Nat.pow_lt_pow_right (by decide) (Nat.lt_succ_self p))
    simp only [setBit8, if_true, BitVec.toNat_or]
    exact Nat.or_lt_two_pow hb hp
  | false =>
    simp only [setBit8, Bool.false_eq_true, if_false, BitVec.toNat_and]
    exact Nat.lt_of_le_of_lt Nat.and_le_left hb

section
variable {e : TxEngine} {x : Bool}

theorem TxEngine.putLineBit_packed (h : e.Packed) : (putLineBit x e).1.Packed := by
  have hn := h.nbits
  simp only [putLineBit]
  split
  · exact ⟨Nat.zero_le _, Nat.one_pos⟩
  · exact ⟨by show e.nbits + 1 ≤ 7; omega, setBit8_toNat_lt x h.acc⟩

theorem TxEngine.putLineBit_nbits (h : e.nbits ≤ 7) : (putLineBit x e).1.nbits = (e.nbits + 1) % 8 := by
  simp only [putLineBit]
  split <;> simp only <;> omega

theorem TxEngine.putDataBit_packed (h : e.Packed) : (putDataBit x e).1.Packed := by
  have h1 : (putLineBit x e).1.Packed := putLineBit_packed h
  have hones (f : TxEngine) (hf : f.Packed) (n : Nat) : ({ f with ones := n } : TxEngine).Packed := ⟨hf.nbits, hf.acc⟩
  simp only [putDataBit]
  split
  · split
    · exact hones _ (putLineBit_packed (hones _ h1 5)) 0
    · exact hones _ h1 _
  · exact hones _ h1 0

/-- What every bit put on the line keeps, a bit list keeps. -/
theorem TxEngine.putAll_packed {put : Bool → TxEngine → TxEngine × List OutToken}
    (hput : ∀ x (e : TxEngine), e.Packed → (put x e).1.Packed) (xs : List Bool) :
    ∀ e : TxEngine, e.Packed → (putAll put xs e).1.Packed := by
  induction xs with
  | nil => exact fun _ h => h
  | cons x xs ih => exact fun e h => ih _ (hput x e h)

theorem TxEngine.putAll_nbits (xs : List Bool) : ∀ e : TxEngine, e.nbits ≤ 7 →
    (putAll putLineBit xs e).1.nbits = (e.nbits + xs.length) % 8 := by
  induction xs with
  | nil => intro e h; simp only [putAll, List.length_nil]; omega
  | cons x xs ih =>
    intro e h
    have h1 := putLineBit_nbits (x := x) h
    rw [putAll, ih _ (by omega), h1, List.length_cons]
    omega

/-- Forgetting the run of 1s brings a packed engine to rest. -/
theorem TxEngine.Packed.rests (h : e.Packed) : ({ e with ones := 0 } : TxEngine).Rests := ⟨⟨h.nbits, h.acc⟩, rfl⟩

theorem TxEngine.putFlag_rests (h : e.Packed) : e.putFlag.1.Rests := by
  have h1 : (putAll putLineBit flagBits e).1.Packed := putAll_packed (fun _ _ => putLineBit_packed) flagBits e h
  simp only [putFlag]
  generalize putAll putLineBit flagBits e = p at h1 ⊢
  exact h1.rests

theorem TxEngine.putFlags_rests (n : Nat) : ∀ e : TxEngine, e.Rests → (putFlags n e).1.Rests := by
  induction n with
  | zero => exact fun _ h => h
  | succ n ih =>
    intro e h
    simp only [putFlags]
    exact ih _ (putFlag_rests h.toPacked)

theorem TxEngine.flushPad_rests (h : e.Packed) : e.flushPad.1.Rests := by
  simp only [flushPad]
  exact (putAll_packed (fun _ _ => putLineBit_packed) _ e h).rests

/-- R175: the padding completes the byte. -/
theorem TxEngine.flushPad_nbits (h : e.Packed) : e.flushPad.1.nbits = 0 := by
  have hn := h.nbits
  have hlen : (if e.nbits = 0 then [] else flagBits.take (8 - e.nbits)).length = (8 - e.nbits) % 8 := by
    split
    · rename_i h0; simp [h0]
    · simp only [List.length_take, flagBits, List.length_cons, List.length_nil]; omega
  simp only [flushPad]
  rw [putAll_nbits _ _ hn, hlen]
  omega

theorem TxEngine.sendFrame_rests (flags : Nat) (body : List Byte) (flush : Bool) (h : e.Rests) :
    (sendFrame flags body flush e).1.Rests := by
  have h1 := putFlags_rests flags e h
  have h2 : (if body = [] then ((putFlags flags e).1, []) else (putFlags flags e).1.putFrame body).1.Rests := by
    split
    · exact h1
    · simp only [putFrame]
      exact putFlag_rests (putAll_packed (fun _ _ => putDataBit_packed) _ _ h1.toPacked)
  simp only [sendFrame]
  cases flush with
  | true => exact flushPad_rests h2.toPacked
  | false => exact h2

end

end Sys2Proof.Machine
end

section
/-! PROOFS. The machine's invariant: what an operation of the block may rely on and has to leave, and that every step of every
agent keeps it. -/

namespace Sys2Proof.Machine

/-! ## The parts of the invariant -/

/-- The part of the invariant that does not speak of the wait point. -/
structure Sound (s : State) : Prop where
  rxbuf : s.rxbuf.wf = true
  txbuf : s.txbuf.wf = true
  rx : s.rx.InRange s.guard
  backlog : s.rx.backlog.length ≤ 7
  tx : s.tx.Rests
  txOwner : s.link ≠ .txData → s.tx.nbits = 0

/-- What holds while a command runs, but for the bits that RECV_BITS holds and the meaning of the wait point. -/
structure Runs (s : State) : Prop extends Sound s where
  held : s.heldDleUnk = true → isReceiveOp s.curOp = true
  lastCmd : s.status.lastCmd = s.curOp

theorem Inv.sound {s : State} (h : Inv s) : Sound s :=
  ⟨h.rxbufWf, h.txbufWf, ⟨h.rxOnes, h.rxPend, h.rxHunt⟩, h.rxBacklog, ⟨⟨h.txNbits, h.txAcc⟩, h.txOnes⟩, h.txOwner⟩

theorem Inv.runs {s : State} {w : WaitPoint} (h : Inv s) (hw : s.pos = some w) : Runs s :=
  ⟨h.sound, fun hd => (h.heldPair hd).2, h.lastCmd (by simp [State.busy, hw])⟩

theorem Inv.idle_held {s : State} (h : Inv s) (hp : s.pos = none) : s.heldDleUnk = false := by
  by_contra hd
  have := (h.heldPair (by simpa using hd)).1
  simp [State.busy, hp] at this

/-- R184: only RECV_BITS, or the abort_sequence of its timeout, stands inside a frame. -/
theorem Inv.pend_nil {s : State} {w : WaitPoint} (h : Inv s) (hw : s.pos = some w) (hb : ¬ w.holdsBits) :
    s.rx.pend = [] :=
  by_contra fun hp => hb (h.rxOwner w hw hp)

theorem Sound.inv_idle {s : State} (h : Sound s) (hp : s.pos = none) (hb : s.rx.pend = []) (hd : s.heldDleUnk = false) :
    Inv s where
  rxbufWf := h.rxbuf
  txbufWf := h.txbuf
  rxOnes := h.rx.ones
  rxPend := h.rx.pend
  rxHunt := h.rx.hunt
  rxBacklog := h.backlog
  txNbits := h.tx.nbits
  txOnes := h.tx.ones
  txAcc := h.tx.acc
  txOwner := h.txOwner
  rxOwner := by simp [hp]
  rxIdle := fun _ => hb
  heldPair := by simp [hd]
  lastCmd := by simp [State.busy, hp]
  waits := by simp [hp]

theorem WaitPoint.fits_goto {w w' : WaitPoint} {s : State} : w.fits (goto w' s) ↔ w.fits s := by
  cases w with
  | abortFirst t0 after | abortSecond t0 after => cases after <;> exact Iff.rfl
  | _ => exact Iff.rfl

theorem Runs.inv_goto {s : State} {w : WaitPoint} (h : Runs s) (hb : s.rx.pend ≠ [] → w.holdsBits) (hf : w.fits s) :
    Inv (goto w s) where
  rxbufWf := h.rxbuf
  txbufWf := h.txbuf
  rxOnes := h.rx.ones
  rxPend := h.rx.pend
  rxHunt := h.rx.hunt
  rxBacklog := h.backlog
  txNbits := h.tx.nbits
  txOnes := h.tx.ones
  txAcc := h.tx.acc
  txOwner := h.txOwner
  rxOwner := by simpa using hb
  rxIdle := by simp
  heldPair := fun hd => ⟨rfl, h.held hd⟩
  lastCmd := fun _ => h.lastCmd
  waits := by simpa [WaitPoint.fits_goto] using hf

/-- What the invariant reads of a state, over the reset state. -/
def State.guarded (s : State) : State :=
  { State.reset with
    ctrl := { State.reset.ctrl with v34 := s.ctrl.v34 }, status := { State.reset.status with lastCmd := s.status.lastCmd }
    fs64 := s.fs64, seqcfg := { State.reset.seqcfg with rearmMax := s.seqcfg.rearmMax }, link := s.link, rx := s.rx
    tx := s.tx, curCmd := s.curCmd, rearm := s.rearm, pos := s.pos, heldDleUnk := s.heldDleUnk, rxbuf := s.rxbuf
    txbuf := s.txbuf }

theorem WaitPoint.fits_guarded {w : WaitPoint} {s : State} : w.fits s.guarded ↔ w.fits s := by
  cases w with
  | abortFirst t0 after | abortSecond t0 after => cases after <;> exact Iff.rfl
  | _ => exact Iff.rfl

theorem inv_guarded {s : State} : Inv s.guarded ↔ Inv s :=
  ⟨fun h => ⟨h.rxbufWf, h.txbufWf, h.rxOnes, h.rxPend, h.rxHunt, h.rxBacklog, h.txNbits, h.txOnes, h.txAcc, h.txOwner,
      h.rxOwner, h.rxIdle, h.heldPair, h.lastCmd, fun w hw => WaitPoint.fits_guarded.mp (h.waits w hw)⟩,
    fun h => ⟨h.rxbufWf, h.txbufWf, h.rxOnes, h.rxPend, h.rxHunt, h.rxBacklog, h.txNbits, h.txOnes, h.txAcc, h.txOwner,
      h.rxOwner, h.rxIdle, h.heldPair, h.lastCmd, fun w hw => WaitPoint.fits_guarded.mpr (h.waits w hw)⟩⟩

/-- An operation on what the invariant does not read keeps it. -/
theorem Inv.congr {s t : State} (h : Inv s) (e : t.guarded = s.guarded) : Inv t :=
  inv_guarded.mp (e ▸ inv_guarded.mpr h)

/-! ## What the operations on the state keep -/

section
variable {s t : State}

theorem Sound.setLink {l : Link} (h : Sound s) (hn : s.tx.nbits = 0) : Sound (setLink l s) :=
  ⟨h.rxbuf, h.txbuf, h.rx, h.backlog, h.tx, fun _ => hn⟩

theorem Sound.rxReset (h : Sound s) : Sound (rxReset s) :=
  ⟨h.rxbuf, h.txbuf, RxEngine.init_inRange _, Nat.zero_le _, h.tx, h.txOwner⟩

theorem Sound.txReset (h : Sound s) : Sound (txReset s) :=
  ⟨h.rxbuf, h.txbuf, h.rx, h.backlog, TxEngine.init_rests, fun _ => rfl⟩

theorem Sound.storeRx (h : Sound s) (i : Nat) (b : Byte) : Sound (storeRx i b s) := by
  rw [storeRx_frame]
  exact ⟨storeRx_wf i b h.rxbuf, h.txbuf, h.rx, h.backlog, h.tx, h.txOwner⟩

theorem Sound.storeTx (h : Sound s) (i : Nat) (b : Byte) : Sound (storeTx i b s) := by
  rw [storeTx_frame]
  exact ⟨h.rxbuf, storeTx_wf i b h.txbuf, h.rx, h.backlog, h.tx, h.txOwner⟩

theorem Runs.storeRx (h : Runs s) (i : Nat) (b : Byte) : Runs (storeRx i b s) := by
  refine ⟨h.toSound.storeRx i b, ?_, ?_⟩
  · simpa [State.curOp] using h.held
  · simpa [State.curOp] using h.lastCmd

/-- R305: a completion ends in a good state where no discarded pair and no bit of a frame is held. -/
theorem Sound.inv_complete (h : Sound s) (hb : s.rx.pend = []) (hd : s.heldDleUnk = false) (r : Result) :
    Inv (complete r s) :=
  Sound.inv_idle ⟨h.rxbuf, h.txbuf, h.rx, h.backlog, h.tx, h.txOwner⟩ rfl hb hd

/-- R72: the completion of a receive command shows the discarded pair itself. -/
theorem Sound.inv_done (h : Sound s) (hb : s.rx.pend = []) (hd : ReceiveDone s t) : Inv t := by
  obtain ⟨r, rxbuf, rxlen, crc, rxstat, drawn, hwf⟩ := hd
  exact Sound.inv_idle ⟨Memory.dropFrom_wf _ (hwf h.rxbuf), h.txbuf, h.rx, h.backlog, h.tx, h.txOwner⟩ rfl hb rfl

theorem Inv.beginAbort {w : WaitPoint} {after : AfterAbort} (h : Inv s) (hw : s.pos = some w)
    (hb : w.holdsBits → (WaitPoint.abortFirst s.time after).holdsBits) (hf : after.fits s) : Inv (beginAbort after s) :=
  Inv.congr ((h.runs hw).inv_goto (w := .abortFirst s.time after) (fun hp => hb (h.rxOwner w hw hp)) hf) rfl

/-- R243: abort_sequence ends in a good state, both engines reset. -/
theorem Inv.endAbort {w : WaitPoint} {after : AfterAbort} (h : Inv s) (hw : s.pos = some w) (hf : after.fits s)
    (sawOk : Bool) : Inv (endAbort sawOk after s) := by
  have hs : Sound (Machine.txReset (Machine.rxReset (Machine.setLink (if sawOk then .idle else .unknown) s))) :=
    ⟨h.rxbufWf, h.txbufWf, RxEngine.init_inRange _, Nat.zero_le _, TxEngine.init_rests, fun _ => rfl⟩
  have held (hop : isReceiveOp s.curOp = false) : s.heldDleUnk = false := by
    by_contra hd
    simp [(h.runs hw).held (by simpa using hd)] at hop
  cases after with
  | timeout => exact hs.inv_complete rfl (held hf.1) _
  | receiveTimeout n => exact hs.inv_done rfl (endReceive_done n _ _)
  | abortCmd => exact hs.inv_complete rfl (held (by rw [show s.curOp = 0x47 from hf]; rfl)) _

end

/-! ## Bytes stored -/

theorem stored_zero (s : State) : Stored 0 s := ⟨Nat.zero_le _, fun _ h => absurd h (Nat.not_lt_zero _)⟩

theorem Stored.storeRx_succ {n : Nat} {s : State} (h : Stored n s) (hn : n < Config.rxbufSize) (b : Byte) :
    Stored (n + 1) (storeRx n b s) := by
  refine ⟨hn, fun i hi => ?_⟩
  rw [storeRx_read]
  split
  · rfl
  · rename_i hne
    have hin : i ≠ n := fun e => hne ⟨e, hn⟩
    exact h.2 i (by omega)

end Sys2Proof.Machine
end

section
/-! PROOFS. The invariant across the tokens of the receive commands. -/

namespace Sys2Proof.Machine

/-! ## The receive commands' tokens -/

section
variable {s : State} {n : Nat} {found ovf : Bool}

theorem hdlcPut_inv (hr : Runs s) (hb : s.rx.pend = []) (hf : (WaitPoint.recvHdlcData n found ovf).fits s) (v : Byte) :
    Inv (hdlcPut n found ovf v s) := by
  obtain ⟨hop, hv34, hlink, hst, hfound, hovf⟩ := hf
  unfold hdlcPut
  split
  · exact hr.inv_goto (absurd hb) ⟨hop, hv34, hlink, hst, hfound, hovf⟩
  · split
    · rename_i hn
      refine (hr.storeRx n _).inv_goto (by simp [hb]) ⟨?_, by simpa using hv34, by simpa using hlink,
        hst.storeRx_succ hn _, nofun, fun ho => ?_⟩
      · simpa [State.curOp] using hop
      · have := hovf ho; omega
    · rename_i hn
      exact hr.inv_goto (absurd hb) ⟨hop, hv34, hlink, hst, nofun, fun _ => Nat.le_antisymm hst.1 (by omega)⟩

theorem hdlcDataResult_inv (h : Runs s) (hb : s.rx.pend = []) (hf : (WaitPoint.recvHdlcData n found ovf).fits s)
    (r : DceRes) : Inv (hdlcDataResult n found ovf r s) := by
  have hidle : Sound (setLink .idle s) := h.setLink (h.txOwner (by simp [hf.2.2.1]))
  cases r with
  | noCarrier | ok | error => exact hidle.inv_done hb (endReceive_done n _ _)
  | connect | fcerror | other => exact h.inv_goto (absurd hb) hf

theorem recvHdlcDataToken_inv (h : Inv s) (hw : s.pos = some (.recvHdlcData n found ovf)) (x : InToken) :
    Answers Inv (recvHdlcDataToken n found ovf x s) := by
  have hr := h.runs hw
  have hb := h.pend_nil hw id
  have hf := h.waits _ hw
  cases x with
  | byte v =>
    rw [recvHdlcDataToken, answers_next]
    split
    · exact hr.inv_goto (absurd hb) hf
    · exact hdlcPut_inv hr hb hf v
  | res r => exact answers_next.mpr (hdlcDataResult_inv hr hb hf r)

/-- R134: a discarded pair is held back by a receive command alone. -/
theorem Runs.noteUnknownPair (h : Runs s) (hop : isReceiveOp s.curOp = true) : Runs (noteUnknownPair s) :=
  ⟨⟨h.rxbuf, h.txbuf, h.rx, h.backlog, h.tx, h.txOwner⟩, fun _ => hop, h.lastCmd⟩

theorem recvHdlcDleToken_inv (h : Inv s) (hw : s.pos = some (.recvHdlcDle n found ovf)) (x : InToken) :
    Answers Inv (recvHdlcDleToken n found ovf x s) := by
  have hr := h.runs hw
  have hb := h.pend_nil hw id
  have hf := h.waits _ hw
  obtain ⟨hop, hv34, hlink, hst, hfound, hovf⟩ := id hf
  cases x with
  | byte v =>
    rw [recvHdlcDleToken, answers_next]
    split
    · exact hdlcPut_inv hr hb hf _
    · split
      · exact hr.inv_goto (absurd hb) ⟨hop, hv34, hlink, hst, hovf⟩
      · exact (hr.noteUnknownPair (by rw [hop]; rfl)).inv_goto (absurd hb) hf
  | res r => exact answers_next.mpr (hdlcDataResult_inv hr hb hf r)

theorem recvHdlcEndToken_inv (h : Inv s) (hw : s.pos = some (.recvHdlcEnd n ovf)) (x : InToken) :
    Answers Inv (recvHdlcEndToken n ovf x s) := by
  obtain ⟨-, -, hlink, -⟩ := h.waits _ hw
  have hb := h.pend_nil hw id
  have hidle : Sound (setLink .idle s) := h.sound.setLink (h.txOwner (by simp [hlink]))
  refine answers_awaitResult h fun r => ?_
  cases r with
  | ok | noCarrier => exact fun t ht => hidle.inv_done hb (finishReceived_done n _ _ ovf _ t ht)
  | error => exact fun t ht => hidle.inv_done hb (finishReceived_done n _ _ ovf _ t ht).of_rxstat
  | connect | fcerror | other => exact answers_next.mpr h

theorem rawStore_inv (hr : Runs s) (hb : s.rx.pend = []) (hf : (WaitPoint.recvRaw n).fits s) (v : Byte) :
    Inv (rawStore n v s) := by
  obtain ⟨hop, hv34, hlink, hst, hn, hcount⟩ := hf
  have hr' := hr.storeRx n v
  have hb' : (storeRx n v s).rx.pend = [] := by simp [hb]
  unfold rawStore rawContinue
  split
  · rename_i hlt
    refine hr'.inv_goto (absurd hb') ⟨?_, by simpa using hv34, by simpa using hlink,
      hst.storeRx_succ (by omega) v, ?_, ?_⟩
    · simpa [State.curOp] using hop
    · simpa [State.arg16] using hlt
    · simpa [State.arg16] using hcount
  · exact hr'.inv_done hb' (endReceive_done _ _ _)

theorem rawResult_inv (hr : Runs s) (hb : s.rx.pend = []) (hf : (WaitPoint.recvRaw n).fits s) (r : DceRes) :
    Inv (rawResult n r s) := by
  have hidle : Sound (setLink .idle s) := hr.setLink (hr.txOwner (by simp [hf.2.2.1]))
  cases r with
  | noCarrier | ok | error => exact hidle.inv_done hb (endReceive_done n _ _)
  | connect | fcerror | other => exact hr.inv_goto (absurd hb) hf

theorem recvRawToken_inv (h : Inv s) (hw : s.pos = some (.recvRaw n)) (x : InToken) :
    Answers Inv (recvRawToken n x s) := by
  have hr := h.runs hw
  have hb := h.pend_nil hw id
  have hf := h.waits _ hw
  cases x with
  | byte v =>
    rw [recvRawToken, answers_next]
    split
    · exact hr.inv_goto (absurd hb) hf
    · exact rawStore_inv hr hb hf v
  | res r => exact answers_next.mpr (rawResult_inv hr hb hf r)

theorem recvRawDleToken_inv (h : Inv s) (hw : s.pos = some (.recvRawDle n)) (x : InToken) :
    Answers Inv (recvRawDleToken n x s) := by
  have hr := h.runs hw
  have hb := h.pend_nil hw id
  have hf := h.waits _ hw
  cases x with
  | byte v =>
    rw [recvRawDleToken, answers_next]
    split
    · exact rawStore_inv hr hb hf _
    · split
      · exact hr.inv_goto (absurd hb) hf
      · exact (hr.noteUnknownPair (by rw [hf.1]; rfl)).inv_goto (absurd hb) hf
  | res r => exact answers_next.mpr (rawResult_inv hr hb hf r)

theorem recvRawEndToken_inv (h : Inv s) (hw : s.pos = some (.recvRawEnd n)) (x : InToken) :
    Answers Inv (recvRawEndToken n x s) := by
  obtain ⟨-, -, hlink, -⟩ := h.waits _ hw
  have hidle : Sound (setLink .idle s) := h.sound.setLink (h.txOwner (by simp [hlink]))
  refine answers_awaitResult h fun r => ?_
  cases r with
  | ok | noCarrier | error => exact answers_next.mpr (hidle.inv_done (h.pend_nil hw id) (endReceive_done n _ _))
  | connect | fcerror | other => exact answers_next.mpr h

/-- R187: RECV_BITS goes on, or ends, in a good state from any backlog of at most 8 bits. -/
theorem BitsRun.inv {xs : List Bool} {t : State} (h : BitsRun xs s t) (hr : Runs s) (hlen : xs.length ≤ 8)
    (hop : s.curOp = 0x22) (hv34 : s.ctrl.v34 = false) (hlink : s.link = .rxData) : Inv t := by
  obtain ⟨e, hrange, ⟨hb, rfl⟩ | ⟨hl, hp, hd⟩⟩ := h
  · have hr' : Runs { s with rx := e } :=
      ⟨⟨hr.rxbuf, hr.txbuf, hrange hr.rx, by simp [hb], hr.tx, hr.txOwner⟩, hr.held, hr.lastCmd⟩
    exact hr'.inv_goto (fun _ => trivial) ⟨hop, hv34, hlink, hb⟩
  · have hs : Sound { s with rx := e } :=
      ⟨hr.rxbuf, hr.txbuf, hrange hr.rx, Nat.le_of_lt_succ (Nat.lt_of_lt_of_le hl hlen), hr.tx, hr.txOwner⟩
    exact hs.inv_done hp hd

theorem bitsByte_inv (hr : Runs s) (hf : WaitPoint.recvBits.fits s) (v : Byte) : Answers Inv (bitsByte v s) := by
  obtain ⟨hop, hv34, hlink, -⟩ := hf
  exact fun t ht => (runBacklog_run (lineBits v) s t ht).inv hr (Nat.le_refl 8) hop hv34 hlink

theorem lostCarrier_inv (hr : Runs s) (hf : WaitPoint.recvBits.fits s) : Answers Inv (lostCarrier (setLink .idle s)) := by
  obtain ⟨-, -, hlink, -⟩ := hf
  have hidle : Sound (setLink .idle s) := hr.setLink (hr.txOwner (by simp [hlink]))
  exact fun t ht => hidle.rxReset.inv_done rfl (lostCarrier_done _ t ht)

theorem bitsResult_inv (hr : Runs s) (hf : WaitPoint.recvBits.fits s) (r : DceRes) : Answers Inv (bitsResult r s) := by
  cases r with
  | noCarrier => exact lostCarrier_inv hr hf
  | ok | error =>
    have hidle : Sound (setLink .idle s) := hr.setLink (hr.txOwner (by simp [hf.2.2.1]))
    exact answers_next.mpr (hidle.rxReset.inv_done rfl (endReceive_done 0 _ _))
  | connect | fcerror | other => exact answers_next.mpr (hr.inv_goto (fun _ => trivial) hf)

theorem recvBitsToken_inv (h : Inv s) (hw : s.pos = some .recvBits) (x : InToken) : Answers Inv (recvBitsToken x s) := by
  have hr := h.runs hw
  have hf := h.waits _ hw
  cases x with
  | byte v =>
    simp only [recvBitsToken]
    split
    · exact answers_next.mpr (hr.inv_goto (fun _ => trivial) hf)
    · exact bitsByte_inv hr hf v
  | res r => exact bitsResult_inv hr hf r

theorem recvBitsDleToken_inv (h : Inv s) (hw : s.pos = some .recvBitsDle) (x : InToken) :
    Answers Inv (recvBitsDleToken x s) := by
  have hr := h.runs hw
  have hf := h.waits _ hw
  cases x with
  | byte v =>
    simp only [recvBitsDleToken]
    split
    · exact bitsByte_inv hr hf _
    · split
      · exact answers_next.mpr (hr.inv_goto (fun _ => trivial) hf)
      · exact answers_next.mpr ((hr.noteUnknownPair (by rw [hf.1]; rfl)).inv_goto (fun _ => trivial) hf)
  | res r => exact bitsResult_inv hr hf r

theorem recvBitsEndToken_inv (h : Inv s) (hw : s.pos = some .recvBitsEnd) (x : InToken) :
    Answers Inv (recvBitsEndToken x s) := by
  refine answers_awaitResult h fun r => ?_
  cases r with
  | ok | noCarrier | error => exact lostCarrier_inv (h.runs hw) (h.waits .recvBitsEnd hw)
  | connect | fcerror | other => exact answers_next.mpr h

theorem v34Store_inv (hr : Runs s) (hb : s.rx.pend = []) (hf : (WaitPoint.recvV34 n ovf).fits s) (b : Byte) :
    Inv (v34Store n ovf b s) := by
  obtain ⟨hop, hv34, hst, hovf⟩ := hf
  unfold v34Store
  split
  · rename_i hn
    refine (hr.storeRx n b).inv_goto (by simp [hb]) ⟨?_, by simpa using hv34, hst.storeRx_succ hn b, fun ho => ?_⟩
    · simpa [State.curOp] using hop
    · have := hovf ho; omega
  · rename_i hn
    exact hr.inv_goto (absurd hb) ⟨hop, hv34, hst, fun _ => Nat.le_antisymm hst.1 (by omega)⟩

theorem v34Result_inv (hr : Runs s) (hb : s.rx.pend = []) (hf : (WaitPoint.recvV34 n ovf).fits s) (r : DceRes) :
    Inv (v34Result n ovf r s) := by
  cases r with
  | noCarrier | ok | error => exact hr.inv_done hb (endReceive_done n _ s)
  | connect | fcerror | other => exact hr.inv_goto (absurd hb) hf

theorem recvV34Token_inv (h : Inv s) (hw : s.pos = some (.recvV34 n ovf)) (x : InToken) :
    Answers Inv (recvV34Token n ovf x s) := by
  have hr := h.runs hw
  have hb := h.pend_nil hw id
  have hf := h.waits _ hw
  cases x with
  | byte v =>
    rw [recvV34Token, answers_next]
    split
    · exact hr.inv_goto (absurd hb) hf
    · exact v34Store_inv hr hb hf _
  | res r => exact answers_next.mpr (v34Result_inv hr hb hf r)

theorem recvV34DleToken_inv (h : Inv s) (hw : s.pos = some (.recvV34Dle n ovf)) (x : InToken) :
    Answers Inv (recvV34DleToken n ovf x s) := by
  have hr := h.runs hw
  have hb := h.pend_nil hw id
  have hf := h.waits _ hw
  cases x with
  | byte v =>
    simp only [recvV34DleToken]
    split
    case isTrue => exact answers_next.mpr (v34Store_inv hr hb hf _)
    split
    case isTrue => exact fun t ht => h.sound.inv_done hb (finishReceived_done n _ _ ovf s t ht)
    split
    case isTrue => exact answers_next.mpr ((h.sound.inv_done hb (endReceive_done n .peerEot s)).congr rfl)
    split
    case isTrue => exact fun t ht => h.sound.inv_done hb (finishReceived_done n _ _ ovf _ t ht).of_rxstat
    case isFalse => exact answers_next.mpr ((hr.inv_goto (w := .recvV34 n ovf) (absurd hb) hf).congr rfl)
  | res r => exact answers_next.mpr (v34Result_inv hr hb hf r)

end

end Sys2Proof.Machine
end

section
/-! PROOFS. The invariant across the tokens of the other commands, the deadlines and the ENGINE step. -/

namespace Sys2Proof.Machine

/-! ## The tokens of the other commands -/

/-- What a completion relies on: no bit of a frame and no discarded pair is held. -/
structure Ready (s : State) : Prop extends Sound s where
  pend : s.rx.pend = []
  held : s.heldDleUnk = false

section
variable {s : State}

/-- R71, R184: a command that does not receive is ready to complete wherever it waits. -/
theorem Inv.ready {w : WaitPoint} {op : Byte} (h : Inv s) (hw : s.pos = some w) (hb : ¬ w.holdsBits) (hop : s.curOp = op)
    (hn : isReceiveOp op = false) : Ready s :=
  ⟨h.sound, h.pend_nil hw hb, by
    by_contra hd
    simpa [hop, hn] using (h.runs hw).held (by simpa using hd)⟩

theorem Ready.inv_complete (h : Ready s) (r : Result) : Inv (complete r s) := h.toSound.inv_complete h.pend h.held r

theorem Ready.setLink {l : Link} (h : Ready s) (hn : s.tx.nbits = 0) : Ready (setLink l s) :=
  ⟨h.toSound.setLink hn, h.pend, h.held⟩

theorem sendHdlcToken_inv {final : Bool} (h : Inv s) (hw : s.pos = some (.sendHdlc final)) (x : InToken) :
    Answers Inv (sendHdlcToken final x s) := by
  obtain ⟨hop, -, hlink⟩ := h.waits _ hw
  have hr := h.ready hw id hop rfl
  have hidle : Ready (setLink .idle s) := hr.setLink (h.txOwner (by simp [hlink]))
  refine answers_awaitResult h fun r => ?_
  cases r with
  | ok | error | noCarrier => exact answers_next.mpr (hidle.inv_complete _)
  | connect =>
    rw [answers_next]
    split
    · exact h
    · exact hr.inv_complete _
  | fcerror | other => exact answers_next.mpr h

theorem chanResult_inv (hr : Runs s) (hc : Ready s) (hf : WaitPoint.waitChannel.fits s) (r : DceRes) :
    Inv (chanResult r s) := by
  cases r with
  | noCarrier | ok | error => exact hc.inv_complete _
  | connect | fcerror | other => exact hr.inv_goto (absurd hc.pend) hf

theorem waitChannelToken_inv (h : Inv s) (hw : s.pos = some .waitChannel) (x : InToken) :
    Answers Inv (waitChannelToken x s) := by
  have hf := h.waits _ hw
  have hc := h.ready hw id hf.1 rfl
  cases x with
  | byte v =>
    rw [waitChannelToken, answers_next]
    split
    · exact (h.runs hw).inv_goto (absurd hc.pend) hf
    · exact (h.runs hw).inv_goto (absurd hc.pend) hf
  | res r => exact answers_next.mpr (chanResult_inv (h.runs hw) hc hf r)

theorem waitChannelDleToken_inv (h : Inv s) (hw : s.pos = some .waitChannelDle) (x : InToken) :
    Answers Inv (waitChannelDleToken x s) := by
  have hf := h.waits _ hw
  have hc := h.ready hw id hf.1 rfl
  have hgo : Inv (goto .waitChannel s) := (h.runs hw).inv_goto (absurd hc.pend) hf
  cases x with
  | byte v =>
    simp only [waitChannelDleToken]
    split
    case isTrue => exact answers_next.mpr ((hc.inv_complete .peerEot).congr rfl)
    split
    case isTrue => exact answers_next.mpr hgo
    split
    case isTrue => exact answers_next.mpr ((hc.inv_complete .ok).congr rfl)
    case isFalse => exact answers_next.mpr (hgo.congr rfl)
  | res r => exact answers_next.mpr (chanResult_inv (h.runs hw) hc hf r)

theorem txCarrierToken_inv (h : Inv s) (hw : s.pos = some .txCarrier) (x : InToken) :
    Answers Inv (txCarrierToken x s) := by
  obtain ⟨hop, hlink⟩ := h.waits _ hw
  have hn : s.tx.nbits = 0 := h.txOwner (by simp [hlink])
  have hr := h.ready hw id hop rfl
  refine answers_awaitResult h fun r => ?_
  cases r with
  | connect =>
    rw [answers_next]
    split
    · exact (hr.setLink hn).inv_complete _
    · exact (hr.setLink (l := .txData) hn).txReset.inv_complete hr.pend hr.held _
  | error | ok | noCarrier => exact answers_next.mpr ((hr.setLink hn).inv_complete _)
  | fcerror | other => exact answers_next.mpr h

/-- R251: a re-arm counts up to REARM_MAX and no further. -/
theorem wrongCarrier_inv (h : Inv s) (hw : s.pos = some .rxCarrier) : Inv (wrongCarrier s) := by
  obtain ⟨hop, hlink, -⟩ := h.waits _ hw
  have hr := h.ready hw id hop rfl
  unfold wrongCarrier
  split
  · rename_i hlt
    have hruns : Runs { s with rearm := s.rearm + 1 } :=
      ⟨⟨h.rxbufWf, h.txbufWf, h.sound.rx, h.rxBacklog, h.sound.tx, h.txOwner⟩, (h.runs hw).held, (h.runs hw).lastCmd⟩
    refine Inv.congr (hruns.inv_goto (w := .rxCarrier) (absurd hr.pend) ⟨hop, hlink, hlt⟩) ?_
    simp [State.guarded, hw]
  · exact (hr.setLink (h.txOwner (by simp [hlink]))).inv_complete _

theorem rxCarrierToken_inv (h : Inv s) (hw : s.pos = some .rxCarrier) (x : InToken) :
    Answers Inv (rxCarrierToken x s) := by
  obtain ⟨hop, hlink, -⟩ := h.waits _ hw
  have hn : s.tx.nbits = 0 := h.txOwner (by simp [hlink])
  have hr := h.ready hw id hop rfl
  refine answers_awaitResult h fun r => ?_
  cases r with
  | connect =>
    rw [answers_next]
    split
    · exact (hr.setLink hn).inv_complete _
    · exact (hr.setLink (l := .rxData) hn).rxReset.inv_complete rfl hr.held _
  | fcerror => exact answers_next.mpr (wrongCarrier_inv h hw)
  | error | ok | noCarrier => exact answers_next.mpr ((hr.setLink hn).inv_complete _)
  | other => exact answers_next.mpr h

theorem silenceToken_inv (h : Inv s) (hr : Ready s) (x : InToken) : Answers Inv (silenceToken x s) := by
  refine answers_awaitResult h fun r => ?_
  cases r with
  | ok | error | connect | noCarrier => exact answers_next.mpr (hr.inv_complete _)
  | fcerror | other => exact answers_next.mpr h

theorem rxDropWaitToken_inv (h : Inv s) (hw : s.pos = some .rxDropWait) (x : InToken) :
    Answers Inv (rxDropWaitToken x s) := by
  obtain ⟨hop, hlink⟩ := h.waits _ hw
  cases x with
  | byte v => exact answers_next.mpr h
  | res r =>
    cases r with
    | noCarrier =>
      exact answers_next.mpr (((h.ready hw id hop rfl).setLink (h.txOwner (by simp [hlink]))).inv_complete _)
    | ok => exact answers_next.mpr (h.congr rfl)
    | error | connect | fcerror | other => exact answers_next.mpr h

theorem txEndToken_inv (h : Inv s) (hw : s.pos = some .txEnd) (x : InToken) : Answers Inv (txEndToken x s) := by
  obtain ⟨hop, -, hn⟩ := h.waits _ hw
  have hidle : Ready (setLink .idle s) := (h.ready hw id hop rfl).setLink hn
  refine answers_awaitResult h fun r => ?_
  cases r with
  | ok | error | noCarrier => exact answers_next.mpr (hidle.inv_complete _)
  | connect | fcerror | other => exact answers_next.mpr h

theorem abortToken_inv {w : WaitPoint} {after : AfterAbort} (h : Inv s) (hw : s.pos = some w) (hf : after.fits s)
    (x : InToken) : Answers Inv (abortToken after x s) := by
  refine answers_awaitResult h fun r => ?_
  cases r with
  | ok => exact answers_next.mpr (h.endAbort hw hf true)
  | connect | noCarrier | error | fcerror | other => exact answers_next.mpr h

/-! ## The ENGINE -/

theorem onToken_inv {w : WaitPoint} (h : Inv s) (hw : s.pos = some w) (x : InToken) : Answers Inv (onToken w x s) := by
  cases w with
  | sendHdlc final => exact sendHdlcToken_inv h hw x
  | recvHdlcData n found ovf => exact recvHdlcDataToken_inv h hw x
  | recvHdlcDle n found ovf => exact recvHdlcDleToken_inv h hw x
  | recvHdlcEnd n ovf => exact recvHdlcEndToken_inv h hw x
  | recvRaw n => exact recvRawToken_inv h hw x
  | recvRawDle n => exact recvRawDleToken_inv h hw x
  | recvRawEnd n => exact recvRawEndToken_inv h hw x
  | recvBits => exact recvBitsToken_inv h hw x
  | recvBitsDle => exact recvBitsDleToken_inv h hw x
  | recvBitsEnd => exact recvBitsEndToken_inv h hw x
  | recvV34 n ovf => exact recvV34Token_inv h hw x
  | recvV34Dle n ovf => exact recvV34DleToken_inv h hw x
  | waitChannel => exact waitChannelToken_inv h hw x
  | waitChannelDle => exact waitChannelDleToken_inv h hw x
  | txCarrier => exact txCarrierToken_inv h hw x
  | rxCarrier => exact rxCarrierToken_inv h hw x
  | txSilence | rxSilence => exact silenceToken_inv h (h.ready hw id (h.waits _ hw).1 rfl) x
  | rxDropWait => exact rxDropWaitToken_inv h hw x
  | txEnd => exact txEndToken_inv h hw x
  | delay => exact answers_next.mpr h
  | abortFirst t0 after | abortSecond t0 after => exact abortToken_inv h hw (h.waits _ hw) x

theorem AfterAbort.fits_timeout {op : Byte} (hop : s.curOp = op) (hn : isReceiveOp op = false) (ha : op ≠ 0x47) :
    AfterAbort.timeout.fits s :=
  ⟨by rw [hop, hn], by rw [hop]; exact ha⟩

theorem AfterAbort.fits_receiveTimeout {op : Byte} {n : Nat} (hop : s.curOp = op) (hn : isReceiveOp op = true)
    (hst : Stored n s) : (AfterAbort.receiveTimeout n).fits s :=
  ⟨by rw [hop, hn], hst⟩

/-- R241, R304: a deadline that passes starts abort_sequence, goes on with it, or completes. -/
theorem onTimeout_inv {w : WaitPoint} (h : Inv s) (hw : s.pos = some w) : Inv (onTimeout w s) := by
  have hf := h.waits w hw
  cases w with
  | recvHdlcData n found ovf | recvHdlcDle n found ovf =>
    obtain ⟨hop, -, -, hst, -⟩ := hf
    exact h.beginAbort hw (fun _ => trivial) (AfterAbort.fits_receiveTimeout hop rfl hst)
  | recvHdlcEnd n ovf | recvRaw n | recvRawDle n | recvRawEnd n =>
    obtain ⟨hop, -, -, hst, -⟩ := hf
    exact h.beginAbort hw (fun _ => trivial) (AfterAbort.fits_receiveTimeout hop rfl hst)
  | recvV34 n ovf | recvV34Dle n ovf =>
    obtain ⟨hop, -, hst, -⟩ := hf
    exact h.beginAbort hw (fun _ => trivial) (AfterAbort.fits_receiveTimeout hop rfl hst)
  | recvBits | recvBitsDle | recvBitsEnd =>
    exact h.beginAbort hw (fun _ => trivial) (AfterAbort.fits_receiveTimeout hf.1 rfl (stored_zero s))
  | sendHdlc final | waitChannel | waitChannelDle | txCarrier | rxCarrier | txSilence | rxSilence | rxDropWait | txEnd =>
    exact h.beginAbort hw False.elim (AfterAbort.fits_timeout hf.1 rfl (by decide))
  | delay => exact (h.ready hw id hf rfl).inv_complete .ok
  | abortFirst t0 after =>
    refine Inv.congr ((h.runs hw).inv_goto (w := .abortSecond s.time after) (fun hp => ?_) hf) rfl
    have := h.rxOwner _ hw hp
    cases after <;> exact this
  | abortSecond t0 after => exact h.endAbort hw hf false

theorem engineStep_inv (h : Inv s) : Answers Inv (engineStep s) := fun _ ht =>
  engineStep_induction (fun u _ _ x _ hw hu ht => onToken_inv (hu.congr rfl) (by exact hw) x _ ht)
    (fun _ _ hw _ hu => onTimeout_inv hu hw) h ht

end

end Sys2Proof.Machine
end

section
/-! PROOFS. The invariant across the CMD write step of each command, and what the decoder says of the command's operands. -/

namespace Sys2Proof

/-! ## What the decoder answers -/

theorem checkReserved_ok {w : Word} {res8 : Byte} {res16 : Half} {i j : Instr}
    (h : checkReserved w res8 res16 i = .ok j) : i = j := by
  unfold checkReserved at h
  split at h
  · exact Except.ok.inj h
  · cases h

theorem checkCount_ok {i j : Instr} (h : checkCount i = .ok j) : i = j ∧ WellFormed j := by
  simp only [checkCount] at h
  split at h
  · cases h; exact ⟨rfl, ‹_›⟩
  · cases h

/-- R84: a word decodes to a well-formed instruction only. -/
theorem decode_wellFormed {w : Word} {i : Instr} (h : decode w = .ok i) : WellFormed i := by
  unfold decode at h
  split at h
  case h_9 => -- RECV_RAW is the one whose count is checked
    cases hc : checkReserved w 0xFF 0x0000 (.recvRaw (arg16 w)) with
    | error e => rw [hc] at h; cases h
    | ok j => rw [hc] at h; exact (checkCount_ok h).2
  case h_25 => cases h
  all_goals cases checkReserved_ok h; rfl

end Sys2Proof

namespace Sys2Proof.Machine

/-! ## The CMD write step of each command -/

/-- A command goes on only where its dialect and link requirement is met (R302). -/
theorem answers_requireMode_allowed {P : State → Prop} {allowed : Bool} {s : State} {k : StepOutcome}
    (hfail : P (complete .modeError s)) (hk : allowed = true → Answers P k) : Answers P (requireMode allowed s k) := by
  intro t h
  obtain ⟨ha, h⟩ | ⟨-, rfl⟩ := requireMode_next h
  · exact hk ha t h
  · exact hfail

section
variable {s : State}

theorem Inv.ready_idle (h : Inv s) (hp : s.pos = none) : Ready s := ⟨h.sound, h.rxIdle hp, h.idle_held hp⟩

/-- R80: the accepted word is the running command's, and LASTCMD shows its opcode. -/
theorem Ready.accept (h : Ready s) (i : Instr) : Ready (accept i s) ∧ Runs (accept i s) :=
  have hs : Sound (Machine.accept i s) := ⟨h.rxbuf, h.txbuf, h.rx, h.backlog, h.tx, h.txOwner⟩
  ⟨⟨hs, h.pend, h.held⟩, hs, fun hd => absurd (h.held.symm.trans hd) Bool.false_ne_true, rfl⟩

/-- A command waits on from its CMD write step, whatever it has sent. -/
theorem Runs.inv_goto_send (h : Runs s) (hb : s.rx.pend = []) (w : WaitPoint) (hf : w.fits s) (ts : List OutToken) :
    Inv (goto w (send ts s)) :=
  (h.inv_goto (w := w) (absurd hb) hf).congr rfl

/-- R30: a receive command starts with no pair held back. -/
theorem Runs.startReceive (h : Runs s) : Runs (startReceive s) :=
  ⟨⟨h.rxbuf, h.txbuf, h.rx, h.backlog, h.tx, h.txOwner⟩, nofun, h.lastCmd⟩

end

section
variable {s : State}

/-- R110: the two FCS bytes are stored as any TXBUF byte is. -/
theorem Ready.inv_complete_appendFcs (h : Ready s) (body : List Byte) : Inv (complete .ok (appendFcs body s)) := by
  have hs := (h.toSound.storeTx s.txCount (hiByte (~~~crc16 Config.crcInit body))).storeTx (s.txCount + 1)
    (loByte (~~~crc16 Config.crcInit body))
  exact (hs.inv_complete (by simpa using h.pend) (by simpa using h.held) .ok).congr rfl

theorem execFrameFcs_inv (h : Ready s) : Answers Inv (execFrameFcs s) := by
  obtain ⟨hr, -⟩ := h.accept .frameFcs
  simp only [execFrameFcs]
  split
  case isTrue => exact answers_next.mpr (hr.inv_complete _)
  split
  case isTrue => exact answers_next.mpr (hr.inv_complete _)
  case isFalse => exact answers_withBytes fun body _ => answers_next.mpr (hr.inv_complete_appendFcs body)

theorem execFrameCheck_inv (h : Ready s) (chkCrc : Bool) : Answers Inv (execFrameCheck chkCrc s) := by
  obtain ⟨hr, -⟩ := h.accept (.frameCheck chkCrc)
  simp only [execFrameCheck]
  split
  · exact answers_next.mpr ((hr.inv_complete _).congr rfl)
  · exact answers_check fun r frame drawn => answers_next.mpr ((hr.inv_complete r).congr rfl)

theorem execSendHdlc_inv (h : Ready s) : Answers Inv (execSendHdlc s) := by
  obtain ⟨hr, hruns⟩ := h.accept .sendHdlc
  refine answers_requireMode_allowed (hr.inv_complete _) fun ha => ?_
  simp only [Bool.and_eq_true, Bool.not_eq_true', beq_iff_eq] at ha
  exact answers_sendLenCheck hr.inv_complete fun n => answers_withBytes fun body _ => answers_next.mpr
    (hruns.inv_goto_send hr.pend (.sendHdlc _) ⟨opField_cmdWord _ _ _, ha⟩ _)

theorem execRecvHdlc_inv (h : Ready s) : Answers Inv (execRecvHdlc s) := by
  obtain ⟨hr, hruns⟩ := h.accept .recvHdlc
  refine answers_requireMode_allowed (hr.inv_complete _) fun ha => answers_next.mpr ?_
  simp only [Bool.and_eq_true, Bool.not_eq_true', beq_iff_eq] at ha
  exact hruns.startReceive.inv_goto (absurd hr.pend)
    ⟨opField_cmdWord _ _ _, ha.1, ha.2, stored_zero _, fun _ => ⟨rfl, rfl⟩, nofun⟩

theorem execSendRaw_inv (h : Ready s) : Answers Inv (execSendRaw s) := by
  obtain ⟨hr, -⟩ := h.accept .sendRaw
  refine answers_requireMode_allowed (hr.inv_complete _) fun ha => ?_
  simp only [Bool.and_eq_true, Bool.not_eq_true', beq_iff_eq] at ha
  refine answers_sendLenCheck hr.inv_complete fun n => answers_withBytes fun body _ => answers_next.mpr ?_
  have hs : Sound { accept .sendRaw s with tx := (accept .sendRaw s).tx.flushPad.1 } :=
    ⟨hr.rxbuf, hr.txbuf, hr.rx, hr.backlog, TxEngine.flushPad_rests hr.tx.toPacked, absurd ha.2⟩
  exact (hs.inv_complete hr.pend hr.held .ok).congr rfl

/-- R84, R142: the count of a legal RECV_RAW is not 0 and fits the buffer. -/
theorem execRecvRaw_inv (h : Ready s) {count : Half} (hwf : WellFormed (.recvRaw count)) :
    Answers Inv (execRecvRaw count s) := by
  obtain ⟨hr, hruns⟩ := h.accept (.recvRaw count)
  obtain ⟨hlo, hhi⟩ : 1 ≤ count.toNat ∧ count.toNat ≤ Config.rxbufSize := by
    simpa [WellFormed, wellFormed] using hwf
  refine answers_requireMode_allowed (hr.inv_complete _) fun ha => answers_next.mpr ?_
  simp only [Bool.and_eq_true, Bool.not_eq_true', beq_iff_eq] at ha
  have harg : (startReceive (accept (.recvRaw count) s)).arg16 = count := arg16_cmdWord _ _ _
  rw [rawContinue, if_pos (show 0 < count.toNat from hlo)]
  exact hruns.startReceive.inv_goto (absurd hr.pend)
    ⟨opField_cmdWord _ _ _, ha.1, ha.2, stored_zero _, by rw [harg]; exact hlo, by rw [harg]; exact hhi⟩

theorem execBitsReset_inv (h : Ready s) (rx tx : Bool) : Answers Inv (execBitsReset rx tx s) := by
  obtain ⟨hr, -⟩ := h.accept (.bitsReset rx tx)
  have hrx : Ready (if rx then rxReset (accept (.bitsReset rx tx) s) else accept (.bitsReset rx tx) s) := by
    split
    · exact ⟨hr.rxReset, rfl, hr.held⟩
    · exact hr
  refine answers_next.mpr (Ready.inv_complete ?_ .ok)
  split
  · exact ⟨hrx.txReset, hrx.pend, hrx.held⟩
  · exact hrx

theorem execSendBits_inv (h : Ready s) (flags : Byte) (flush : Bool) : Answers Inv (execSendBits flags flush s) := by
  obtain ⟨hr, -⟩ := h.accept (.sendBits flags flush)
  refine answers_requireMode_allowed (hr.inv_complete _) fun ha => ?_
  simp only [Bool.and_eq_true, Bool.not_eq_true', beq_iff_eq] at ha
  refine answers_sendLenCheck hr.inv_complete fun n => answers_withBytes fun body _ => answers_next.mpr ?_
  have hs : Sound { accept (.sendBits flags flush) s with
      tx := ((accept (.sendBits flags flush) s).tx.sendFrame flags.toNat body flush).1 } :=
    ⟨hr.rxbuf, hr.txbuf, hr.rx, hr.backlog, TxEngine.sendFrame_rests _ _ _ hr.tx, absurd ha.2⟩
  exact (hs.inv_complete hr.pend hr.held .ok).congr rfl

theorem execRecvBits_inv (h : Ready s) : Answers Inv (execRecvBits s) := by
  obtain ⟨hr, hruns⟩ := h.accept .recvBits
  refine answers_requireMode_allowed (hr.inv_complete _) fun ha t ht => ?_
  simp only [Bool.and_eq_true, Bool.not_eq_true', beq_iff_eq] at ha
  exact (runBacklog_run _ _ t ht).inv hruns.startReceive (Nat.le_succ_of_le hr.backlog) (opField_cmdWord _ _ _) ha.1 ha.2

/-- R255: TX_END leaves no bits pending, in either transmit link state. -/
theorem execTxEnd_inv (h : Ready s) : Answers Inv (execTxEnd s) := by
  obtain ⟨hr, hruns⟩ := h.accept .txEnd
  refine answers_requireMode_allowed (hr.inv_complete _) fun ha => answers_next.mpr ?_
  simp only [Bool.or_eq_true, beq_iff_eq] at ha
  split
  · have hflush : Runs { accept .txEnd s with tx := (accept .txEnd s).tx.flushPad.1 } :=
      ⟨⟨hr.rxbuf, hr.txbuf, hr.rx, hr.backlog, TxEngine.flushPad_rests hr.tx.toPacked,
        fun _ => TxEngine.flushPad_nbits hr.tx.toPacked⟩, hruns.held, hruns.lastCmd⟩
    exact (hflush.inv_goto (w := .txEnd) (absurd hr.pend)
      ⟨opField_cmdWord _ _ _, ha, TxEngine.flushPad_nbits hr.tx.toPacked⟩).congr rfl
  · rename_i hl
    exact hruns.inv_goto_send hr.pend .txEnd ⟨opField_cmdWord _ _ _, ha, hr.txOwner hl⟩ _

/-- R250 to R254: the commands that need the link IDLE send and wait. -/
theorem answers_idle_command {i : Instr} {w : WaitPoint} (h : Ready s) (ts : List OutToken)
    (hf : s.link = .idle → w.fits (accept i s)) :
    Answers Inv (requireMode ((accept i s).link == .idle) (accept i s) (.next (goto w (send ts (accept i s))))) := by
  obtain ⟨hr, hruns⟩ := h.accept i
  refine answers_requireMode_allowed (hr.inv_complete _) fun ha => answers_next.mpr ?_
  exact hruns.inv_goto_send hr.pend w (hf (by simpa using ha)) ts

theorem execRxCarrier_inv (h : Ready s) (mod : Byte) (hdlc : Bool) : Answers Inv (execRxCarrier mod hdlc s) := by
  obtain ⟨hr, hruns⟩ := h.accept (.rxCarrier mod hdlc)
  refine answers_requireMode_allowed (hr.inv_complete _) fun ha => answers_next.mpr ?_
  have hruns' : Runs { accept (.rxCarrier mod hdlc) s with rearm := 0 } :=
    ⟨⟨hr.rxbuf, hr.txbuf, hr.rx, hr.backlog, hr.tx, hr.txOwner⟩, hruns.held, hruns.lastCmd⟩
  exact hruns'.inv_goto_send hr.pend .rxCarrier ⟨opField_cmdWord _ _ _, by simpa using ha, Nat.zero_le _⟩ _

/-- R80: the CMD write step of a well-formed instruction ends in a good state. -/
theorem exec_inv (h : Ready s) {i : Instr} (hwf : WellFormed i) : Answers Inv (exec i s) := by
  obtain ⟨hr, hruns⟩ := h.accept i
  cases i with
  | nop => exact answers_next.mpr (hr.inv_complete _)
  | crcInit | crcFeed => exact answers_next.mpr ((hr.inv_complete _).congr rfl)
  | frameFcs => exact execFrameFcs_inv h
  | frameCheck chkCrc => exact execFrameCheck_inv h chkCrc
  | sendHdlc => exact execSendHdlc_inv h
  | recvHdlc => exact execRecvHdlc_inv h
  | sendRaw => exact execSendRaw_inv h
  | recvRaw count => exact execRecvRaw_inv h hwf
  | bitsReset rx tx => exact execBitsReset_inv h rx tx
  | sendBits flags flush => exact execSendBits_inv h flags flush
  | recvBits => exact execRecvBits_inv h
  | sendV34 =>
    exact answers_requireMode_allowed (hr.inv_complete _) fun _ => answers_sendLenCheck hr.inv_complete fun _ =>
      answers_withBytes fun _ _ => answers_next.mpr ((hr.inv_complete _).congr rfl)
  | recvV34 =>
    exact answers_requireMode_allowed (hr.inv_complete _) fun ha => answers_next.mpr
      (hruns.startReceive.inv_goto (absurd hr.pend) ⟨opField_cmdWord _ _ _, ha, stored_zero _, nofun⟩)
  | waitChannel awaitCtrl =>
    exact answers_requireMode_allowed (hr.inv_complete _) fun ha => answers_next.mpr
      (hruns.inv_goto (absurd hr.pend) ⟨opField_cmdWord _ _ _, ha⟩)
  | sendInd x =>
    exact answers_requireMode_allowed (hr.inv_complete _) fun _ => answers_next.mpr ((hr.inv_complete _).congr rfl)
  | rxCarrier mod hdlc => exact execRxCarrier_inv h mod hdlc
  | txCarrier | txSilence | rxSilence | rxDropWait =>
    exact answers_idle_command h _ fun hl => ⟨opField_cmdWord _ _ _, hl⟩
  | txEnd => exact execTxEnd_inv h
  | delay ms => exact answers_next.mpr (hruns.inv_goto (absurd hr.pend) (opField_cmdWord _ _ _))
  | abort =>
    exact answers_next.mpr ((hruns.inv_goto (w := .abortFirst s.time .abortCmd) (absurd hr.pend)
      (opField_cmdWord _ _ _)).congr rfl)

end

end Sys2Proof.Machine
end

section
/-! PROOFS. The invariant across the resets, the host window and the agents' steps. -/

namespace Sys2Proof.Machine

/-! ## The resets -/

/-- Settles O43: at reset both buffers are empty, both engines are R185's, and no command runs. -/
theorem resetSatisfiesTheInvariant : Obligations.ResetSatisfiesTheInvariant :=
  have hs : Sound State.reset :=
    ⟨reset_memory_wf.1, reset_memory_wf.2, RxEngine.init_inRange _, Nat.zero_le _, TxEngine.init_rests, fun _ => rfl⟩
  hs.inv_idle rfl rfl rfl

section
variable {s : State}

theorem hardReset_inv (s : State) : Inv (hardReset s) := Inv.congr resetSatisfiesTheInvariant rfl

/-- R332: a soft reset keeps the buffers and resets what else the invariant speaks of. -/
theorem softReset_inv (h : Inv s) : Inv (softReset s) :=
  have hs : Sound (softReset s) :=
    ⟨h.rxbufWf, h.txbufWf, RxEngine.init_inRange _, Nat.zero_le _, TxEngine.init_rests, fun _ => rfl⟩
  hs.inv_idle rfl rfl rfl

/-! ## The host window -/

theorem hostRead_inv (h : Inv s) (w : Width) (addr : BitVec 14) : Answers Inv (hostRead w addr s) := by
  unfold hostRead
  split
  case isTrue => exact answers_fault _
  split
  · exact answers_next.mpr (h.congr rfl)
  · refine answers_withBytes fun p hp => answers_next.mpr ?_
    rw [hostReadBytes_frame _ _ _ _ _ _ hp]
    exact h.congr rfl
  · exact answers_next.mpr (h.congr rfl)

/-- R66: while a command runs a write leaves HAZARD only; what is written at rest is the caller's to justify. -/
theorem unlessBusy_inv {written : State} (h : Inv s) (hidle : s.pos = none → Inv written) :
    Inv (unlessBusy s written) := by
  cases hp : s.pos with
  | none => rw [unlessBusy_idle hp]; exact hidle hp
  | some w => rw [unlessBusy_busy hp]; exact h.congr rfl

/-- R65, R66: while a command runs a CTRL write keeps its dialect. -/
theorem writeCtrl_inv (h : Inv s) (v : Word) : Inv (writeCtrl v s) := by
  simp only [writeCtrl]
  split
  · exact softReset_inv h
  · split
    · split <;> exact h.congr rfl
    · rename_i hb
      have hp : s.pos = none := by simpa [State.busy] using hb
      have hr := h.ready_idle hp
      exact Sound.inv_idle ⟨hr.rxbuf, hr.txbuf, hr.rx, hr.backlog, hr.tx, hr.txOwner⟩ hp hr.pend hr.held

theorem startCommand_inv (h : Inv s) (hp : s.pos = none) (w : Word) : Answers Inv (startCommand w s) := by
  intro t ht
  have hr := h.ready_idle hp
  obtain ⟨i, hi, ht⟩ | ⟨-, rfl⟩ := startCommand_next ht
  · exact exec_inv hr (decode_wellFormed hi) t ht
  · exact Sound.inv_idle ⟨hr.rxbuf, hr.txbuf, hr.rx, hr.backlog, hr.tx, hr.txOwner⟩ rfl hr.pend hr.held

/-- R31: the oversize guard changes only where no bit of a frame is kept. -/
theorem Inv.writeFs64 (h : Inv s) (hp : s.pos = none) (b : Bool) : Inv { s with fs64 := b } :=
  have hr := h.ready_idle hp
  Sound.inv_idle
    ⟨hr.rxbuf, hr.txbuf, ⟨hr.rx.ones, by simp [hr.pend], fun _ => hr.pend⟩, hr.backlog, hr.tx, hr.txOwner⟩ hp hr.pend hr.held

/-- R32: REARM_MAX changes only where no re-arm is counted. -/
theorem Inv.writeSeqcfg (h : Inv s) (hp : s.pos = none) (c : SeqCfg) : Inv { s with seqcfg := c } :=
  have hr := h.ready_idle hp
  Sound.inv_idle ⟨hr.rxbuf, hr.txbuf, hr.rx, hr.backlog, hr.tx, hr.txOwner⟩ hp hr.pend hr.held

theorem writeReg_inv (h : Inv s) (offset : Nat) (v : Word) : Answers Inv (writeReg offset v s) := by
  unfold writeReg
  split
  case h_1 => exact answers_next.mpr (writeCtrl_inv h v)
  case h_3 =>
    split
    · exact answers_next.mpr (h.congr rfl)
    · rename_i hb
      exact startCommand_inv h (by simpa [State.busy] using hb) v
  case h_8 => exact answers_next.mpr (unlessBusy_inv h fun hp => h.writeFs64 hp _)
  case h_9 => exact answers_next.mpr (unlessBusy_inv h fun hp => h.writeSeqcfg hp _)
  case h_2 | h_11 | h_12 => exact answers_next.mpr (h.congr rfl)
  case h_4 | h_5 | h_6 | h_7 | h_10 => exact answers_next.mpr (unlessBusy_inv h fun _ => h.congr rfl)

theorem hostWriteByte_inv (h : Inv s) (b : Buffer) (i : Nat) (v : Byte) : Inv (hostWriteByte b i v s) := by
  cases b with
  | rx =>
    simp only [hostWriteByte]
    split
    · refine unlessBusy_inv h fun hp => ?_
      have hr := h.ready_idle hp
      exact (hr.storeRx i v).inv_idle (by simpa using hp) (by simpa using hr.pend) (by simpa using hr.held)
    · exact h
  | tx =>
    simp only [hostWriteByte]
    split
    · refine unlessBusy_inv h fun hp => ?_
      have hr := h.ready_idle hp
      exact (hr.storeTx i v).inv_idle (by simpa using hp) (by simpa using hr.pend) (by simpa using hr.held)
    · exact h

theorem hostWriteBytes_inv (b : Buffer) (n : Nat) : ∀ (i : Nat) (v : Word) {s : State}, Inv s →
    Inv (hostWriteBytes b i n v s) := by
  induction n with
  | zero => exact fun _ _ _ h => h
  | succ n ih => exact fun i v _ h => ih _ _ (hostWriteByte_inv h b i _)

theorem hostWrite_inv (h : Inv s) (w : Width) (addr : BitVec 14) (v : Word) : Answers Inv (hostWrite w addr v s) := by
  unfold hostWrite
  split
  case isTrue => exact answers_fault _
  split
  · exact writeReg_inv h _ v
  · exact answers_next.mpr (hostWriteBytes_inv _ _ _ v h)
  · exact answers_next.mpr h

/-! ## The agents -/

theorem agentStep_inv (h : Inv s) (a : Action) : Answers Inv (agentStep a s) := by
  cases a with
  | host access =>
    cases access with
    | read w addr => exact hostRead_inv h w addr
    | write w addr v => exact hostWrite_inv h w addr v
  | engine => exact engineStep_inv h
  | deliver x => exact answers_next.mpr (h.congr rfl)
  | consume => exact answers_next.mpr (h.congr rfl)
  | tick => exact answers_next.mpr (h.congr rfl)
  | hardReset => exact answers_next.mpr (hardReset_inv s)

end

/-- R5: a step is a pending agent's, the ENGINE's, or a TICK. -/
theorem step_cases (s : State) :
    (∃ a rest, s.pending = a :: rest ∧ step s = agentStep a { s with pending := rest })
      ∨ (s.pending = [] ∧ step s = if engineReady s then engineStep s else .next (tick s)) := by
  cases hp : s.pending with
  | nil => exact .inr ⟨rfl, by simp [step, nextStep, hp, idleStep]⟩
  | cons a rest => exact .inl ⟨a, rest, rfl, step_of_pending hp⟩

/-- Settles O44: whichever agent steps, its step leaves the buffers canonical, the engines in
range and the wait point fitting. -/
theorem stepKeepsTheInvariant : Obligations.StepKeepsTheInvariant := by
  intro s t h ht
  obtain ⟨a, rest, -, hstep⟩ | ⟨-, hstep⟩ := step_cases s
  · rw [hstep] at ht
    exact agentStep_inv (s := { s with pending := rest }) (h.congr rfl) a t ht
  · rw [hstep] at ht
    split at ht
    · exact engineStep_inv h t ht
    · cases ht
      exact h.congr rfl

end Sys2Proof.Machine
end

section
/-! PROOFS. The CMD write that starts a command (R80). -/

namespace Sys2Proof.Machine

/-- R80: a 32-bit write at CMD's offset while no command runs starts a command. -/
theorem hostWrite_cmd {s : State} (hp : s.pos = none) (w : Word) : hostWrite .w32 cmdOffset w s = startCommand w s := by
  have hok : accessOk .w32 cmdOffset = true := by decide
  have hregion : region cmdOffset = .register 0x0C := by decide
  simp [hostWrite, hok, hregion, writeReg, State.busy, hp]

theorem startCommand_decoded {w : Word} {i : Instr} (h : decode w = .ok i) (s : State) : startCommand w s = exec i s := by
  simp [startCommand, h]

/-- Settles O5: the pending write is the step, and at CMD it runs the decoded command. -/
theorem stepRunsTheDecodedCommand : Obligations.StepRunsTheDecodedCommand := by
  intro s w i rest hp hpending hw
  calc step s = hostWrite .w32 cmdOffset w { s with pending := rest } := step_of_pending hpending
    _ = startCommand w { s with pending := rest } := hostWrite_cmd (by exact hp) w
    _ = exec i { s with pending := rest } := startCommand_decoded hw _

end Sys2Proof.Machine
end

section
/-! PROOFS. The frame of an ENGINE step (R70, R71): what no token and no deadline changes, and what a command that still runs
has not changed. -/

namespace Sys2Proof.Machine

/-! ## The frame -/

/-- R9: `t` has sent what `s` has, and perhaps more tokens behind it. -/
def Sends (s t : State) : Prop := ∃ ts, t.outbound = s.outbound ++ ts

theorem Sends.same {s t : State} (h : t.outbound = s.outbound) : Sends s t := ⟨[], by simp [h]⟩

theorem Sends.trans {s u t : State} (h : Sends s u) (h' : Sends u t) : Sends s t := by
  obtain ⟨ts, hts⟩ := h
  obtain ⟨ts', hts'⟩ := h'
  exact ⟨ts ++ ts', by rw [hts', hts, List.append_assoc]⟩

/-- R70: the ENGINE changes neither what the host configures nor which command runs, and it only appends to what it sends. -/
structure Keeps (s t : State) : Prop where
  kept : t = { s with
    status := { t.status with hazard := s.status.hazard, lastCmd := s.status.lastCmd }, crc := t.crc, rxlen := t.rxlen
    rxstat := t.rxstat, chmode := t.chmode, link := t.link, rx := t.rx, tx := t.tx, rearm := t.rearm, pos := t.pos
    heldDleUnk := t.heldDleUnk, rxbuf := t.rxbuf, rxMarks := t.rxMarks, outbound := t.outbound
    rxFreeFrom := t.rxFreeFrom, freeCount := t.freeCount }
  sent : Sends s t

/-- R71: a command that still runs has changed nothing but its own variables, RXBUF, the receive bit engine and CHMODE, and
has sent tokens. -/
def GoesOn (s t : State) : Prop :=
  t = { s with
    pos := t.pos, heldDleUnk := t.heldDleUnk, rearm := t.rearm, rxbuf := t.rxbuf, rx := t.rx, chmode := t.chmode
    outbound := t.outbound }

/-- R70, R71: what a step of the ENGINE leaves as it is. -/
structure EngineFrame (s t : State) : Prop extends Keeps s t where
  running : t.pos ≠ none → GoesOn s t

section
variable {s t u : State}

theorem GoesOn.frame (h : GoesOn s t) (sent : Sends s t) : EngineFrame s t :=
  ⟨⟨by rw [h], sent⟩, fun _ => h⟩

theorem EngineFrame.refl (s : State) : EngineFrame s s := ⟨⟨rfl, .same rfl⟩, fun _ => rfl⟩

/-- A step taken by a command that still runs after the steps before it. -/
theorem EngineFrame.trans (h : EngineFrame s u) (hu : u.pos ≠ none) (h' : EngineFrame u t) : EngineFrame s t :=
  ⟨⟨h'.kept.trans (by rw [h.kept]), h.sent.trans h'.sent⟩, fun ht => (h'.running ht).trans (by rw [h.running hu])⟩

/-- The frame does not read the inbound FIFO. -/
theorem EngineFrame.withInbound (h : EngineFrame s t) (ts : List InToken) :
    EngineFrame { s with inbound := ts } { t with inbound := ts } :=
  ⟨⟨by rw [h.kept], h.sent⟩, fun ht => by rw [GoesOn, h.running ht]⟩

theorem Keeps.complete (h : Keeps s u) (r : Result) : EngineFrame s (complete r u) :=
  ⟨⟨by rw [h.kept]; rfl, h.sent⟩, fun ht => absurd rfl ht⟩

theorem Keeps.done (h : Keeps s u) (hd : ReceiveDone u t) : EngineFrame s t := by
  obtain ⟨r, rxbuf, rxlen, crc, rxstat, drawn, -⟩ := hd
  exact ⟨⟨by rw [h.kept]; rfl, h.sent⟩, fun ht => absurd rfl ht⟩

theorem keeps_setLink (l : Link) (s : State) : Keeps s (setLink l s) := ⟨rfl, .same rfl⟩

theorem engineFrame_goto_storeRx (w : WaitPoint) (i : Nat) (b : Byte) (s : State) :
    EngineFrame s (goto w (storeRx i b s)) := by
  rw [storeRx_frame]; exact GoesOn.frame rfl (.same rfl)

theorem keeps_storeRx (i : Nat) (b : Byte) (s : State) : Keeps s (storeRx i b s) := by
  rw [storeRx_frame]; exact ⟨rfl, .same rfl⟩

/-- A command that moves on to another wait point and nothing else. -/
theorem engineFrame_goto (w : WaitPoint) (s : State) : EngineFrame s (goto w s) := GoesOn.frame rfl (.same rfl)

end

/-! ## The tokens of each wait point -/

/-- Every next state that the outcome answers is within the frame of `s`. -/
abbrev Framed (s : State) (o : StepOutcome) : Prop := Answers (EngineFrame s) o

theorem sendHdlcToken_frame (final : Bool) (x : InToken) (s : State) : Framed s (sendHdlcToken final x s) := by
  refine answers_awaitResult (.refl s) fun r => ?_
  cases r with
  | ok | error | noCarrier => exact answers_next.mpr ((keeps_setLink .idle s).complete _)
  | connect =>
    rw [answers_next]
    split
    · exact .refl s
    · exact (EngineFrame.refl s).complete _
  | fcerror | other => exact answers_next.mpr (.refl s)

theorem hdlcPut_frame (n : Nat) (found ovf : Bool) (v : Byte) (s : State) : EngineFrame s (hdlcPut n found ovf v s) := by
  unfold hdlcPut
  split
  · exact engineFrame_goto _ s
  · split
    · exact engineFrame_goto_storeRx _ _ _ s
    · exact engineFrame_goto _ s

theorem hdlcDataResult_frame (n : Nat) (found ovf : Bool) (r : DceRes) (s : State) :
    EngineFrame s (hdlcDataResult n found ovf r s) := by
  cases r with
  | noCarrier | ok | error => exact (keeps_setLink .idle s).done (endReceive_done n _ _)
  | connect | fcerror | other => exact engineFrame_goto _ s

/-- R71, R134: a discarded pair shows in no register before the completion. -/
theorem engineFrame_goto_noteUnknownPair (w : WaitPoint) (s : State) : EngineFrame s (goto w (noteUnknownPair s)) :=
  GoesOn.frame rfl (.same rfl)

theorem recvHdlcDataToken_frame (n : Nat) (found ovf : Bool) (x : InToken) (s : State) :
    Framed s (recvHdlcDataToken n found ovf x s) := by
  cases x with
  | byte v =>
    simp only [recvHdlcDataToken, answers_next]
    split
    · exact engineFrame_goto _ s
    · exact hdlcPut_frame n found ovf v s
  | res r => exact answers_next.mpr (hdlcDataResult_frame n found ovf r s)

theorem recvHdlcDleToken_frame (n : Nat) (found ovf : Bool) (x : InToken) (s : State) :
    Framed s (recvHdlcDleToken n found ovf x s) := by
  cases x with
  | byte v =>
    simp only [recvHdlcDleToken, answers_next]
    split
    · exact hdlcPut_frame n found ovf _ s
    · split
      · exact engineFrame_goto _ s
      · exact engineFrame_goto_noteUnknownPair _ s
  | res r => exact answers_next.mpr (hdlcDataResult_frame n found ovf r s)

theorem recvHdlcEndToken_frame (n : Nat) (ovf : Bool) (x : InToken) (s : State) :
    Framed s (recvHdlcEndToken n ovf x s) := by
  refine answers_awaitResult (.refl s) fun r => ?_
  cases r with
  | ok | noCarrier => exact fun t ht => (keeps_setLink .idle s).done (finishReceived_done n _ _ ovf _ t ht)
  | error => exact fun t ht => (keeps_setLink .idle s).done (finishReceived_done n _ _ ovf _ t ht).of_rxstat
  | connect | fcerror | other => exact answers_next.mpr (.refl s)

theorem rawStore_frame (n : Nat) (v : Byte) (s : State) : EngineFrame s (rawStore n v s) := by
  unfold rawStore rawContinue
  split
  · exact engineFrame_goto_storeRx _ _ _ s
  · exact (keeps_storeRx n v s).done (endReceive_done _ _ _)

theorem rawResult_frame (n : Nat) (r : DceRes) (s : State) : EngineFrame s (rawResult n r s) := by
  cases r with
  | noCarrier | ok | error => exact (keeps_setLink .idle s).done (endReceive_done n _ _)
  | connect | fcerror | other => exact engineFrame_goto _ s

theorem recvRawToken_frame (n : Nat) (x : InToken) (s : State) : Framed s (recvRawToken n x s) := by
  cases x with
  | byte v =>
    simp only [recvRawToken, answers_next]
    split
    · exact engineFrame_goto _ s
    · exact rawStore_frame n v s
  | res r => exact answers_next.mpr (rawResult_frame n r s)

theorem recvRawDleToken_frame (n : Nat) (x : InToken) (s : State) : Framed s (recvRawDleToken n x s) := by
  cases x with
  | byte v =>
    simp only [recvRawDleToken, answers_next]
    split
    · exact rawStore_frame n _ s
    · split
      · exact engineFrame_goto _ s
      · exact engineFrame_goto_noteUnknownPair _ s
  | res r => exact answers_next.mpr (rawResult_frame n r s)

theorem recvRawEndToken_frame (n : Nat) (x : InToken) (s : State) : Framed s (recvRawEndToken n x s) := by
  refine answers_awaitResult (.refl s) fun r => ?_
  cases r with
  | ok | noCarrier | error => exact answers_next.mpr ((keeps_setLink .idle s).done (endReceive_done n _ _))
  | connect | fcerror | other => exact answers_next.mpr (.refl s)

theorem BitsRun.frame {xs : List Bool} {s t : State} (h : BitsRun xs s t) : EngineFrame s t := by
  obtain ⟨e, -, ⟨-, rfl⟩ | ⟨-, -, hd⟩⟩ := h
  · exact GoesOn.frame rfl (.same rfl)
  · exact Keeps.done (u := { s with rx := e }) ⟨rfl, .same rfl⟩ hd

theorem bitsByte_frame (v : Byte) (s : State) : Framed s (bitsByte v s) := fun t ht => (runBacklog_run _ s t ht).frame

theorem lostCarrier_frame (s : State) : Framed s (lostCarrier (setLink .idle s)) := fun t ht =>
  Keeps.done (u := rxReset (setLink .idle s)) ⟨rfl, .same rfl⟩ (lostCarrier_done _ t ht)

theorem bitsResult_frame (r : DceRes) (s : State) : Framed s (bitsResult r s) := by
  cases r with
  | noCarrier => exact lostCarrier_frame s
  | ok | error =>
    exact answers_next.mpr (Keeps.done (u := rxReset (setLink .idle s)) ⟨rfl, .same rfl⟩ (endReceive_done 0 _ _))
  | connect | fcerror | other => exact answers_next.mpr (engineFrame_goto _ s)

theorem recvBitsToken_frame (x : InToken) (s : State) : Framed s (recvBitsToken x s) := by
  cases x with
  | byte v =>
    simp only [recvBitsToken]
    split
    · exact answers_next.mpr (engineFrame_goto _ s)
    · exact bitsByte_frame v s
  | res r => exact bitsResult_frame r s

theorem recvBitsDleToken_frame (x : InToken) (s : State) : Framed s (recvBitsDleToken x s) := by
  cases x with
  | byte v =>
    simp only [recvBitsDleToken]
    split
    · exact bitsByte_frame _ s
    · split
      · exact answers_next.mpr (engineFrame_goto _ s)
      · exact answers_next.mpr (engineFrame_goto_noteUnknownPair _ s)
  | res r => exact bitsResult_frame r s

theorem recvBitsEndToken_frame (x : InToken) (s : State) : Framed s (recvBitsEndToken x s) := by
  refine answers_awaitResult (.refl s) fun r => ?_
  cases r with
  | ok | noCarrier | error => exact lostCarrier_frame s
  | connect | fcerror | other => exact answers_next.mpr (.refl s)

theorem v34Store_frame (n : Nat) (ovf : Bool) (b : Byte) (s : State) : EngineFrame s (v34Store n ovf b s) := by
  unfold v34Store
  split
  · exact engineFrame_goto_storeRx _ _ _ s
  · exact engineFrame_goto _ s

theorem v34Result_frame (n : Nat) (ovf : Bool) (r : DceRes) (s : State) : EngineFrame s (v34Result n ovf r s) := by
  cases r with
  | noCarrier | ok | error => exact (EngineFrame.refl s).done (endReceive_done n _ _)
  | connect | fcerror | other => exact engineFrame_goto _ s

theorem recvV34Token_frame (n : Nat) (ovf : Bool) (x : InToken) (s : State) : Framed s (recvV34Token n ovf x s) := by
  cases x with
  | byte v =>
    simp only [recvV34Token, answers_next]
    split
    · exact engineFrame_goto _ s
    · exact v34Store_frame n ovf _ s
  | res r => exact answers_next.mpr (v34Result_frame n ovf r s)

theorem recvV34DleToken_frame (n : Nat) (ovf : Bool) (x : InToken) (s : State) :
    Framed s (recvV34DleToken n ovf x s) := by
  cases x with
  | byte v =>
    simp only [recvV34DleToken]
    split
    case isTrue => exact answers_next.mpr (v34Store_frame n ovf _ s)
    split
    case isTrue => exact fun t ht => (EngineFrame.refl s).done (finishReceived_done n _ _ ovf s t ht)
    split
    case isTrue =>
      exact answers_next.mpr (Keeps.done (u := noteEot s) ⟨rfl, .same rfl⟩ (endReceive_done n _ _))
    split
    case isTrue => exact fun t ht => (EngineFrame.refl s).done (finishReceived_done n _ _ ovf _ t ht).of_rxstat
    case isFalse => exact answers_next.mpr (GoesOn.frame rfl (.same rfl))
  | res r => exact answers_next.mpr (v34Result_frame n ovf r s)

theorem chanResult_frame (r : DceRes) (s : State) : EngineFrame s (chanResult r s) := by
  cases r with
  | noCarrier | ok | error => exact (EngineFrame.refl s).complete _
  | connect | fcerror | other => exact engineFrame_goto _ s

theorem waitChannelToken_frame (x : InToken) (s : State) : Framed s (waitChannelToken x s) := by
  cases x with
  | byte v => exact answers_next.mpr (engineFrame_goto _ s)
  | res r => exact answers_next.mpr (chanResult_frame r s)

/-- R213, R219: of the registers, an indicator changes CHMODE alone. -/
theorem waitChannelDleToken_frame (x : InToken) (s : State) : Framed s (waitChannelDleToken x s) := by
  cases x with
  | byte v =>
    simp only [waitChannelDleToken]
    split
    case isTrue => exact answers_next.mpr (Keeps.complete (u := noteEot s) ⟨rfl, .same rfl⟩ _)
    split
    case isTrue => exact answers_next.mpr (engineFrame_goto _ s)
    split
    case isTrue => exact answers_next.mpr (Keeps.complete (u := indicator v s) ⟨rfl, .same rfl⟩ _)
    case isFalse => exact answers_next.mpr (GoesOn.frame rfl (.same rfl))
  | res r => exact answers_next.mpr (chanResult_frame r s)

theorem txCarrierToken_frame (x : InToken) (s : State) : Framed s (txCarrierToken x s) := by
  refine answers_awaitResult (.refl s) fun r => ?_
  cases r with
  | connect =>
    refine answers_next.mpr (Keeps.complete ?_ _)
    split
    · exact keeps_setLink _ s
    · exact ⟨rfl, .same rfl⟩
  | error | ok | noCarrier => exact answers_next.mpr ((keeps_setLink .idle s).complete _)
  | fcerror | other => exact answers_next.mpr (.refl s)

theorem wrongCarrier_frame (s : State) : EngineFrame s (wrongCarrier s) := by
  unfold wrongCarrier
  split
  · exact GoesOn.frame rfl ⟨_, rfl⟩
  · exact (keeps_setLink .idle s).complete _

theorem rxCarrierToken_frame (x : InToken) (s : State) : Framed s (rxCarrierToken x s) := by
  refine answers_awaitResult (.refl s) fun r => ?_
  cases r with
  | connect =>
    refine answers_next.mpr (Keeps.complete ?_ _)
    split
    · exact keeps_setLink _ s
    · exact ⟨rfl, .same rfl⟩
  | fcerror => exact answers_next.mpr (wrongCarrier_frame s)
  | error | ok | noCarrier => exact answers_next.mpr ((keeps_setLink .idle s).complete _)
  | other => exact answers_next.mpr (.refl s)

theorem silenceToken_frame (x : InToken) (s : State) : Framed s (silenceToken x s) := by
  refine answers_awaitResult (.refl s) fun r => ?_
  cases r with
  | ok | error | connect | noCarrier => exact answers_next.mpr ((EngineFrame.refl s).complete _)
  | fcerror | other => exact answers_next.mpr (.refl s)

theorem rxDropWaitToken_frame (x : InToken) (s : State) : Framed s (rxDropWaitToken x s) := by
  cases x with
  | byte v => exact answers_next.mpr (.refl s)
  | res r =>
    cases r with
    | noCarrier => exact answers_next.mpr ((keeps_setLink .idle s).complete _)
    | ok => exact answers_next.mpr (GoesOn.frame rfl ⟨_, rfl⟩)
    | error | connect | fcerror | other => exact answers_next.mpr (.refl s)

theorem txEndToken_frame (x : InToken) (s : State) : Framed s (txEndToken x s) := by
  refine answers_awaitResult (.refl s) fun r => ?_
  cases r with
  | ok | error | noCarrier => exact answers_next.mpr ((keeps_setLink .idle s).complete _)
  | connect | fcerror | other => exact answers_next.mpr (.refl s)

theorem endAbort_frame (sawOk : Bool) (after : AfterAbort) (s : State) : EngineFrame s (endAbort sawOk after s) := by
  have hk : Keeps s (txReset (rxReset (setLink (if sawOk then .idle else .unknown) s))) := ⟨rfl, .same rfl⟩
  cases after with
  | timeout | abortCmd => exact hk.complete _
  | receiveTimeout n => exact hk.done (endReceive_done n _ _)

theorem abortToken_frame (after : AfterAbort) (x : InToken) (s : State) : Framed s (abortToken after x s) := by
  refine answers_awaitResult (.refl s) fun r => ?_
  cases r with
  | ok => exact answers_next.mpr (endAbort_frame true after s)
  | connect | noCarrier | error | fcerror | other => exact answers_next.mpr (.refl s)

/-! ## The ENGINE -/

theorem onToken_frame (w : WaitPoint) (x : InToken) (s : State) : Framed s (onToken w x s) := by
  cases w with
  | sendHdlc final => exact sendHdlcToken_frame final x s
  | recvHdlcData n found ovf => exact recvHdlcDataToken_frame n found ovf x s
  | recvHdlcDle n found ovf => exact recvHdlcDleToken_frame n found ovf x s
  | recvHdlcEnd n ovf => exact recvHdlcEndToken_frame n ovf x s
  | recvRaw n => exact recvRawToken_frame n x s
  | recvRawDle n => exact recvRawDleToken_frame n x s
  | recvRawEnd n => exact recvRawEndToken_frame n x s
  | recvBits => exact recvBitsToken_frame x s
  | recvBitsDle => exact recvBitsDleToken_frame x s
  | recvBitsEnd => exact recvBitsEndToken_frame x s
  | recvV34 n ovf => exact recvV34Token_frame n ovf x s
  | recvV34Dle n ovf => exact recvV34DleToken_frame n ovf x s
  | waitChannel => exact waitChannelToken_frame x s
  | waitChannelDle => exact waitChannelDleToken_frame x s
  | txCarrier => exact txCarrierToken_frame x s
  | rxCarrier => exact rxCarrierToken_frame x s
  | txSilence | rxSilence => exact silenceToken_frame x s
  | rxDropWait => exact rxDropWaitToken_frame x s
  | txEnd => exact txEndToken_frame x s
  | delay => exact answers_next.mpr (.refl s)
  | abortFirst _ after | abortSecond _ after => exact abortToken_frame after x s

theorem onTimeout_frame (w : WaitPoint) (s : State) : EngineFrame s (onTimeout w s) := by
  cases w with
  | delay => exact (EngineFrame.refl s).complete _
  | abortSecond t0 after => exact endAbort_frame false after s
  | _ => exact GoesOn.frame rfl ⟨_, rfl⟩

theorem runTimeouts_frame (fuel : Nat) (s : State) : EngineFrame s (runTimeouts fuel s) :=
  runTimeouts_induction (P := EngineFrame s)
    (fun _ w hw _ hu => hu.trans (by simp [hw]) (onTimeout_frame w _)) fuel s (.refl s)

/-- R241: a run over tokens that stops for no fault has taken the first of them. -/
theorem runTokens_cons_next {s t : State} {w : WaitPoint} {x : InToken} {ts : List InToken} (hw : s.pos = some w)
    (h : runTokens (x :: ts) s = .next t) :
    ∃ u, onToken w x { s with inbound := ts } = .next u ∧ runTokens ts u = .next t := by
  unfold runTokens at h
  split at h
  · rename_i hn; simp [hw] at hn
  · rename_i w' hw'
    obtain rfl : w' = w := by simpa [hw, eq_comm] using hw'
    split at h
    · exact ⟨_, ‹_›, h⟩
    · cases h
    · cases h

/-- R70: the ENGINE takes tokens from the head of the FIFO, and is otherwise within its frame. -/
theorem runTokens_frame (ts : List InToken) : ∀ s : State, s.inbound = ts →
    Answers (fun t => ∃ k, EngineFrame { s with inbound := ts.drop k } t) (runTokens ts s) := by
  induction ts with
  | nil =>
    rintro s hs
    exact answers_next.mpr ⟨0, by rw [List.drop_nil, ← hs]; exact runTimeouts_frame 3 s⟩
  | cons x ts ih =>
    intro s hs t ht
    obtain hw | ⟨w, hw⟩ := s.pos.eq_none_or_eq_some
    · rw [runTokens_idle hw] at ht
      cases ht
      exact ⟨0, by rw [List.drop_zero, ← hs]; exact .refl s⟩
    · obtain ⟨u, ho, ht⟩ := runTokens_cons_next hw ht
      have hu : EngineFrame { s with inbound := ts } u := onToken_frame w x _ u ho
      obtain hp | ⟨w', hp⟩ := u.pos.eq_none_or_eq_some
      · rw [runTokens_idle hp] at ht
        cases ht
        exact ⟨1, hu⟩
      · obtain ⟨k, hk⟩ := ih u (congrArg State.inbound hu.kept) t ht
        exact ⟨k + 1, (hu.withInbound (ts.drop k)).trans (by simp [hp]) hk⟩

theorem engineStep_frame (s : State) :
    Answers (fun t => ∃ k, EngineFrame { s with inbound := s.inbound.drop k } t) (engineStep s) := by
  unfold engineStep
  split
  · exact answers_next.mpr ⟨0, .refl s⟩
  · exact answers_next.mpr ⟨0, runTimeouts_frame 3 s⟩
  · exact runTokens_frame s.inbound s rfl

/-- R71: a command that goes on shows in CHMODE and BITSTATE only. -/
theorem GoesOn.readReg {s t : State} (h : GoesOn s t) (hbusy : t.busy = s.busy) (offset : Nat) (hchmode : offset ≠ 0x30)
    (hbitstate : offset ≠ 0x38) : readReg offset t = readReg offset s := by
  have hstatus : statusWord t = statusWord s := by
    simp only [statusWord, hbusy]
    rw [h]
  unfold Machine.readReg
  split
  case h_1 | h_15 => rfl
  case h_3 => exact hstatus
  case h_12 => exact absurd rfl hchmode
  case h_14 => exact absurd rfl hbitstate
  all_goals rw [h]

theorem engineStep_idle {s : State} (hp : s.pos = none) : engineStep s = .next s := by
  simp [engineStep, hp]

/-- R40: with no command running an ENGINE step starts none. -/
theorem busy_of_engineStep {s t : State} (h : engineStep s = .next t) (ht : t.busy = true) : s.busy = true := by
  cases hp : s.pos with
  | none =>
    rw [engineStep_idle hp] at h
    cases h
    exact ht
  | some w => simp [State.busy, hp]

/-- Settles O47, by induction over the tokens taken and the deadlines passed. -/
theorem engineStepFrame : Obligations.EngineStepFrame := by
  intro s t ht
  obtain ⟨k, hf⟩ := engineStep_frame s t ht
  refine ⟨?_, ?_, ?_, ?_, ?_, ?_, ?_, ?_, ?_, ?_, ?_, ?_, ?_, ?_, ⟨k, ?_⟩, hf.sent, fun hbusy j _ hj => ?registers⟩
  case registers =>
    have hrun := hf.running (by simpa [State.busy, Option.isSome_iff_ne_none] using hbusy)
    simp only [List.mem_cons, List.not_mem_nil, or_false, not_or] at hj
    obtain ⟨hchmode, hbitstate⟩ := hj
    exact hrun.readReg (hbusy.trans (busy_of_engineStep ht hbusy).symm) _ (by omega) (by omega)
  all_goals rw [hf.kept]

end Sys2Proof.Machine
end

section
/-! PROOFS. The frame of a CMD write step (R80, R83): what the part of a command that runs in it leaves as it is. -/

namespace Sys2Proof.Machine

open Sys2Proof.Claims

/-! ## The frame -/

/-- R80, R242, R219: the CMD write step of `i` records the command and changes neither CHMODE, the link, TIME nor what the
host configures; it only appends to what is sent, and but for FRAME_FCS it leaves TXBUF and TXLEN. -/
structure StartKeeps (i : Instr) (s t : State) : Prop where
  kept : t = { accept i s with
    status := { t.status with hazard := s.status.hazard, lastCmd := opField (encode i) }, crc := t.crc
    txlen := t.txlen, rxlen := t.rxlen, rxstat := t.rxstat, rx := t.rx, tx := t.tx, rearm := t.rearm, pos := t.pos
    heldDleUnk := t.heldDleUnk, rxbuf := t.rxbuf, rxMarks := t.rxMarks, txbuf := t.txbuf, outbound := t.outbound
    rxFreeFrom := t.rxFreeFrom, freeCount := t.freeCount }
  sent : Sends s t
  transmit : i ≠ .frameFcs → t.txbuf = s.txbuf ∧ t.txlen = s.txlen

/-- R83: an immediate command is over when its CMD write step ends. -/
structure StartFrame (i : Instr) (s t : State) : Prop extends StartKeeps i s t where
  finishes : isImmediate i = true → t.busy = false ∧ t.status.done = true

section
variable {i : Instr} {s t u : State}

theorem startKeeps_accept (i : Instr) (s : State) : StartKeeps i s (accept i s) :=
  ⟨rfl, .same rfl, fun _ => ⟨rfl, rfl⟩⟩

theorem StartKeeps.send (h : StartKeeps i s t) (ts : List OutToken) : StartKeeps i s (send ts t) :=
  ⟨by rw [h.kept]; rfl, h.sent.trans ⟨ts, rfl⟩, h.transmit⟩

theorem StartKeeps.withTx (h : StartKeeps i s t) (p : TxEngine × List OutToken) : StartKeeps i s (withTx p t) :=
  ⟨by rw [h.kept]; rfl, h.sent.trans ⟨p.2, rfl⟩, h.transmit⟩

theorem StartKeeps.complete (h : StartKeeps i s t) (r : Result) : StartFrame i s (complete r t) :=
  ⟨⟨by rw [h.kept]; rfl, h.sent, h.transmit⟩, fun _ => ⟨rfl, rfl⟩⟩

theorem StartKeeps.goto (h : StartKeeps i s t) (hi : isImmediate i = false) (w : WaitPoint) : StartFrame i s (goto w t) :=
  ⟨⟨by rw [h.kept]; rfl, h.sent, h.transmit⟩, by simp [hi]⟩

theorem StartKeeps.startReceive (h : StartKeeps i s t) : StartKeeps i s (startReceive t) :=
  ⟨by rw [h.kept]; rfl, h.sent, h.transmit⟩

theorem StartKeeps.done (h : StartKeeps i s u) (hd : ReceiveDone u t) : StartFrame i s t := by
  obtain ⟨r, rxbuf, rxlen, crc, rxstat, drawn, -⟩ := hd
  exact ⟨⟨by rw [h.kept]; rfl, h.sent, h.transmit⟩, fun _ => ⟨rfl, rfl⟩⟩

end

/-! ## The commands -/

/-- Every next state that the outcome answers is within the frame of the CMD write step of `i` in `s`. -/
abbrev StartFramed (i : Instr) (s : State) (o : StepOutcome) : Prop := Answers (StartFrame i s) o

theorem startFramed_requireMode {i : Instr} {s : State} {allowed : Bool} {k : StepOutcome} (hk : StartFramed i s k) :
    StartFramed i s (requireMode allowed (accept i s) k) :=
  answers_requireMode ((startKeeps_accept i s).complete _) hk

/-- R130: a send command reads its body, or completes. -/
theorem startFramed_send {i : Instr} {s : State} {allowed : Bool} {m : Nat} {k : List Byte → State}
    (hk : ∀ body, StartFrame i s (k body)) :
    StartFramed i s (requireMode allowed (accept i s) <| sendLenCheck m (accept i s) fun n =>
      withBytes (readTx 0 n (accept i s)) fun body => .next (k body)) :=
  startFramed_requireMode <| answers_sendLenCheck (startKeeps_accept i s).complete fun _ =>
    answers_withBytes fun body _ => answers_next.mpr (hk body)

/-- R110: FRAME_FCS is the one command that writes TXBUF and TXLEN. -/
theorem appendFcs_keeps (body : List Byte) (s : State) :
    StartKeeps .frameFcs s (appendFcs body (accept .frameFcs s)) := by
  refine ⟨?_, Sends.same (by simp [appendFcs]), fun h => absurd rfl h⟩
  simp only [appendFcs]
  rw [storeTx_frame, storeTx_frame]
  rfl

theorem execFrameFcs_frame (s : State) : StartFramed .frameFcs s (execFrameFcs s) := by
  simp only [execFrameFcs]
  split
  case isTrue => exact answers_next.mpr ((startKeeps_accept _ s).complete _)
  split
  case isTrue => exact answers_next.mpr ((startKeeps_accept _ s).complete _)
  case isFalse => exact answers_withBytes fun body _ => answers_next.mpr ((appendFcs_keeps body s).complete _)

theorem execFrameCheck_frame (chkCrc : Bool) (s : State) :
    StartFramed (.frameCheck chkCrc) s (execFrameCheck chkCrc s) := by
  simp only [execFrameCheck]
  split
  · refine answers_next.mpr (StartKeeps.complete ?_ _)
    exact ⟨rfl, .same rfl, fun _ => ⟨rfl, rfl⟩⟩
  · refine answers_check fun r frame drawn => answers_next.mpr (StartKeeps.complete ?_ r)
    exact ⟨rfl, .same rfl, fun _ => ⟨rfl, rfl⟩⟩

theorem execRecvRaw_frame (count : Half) (s : State) : StartFramed (.recvRaw count) s (execRecvRaw count s) := by
  refine startFramed_requireMode (answers_next.mpr ?_)
  have hs := (startKeeps_accept (.recvRaw count) s).startReceive
  unfold rawContinue
  split
  · exact hs.goto rfl _
  · exact hs.done (endReceive_done _ _ _)

theorem execBitsReset_frame (rx tx : Bool) (s : State) : StartFramed (.bitsReset rx tx) s (execBitsReset rx tx s) := by
  refine answers_next.mpr (StartKeeps.complete ?_ _)
  cases rx <;> cases tx <;> exact ⟨rfl, .same rfl, fun _ => ⟨rfl, rfl⟩⟩

/-- R187: an event in the backlog ends RECV_BITS in its CMD write step, and touches neither the link nor CHMODE. -/
theorem execRecvBits_frame (s : State) : StartFramed .recvBits s (execRecvBits s) := by
  refine startFramed_requireMode fun t ht => ?_
  obtain ⟨e, -, h⟩ := runBacklog_run _ _ t ht
  have hk : StartKeeps .recvBits s { startReceive (accept .recvBits s) with rx := e } :=
    ⟨rfl, .same rfl, fun _ => ⟨rfl, rfl⟩⟩
  obtain ⟨-, rfl⟩ | ⟨-, -, hd⟩ := h
  · exact hk.goto rfl _
  · exact hk.done hd

theorem execTxEnd_frame (s : State) : StartFramed .txEnd s (execTxEnd s) := by
  refine startFramed_requireMode (answers_next.mpr (StartKeeps.goto (StartKeeps.send ?_ _) rfl _))
  split
  · exact (startKeeps_accept .txEnd s).withTx _
  · exact startKeeps_accept .txEnd s

theorem exec_frame (i : Instr) (s : State) : StartFramed i s (exec i s) := by
  have ha := startKeeps_accept i s
  cases i with
  | nop => exact answers_next.mpr (ha.complete _)
  | crcInit | crcFeed =>
    refine answers_next.mpr (StartKeeps.complete ?_ _)
    exact ⟨rfl, .same rfl, fun _ => ⟨rfl, rfl⟩⟩
  | frameFcs => exact execFrameFcs_frame s
  | frameCheck chkCrc => exact execFrameCheck_frame chkCrc s
  | sendHdlc => exact startFramed_send fun body => (ha.send _).goto rfl _
  | sendRaw => exact startFramed_send fun body => ((ha.withTx _).send _).complete _
  | sendBits flags flush => exact startFramed_send fun body => (ha.withTx _).complete _
  | sendV34 => exact startFramed_send fun body => (ha.send _).complete _
  | recvHdlc | recvV34 => exact startFramed_requireMode (answers_next.mpr (ha.startReceive.goto rfl _))
  | recvRaw count => exact execRecvRaw_frame count s
  | bitsReset rx tx => exact execBitsReset_frame rx tx s
  | recvBits => exact execRecvBits_frame s
  | waitChannel => exact startFramed_requireMode (answers_next.mpr (ha.goto rfl _))
  | sendInd x => exact startFramed_requireMode (answers_next.mpr ((ha.send _).complete _))
  | txCarrier | txSilence | rxSilence | rxDropWait =>
    exact startFramed_requireMode (answers_next.mpr ((ha.send _).goto rfl _))
  | rxCarrier mod hdlc =>
    have hk : StartKeeps (.rxCarrier mod hdlc) s { accept (.rxCarrier mod hdlc) s with rearm := 0 } :=
      ⟨rfl, .same rfl, fun _ => ⟨rfl, rfl⟩⟩
    exact startFramed_requireMode (answers_next.mpr ((hk.send _).goto rfl _))
  | txEnd => exact execTxEnd_frame s
  | delay ms => exact answers_next.mpr (ha.goto rfl _)
  | abort => exact answers_next.mpr ((ha.send _).goto rfl _)

/-- Settles O48: the frame of each command's CMD write step. -/
theorem commandStartFrame : Obligations.CommandStartFrame := by
  intro i s t ht
  have hf := exec_frame i s t ht
  refine ⟨?_, ?_, ?_, ?_, ?_, ?_, ?_, ?_, ?_, ?_, ?_, ?_, ?_, ?_, ?_, hf.transmit, hf.sent, hf.finishes⟩
  all_goals rw [hf.kept]
  all_goals rfl

end Sys2Proof.Machine
end

section
/-! PROOFS. The bits of the registers as the host reads them (R21 to R37), from the bits of a flag and of a field in a word. -/

namespace Sys2Proof.Machine

/-! ## Flags and fields in a word -/

theorem getLsbD_bitAt {k : Nat} (hk : k < 32) (p : Nat) (x : Bool) :
    (bitAt p x).getLsbD k = (decide (k = p) && x) := by
  cases x with
  | false => simp [bitAt]
  | true =>
    simp only [bitAt, if_true, BitVec.getLsbD_shiftLeft, BitVec.ofNat_eq_ofNat, BitVec.getLsbD_one, Bool.and_true]
    rw [Bool.eq_iff_iff]
    simp
    omega

theorem getLsbD_fieldAt {k n : Nat} (hk : k < 32) (p : Nat) (x : BitVec n) :
    (fieldAt p x).getLsbD k = (decide (p ≤ k) && x.getLsbD (k - p)) := by
  by_cases hp : p ≤ k <;> simp [fieldAt, hk, hp, Nat.not_lt.mpr, Nat.lt_of_not_le]

section
variable {k : Nat} (s : State)

theorem ctrl_getLsbD (hk : k < 32) : (readReg 0x04 s).getLsbD k
    = ([s.ctrl.ieDone, s.ctrl.ieErr, s.ctrl.rxCrcCheck, s.ctrl.txFcsByte, s.ctrl.rcpFix, s.ctrl.v34] : List Bool).getD k
        false := by
  simp only [readReg, Ctrl.word, BitVec.getLsbD_or, getLsbD_bitAt hk]
  interval_cases k <;> simp

theorem rxstat_getLsbD (hk : k < 32) : (readReg 0x20 s).getLsbD k
    = if k < 8 then ([s.rxstat.valid, s.rxstat.lenOk, s.rxstat.addrOk, s.rxstat.ctrlOk, s.rxstat.crcOk,
          s.rxstat.crcChecked, s.rxstat.final, s.rxstat.rcpSubst] : List Bool).getD k false
      else if k < 16 then s.rxstat.fcf.getLsbD (k - 8)
      else ([s.rxstat.dleUnk, s.rxstat.alignErr, s.rxstat.dceFcsErr] : List Bool).getD (k - 16) false := by
  simp only [readReg, RxStat.word, BitVec.getLsbD_or, getLsbD_bitAt hk, getLsbD_fieldAt hk]
  interval_cases k <;> simp

/-- R26 to R34: a register that is one field from bit 0 on. -/
theorem getLsbD_fieldAt_zero {n : Nat} (hk : k < 32) (x : BitVec n) : (fieldAt 0 x).getLsbD k = x.getLsbD k := by
  simp [getLsbD_fieldAt hk]

/-- R36: CARRIER is set in the four carrier states. -/
theorem link_carrier_eq (l : Link) :
    l.carrier = decide (l = .txHdlc ∨ l = .rxHdlc ∨ l = .txData ∨ l = .rxData) := by
  cases l <;> rfl

theorem status_getLsbD (hk : k < 32) : (readReg 0x08 s).getLsbD k
    = if k < 8 then ([s.busy, s.status.done, s.status.err, s.status.hazard,
          decide (s.link = .txHdlc ∨ s.link = .rxHdlc ∨ s.link = .txData ∨ s.link = .rxData),
          s.status.ovr] : List Bool).getD k false
      else if k < 16 then s.status.result.code.getLsbD (k - 8)
      else if k < 24 then s.status.lastCmd.getLsbD (k - 16) else s.link.code.getLsbD (k - 24) := by
  simp only [readReg, statusWord, BitVec.getLsbD_or, getLsbD_bitAt hk, getLsbD_fieldAt hk, link_carrier_eq]
  interval_cases k <;> simp

theorem ecmcfg_getLsbD (hk : k < 32) : (readReg 0x24 s).getLsbD k = (decide (k = 0) && s.fs64) := getLsbD_bitAt hk 0 _

theorem seqcfg_getLsbD (hk : k < 32) : (readReg 0x28 s).getLsbD k
    = if k < 8 then s.seqcfg.rearmMax.getLsbD k else if k < 16 then s.seqcfg.breakChar.getLsbD (k - 8)
      else s.seqcfg.abortWaitMs.getLsbD (k - 16) := by
  simp only [readReg, SeqCfg.word, BitVec.getLsbD_or, getLsbD_fieldAt hk]
  interval_cases k <;> simp

theorem chmode_getLsbD (hk : k < 32) : (readReg 0x30 s).getLsbD k
    = if k < 8 then ([s.chmode.controlActive, s.chmode.gotEot, s.chmode.retrain] : List Bool).getD k false
      else if k < 16 then s.chmode.prate.getLsbD (k - 8)
      else if k < 24 then s.chmode.crate.getLsbD (k - 16) else s.chmode.lastInd.getLsbD (k - 24) := by
  simp only [readReg, ChMode.word, BitVec.getLsbD_or, getLsbD_bitAt hk, getLsbD_fieldAt hk]
  interval_cases k <;> simp

theorem bitstate_getLsbD (hk : k < 32) : (readReg 0x38 s).getLsbD k
    = if k < 3 then s.rx.ones.testBit k else if k = 3 then decide (s.rx.sync = .sync)
      else if k < 7 then s.tx.ones.testBit (k - 4) else if k = 7 then false
      else if k < 11 then s.tx.nbits.testBit (k - 8) else if k = 11 then false
      else if k < 15 then s.rx.backlog.length.testBit (k - 12) else if k = 15 then false
      else (min s.rx.pend.length 0xFFFF).testBit (k - 16) := by
  have hsync : (s.rx.sync == .sync) = decide (s.rx.sync = .sync) := by cases s.rx.sync <;> rfl
  simp only [readReg, bitstateWord, BitVec.getLsbD_or, getLsbD_bitAt hk, getLsbD_fieldAt hk, BitVec.getLsbD_ofNat, hsync]
  interval_cases k <;> simp

end

/-- Settles O59: register by register, the bits of its flags and fields; the codes and the interrupt line are
their tables. -/
theorem statusViewsAndIrq : Obligations.StatusViewsAndIrq :=
  ⟨fun s _ hk =>
      ⟨ctrl_getLsbD s hk, status_getLsbD s hk, getLsbD_fieldAt_zero hk _, getLsbD_fieldAt_zero hk _,
        getLsbD_fieldAt_zero hk _, getLsbD_fieldAt_zero hk _, rxstat_getLsbD s hk, ecmcfg_getLsbD s hk,
        seqcfg_getLsbD s hk, getLsbD_fieldAt_zero hk _, chmode_getLsbD s hk, rfl, bitstate_getLsbD s hk⟩,
    fun _ => ⟨rfl, rfl, rfl⟩, fun _ => rfl, rfl, rfl, rfl⟩

end Sys2Proof.Machine
end

section
/-! PROOFS. The order of the bits in a byte (R67, R68, R170, R181). -/

namespace Sys2Proof.Machine

/-- R181: the first bit received becomes bit 7. -/
theorem octet_getLsbD (b0 b1 b2 b3 b4 b5 b6 b7 : Bool) {k : Nat} (hk : k < 8) :
    (octet [b0, b1, b2, b3, b4, b5, b6, b7]).getLsbD (7 - k) = [b0, b1, b2, b3, b4, b5, b6, b7].getD k false := by
  have hbit (x : Bool) (j : Nat) : (bit8 x).getLsbD j = (decide (j = 0) && x) := by
    cases x <;> simp [bit8, BitVec.getLsbD_one]
  simp only [octet, List.foldl_cons, List.foldl_nil, BitVec.getLsbD_or, BitVec.getLsbD_shiftLeft, hbit]
  interval_cases k <;> simp

theorem bitsLsb_getElem? (b : Byte) {k : Nat} (hk : k < 8) : (bitsLsb b)[k]? = some (b.getLsbD k) := by
  interval_cases k <;> rfl

theorem bitsMsb_getElem? (b : Byte) {k : Nat} (hk : k < 8) : (bitsMsb b)[k]? = some (b.getLsbD (7 - k)) := by
  interval_cases k <;> rfl

/-- R68: bit `7 - k` of the DCE octet is bit `k` of the buffer byte. -/
theorem dceOctet_getLsbD_sub (b : Byte) {k : Nat} (hk : k < 8) : (dceOctet b).getLsbD (7 - k) = b.getLsbD k := by
  have hrev : dceOctet b = octet (bitsLsb b) := by simp [dceOctet, Config.dceLsbFirst, rev8]
  rw [hrev, bitsLsb, octet_getLsbD _ _ _ _ _ _ _ _ hk, ← bitsLsb, List.getD_eq_getElem?_getD, bitsLsb_getElem? b hk]
  rfl

theorem dceOctet_getLsbD (b : Byte) {i : Nat} (hi : i < 8) : (dceOctet b).getLsbD i = b.getLsbD (7 - i) := by
  simpa [show 7 - (7 - i) = i by omega] using dceOctet_getLsbD_sub b (k := 7 - i) (by omega)

/-- R68: the DCE's order is the reverse of the reverse. -/
@[simp] theorem dceOctet_dceOctet (b : Byte) : dceOctet (dceOctet b) = b := by
  refine BitVec.eq_of_getLsbD_eq fun i hi => ?_
  rw [dceOctet_getLsbD _ hi, dceOctet_getLsbD_sub _ hi]

/-- An involution gives `c` exactly for what it makes of `c`. -/
theorem dceOctet_eq_iff (b c : Byte) : dceOctet b = c ↔ b = dceOctet c :=
  ⟨fun h => by rw [← h, dceOctet_dceOctet], fun h => by rw [h, dceOctet_dceOctet]⟩

/-- R67, R170: on the line, the DCE byte from bit 0 on is the buffer byte from bit 7 on. -/
theorem lineBits_dceOctet (b : Byte) : lineBits (dceOctet b) = bitsMsb b := by
  have h (i : Nat) (hi : i < 8) := dceOctet_getLsbD b hi
  simp only [lineBits, Config.dceLsbFirst, if_true, bitsLsb, bitsMsb, h 0, h 1, h 2, h 3, h 4, h 5, h 6, h 7,
    Nat.reduceLT, Nat.reduceSub]

/-- Settles O6: bit `i` of the octet is bit `7 - i` of the byte, and the rest follows bit by bit. -/
theorem dceOctetReverses : Obligations.DceOctetReverses := fun b =>
  ⟨dceOctet_dceOctet b, fun _ hi => dceOctet_getLsbD b hi, dceOctet_eq_iff b 0x10, lineBits_dceOctet b,
    fun _ hk => ⟨bitsLsb_getElem? b hk, bitsMsb_getElem? b hk⟩⟩

end Sys2Proof.Machine
end

section
/-! PROOFS. The host window (R60 to R66): the region of an access, which accesses a region takes, and what a byte access
does in each buffer. -/

namespace Sys2Proof.Machine

open Sys2Proof.Claims

/-! ## Regions -/

/-- R61: where a buffer's window begins. -/
def Buffer.base : Buffer → Nat
  | .rx => 0x1000
  | .tx => 0x2000

/-- The buffer as a field of the state, and the state with that field replaced. -/
def State.buffer (b : Buffer) (s : State) : Memory :=
  match b with
  | .rx => s.rxbuf
  | .tx => s.txbuf

def State.setBuffer (b : Buffer) (m : Memory) (s : State) : State :=
  match b with
  | .rx => { s with rxbuf := m }
  | .tx => { s with txbuf := m }

section
variable {w : Width} {addr : BitVec 14} {b : Buffer} {i : Nat} {v : Word} {s t : State}

theorem region_register (h : addr.toNat < 0x40) : region addr = .register addr.toNat := by simp [region, h]

theorem region_unmapped (h : 0x40 ≤ addr.toNat ∧ addr.toNat < 0x1000 ∨ 0x3000 ≤ addr.toNat) :
    region addr = .unmapped := by
  simp only [region]
  split_ifs
  all_goals first | rfl | omega

theorem region_buffer (h : addr.toNat = b.base + i) (hi : i < 0x1000) : region addr = .buffer b i := by
  cases b <;> simp only [Buffer.base] at h <;> simp only [region]
  · rw [if_neg (by omega), if_neg (by omega), if_pos (by omega), show addr.toNat - 0x1000 = i by omega]
  · rw [if_neg (by omega), if_neg (by omega), if_neg (by omega), if_pos (by omega), show addr.toNat - 0x2000 = i by omega]

/-- The offset of an index in a buffer's window. -/
theorem toNat_bufferAddr (b : Buffer) (hi : i < 0x1000) : (BitVec.ofNat 14 (b.base + i)).toNat = b.base + i := by
  cases b <;> simp only [BitVec.toNat_ofNat, Buffer.base] <;> omega

theorem accessOk_register (h : addr.toNat < 0x40) : accessOk w addr = true ↔ w = .w32 ∧ addr.toNat % 4 = 0 := by
  simp [accessOk, region_register h]

theorem accessOk_buffer (h : addr.toNat = b.base + i) (hi : i < 0x1000) :
    accessOk w addr = true ↔ i % w.bytes = 0 := by
  have hmod : (b.base + i) % w.bytes = i % w.bytes := by
    cases b <;> cases w <;> simp only [Buffer.base, Width.bytes] <;> omega
  simp [accessOk, region_buffer h hi, h, hmod]

/-! ## Accesses by region -/

/-- R62: a bus error carries the access and no state. -/
theorem hostAccess_busError (h : ¬ accessOk w addr = true) :
    hostRead w addr s = .fault (.busError w addr) ∧ hostWrite w addr v s = .fault (.busError w addr) := by
  simp only [Bool.not_eq_true] at h
  simp [hostRead, hostWrite, h]

theorem hostWrite_accessOk (h : hostWrite w addr v s = .next t) : accessOk w addr = true := by
  by_contra hok
  cases (hostAccess_busError hok).2.symm.trans h

theorem hostAccess_unmapped (h : 0x40 ≤ addr.toNat ∧ addr.toNat < 0x1000 ∨ 0x3000 ≤ addr.toNat) :
    hostRead w addr s = .next { s with readData := 0 } ∧ hostWrite w addr v s = .next s := by
  simp [hostRead, hostWrite, accessOk, region_unmapped h]

theorem hostRead_register (h : addr.toNat < 0x40) (hmod : addr.toNat % 4 = 0) :
    hostRead .w32 addr s = .next { s with readData := readReg addr.toNat s } := by
  simp [hostRead, (accessOk_register h).mpr ⟨rfl, hmod⟩, region_register h]

theorem hostWrite_register (h : addr.toNat < 0x40) (hmod : addr.toNat % 4 = 0) :
    hostWrite .w32 addr v s = writeReg addr.toNat v s := by
  simp [hostWrite, (accessOk_register h).mpr ⟨rfl, hmod⟩, region_register h]

theorem hostRead_buffer (h : addr.toNat = b.base + i) (hi : i < 0x1000) (hmod : i % w.bytes = 0) :
    hostRead w addr s
      = withBytes (hostReadBytes b i w.bytes s) fun p => .next { p.2 with readData := p.1 } := by
  simp [hostRead, (accessOk_buffer h hi).mpr hmod, region_buffer h hi]

theorem hostWrite_buffer (h : addr.toNat = b.base + i) (hi : i < 0x1000) (hmod : i % w.bytes = 0) :
    hostWrite w addr v s = .next (hostWriteBytes b i w.bytes v s) := by
  simp [hostWrite, (accessOk_buffer h hi).mpr hmod, region_buffer h hi]

/-- R62, R64: a host read draws free values and hands the host a value; it changes nothing of the block. -/
theorem hostRead_frame (h : hostRead w addr s = .next t) :
    t = { s with readData := t.readData, freeCount := t.freeCount } := by
  unfold hostRead at h
  split at h
  case isTrue => cases h
  split at h
  · cases h; rfl
  · obtain ⟨⟨x, u⟩, hu, h⟩ := withBytes_next h
    cases h
    rw [hostReadBytes_frame _ _ _ _ _ _ hu]
  · cases h; rfl

/-- Settles O52, by the region of the access. -/
theorem hostAccessRules : Obligations.HostAccessRules := by
  intro w addr v s
  refine ⟨fun h hne => ?busError, fun h => ?unmapped, fun h hw hmod => ?register, fun t => hostRead_frame⟩
  case busError =>
    refine hostAccess_busError fun hok => ?_
    obtain ⟨hw, hmod⟩ := (accessOk_register h).mp hok
    exact hne.elim (absurd hw) (absurd hmod)
  case unmapped =>
    have hpos : 0 < w.bytes := by cases w <;> decide
    obtain ⟨hlo, hhi⟩ | ⟨hlo, -⟩ := h
    · exact hostAccess_unmapped (.inl ⟨hlo, by omega⟩)
    · exact hostAccess_unmapped (.inr hlo)
  case register =>
    subst hw
    exact hostRead_register h hmod

/-! ## Buffer bytes -/

/-- R63: an index at or above the buffer's size reads 0. -/
theorem hostReadByte_past (hi : 1048 ≤ i) : hostReadByte b i s = .ok (0, s) := by
  cases b <;> simp [hostReadByte, Config.rxbufSize, Config.txbufSize, hi]

/-- R63: an index at or above the buffer's size ignores the write. -/
theorem hostWriteByte_past (hi : 1048 ≤ i) (x : Byte) : hostWriteByte b i x s = s := by
  cases b <;> simp [hostWriteByte, Config.rxbufSize, Config.txbufSize, Nat.not_lt.mpr hi]

/-- R63: a known byte is read as it stands; the host reads RXBUF so only while no command runs (R72). -/
theorem hostReadByte_known {x : Byte} (hidle : b = .rx → s.pos = none) (hi : i < 1048)
    (h : (s.buffer b).read i = some x) : hostReadByte b i s = .ok (x, s) := by
  cases b with
  | rx =>
    have hread : s.rxbuf.read i = some x := h
    simp [hostReadByte, Config.rxbufSize, Nat.not_le.mpr hi, State.busy, hidle rfl, hostRxByte, rxByte, hread]
  | tx =>
    have hread : s.txbuf.read i = some x := h
    simp [hostReadByte, Config.txbufSize, Nat.not_le.mpr hi, readTxByte, hread]

/-- R63: with no command running a byte inside the buffer is stored. -/
theorem hostWriteByte_idle (hidle : s.pos = none) (hi : i < 1048) (x : Byte) :
    hostWriteByte b i x s = s.setBuffer b ((s.buffer b).write i x) := by
  cases b <;> simp [hostWriteByte, Config.rxbufSize, Config.txbufSize, hi, unlessBusy_idle hidle, storeRx, storeTx,
    State.setBuffer, State.buffer]

/-- R66: while a command runs a byte inside the buffer is dropped with HAZARD. -/
theorem hostWriteByte_busy {p : WaitPoint} (hp : s.pos = some p) (hi : i < 1048) (x : Byte) :
    hostWriteByte b i x s = setHazard s := by
  cases b <;> simp [hostWriteByte, Config.rxbufSize, Config.txbufSize, hi, unlessBusy_busy hp]

end

/-! ## Byte lists of an access -/

theorem hostReadBytes_past (b : Buffer) (n : Nat) : ∀ {i : Nat} (s : State), 1048 ≤ i →
    hostReadBytes b i n s = .ok (0, s) := by
  induction n with
  | zero => exact fun _ _ => rfl
  | succ n ih => intro i s hi; simp [hostReadBytes, hostReadByte_past hi, ih s (Nat.le_succ_of_le hi)]

theorem hostWriteBytes_past (b : Buffer) (n : Nat) : ∀ {i : Nat} (v : Word) (s : State), 1048 ≤ i →
    hostWriteBytes b i n v s = s := by
  induction n with
  | zero => exact fun _ _ _ => rfl
  | succ n ih => intro i v s hi; rw [hostWriteBytes, hostWriteByte_past hi, ih _ s (Nat.le_succ_of_le hi)]

/-- R66: HAZARD is set once, by the first byte. -/
theorem hostWriteBytes_busy (b : Buffer) (n : Nat) : ∀ {i : Nat} (v : Word) {s : State} {p : WaitPoint}, s.pos = some p →
    i < 1048 → hostWriteBytes b i (n + 1) v s = setHazard s := by
  induction n with
  | zero => exact fun v s p hp hi => hostWriteByte_busy hp hi _
  | succ n ih =>
    intro i v s p hp hi
    rw [hostWriteBytes, hostWriteByte_busy hp hi]
    by_cases hnext : i + 1 < 1048
    · rw [ih _ (s := setHazard s) (p := p) (by simpa using hp) hnext]; rfl
    · exact hostWriteBytes_past _ _ _ _ (by omega)

/-- R63: the low `n` bytes of a word, little-endian. -/
def leBytes : Nat → Word → List Byte
  | 0, _ => []
  | n + 1, v => v.extractLsb' 0 8 :: leBytes n (v >>> 8)

theorem extractLsb'_ushiftRight (v : Word) (k : Nat) : (v >>> 8).extractLsb' (8 * k) 8 = v.extractLsb' (8 * (k + 1)) 8 := by
  refine BitVec.eq_of_getLsbD_eq fun j hj => ?_
  simp only [BitVec.getLsbD_extractLsb', BitVec.getLsbD_ushiftRight]
  rw [show 8 + (8 * k + j) = 8 * (k + 1) + j by omega]

@[simp] theorem length_leBytes (n : Nat) : ∀ v : Word, (leBytes n v).length = n := by
  induction n with
  | zero => exact fun _ => rfl
  | succ n ih => intro v; rw [leBytes, List.length_cons, ih]

theorem leBytes_getElem? (n : Nat) : ∀ (v : Word) {k : Nat}, k < n → (leBytes n v)[k]? = some (v.extractLsb' (8 * k) 8) := by
  induction n with
  | zero => exact fun v k hk => absurd hk (Nat.not_lt_zero k)
  | succ n ih =>
    intro v k hk
    cases k with
    | zero => rfl
    | succ k => rw [leBytes, List.getElem?_cons_succ, ih _ (by omega), extractLsb'_ushiftRight]

/-- R63: with no command running the bytes of an access inside the buffer are stored little-endian. -/
theorem hostWriteBytes_idle (b : Buffer) (n : Nat) : ∀ {i : Nat} (v : Word) {s : State}, s.pos = none → i + n ≤ 1048 →
    hostWriteBytes b i n v s = s.setBuffer b ((s.buffer b).writeAll i (leBytes n v)) := by
  induction n with
  | zero => intro i v s _ _; cases b <;> rfl
  | succ n ih =>
    intro i v s hidle hi
    rw [hostWriteBytes, hostWriteByte_idle hidle (by omega), ih _ (by cases b <;> exact hidle) (by omega)]
    cases b <;> rfl

/-- The low `n` bytes of a word, the others 0. -/
def lowBytes (n : Nat) (v : Word) : Word := BitVec.ofNat 32 (v.toNat % 2 ^ (8 * n))

theorem getLsbD_lowBytes (n : Nat) (v : Word) {j : Nat} (hj : j < 32) :
    (lowBytes n v).getLsbD j = (decide (j < 8 * n) && v.getLsbD j) := by
  simp only [lowBytes, BitVec.getLsbD_ofNat, Nat.testBit_mod_two_pow, hj, decide_true, Bool.true_and]
  rfl

theorem lowBytes_succ (n : Nat) (v : Word) :
    (v.extractLsb' 0 8).zeroExtend 32 ||| (lowBytes n (v >>> 8) <<< 8) = lowBytes (n + 1) v := by
  refine BitVec.eq_of_getLsbD_eq fun j hj => ?_
  simp only [BitVec.getLsbD_or, BitVec.getLsbD_setWidth, BitVec.getLsbD_extractLsb', BitVec.getLsbD_shiftLeft,
    getLsbD_lowBytes _ _ hj, getLsbD_lowBytes _ _ (show j - 8 < 32 by omega), BitVec.getLsbD_ushiftRight, hj]
  by_cases h : j < 8
  · simp [h, show j < 8 * (n + 1) by omega]
  · simp [h, show 8 + (j - 8) = j by omega, show (j - 8 < 8 * n) = (j < 8 * (n + 1)) by simp; omega]

/-- R63: known bytes are read little-endian. -/
theorem hostReadBytes_known (b : Buffer) {s : State} (hidle : b = .rx → s.pos = none) (n : Nat) : ∀ {i : Nat} (v : Word),
    i + n ≤ 1048 → (∀ k, k < n → (s.buffer b).read (i + k) = some (v.extractLsb' (8 * k) 8)) →
    hostReadBytes b i n s = .ok (lowBytes n v, s) := by
  induction n with
  | zero => intro i v _ _; simp [hostReadBytes, lowBytes, Nat.mod_one]
  | succ n ih =>
    intro i v hi h
    have hrest := ih (i := i + 1) (v >>> 8) (by omega) fun k hk => by
      rw [extractLsb'_ushiftRight, ← h (k + 1) (by omega), show i + 1 + k = i + (k + 1) by omega]
    have hbyte : hostReadByte b i s = .ok (v.extractLsb' 0 8, s) :=
      hostReadByte_known hidle (by omega) (h 0 (Nat.succ_pos n))
    simp only [hostReadBytes, hbyte, hrest, lowBytes_succ]

/-! ## Accesses to the buffers -/

section
variable {s : State} {w : Width} {b : Buffer} {i : Nat}

theorem Width.bytes_pos (w : Width) : 0 < w.bytes := by cases w <;> decide

theorem hostWrite_buffer_idle (hidle : s.pos = none) (hmod : i % w.bytes = 0) (hi : i + w.bytes ≤ 1048) (v : Word) :
    hostWrite w (BitVec.ofNat 14 (b.base + i)) v s
      = .next (s.setBuffer b ((s.buffer b).writeAll i (leBytes w.bytes v))) := by
  rw [hostWrite_buffer (toNat_bufferAddr b (by omega)) (by omega) hmod, hostWriteBytes_idle b _ v hidle hi]

/-- R63: index by index, what a buffer holds after the bytes of an access are stored in it. -/
theorem read_writeAll_leBytes (m : Memory) (i n : Nat) (v : Word) (j : Nat) :
    (m.writeAll i (leBytes n v)).read j
      = if i ≤ j ∧ j < i + n then some (v.extractLsb' (8 * (j - i)) 8) else m.read j := by
  rw [Memory.read_writeAll, length_leBytes]
  split
  · rename_i h; exact leBytes_getElem? n v (by omega)
  · rfl

theorem hostRead_buffer_known (hidle : b = .rx → s.pos = none) (hmod : i % w.bytes = 0) (hi : i + w.bytes ≤ 1048)
    {v : Word} (h : ∀ k, k < w.bytes → (s.buffer b).read (i + k) = some (v.extractLsb' (8 * k) 8)) :
    hostRead w (BitVec.ofNat 14 (b.base + i)) s = .next { s with readData := lowBytes w.bytes v } := by
  have hpos := w.bytes_pos
  rw [hostRead_buffer (toNat_bufferAddr b (by omega)) (by omega) hmod, hostReadBytes_known b hidle _ v hi h]
  rfl

theorem hostAccess_buffer_misaligned (hi : i < 0x1000) (hmod : i % w.bytes ≠ 0) (v : Word) :
    hostRead w (BitVec.ofNat 14 (b.base + i)) s = .fault (.busError w (BitVec.ofNat 14 (b.base + i)))
      ∧ hostWrite w (BitVec.ofNat 14 (b.base + i)) v s = .fault (.busError w (BitVec.ofNat 14 (b.base + i))) :=
  hostAccess_busError fun hok => hmod ((accessOk_buffer (toNat_bufferAddr b hi) hi).mp hok)

theorem hostAccess_buffer_past (hi : i < 0x1000) (hmod : i % w.bytes = 0) (hpast : 1048 ≤ i) (v : Word) :
    hostRead w (BitVec.ofNat 14 (b.base + i)) s = .next { s with readData := 0 }
      ∧ hostWrite w (BitVec.ofNat 14 (b.base + i)) v s = .next s := by
  have haddr := toNat_bufferAddr b hi
  rw [hostRead_buffer haddr hi hmod, hostReadBytes_past b _ s hpast, hostWrite_buffer haddr hi hmod,
    hostWriteBytes_past b _ v s hpast]
  exact ⟨rfl, rfl⟩

end

/-- Settles O54: the bytes of an access in index order, for each of the two windows. -/
theorem bufferAccessesAreLittleEndian : Obligations.BufferAccessesAreLittleEndian := by
  intro s w i v
  refine ⟨fun hmod hi => ⟨fun hidle => ?storeTx, fun hidle => ?storeRx, fun h => ?readTx, fun hidle h => ?readRx⟩,
    fun base hbase hi => ?window⟩
  case storeTx =>
    exact ⟨_, hostWrite_buffer_idle (b := .tx) hidle hmod hi v, read_writeAll_leBytes s.txbuf i _ v, rfl⟩
  case storeRx =>
    exact ⟨_, hostWrite_buffer_idle (b := .rx) hidle hmod hi v, read_writeAll_leBytes s.rxbuf i _ v, rfl⟩
  case readTx => exact hostRead_buffer_known (b := .tx) nofun hmod hi h
  case readRx => exact hostRead_buffer_known (b := .rx) (fun _ => hidle) hmod hi h
  case window =>
    obtain ⟨b, rfl⟩ : ∃ b : Buffer, base = b.base := by
      rcases hbase with rfl | rfl
      · exact ⟨.rx, rfl⟩
      · exact ⟨.tx, rfl⟩
    exact ⟨fun hmod => hostAccess_buffer_misaligned hi hmod v, fun hmod hpast => hostAccess_buffer_past hi hmod hpast v⟩

end Sys2Proof.Machine
end

section
/-! PROOFS. The host's writes: to the registers with no command running (R65), and to everything while one runs (R66). -/

namespace Sys2Proof.Machine

open Sys2Proof.Claims

/-! ## Register writes with no command running -/

/-- A field from bit 0 on that takes the low bits of a written word reads back as those bits. -/
theorem fieldAt_zero_extractLsb' (v : Word) (n : Nat) :
    fieldAt 0 (v.extractLsb' 0 n) = v &&& BitVec.ofNat 32 (2 ^ n - 1) := by
  refine BitVec.eq_of_getLsbD_eq fun k hk => ?_
  rw [getLsbD_fieldAt_zero hk, BitVec.getLsbD_extractLsb', BitVec.getLsbD_and, BitVec.getLsbD_ofNat,
    Nat.testBit_two_pow_sub_one, Nat.zero_add]
  simp [hk, Bool.and_comm]

theorem ctrlWord_ofWord (v : Word) : (Ctrl.ofWord v).word = v &&& 0x0000003F := by
  refine BitVec.eq_of_getLsbD_eq fun k hk => ?_
  have hbits := ctrl_getLsbD { State.reset with ctrl := Ctrl.ofWord v } hk
  rw [show (Ctrl.ofWord v).word = readReg 0x04 { State.reset with ctrl := Ctrl.ofWord v } from rfl, hbits,
    BitVec.getLsbD_and]
  interval_cases k <;> simp [Ctrl.ofWord]

theorem seqcfgWord_ofWord (v : Word) : (SeqCfg.ofWord v).word = v &&& 0xFFFFFF0F := by
  refine BitVec.eq_of_getLsbD_eq fun k hk => ?_
  have hbits := seqcfg_getLsbD { State.reset with seqcfg := SeqCfg.ofWord v } hk
  rw [show (SeqCfg.ofWord v).word = readReg 0x28 { State.reset with seqcfg := SeqCfg.ofWord v } from rfl, hbits,
    BitVec.getLsbD_and]
  interval_cases k <;> simp [SeqCfg.ofWord]

theorem bitAt_zero_getLsbD (v : Word) : bitAt 0 (v.getLsbD 0) = v &&& 0x00000001 := by
  refine BitVec.eq_of_getLsbD_eq fun k hk => ?_
  rw [getLsbD_bitAt hk, BitVec.getLsbD_and]
  interval_cases k <;> simp

/-- R65: `t` is `s` after a write of `v` to the RW register at offset `a`, whose fields are the bits of `mask`. -/
structure RegisterWritten (a : BitVec 14) (mask v : Word) (s t : State) : Prop where
  write : hostWrite .w32 a v s = .next t
  readBack : readReg a.toNat t = v &&& mask
  others : ∀ k, k < 16 → 4 * k ≠ a.toNat → readReg (4 * k) t = readReg (4 * k) s
  kept : t = { s with
    timeoutMs := t.timeoutMs, crc := t.crc, txlen := t.txlen, rxlen := t.rxlen, fs64 := t.fs64, seqcfg := t.seqcfg
    txcapMs := t.txcapMs, ctrl := t.ctrl }

section
variable {s : State} {v : Word}

theorem timeout_written (hp : s.pos = none) :
    RegisterWritten 0x0010 0x0000FFFF v s { s with timeoutMs := v.extractLsb' 0 16 } where
  write := (hostWrite_register (by decide) (by decide)).trans (congrArg _ (unlessBusy_idle hp _))
  readBack := fieldAt_zero_extractLsb' v 16
  others k hk hne := by interval_cases k <;> first | exact absurd rfl hne | rfl
  kept := rfl

theorem crc_written (hp : s.pos = none) :
    RegisterWritten 0x0014 0x0000FFFF v s { s with crc := v.extractLsb' 0 16 } where
  write := (hostWrite_register (by decide) (by decide)).trans (congrArg _ (unlessBusy_idle hp _))
  readBack := fieldAt_zero_extractLsb' v 16
  others k hk hne := by interval_cases k <;> first | exact absurd rfl hne | rfl
  kept := rfl

theorem txlen_written (hp : s.pos = none) :
    RegisterWritten 0x0018 0x000007FF v s { s with txlen := v.extractLsb' 0 11 } where
  write := (hostWrite_register (by decide) (by decide)).trans (congrArg _ (unlessBusy_idle hp _))
  readBack := fieldAt_zero_extractLsb' v 11
  others k hk hne := by interval_cases k <;> first | exact absurd rfl hne | rfl
  kept := rfl

theorem rxlen_written (hp : s.pos = none) :
    RegisterWritten 0x001C 0x000007FF v s { s with rxlen := v.extractLsb' 0 11 } where
  write := (hostWrite_register (by decide) (by decide)).trans (congrArg _ (unlessBusy_idle hp _))
  readBack := fieldAt_zero_extractLsb' v 11
  others k hk hne := by interval_cases k <;> first | exact absurd rfl hne | rfl
  kept := rfl

theorem ecmcfg_written (hp : s.pos = none) :
    RegisterWritten 0x0024 0x00000001 v s { s with fs64 := v.getLsbD 0 } where
  write := (hostWrite_register (by decide) (by decide)).trans (congrArg _ (unlessBusy_idle hp _))
  readBack := bitAt_zero_getLsbD v
  others k hk hne := by interval_cases k <;> first | exact absurd rfl hne | rfl
  kept := rfl

theorem seqcfg_written (hp : s.pos = none) :
    RegisterWritten 0x0028 0xFFFFFF0F v s { s with seqcfg := SeqCfg.ofWord v } where
  write := (hostWrite_register (by decide) (by decide)).trans (congrArg _ (unlessBusy_idle hp _))
  readBack := seqcfgWord_ofWord v
  others k hk hne := by interval_cases k <;> first | exact absurd rfl hne | rfl
  kept := rfl

theorem txcap_written (hp : s.pos = none) :
    RegisterWritten 0x002C 0x0000FFFF v s { s with txcapMs := v.extractLsb' 0 16 } where
  write := (hostWrite_register (by decide) (by decide)).trans (congrArg _ (unlessBusy_idle hp _))
  readBack := fieldAt_zero_extractLsb' v 16
  others k hk hne := by interval_cases k <;> first | exact absurd rfl hne | rfl
  kept := rfl

theorem writeCtrl_idle (hp : s.pos = none) (h7 : v.getLsbD 7 = false) :
    writeCtrl v s = { s with ctrl := Ctrl.ofWord v } := by
  have hbusy : s.busy = false := by simp [State.busy, hp]
  simp only [writeCtrl, h7, hbusy, Bool.false_eq_true, if_false]

theorem ctrl_written (hp : s.pos = none) (h7 : v.getLsbD 7 = false) :
    RegisterWritten 0x0004 0x0000003F v s { s with ctrl := Ctrl.ofWord v } where
  write := (hostWrite_register (by decide) (by decide)).trans (congrArg _ (writeCtrl_idle hp h7))
  readBack := ctrlWord_ofWord v
  others k hk hne := by interval_cases k <;> first | exact absurd rfl hne | rfl
  kept := rfl

/-- Settles O53: register by register. -/
theorem registerWritesWhenIdle : Obligations.RegisterWritesWhenIdle := by
  intro s v hp
  refine ⟨fun p hmem hmask => ?fields, fun a ha => ?ignored, ?status, ?chmode, hostWrite_cmd hp v⟩
  case fields =>
    obtain ⟨t, ht⟩ : ∃ t, RegisterWritten p.1 p.2 v s t := by
      simp only [List.mem_cons, List.not_mem_nil, or_false] at hmem
      rcases hmem with rfl | rfl | rfl | rfl | rfl | rfl | rfl | rfl
      · exact ⟨_, timeout_written hp⟩
      · exact ⟨_, crc_written hp⟩
      · exact ⟨_, txlen_written hp⟩
      · exact ⟨_, rxlen_written hp⟩
      · exact ⟨_, ecmcfg_written hp⟩
      · exact ⟨_, seqcfg_written hp⟩
      · exact ⟨_, txcap_written hp⟩
      · cases h7 : v.getLsbD 7 with
        | true => simp [h7] at hmask
        | false => exact ⟨_, ctrl_written hp h7⟩
    exact ⟨t, ht.write, ht.readBack, ht.others, ht.kept⟩
  case ignored =>
    simp only [List.mem_cons, List.not_mem_nil, or_false] at ha
    rcases ha with rfl | rfl | rfl | rfl | rfl <;> exact hostWrite_register (by decide) (by decide)
  case status => exact hostWrite_register (by decide) (by decide)
  case chmode => exact hostWrite_register (by decide) (by decide)

end

/-! ## Writes while a command runs -/

section
variable {s t : State} {p : WaitPoint} {w : Width} {addr : BitVec 14} {v : Word}

theorem hostWrite_register_next (h : hostWrite w addr v s = .next t) (haddr : addr.toNat < 0x40) :
    writeReg addr.toNat v s = .next t := by
  obtain ⟨rfl, hmod⟩ := (accessOk_register haddr).mp (hostWrite_accessOk h)
  rwa [hostWrite_register haddr hmod] at h

theorem hostWrite_buffer_next {b : Buffer} {i : Nat} (h : hostWrite w addr v s = .next t) (haddr : addr.toNat = b.base + i)
    (hi : i < 0x1000) : t = hostWriteBytes b i w.bytes v s := by
  rw [hostWrite_buffer haddr hi ((accessOk_buffer haddr hi).mp (hostWrite_accessOk h))] at h
  cases h
  rfl

/-- R66: the registers whose write is dropped while a command runs. -/
theorem writeReg_dropped (hp : s.pos = some p) {offset : Nat}
    (hmem : offset ∈ [0x0C, 0x10, 0x14, 0x18, 0x1C, 0x24, 0x28, 0x2C]) : writeReg offset v s = .next (setHazard s) := by
  simp only [List.mem_cons, List.not_mem_nil, or_false] at hmem
  rcases hmem with rfl | hmem
  · simp [writeReg, State.busy, hp]
  · rcases hmem with rfl | rfl | rfl | rfl | rfl | rfl | rfl <;> exact congrArg _ (unlessBusy_busy hp _)

/-- R66: a buffer write that begins inside the buffer is dropped with HAZARD, one past it without. -/
theorem hostWrite_buffer_busy {b : Buffer} {i : Nat} (hp : s.pos = some p) (h : hostWrite w addr v s = .next t)
    (haddr : addr.toNat = b.base + i) (hi : i < 0x1000) : t = if i < 1048 then setHazard s else s := by
  rw [hostWrite_buffer_next h haddr hi]
  split
  · obtain ⟨n, hn⟩ : ∃ n, w.bytes = n + 1 := ⟨w.bytes - 1, by have := w.bytes_pos; omega⟩
    rw [hn, hostWriteBytes_busy b n v hp ‹_›]
  · exact hostWriteBytes_past b _ v s (by omega)

/-- R66: HAZARD marks a CTRL write that would change an option bit. -/
theorem writeCtrl_busy (hp : s.pos = some p) (h7 : v.getLsbD 7 = false) :
    writeCtrl v s = { s with
      ctrl := { s.ctrl with ieDone := v.getLsbD 0, ieErr := v.getLsbD 1 }
      status := { s.status with hazard := s.status.hazard || !s.ctrl.sameOptions (Ctrl.ofWord v) } } := by
  have hbusy : s.busy = true := by simp [State.busy, hp]
  simp only [writeCtrl, h7, hbusy, Bool.false_eq_true, if_false, if_true]
  cases s.ctrl.sameOptions (Ctrl.ofWord v) with
  | true => simp [Ctrl.ofWord]
  | false => simp [Ctrl.ofWord, setHazard]

theorem not_sameOptions (c : Ctrl) (v : Word) : (!c.sameOptions (Ctrl.ofWord v))
    = (v.getLsbD 2 != c.rxCrcCheck || v.getLsbD 3 != c.txFcsByte || v.getLsbD 4 != c.rcpFix || v.getLsbD 5 != c.v34) := by
  simp [Ctrl.sameOptions, Ctrl.ofWord, bne, Bool.beq_comm]

/-- Settles O55, by the register or region that the write goes to. -/
theorem hostWritesWhileBusy : Obligations.HostWritesWhileBusy := by
  intro s p w addr v t hp h
  refine ⟨fun haddr => ?dropped, fun haddr h7 => ?softReset, fun haddr h7 => ?ctrl, fun haddr => ?status,
    fun haddr => ?chmode, fun haddr => ?ignored⟩
  case dropped =>
    change t = setHazard s
    obtain hmem | ⟨hlo, hhi⟩ | ⟨hlo, hhi⟩ := haddr
    · have hlt : addr.toNat < 0x40 := by simp at hmem; omega
      have hreg := hostWrite_register_next h hlt
      rw [writeReg_dropped hp hmem] at hreg
      cases hreg
      rfl
    · have := hostWrite_buffer_busy (b := .rx) (i := addr.toNat - 0x1000) hp h (by simp only [Buffer.base]; omega) (by omega)
      rwa [if_pos (by omega)] at this
    · have := hostWrite_buffer_busy (b := .tx) (i := addr.toNat - 0x2000) hp h (by simp only [Buffer.base]; omega) (by omega)
      rwa [if_pos (by omega)] at this
  case softReset =>
    subst haddr
    have hreg : Host.Outcome.next (writeCtrl v s) = .next t := hostWrite_register_next h (by decide)
    cases hreg
    simp [writeCtrl, h7]
  case ctrl =>
    subst haddr
    have hreg : Host.Outcome.next (writeCtrl v s) = .next t := hostWrite_register_next h (by decide)
    cases hreg
    rw [writeCtrl_busy hp h7, not_sameOptions]
    simp only [Bool.or_assoc]
  case status =>
    subst haddr
    have hreg : Host.Outcome.next (acknowledge v s) = .next t := hostWrite_register_next h (by decide)
    cases hreg
    rfl
  case chmode =>
    subst haddr
    have hreg : Host.Outcome.next { s with chmode := s.chmode.clear v } = .next t :=
      hostWrite_register_next h (by decide)
    cases hreg
    rfl
  case ignored =>
    obtain hmem | hunmapped | ⟨hlo, hhi⟩ | ⟨hlo, hhi⟩ := haddr
    · have hlt : addr.toNat < 0x40 := by simp at hmem; omega
      have hreg := hostWrite_register_next h hlt
      simp only [List.mem_cons, List.not_mem_nil, or_false] at hmem
      rcases hmem with e | e | e | e | e <;> rw [e] at hreg <;> cases hreg <;> rfl
    · have hpos := w.bytes_pos
      have hregion : 0x40 ≤ addr.toNat ∧ addr.toNat < 0x1000 ∨ 0x3000 ≤ addr.toNat := by
        obtain ⟨_, _⟩ | ⟨_, -⟩ := hunmapped
        · exact .inl ⟨by omega, by omega⟩
        · exact .inr (by omega)
      cases (hostAccess_unmapped hregion).2.symm.trans h
      rfl
    · have := hostWrite_buffer_busy (b := .rx) (i := addr.toNat - 0x1000) hp h (by simp only [Buffer.base]; omega) (by omega)
      rwa [if_neg (by omega)] at this
    · have := hostWrite_buffer_busy (b := .tx) (i := addr.toNat - 0x2000) hp h (by simp only [Buffer.base]; omega) (by omega)
      rwa [if_neg (by omega)] at this

end

end Sys2Proof.Machine
end

section
/-! PROOFS. Buffer bytes without a value (R72, R331): reads that fault, and free values. -/

namespace Sys2Proof.Machine

open Sys2Proof.Claims

/-! ## Reads behind known bytes -/

/-- R331: a TXBUF read takes the known bytes and goes on behind them. -/
theorem readTx_known_append (s : State) (m : Nat) (bytes : List Byte) : ∀ i : Nat,
    (∀ k, k < bytes.length → s.txbuf.read (i + k) = bytes[k]?) →
    readTx i (bytes.length + m) s = (readTx (i + bytes.length) m s).map (bytes ++ ·) := by
  induction bytes with
  | nil => intro i _; simp [Except.map]; cases readTx i m s <;> rfl
  | cons b rest ih =>
    intro i h
    have hbyte : readTxByte i s = .ok b := by
      have h0 : s.txbuf.read i = some b := by simpa using h 0 (by simp)
      simp [readTxByte, h0]
    have hrest := ih (i + 1) fun k hk => by
      simpa [Nat.add_assoc, Nat.add_comm 1 k] using h (k + 1) (by simpa using hk)
    rw [List.length_cons, Nat.add_right_comm, readTx, hbyte]
    simp only [hrest, show i + 1 + rest.length = i + (rest.length + 1) by omega]
    cases readTx (i + (rest.length + 1)) m s <;> rfl

/-- R72, R331: an RXBUF read takes the known bytes and goes on behind them. -/
theorem readRx_known_append (s : State) (m : Nat) (bytes : List Byte) : ∀ i : Nat,
    (∀ k, k < bytes.length → s.rxbuf.read (i + k) = bytes[k]?) →
    readRx i (bytes.length + m) s = (readRx (i + bytes.length) m s).map fun p => (bytes ++ p.1, p.2) := by
  induction bytes with
  | nil => intro i _; simp [Except.map]; cases readRx i m s <;> rfl
  | cons b rest ih =>
    intro i h
    have hbyte : readRxByte i s = .ok (b, s) := by
      have h0 : s.rxbuf.read i = some b := by simpa using h 0 (by simp)
      simp [readRxByte, rxByte, h0]
    have hrest := ih (i + 1) fun k hk => by
      simpa [Nat.add_assoc, Nat.add_comm 1 k] using h (k + 1) (by simpa using hk)
    rw [List.length_cons, Nat.add_right_comm, readRx, hbyte]
    simp only [hrest, show i + 1 + rest.length = i + (rest.length + 1) by omega]
    cases readRx (i + (rest.length + 1)) m s <;> rfl

section
variable {s : State} {body frame : List Byte} {n : Nat}

/-- R331: the first TXBUF byte without a value is the one that faults. -/
theorem readTx_unwritten (hlt : body.length < n) (hbody : Holds s.txbuf body) (hnone : s.txbuf.read body.length = none) :
    readTx 0 n s = .error (.unwritten .tx body.length) := by
  obtain ⟨m, rfl⟩ : ∃ m, n = body.length + (m + 1) := ⟨n - body.length - 1, by omega⟩
  rw [readTx_known_append s (m + 1) body 0 fun k hk => by rw [Nat.zero_add]; exact hbody k hk]
  simp [readTx, readTxByte, hnone, Except.map]

/-- R331: the first RXBUF byte without a mark is the one that faults. -/
theorem readRx_unwritten (hlt : frame.length < n) (hframe : Holds s.rxbuf frame)
    (hnone : s.rxbuf.read frame.length = none) (hmark : s.rxMarks.getLsbD frame.length = false) :
    readRx 0 n s = .error (.unwritten .rx frame.length) := by
  obtain ⟨m, rfl⟩ : ∃ m, n = frame.length + (m + 1) := ⟨n - frame.length - 1, by omega⟩
  have hbyte : readRxByte frame.length s = .error (.unwritten .rx frame.length) := by
    simp only [readRxByte, rxByte, State.rxWritten, hnone, hmark, Option.isSome_none, Bool.or_self, Bool.false_eq_true,
      if_false]
  rw [readRx_known_append s (m + 1) frame 0 fun k hk => by rw [Nat.zero_add]; exact hframe k hk, Nat.zero_add, readRx, hbyte]
  rfl

/-- R72: a marked byte without a value, behind known bytes, reads as the next free value. -/
theorem readRx_free (hframe : Holds s.rxbuf frame) (hnone : s.rxbuf.read frame.length = none)
    (hmark : s.rxMarks.getLsbD frame.length = true) :
    readRx 0 (frame.length + 1) s
      = .ok (frame ++ [Config.freeByte s.freeCount], { s with freeCount := s.freeCount + 1 }) := by
  have hbyte : readRxByte frame.length s = .ok (drawFree s) := by
    simp only [readRxByte, rxByte, State.rxWritten, hnone, hmark, Option.isSome_none, Bool.or_true, if_true]
  rw [readRx_known_append s 1 frame 0 fun k hk => by rw [Nat.zero_add]; exact hframe k hk, Nat.zero_add, readRx, hbyte]
  rfl

/-- A buffer that holds a list and takes one byte behind it holds the longer list. -/
theorem holds_write_concat {m : Memory} (h : Holds m frame) (b : Byte) :
    Holds (m.write frame.length b) (frame ++ [b]) := by
  intro i hi
  rw [List.length_append, List.length_singleton] at hi
  rw [Memory.read_write]
  split
  · rename_i he; rw [he, List.getElem?_concat_length]
  · rw [List.getElem?_append_left (by omega)]; exact h i (by omega)

theorem readRx_holds (h : Holds s.rxbuf frame) : readRx 0 frame.length s = .ok (frame, s) :=
  readRx_known s frame 0 fun k hk => by rw [Nat.zero_add]; exact h k hk

end

/-! ## Commands that read bytes without a value -/

section
variable {s : State} {body frame : List Byte} {i : Instr}

theorem sendLenCheck_passes {m : Nat} {k : Nat → StepOutcome} (hlo : m ≤ s.txCount) (hhi : s.txCount ≤ 1048) :
    sendLenCheck m s k = k s.txCount := by
  simp [sendLenCheck, Config.txbufSize, Nat.not_lt.mpr hlo, Nat.not_lt.mpr hhi]

/-- R331: a send command whose start checks pass faults at the first byte without a value. -/
theorem send_unwritten {m : Nat} {allowed : Bool} {k : List Byte → StepOutcome} (hmode : allowed = true)
    (hlo : m ≤ s.txlen.toNat) (hhi : s.txlen.toNat ≤ 1048) (hlt : body.length < s.txlen.toNat) (hbody : Holds s.txbuf body)
    (hnone : s.txbuf.read body.length = none) :
    requireMode allowed (accept i s) (sendLenCheck m (accept i s) fun n => withBytes (readTx 0 n (accept i s)) k)
      = .fault (.unwritten .tx body.length) := by
  have hread : readTx 0 (accept i s).txCount (accept i s) = .error (.unwritten .tx body.length) :=
    readTx_unwritten (s := accept i s) hlt hbody hnone
  rw [hmode, requireMode_true, sendLenCheck_passes (by exact hlo) (by exact hhi), hread, withBytes_error]

theorem frameFcs_unwritten (hlo : 3 ≤ s.txlen.toNat) (hhi : s.txlen.toNat ≤ 1046) (hlt : body.length < s.txlen.toNat)
    (hbody : Holds s.txbuf body) (hnone : s.txbuf.read body.length = none) :
    exec .frameFcs s = .fault (.unwritten .tx body.length) := by
  have hread : readTx 0 (accept .frameFcs s).txCount (accept .frameFcs s) = .error (.unwritten .tx body.length) :=
    readTx_unwritten (s := accept .frameFcs s) hlt hbody hnone
  have hmin : ¬ (accept .frameFcs s).txCount < 3 := Nat.not_lt.mpr hlo
  have hmax : ¬ 1048 < (accept .frameFcs s).txCount + 2 := by
    have : (accept .frameFcs s).txCount = s.txlen.toNat := rfl
    omega
  simp only [exec, execFrameFcs, Config.txbufSize, Config.frameMinLen, hmin, hmax, if_false, hread, withBytes_error]

/-- R114: FRAME_CHECK's state when it reads the frame. -/
def frameCheckStarted (chk : Bool) (s : State) : State :=
  { accept (.frameCheck chk) s with
    rxstat := { s.rxstat with dleUnk := false, alignErr := false, dceFcsErr := false, rcpSubst := false } }

theorem exec_frameCheck {chk : Bool} (hlen : s.rxlen.toNat ≤ 1048) : exec (.frameCheck chk) s
    = check s.rxlen.toNat Config.frameMinLen chk (frameCheckStarted chk s) fun r t => .next (complete r t) := by
  have hsize : ¬ Config.rxbufSize < (accept (.frameCheck chk) s).rxCount := Nat.not_lt.mpr hlen
  simp only [exec, execFrameCheck, if_neg hsize]
  rfl

/-- R72, R114: with one marked byte without a value at its end, FRAME_CHECK reports what it would if RXBUF held the free
value there. -/
theorem frameCheck_free {chk : Bool} (hlen : s.rxlen.toNat = frame.length + 1) (hle : s.rxlen.toNat ≤ 1048)
    (hframe : Holds s.rxbuf frame) (hnone : s.rxbuf.read frame.length = none)
    (hmark : s.rxMarks.getLsbD frame.length = true) :
    ∃ u, exec (.frameCheck chk) { s with rxbuf := s.rxbuf.write frame.length (Config.freeByte s.freeCount) } = .next u
      ∧ exec (.frameCheck chk) s = .next { u with rxbuf := s.rxbuf, freeCount := s.freeCount + 1 } := by
  have hfree : readRx 0 (frame.length + 1) (frameCheckStarted chk s)
      = .ok (frame ++ [Config.freeByte s.freeCount], { frameCheckStarted chk s with freeCount := s.freeCount + 1 }) :=
    readRx_free (s := frameCheckStarted chk s) hframe hnone hmark
  have hheld := readRx_holds (s := frameCheckStarted chk
    { s with rxbuf := s.rxbuf.write frame.length (Config.freeByte s.freeCount) }) (holds_write_concat hframe _)
  rw [List.length_append, List.length_singleton, ← hlen] at hheld
  rw [← hlen] at hfree
  exact ⟨_, (exec_frameCheck (by exact hle)).trans (congrArg (withBytes · _) hheld),
    (exec_frameCheck hle).trans (congrArg (withBytes · _) hfree)⟩

end

/-! ## Host reads of bytes without a value -/

theorem hostRead_byte {b : Buffer} {i : Nat} (hi : i < 0x1000) (s : State) :
    hostRead .w8 (BitVec.ofNat 14 (b.base + i)) s
      = withBytes (hostReadByte b i s) fun p => .next { p.2 with readData := p.1.zeroExtend 32 } := by
  rw [hostRead_buffer (toNat_bufferAddr b hi) hi (w := .w8) (Nat.mod_one i)]
  simp only [Width.bytes, hostReadBytes]
  cases hostReadByte b i s <;> simp

/-- R331: after a hard reset no buffer byte has been written. -/
theorem hostReadByte_hardReset (b : Buffer) {i : Nat} (hi : i < 1048) (s : State) :
    hostReadByte b i (hardReset s) = .error (.unwritten b i) := by
  have hsize : ¬ 1048 ≤ i := Nat.not_le.mpr hi
  have hmark : ((hardReset s).rxWritten i || decide ((hardReset s).rxFreeFrom ≤ i)) = false := by
    have hmarks : (hardReset s).rxWritten i = false := BitVec.getLsbD_zero
    rw [hmarks, Bool.false_or]
    exact decide_eq_false hsize
  cases b with
  | rx =>
    refine (if_neg hsize).trans ?_
    simp only [hostRxByte, hmark]
    rfl
  | tx => exact if_neg hsize

/-- R72: where RXBUF is unspecified for the host, a read draws a free value. -/
theorem hostReadByte_free {s : State} {i : Nat} (hi : i < 1048)
    (h : (∃ p, s.pos = some p)
      ∨ (s.pos = none ∧ s.rxbuf.read i = none ∧ (s.rxFreeFrom ≤ i ∨ s.rxMarks.getLsbD i = true))) :
    hostReadByte .rx i s = .ok (drawFree s) := by
  have hsize : ¬ Config.rxbufSize ≤ i := Nat.not_le.mpr hi
  obtain ⟨p, hp⟩ | ⟨hp, hnone, hfree⟩ := h
  · simp [hostReadByte, hsize, State.busy, hp]
  · have hunspecified : (s.rxWritten i || decide (s.rxFreeFrom ≤ i)) = true := by
      rcases hfree with h | h <;> simp only [State.rxWritten, h, decide_true, Bool.or_true, Bool.true_or]
    simp only [hostReadByte, if_neg hsize, State.busy, hp, Option.isSome_none, Bool.false_eq_true, if_false, hostRxByte,
      rxByte, hunspecified, hnone, if_true]

/-- Settles O56: the faults first, then the free values. -/
theorem bufferBytesWithoutAValue : Obligations.BufferBytesWithoutAValue := by
  refine ⟨fun s i hi => ?hardReset, fun s body i hmode hcmd hlt hbody hnone => ?send,
    fun s frame chk hlt hle hframe hnone => ⟨fun hmark => ?check, fun hmark hlen => ?checkFree⟩,
    fun s i hi h => ?hostFree, fun s w addr v h => ?crossing⟩
  case hardReset =>
    have hread (b : Buffer) := hostRead_byte (b := b) (Nat.lt_trans hi (by decide)) (hardReset s)
    simp only [hostReadByte_hardReset _ hi, withBytes_error] at hread
    exact ⟨hread .rx, hread .tx⟩
  case send =>
    obtain ⟨rfl, hlo, hhi⟩ | ⟨rfl, hhi⟩ | ⟨rfl | rfl | ⟨flags, flush, rfl⟩, hlo, hhi⟩ := hcmd
    · exact frameFcs_unwritten hlo hhi hlt hbody hnone
    · exact send_unwritten hmode (Nat.zero_le _) hhi hlt hbody hnone
    · exact send_unwritten hmode hlo hhi hlt hbody hnone
    · exact send_unwritten hmode hlo hhi hlt hbody hnone
    · refine send_unwritten hmode ?_ hhi hlt hbody hnone
      split
      · exact Nat.zero_le _
      · exact hlo
  case check =>
    rw [exec_frameCheck hle, check, readRx_unwritten (s := frameCheckStarted chk s) hlt hframe hnone hmark, withBytes_error]
  case checkFree => exact frameCheck_free hlen hle hframe hnone hmark
  case hostFree =>
    refine (hostRead_byte (b := .rx) (Nat.lt_trans hi (by decide)) s).trans ?_
    rw [hostReadByte_free hi h]
    rfl
  case crossing =>
    have hbytes : w.bytes ≤ 4 := by cases w <;> decide
    refine hostAccess_unmapped ?_
    have := addr.isLt
    omega

end Sys2Proof.Machine
end

section
/-! PROOFS. Where a token leaves the running command (R241): at a wait with the same deadline, or complete with DONE set. -/

namespace Sys2Proof.Machine

open Sys2Proof.Claims

/-- R240: the two wait points have one deadline, and the second is no timer wait. -/
def SameWait (w w' : WaitPoint) : Prop := w' ≠ .delay ∧ ∀ s : State, s.deadline w' = s.deadline w

/-- R241, R305: a command that waited at `w` has completed, or waits on for the same deadline. -/
def MovesOn (w : WaitPoint) (t : State) : Prop :=
  (t.pos = none ∧ t.status.done = true) ∨ ∃ w', t.pos = some w' ∧ SameWait w w'

section
variable {w w' : WaitPoint} {s t : State}

theorem movesOn_complete (w : WaitPoint) (r : Result) (s : State) : MovesOn w (complete r s) := .inl ⟨rfl, rfl⟩

theorem movesOn_done (hd : ReceiveDone s t) : MovesOn w t := by
  obtain ⟨r, rxbuf, rxlen, crc, rxstat, drawn, -⟩ := hd
  exact .inl ⟨rfl, rfl⟩

theorem movesOn_endReceive (w : WaitPoint) (n : Nat) (r : Result) (s : State) : MovesOn w (endReceive n r s) :=
  movesOn_done (endReceive_done n r s)

theorem movesOn_goto (h : SameWait w w') : MovesOn w (goto w' s) := .inr ⟨w', rfl, h⟩

theorem sameWait_refl (h : w ≠ .delay) : SameWait w w := ⟨h, fun _ => rfl⟩

/-- A discarded token leaves the command where it waits. -/
theorem movesOn_stay (hw : s.pos = some w) (h : w ≠ .delay) : MovesOn w s := .inr ⟨w, hw, sameWait_refl h⟩

end

/-! ## The tokens of each wait point -/

section
variable {s : State} {w : WaitPoint} {n : Nat} {found ovf : Bool}

theorem sendHdlcToken_movesOn {final : Bool} (hw : s.pos = some (.sendHdlc final)) (x : InToken) :
    Answers (MovesOn (.sendHdlc final)) (sendHdlcToken final x s) := by
  have hstay := movesOn_stay hw nofun
  refine answers_awaitResult hstay fun r => ?_
  cases r with
  | ok | error | noCarrier => exact answers_next.mpr (movesOn_complete _ _ _)
  | connect =>
    rw [answers_next]
    split
    · exact hstay
    · exact movesOn_complete _ _ _
  | fcerror | other => exact answers_next.mpr hstay

theorem hdlcPut_movesOn (h : ∀ k f o, SameWait w (.recvHdlcData k f o)) (v : Byte) :
    MovesOn w (hdlcPut n found ovf v s) := by
  unfold hdlcPut
  split
  · exact movesOn_goto (h _ _ _)
  · split <;> exact movesOn_goto (h _ _ _)

theorem hdlcDataResult_movesOn (h : SameWait w (.recvHdlcData n found ovf)) (r : DceRes) :
    MovesOn w (hdlcDataResult n found ovf r s) := by
  cases r with
  | noCarrier | ok | error => exact movesOn_endReceive _ _ _ _
  | connect | fcerror | other => exact movesOn_goto h

theorem recvHdlcDataToken_movesOn (x : InToken) :
    Answers (MovesOn (.recvHdlcData n found ovf)) (recvHdlcDataToken n found ovf x s) := by
  have hdata (k : Nat) (f o : Bool) : SameWait (.recvHdlcData n found ovf) (.recvHdlcData k f o) := ⟨nofun, fun _ => rfl⟩
  cases x with
  | byte v =>
    rw [recvHdlcDataToken, answers_next]
    split
    · exact movesOn_goto ⟨nofun, fun _ => rfl⟩
    · exact hdlcPut_movesOn hdata v
  | res r => exact answers_next.mpr (hdlcDataResult_movesOn (hdata _ _ _) r)

theorem recvHdlcDleToken_movesOn (x : InToken) :
    Answers (MovesOn (.recvHdlcDle n found ovf)) (recvHdlcDleToken n found ovf x s) := by
  have hdata (k : Nat) (f o : Bool) : SameWait (.recvHdlcDle n found ovf) (.recvHdlcData k f o) := ⟨nofun, fun _ => rfl⟩
  cases x with
  | byte v =>
    rw [recvHdlcDleToken, answers_next]
    split
    · exact hdlcPut_movesOn hdata _
    · split
      · exact movesOn_goto ⟨nofun, fun _ => rfl⟩
      · exact movesOn_goto (hdata _ _ _)
  | res r => exact answers_next.mpr (hdlcDataResult_movesOn (hdata _ _ _) r)

theorem recvHdlcEndToken_movesOn (hw : s.pos = some (.recvHdlcEnd n ovf)) (x : InToken) :
    Answers (MovesOn (.recvHdlcEnd n ovf)) (recvHdlcEndToken n ovf x s) := by
  have hstay := movesOn_stay hw nofun
  refine answers_awaitResult hstay fun r => ?_
  cases r with
  | ok | noCarrier | error => exact fun t ht => movesOn_done (finishReceived_done n _ _ ovf _ t ht)
  | connect | fcerror | other => exact answers_next.mpr hstay

theorem rawStore_movesOn (h : ∀ k, SameWait w (.recvRaw k)) (v : Byte) : MovesOn w (rawStore n v s) := by
  unfold rawStore rawContinue
  split
  · exact movesOn_goto (h _)
  · exact movesOn_endReceive _ _ _ _

theorem rawResult_movesOn (h : SameWait w (.recvRaw n)) (r : DceRes) : MovesOn w (rawResult n r s) := by
  cases r with
  | noCarrier | ok | error => exact movesOn_endReceive _ _ _ _
  | connect | fcerror | other => exact movesOn_goto h

theorem recvRawToken_movesOn (x : InToken) : Answers (MovesOn (.recvRaw n)) (recvRawToken n x s) := by
  have hdata (k : Nat) : SameWait (.recvRaw n) (.recvRaw k) := ⟨nofun, fun _ => rfl⟩
  cases x with
  | byte v =>
    rw [recvRawToken, answers_next]
    split
    · exact movesOn_goto ⟨nofun, fun _ => rfl⟩
    · exact rawStore_movesOn hdata v
  | res r => exact answers_next.mpr (rawResult_movesOn (hdata _) r)

theorem recvRawDleToken_movesOn (x : InToken) : Answers (MovesOn (.recvRawDle n)) (recvRawDleToken n x s) := by
  have hdata (k : Nat) : SameWait (.recvRawDle n) (.recvRaw k) := ⟨nofun, fun _ => rfl⟩
  cases x with
  | byte v =>
    rw [recvRawDleToken, answers_next]
    split
    · exact rawStore_movesOn hdata _
    · split
      · exact movesOn_goto ⟨nofun, fun _ => rfl⟩
      · exact movesOn_goto (hdata _)
  | res r => exact answers_next.mpr (rawResult_movesOn (hdata _) r)

theorem recvRawEndToken_movesOn (hw : s.pos = some (.recvRawEnd n)) (x : InToken) :
    Answers (MovesOn (.recvRawEnd n)) (recvRawEndToken n x s) := by
  have hstay := movesOn_stay hw nofun
  refine answers_awaitResult hstay fun r => ?_
  cases r with
  | ok | noCarrier | error => exact answers_next.mpr (movesOn_endReceive _ _ _ _)
  | connect | fcerror | other => exact answers_next.mpr hstay

theorem bitsByte_movesOn (h : SameWait w .recvBits) (v : Byte) : Answers (MovesOn w) (bitsByte v s) := by
  intro t ht
  obtain ⟨e, -, ⟨-, rfl⟩ | ⟨-, -, hd⟩⟩ := runBacklog_run _ s t ht
  · exact movesOn_goto h
  · exact movesOn_done hd

theorem lostCarrier_movesOn (w : WaitPoint) (s : State) : Answers (MovesOn w) (lostCarrier s) := fun t ht =>
  movesOn_done (lostCarrier_done s t ht)

theorem bitsResult_movesOn (h : SameWait w .recvBits) (r : DceRes) : Answers (MovesOn w) (bitsResult r s) := by
  cases r with
  | noCarrier => exact lostCarrier_movesOn w _
  | ok | error => exact answers_next.mpr (movesOn_endReceive _ _ _ _)
  | connect | fcerror | other => exact answers_next.mpr (movesOn_goto h)

theorem recvBitsToken_movesOn (x : InToken) : Answers (MovesOn .recvBits) (recvBitsToken x s) := by
  have hdata : SameWait .recvBits .recvBits := sameWait_refl nofun
  cases x with
  | byte v =>
    simp only [recvBitsToken]
    split
    · exact answers_next.mpr (movesOn_goto ⟨nofun, fun _ => rfl⟩)
    · exact bitsByte_movesOn hdata v
  | res r => exact bitsResult_movesOn hdata r

theorem recvBitsDleToken_movesOn (x : InToken) : Answers (MovesOn .recvBitsDle) (recvBitsDleToken x s) := by
  have hdata : SameWait .recvBitsDle .recvBits := ⟨nofun, fun _ => rfl⟩
  cases x with
  | byte v =>
    simp only [recvBitsDleToken]
    split
    · exact bitsByte_movesOn hdata _
    · split
      · exact answers_next.mpr (movesOn_goto ⟨nofun, fun _ => rfl⟩)
      · exact answers_next.mpr (movesOn_goto hdata)
  | res r => exact bitsResult_movesOn hdata r

theorem recvBitsEndToken_movesOn (hw : s.pos = some .recvBitsEnd) (x : InToken) :
    Answers (MovesOn .recvBitsEnd) (recvBitsEndToken x s) := by
  have hstay := movesOn_stay hw nofun
  refine answers_awaitResult hstay fun r => ?_
  cases r with
  | ok | noCarrier | error => exact lostCarrier_movesOn _ _
  | connect | fcerror | other => exact answers_next.mpr hstay

theorem v34Store_movesOn (h : ∀ k o, SameWait w (.recvV34 k o)) (b : Byte) : MovesOn w (v34Store n ovf b s) := by
  unfold v34Store
  split <;> exact movesOn_goto (h _ _)

theorem v34Result_movesOn (h : SameWait w (.recvV34 n ovf)) (r : DceRes) : MovesOn w (v34Result n ovf r s) := by
  cases r with
  | noCarrier | ok | error => exact movesOn_endReceive _ _ _ _
  | connect | fcerror | other => exact movesOn_goto h

theorem recvV34Token_movesOn (x : InToken) : Answers (MovesOn (.recvV34 n ovf)) (recvV34Token n ovf x s) := by
  have hdata (k : Nat) (o : Bool) : SameWait (.recvV34 n ovf) (.recvV34 k o) := ⟨nofun, fun _ => rfl⟩
  cases x with
  | byte v =>
    rw [recvV34Token, answers_next]
    split
    · exact movesOn_goto ⟨nofun, fun _ => rfl⟩
    · exact v34Store_movesOn hdata _
  | res r => exact answers_next.mpr (v34Result_movesOn (hdata _ _) r)

theorem recvV34DleToken_movesOn (x : InToken) :
    Answers (MovesOn (.recvV34Dle n ovf)) (recvV34DleToken n ovf x s) := by
  have hdata (k : Nat) (o : Bool) : SameWait (.recvV34Dle n ovf) (.recvV34 k o) := ⟨nofun, fun _ => rfl⟩
  cases x with
  | byte v =>
    simp only [recvV34DleToken]
    split
    case isTrue => exact answers_next.mpr (v34Store_movesOn hdata _)
    split
    case isTrue => exact fun t ht => movesOn_done (finishReceived_done n _ _ ovf _ t ht)
    split
    case isTrue => exact answers_next.mpr (movesOn_endReceive _ _ _ _)
    split
    case isTrue => exact fun t ht => movesOn_done (finishReceived_done n _ _ ovf _ t ht)
    case isFalse => exact answers_next.mpr (movesOn_goto (hdata _ _))
  | res r => exact answers_next.mpr (v34Result_movesOn (hdata _ _) r)

theorem chanResult_movesOn (h : SameWait w .waitChannel) (r : DceRes) : MovesOn w (chanResult r s) := by
  cases r with
  | noCarrier | ok | error => exact movesOn_complete _ _ _
  | connect | fcerror | other => exact movesOn_goto h

theorem waitChannelToken_movesOn (x : InToken) : Answers (MovesOn .waitChannel) (waitChannelToken x s) := by
  cases x with
  | byte v =>
    rw [waitChannelToken, answers_next]
    split <;> exact movesOn_goto ⟨nofun, fun _ => rfl⟩
  | res r => exact answers_next.mpr (chanResult_movesOn (sameWait_refl nofun) r)

theorem waitChannelDleToken_movesOn (x : InToken) : Answers (MovesOn .waitChannelDle) (waitChannelDleToken x s) := by
  have hwait : SameWait .waitChannelDle .waitChannel := ⟨nofun, fun _ => rfl⟩
  cases x with
  | byte v =>
    simp only [waitChannelDleToken]
    split
    case isTrue => exact answers_next.mpr (movesOn_complete _ _ _)
    split
    case isTrue => exact answers_next.mpr (movesOn_goto hwait)
    split
    case isTrue => exact answers_next.mpr (movesOn_complete _ _ _)
    case isFalse => exact answers_next.mpr (movesOn_goto hwait)
  | res r => exact answers_next.mpr (chanResult_movesOn hwait r)

theorem txCarrierToken_movesOn (hw : s.pos = some .txCarrier) (x : InToken) :
    Answers (MovesOn .txCarrier) (txCarrierToken x s) := by
  have hstay := movesOn_stay hw nofun
  refine answers_awaitResult hstay fun r => ?_
  cases r with
  | connect | error | ok | noCarrier => exact answers_next.mpr (movesOn_complete _ _ _)
  | fcerror | other => exact answers_next.mpr hstay

theorem rxCarrierToken_movesOn (hw : s.pos = some .rxCarrier) (x : InToken) :
    Answers (MovesOn .rxCarrier) (rxCarrierToken x s) := by
  have hstay := movesOn_stay hw nofun
  refine answers_awaitResult hstay fun r => ?_
  cases r with
  | connect | error | ok | noCarrier => exact answers_next.mpr (movesOn_complete _ _ _)
  | fcerror =>
    rw [answers_next, wrongCarrier]
    split
    · exact movesOn_stay (by simpa using hw) nofun
    · exact movesOn_complete _ _ _
  | other => exact answers_next.mpr hstay

theorem silenceToken_movesOn (hw : s.pos = some w) (hd : w ≠ .delay) (x : InToken) :
    Answers (MovesOn w) (silenceToken x s) := by
  have hstay := movesOn_stay hw hd
  refine answers_awaitResult hstay fun r => ?_
  cases r with
  | ok | error | connect | noCarrier => exact answers_next.mpr (movesOn_complete _ _ _)
  | fcerror | other => exact answers_next.mpr hstay

theorem rxDropWaitToken_movesOn (hw : s.pos = some .rxDropWait) (x : InToken) :
    Answers (MovesOn .rxDropWait) (rxDropWaitToken x s) := by
  have hstay := movesOn_stay hw nofun
  cases x with
  | byte v => exact answers_next.mpr hstay
  | res r =>
    cases r with
    | noCarrier => exact answers_next.mpr (movesOn_complete _ _ _)
    | ok => exact answers_next.mpr (movesOn_stay (by simpa using hw) nofun)
    | error | connect | fcerror | other => exact answers_next.mpr hstay

theorem txEndToken_movesOn (hw : s.pos = some .txEnd) (x : InToken) : Answers (MovesOn .txEnd) (txEndToken x s) := by
  have hstay := movesOn_stay hw nofun
  refine answers_awaitResult hstay fun r => ?_
  cases r with
  | ok | error | noCarrier => exact answers_next.mpr (movesOn_complete _ _ _)
  | connect | fcerror | other => exact answers_next.mpr hstay

theorem abortToken_movesOn {after : AfterAbort} (hw : s.pos = some w) (hd : w ≠ .delay) (x : InToken) :
    Answers (MovesOn w) (abortToken after x s) := by
  have hstay := movesOn_stay hw hd
  refine answers_awaitResult hstay fun r => ?_
  cases r with
  | ok =>
    obtain ⟨-, -, -, hpos, hdone⟩ := endAbort_spec true after s
    exact answers_next.mpr (.inl ⟨hpos, hdone⟩)
  | connect | noCarrier | error | fcerror | other => exact answers_next.mpr hstay

theorem onToken_movesOn (hw : s.pos = some w) (hd : w ≠ .delay) (x : InToken) : Answers (MovesOn w) (onToken w x s) := by
  cases w with
  | sendHdlc final => exact sendHdlcToken_movesOn hw x
  | recvHdlcData n found ovf => exact recvHdlcDataToken_movesOn x
  | recvHdlcDle n found ovf => exact recvHdlcDleToken_movesOn x
  | recvHdlcEnd n ovf => exact recvHdlcEndToken_movesOn hw x
  | recvRaw n => exact recvRawToken_movesOn x
  | recvRawDle n => exact recvRawDleToken_movesOn x
  | recvRawEnd n => exact recvRawEndToken_movesOn hw x
  | recvBits => exact recvBitsToken_movesOn x
  | recvBitsDle => exact recvBitsDleToken_movesOn x
  | recvBitsEnd => exact recvBitsEndToken_movesOn hw x
  | recvV34 n ovf => exact recvV34Token_movesOn x
  | recvV34Dle n ovf => exact recvV34DleToken_movesOn x
  | waitChannel => exact waitChannelToken_movesOn x
  | waitChannelDle => exact waitChannelDleToken_movesOn x
  | txCarrier => exact txCarrierToken_movesOn hw x
  | rxCarrier => exact rxCarrierToken_movesOn hw x
  | txSilence | rxSilence => exact silenceToken_movesOn hw hd x
  | rxDropWait => exact rxDropWaitToken_movesOn hw x
  | txEnd => exact txEndToken_movesOn hw x
  | delay => exact absurd rfl hd
  | abortFirst _ after | abortSecond _ after => exact abortToken_movesOn hw hd x

end

/-! ## Completions -/

section
variable {s t : State}

/-- R305: a command that a token ends has set DONE. -/
theorem onToken_done {w : WaitPoint} {x : InToken} (hw : s.pos = some w) (h : onToken w x s = .next t)
    (hp : t.pos = none) : t.status.done = true := by
  by_cases hd : w = .delay
  · subst hd
    cases h
    cases hw.symm.trans hp
  · obtain ⟨-, hdone⟩ | ⟨w', hw', -⟩ := onToken_movesOn hw hd x t h
    · exact hdone
    · cases hw'.symm.trans hp

/-- R304, R305: a deadline that ends the command sets DONE. -/
theorem onTimeout_done (w : WaitPoint) (hp : (onTimeout w s).pos = none) : (onTimeout w s).status.done = true := by
  cases w with
  | delay => rfl
  | abortSecond t0 after => exact (endAbort_spec false after s).2.2.2.2
  | _ => cases hp

theorem engineStep_done (h : engineStep s = .next t) (hs : s.pos ≠ none) (ht : t.pos = none) : t.status.done = true :=
  engineStep_induction (P := fun u => u.pos = none → u.status.done = true)
    (fun u _ _ _ ts hw _ hu => onToken_done (s := { u with inbound := ts }) hw hu)
    (fun _ w _ _ _ => onTimeout_done w) (fun hp => absurd hp hs) h ht

/-- R66: while a command runs, the only host write that touches its position is a soft reset. -/
theorem hostWrite_keepsPos {p : WaitPoint} {w : Width} {addr : BitVec 14} {v : Word} (hp : s.pos = some p)
    (h : hostWrite w addr v s = .next t) :
    t.pos = s.pos ∨ (w = .w32 ∧ addr = 0x0004 ∧ v.getLsbD 7 = true) := by
  have hok := hostWrite_accessOk h
  obtain ⟨hdropped, -, hctrl, hstatus, hchmode, hignored⟩ := hostWritesWhileBusy s p w addr v t hp h
  have hlt := addr.isLt
  by_cases hreg : addr.toNat < 0x40
  · obtain ⟨rfl, hmod⟩ := (accessOk_register hreg).mp hok
    obtain hmem | hmem | haddr | haddr | haddr :
        addr.toNat ∈ [0x0C, 0x10, 0x14, 0x18, 0x1C, 0x24, 0x28, 0x2C] ∨ addr.toNat ∈ [0x00, 0x20, 0x34, 0x38, 0x3C]
          ∨ addr.toNat = (0x0004 : BitVec 14).toNat ∨ addr.toNat = (0x0008 : BitVec 14).toNat
          ∨ addr.toNat = (0x0030 : BitVec 14).toNat := by
      simp only [List.mem_cons, List.not_mem_nil, or_false, BitVec.reduceToNat]
      omega
    · exact .inl (by rw [hdropped (.inl hmem)])
    · exact .inl (by rw [hignored (.inl hmem)])
    · have ha := BitVec.eq_of_toNat_eq haddr
      cases h7 : v.getLsbD 7 with
      | true => exact .inr ⟨rfl, ha, rfl⟩
      | false => exact .inl (by rw [hctrl ha h7])
    · exact .inl (by rw [hstatus (BitVec.eq_of_toNat_eq haddr)])
    · exact .inl (by rw [hchmode (BitVec.eq_of_toNat_eq haddr)])
  · refine .inl ?_
    by_cases hunmapped : addr.toNat < 0x1000 ∨ 0x3000 ≤ addr.toNat
    · cases (hostAccess_unmapped (w := w) (v := v) (s := s) (by omega)).2.symm.trans h
      rfl
    · obtain ⟨b, i, haddr, hi⟩ : ∃ (b : Buffer) (i : Nat), addr.toNat = b.base + i ∧ i < 0x1000 := by
        by_cases hrx : addr.toNat < 0x2000
        · exact ⟨.rx, addr.toNat - 0x1000, by simp only [Buffer.base]; omega, by omega⟩
        · exact ⟨.tx, addr.toNat - 0x2000, by simp only [Buffer.base]; omega, by omega⟩
      rw [hostWrite_buffer_busy hp h haddr hi]
      split <;> rfl

/-- Settles O50, agent by agent. -/
theorem busyFallsWithDone : Obligations.BusyFallsWithDone := by
  intro a s t h hs ht
  obtain ⟨p, hp⟩ : ∃ p, s.pos = some p := Option.isSome_iff_exists.mp hs
  have ht : t.pos = none := Option.not_isSome_iff_eq_none.mp (by simpa [State.busy] using ht)
  have hpos : t.pos ≠ s.pos := by simp [hp, ht]
  cases a with
  | host access =>
    cases access with
    | read w addr =>
      refine absurd ?_ hpos
      rw [hostRead_frame h]
    | write w addr v =>
      obtain hsame | ⟨rfl, rfl, h7⟩ := hostWrite_keepsPos hp h
      · exact absurd hsame hpos
      · exact .inr (.inr ⟨v, rfl, h7⟩)
  | engine => exact .inl (engineStep_done h (by simp [hp]) ht)
  | deliver x | consume | tick =>
    cases h
    exact absurd rfl hpos
  | hardReset => exact .inr (.inl rfl)

end

end Sys2Proof.Machine
end

section
/-! PROOFS. The ENGINE stops for no fault (R70): whatever a receive command reads back of RXBUF, it has stored. -/

namespace Sys2Proof.Machine

/-- The outcome is a next state. -/
def Goes (o : StepOutcome) : Prop := ∃ t, o = .next t

section
variable {s : State}

@[simp] theorem goes_next (s : State) : Goes (.next s) := ⟨s, rfl⟩

theorem goes_awaitResult {x : InToken} {k : DceRes → StepOutcome} (hk : ∀ r, Goes (k r)) : Goes (awaitResult x s k) := by
  cases x with
  | byte b => exact goes_next s
  | res r =>
    cases r with
    | other => exact goes_next s
    | ok | connect | noCarrier | error | fcerror => exact hk _

/-! ## Frame checks -/

/-- R106: a check of stored bytes does not fault. -/
theorem goes_check {n minlen : Nat} {chk : Bool} {k : Result → State → StepOutcome} (h : Stored n s)
    (hk : ∀ r u, Goes (k r u)) : Goes (check n minlen chk s k) := by
  obtain ⟨bytes, -, hread⟩ := readRx_stored h
  rw [check, hread, withBytes_ok]
  exact hk _ _

theorem goes_finishReceived {n : Nat} (h : Stored n s) (minlen : Nat) (chk ovf : Bool) :
    Goes (finishReceived n minlen chk ovf s) :=
  goes_check (s := setRxlen n s) h fun _ _ => goes_next _

theorem stored_storeRxAll {bytes : List Byte} (h : bytes.length ≤ Config.rxbufSize) (s : State) :
    Stored bytes.length (storeRxAll 0 bytes s) := by
  refine ⟨h, fun i hi => ?_⟩
  rw [storeRxAll_eq bytes 0 s (by omega)]
  simp [Memory.read_writeAll, hi]

theorem goes_substituteRcp (s : State) : Goes (substituteRcp s) :=
  goes_check (stored_storeRxAll (bytes := Config.canonicalRcp) (by decide) s) fun _ _ => goes_next _

/-- R181: eight bits make an octet. -/
theorem length_octets (bits : List Bool) : (octets bits).length = bits.length / 8 := by
  induction bits using octets.induct with
  | case1 b0 b1 b2 b3 b4 b5 b6 b7 rest ih => simp only [octets, List.length_cons, ih]; omega
  | case2 bits hshort =>
    match bits, hshort with
    | [], _ | [_], _ | [_, _], _ | [_, _, _], _ | [_, _, _, _], _ | [_, _, _, _, _], _ | [_, _, _, _, _, _], _
    | [_, _, _, _, _, _, _], _ => simp [octets]
    | _ :: _ :: _ :: _ :: _ :: _ :: _ :: _ :: _, hshort => exact (hshort _ _ _ _ _ _ _ _ _ rfl).elim

theorem goes_frameEnd {bits : List Bool} (h : bits.length < 8 * (Config.rxbufSize + 1)) (truncated : Bool) (s : State) :
    Goes (frameEnd bits truncated s) := by
  have hlen : (octets bits).length ≤ Config.rxbufSize := by rw [length_octets]; omega
  simp only [frameEnd]
  split
  · exact goes_substituteRcp s
  · exact goes_check (stored_storeRxAll hlen s) fun _ _ => goes_next _

/-! ## The bits of RECV_BITS -/

/-- R6, R179: the oversize guard is not above the buffer's size. -/
theorem guard_le (s : State) : s.guard ≤ Config.rxbufSize := by
  unfold State.guard
  cases s.fs64 <;> decide

theorem goes_lostCarrier (h : s.rx.InRange s.guard) : Goes (lostCarrier s) := by
  have hg := guard_le s
  have hp := h.pend
  have hlen : (if s.rx.sync = .sync then s.rx.pend else []).length < 8 * (Config.rxbufSize + 1) := by
    split
    · omega
    · exact Nat.succ_pos _
  simp only [lostCarrier]
  generalize (if s.rx.sync = .sync then s.rx.pend else []) = bits at hlen ⊢
  split
  · exact goes_frameEnd hlen true _
  · exact goes_next _

/-- R177: the frame that a flag ends is made of pending bits. -/
theorem RxEngine.rxBit_frame_length {guard : Nat} {x : Bool} {e : RxEngine} {bits : List Bool}
    (h : (e.rxBit guard x).2 = .frame bits) : bits.length ≤ e.pend.length := by
  have hpush (f : RxEngine) (y : Bool) : (f.push guard y).2 ≠ .frame bits := by
    simp only [RxEngine.push]; split <;> exact nofun
  have hseven (f : RxEngine) : f.sevenOnes.2 ≠ .frame bits := by
    cases hs : f.sync <;> simp only [RxEngine.sevenOnes, hs]
    · exact nofun
    · split <;> exact nofun
  have hflag (f : RxEngine) (hf : f.flagSeen.2 = .frame bits) : bits.length ≤ f.pend.length := by
    cases hs : f.sync <;> simp only [RxEngine.flagSeen, hs] at hf
    · cases hf
    · split at hf <;> cases hf
      exact List.length_take_le' _ _
  cases x with
  | true =>
    simp only [RxEngine.rxBit, if_true] at h
    split at h
    · exact absurd h (hseven _)
    · split at h
      · exact absurd h (hpush _ _)
      · cases h
  | false =>
    simp only [RxEngine.rxBit, Bool.false_eq_true, if_false] at h
    split at h
    case isTrue => exact hflag { e with ones := 0 } h
    split at h
    case isTrue => cases h
    split at h
    case isTrue => cases h
    split at h
    case isTrue => exact absurd h (hpush _ _)
    case isFalse => cases h

theorem goes_runBacklog (xs : List Bool) : ∀ s : State, s.rx.InRange s.guard → Goes (runBacklog xs s) := by
  induction xs with
  | nil => exact fun s _ => goes_next _
  | cons x xs ih =>
    intro s h
    have hrange : RxEngine.InRange s.guard { s.rx with backlog := xs } := ⟨h.ones, h.pend, h.hunt⟩
    have hnext := RxEngine.rxBit_inRange (x := x) hrange
    have hbits (bits : List Bool) (hf : (RxEngine.rxBit s.guard x { s.rx with backlog := xs }).2 = .frame bits) :
        bits.length < 8 * (Config.rxbufSize + 1) := by
      have hlen : bits.length ≤ s.rx.pend.length :=
        RxEngine.rxBit_frame_length (e := { s.rx with backlog := xs }) hf
      have := h.pend
      have := guard_le s
      omega
    simp only [runBacklog]
    generalize RxEngine.rxBit s.guard x { s.rx with backlog := xs } = p at hnext hbits
    obtain ⟨e, ev⟩ := p
    cases ev with
    | none => exact ih _ hnext
    | frame bits => exact goes_frameEnd (hbits bits rfl) false _
    | abort | oversize => exact goes_next _

theorem goes_bitsResult (h : s.rx.InRange s.guard) (r : DceRes) : Goes (bitsResult r s) := by
  cases r with
  | noCarrier => exact goes_lostCarrier (s := setLink .idle s) h
  | ok | error | connect | fcerror | other => exact goes_next _

/-! ## The ENGINE -/

/-- R241: no token stops the ENGINE in a good state. -/
theorem goes_onToken {w : WaitPoint} (h : Inv s) (hw : s.pos = some w) (x : InToken) : Goes (onToken w x s) := by
  have hf := h.waits w hw
  have hrx : s.rx.InRange s.guard := h.sound.rx
  cases w with
  | recvHdlcEnd n ovf =>
    obtain ⟨-, -, -, hst, -⟩ := hf
    refine goes_awaitResult fun r => ?_
    cases r with
    | ok | noCarrier | error =>
      refine goes_finishReceived ?_ _ _ _
      exact hst
    | connect | fcerror | other => exact goes_next _
  | recvBits =>
    cases x with
    | byte v =>
      simp only [onToken, recvBitsToken]
      split
      · exact goes_next _
      · exact goes_runBacklog _ s hrx
    | res r => exact goes_bitsResult hrx r
  | recvBitsDle =>
    cases x with
    | byte v =>
      simp only [onToken, recvBitsDleToken]
      split
      · exact goes_runBacklog _ s hrx
      · split <;> exact goes_next _
    | res r => exact goes_bitsResult hrx r
  | recvBitsEnd =>
    refine goes_awaitResult fun r => ?_
    cases r with
    | ok | noCarrier | error => exact goes_lostCarrier (s := setLink .idle s) hrx
    | connect | fcerror | other => exact goes_next _
  | recvV34Dle n ovf =>
    obtain ⟨-, -, hst, -⟩ := hf
    cases x with
    | byte v =>
      simp only [onToken, recvV34DleToken]
      split
      case isTrue => exact goes_next _
      split
      case isTrue => exact goes_finishReceived hst _ _ _
      split
      case isTrue => exact goes_next _
      split
      case isTrue => exact goes_finishReceived (by exact hst) _ _ _
      case isFalse => exact goes_next _
    | res r => exact goes_next _
  | waitChannelDle =>
    cases x with
    | byte v => simp only [onToken, waitChannelDleToken]; split_ifs <;> exact goes_next _
    | res r => exact goes_next _
  | rxDropWait =>
    cases x with
    | byte v => exact goes_next _
    | res r => cases r <;> exact goes_next _
  | sendHdlc final | txCarrier | rxCarrier | txSilence | rxSilence | txEnd =>
    exact goes_awaitResult fun r => by cases r <;> exact goes_next _
  | abortFirst t0 after | abortSecond t0 after => exact goes_awaitResult fun r => by cases r <;> exact goes_next _
  | recvHdlcData n found ovf | recvHdlcDle n found ovf => cases x <;> exact goes_next _
  | recvRaw n | recvRawDle n => cases x <;> exact goes_next _
  | recvRawEnd n => exact goes_awaitResult fun r => by cases r <;> exact goes_next _
  | recvV34 n ovf => cases x <;> exact goes_next _
  | waitChannel => cases x <;> exact goes_next _
  | delay => exact goes_next _

theorem goes_runTokens (ts : List InToken) : ∀ s : State, Inv s → Goes (runTokens ts s) := by
  induction ts with
  | nil => exact fun s _ => goes_next _
  | cons x ts ih =>
    intro s h
    obtain hw | ⟨w, hw⟩ := s.pos.eq_none_or_eq_some
    · rw [runTokens_idle hw]
      exact goes_next s
    · have hin : Inv { s with inbound := ts } := h.congr rfl
      obtain ⟨u, hu⟩ := goes_onToken hin hw x
      rw [runTokens_cons hw hu]
      exact ih u (onToken_inv hin hw x u hu)

/-- Settles O45, by induction over the tokens taken: each finds a good state. -/
theorem engineStepsOn : Obligations.EngineStepsOn := by
  intro s h
  unfold engineStep
  split
  · exact goes_next s
  · exact goes_next _
  · exact goes_runTokens _ s h

end

end Sys2Proof.Machine
end

section
/-! PROOFS. How an ENGINE step runs (R241): token by token, then through the deadlines that have passed; and the waits of
abort_sequence (R243). -/

namespace Sys2Proof.Machine

open Sys2Proof.Claims

/-! ## One token at a time -/

section
variable {s : State} {w : WaitPoint} {x : InToken} {rest : List InToken}

theorem engineStep_tokens (hw : s.pos ≠ some .delay) : engineStep s = runTokens s.inbound s := by
  unfold engineStep
  split
  · rename_i hp; rw [runTokens_idle hp]
  · rename_i hp; exact absurd hp hw
  · rfl

/-- R241: the ENGINE goes on from the next state that an outcome answers. -/
def goOn : StepOutcome → StepOutcome
  | .next u => engineStep u
  | .fault e => .fault e
  | .refused e => .refused e

@[simp] theorem goOn_next (u : State) : goOn (.next u) = engineStep u := rfl

/-- R305: the ENGINE does not go on from a completion. -/
theorem goOn_completed {o : StepOutcome} (ho : Answers (fun t => t.pos = none) o) : goOn o = o := by
  cases o with
  | next u => exact engineStep_idle (ho u rfl)
  | fault e | refused e => rfl

/-- R241: the ENGINE takes the head token and goes on from what it leads to. -/
theorem engineStep_cons (hw : s.pos = some w) (hd : w ≠ .delay) (hin : s.inbound = x :: rest) :
    engineStep s = goOn (onToken w x { s with inbound := rest }) := by
  rw [engineStep_tokens (by simp [hw, hd]), hin]
  cases ho : onToken w x { s with inbound := rest } with
  | next u =>
    have hrest : u.inbound = rest := congrArg State.inbound (onToken_frame w x _ u ho).kept
    have hu : u.pos ≠ some .delay := by
      obtain ⟨hp, -⟩ | ⟨w', hw', hsame, -⟩ := onToken_movesOn (s := { s with inbound := rest }) hw hd x u ho
      · simp [hp]
      · simp [hw', hsame]
    rw [runTokens_cons hw ho, goOn_next, engineStep_tokens hu, hrest]
  | fault e | refused e =>
    rw [runTokens]
    split
    · rename_i hp; simp [hw] at hp
    · rename_i w' hw'
      obtain rfl : w' = w := by simpa [hw, eq_comm] using hw'
      simp only [ho, goOn]

/-- R241: tokens that the wait discards leave the state as it is. -/
theorem engineStep_discard (hd : w ≠ .delay) (noise : List InToken)
    (hnoise : ∀ x ∈ noise, ∀ t : State, t.pos = some w → onToken w x t = .next t) : ∀ s : State, s.pos = some w →
    s.inbound = noise ++ rest → engineStep s = engineStep { s with inbound := rest } := by
  induction noise with
  | nil =>
    intro s _ hin
    rw [List.nil_append] at hin
    rw [← hin]
  | cons x noise ih =>
    intro s hw hin
    rw [engineStep_cons (rest := noise ++ rest) hw hd hin, hnoise x List.mem_cons_self { s with inbound := noise ++ rest } hw, goOn_next]
    exact ih (fun y hy => hnoise y (List.mem_cons_of_mem x hy)) { s with inbound := noise ++ rest } hw rfl

end

/-! ## Deadlines -/

section
variable {s t : State} {w : WaitPoint}

theorem runTimeouts_waiting (h : s.waitExpired = false) (fuel : Nat) : runTimeouts fuel s = s := by
  cases fuel with
  | zero => rfl
  | succ fuel =>
    unfold runTimeouts
    split
    · rfl
    · rw [h]; rfl

theorem runTimeouts_expired (hw : s.pos = some w) (h : s.waitExpired = true) (fuel : Nat) :
    runTimeouts (fuel + 1) s = runTimeouts fuel (onTimeout w s) := by
  rw [runTimeouts]
  split
  · rename_i hp; simp [hw] at hp
  · rename_i w' hw'
    obtain rfl : w' = w := by simpa [hw, eq_comm] using hw'
    rw [if_pos h]

theorem waitExpired_none (hp : s.pos = none) : s.waitExpired = false := by simp [State.waitExpired, hp]

theorem waitExpired_some (hw : s.pos = some w) : s.waitExpired = s.expired (s.deadline w).1 (s.deadline w).2 := by
  simp [State.waitExpired, hw]

/-- R240: before the deadline a wait has not expired. -/
theorem waitExpired_eq_false_iff (hw : s.pos = some w) : s.waitExpired = false ↔ beforeDeadline w s := by
  rw [waitExpired_some hw]
  cases w <;> exact decide_eq_false_iff_not.trans Nat.not_le

/-- R240: a command's own wait has the deadline of TIMEOUT_MS, or TXCAP_MS. -/
theorem waitExpired_command (hw : s.pos = some w) (hc : commandWait w = true) :
    s.waitExpired = decide ((waitMs w s).toNat ≤ (s.time - s.tStart).toNat) := by
  rw [waitExpired_some hw]
  cases w with
  | delay | abortFirst | abortSecond => cases hc
  | _ => rfl

/-- R241: an ENGINE that waits for a token that is not there, before its deadline, has nothing to do. -/
theorem engineStep_waiting (h : s.waitExpired = false) (hin : s.pos = some .delay ∨ s.inbound = []) :
    engineStep s = .next s := by
  by_cases hd : s.pos = some .delay
  · simp only [engineStep, hd, runTimeouts_waiting h]
  · rw [engineStep_tokens hd, hin.resolve_left hd, runTokens_nil, runTimeouts_waiting h]

theorem engineStep_timeouts (hd : s.pos ≠ some .delay) (hin : s.inbound = []) :
    engineStep s = .next (runTimeouts 3 s) := by
  rw [engineStep_tokens hd, hin, runTokens_nil]

end

/-! ## The waits of abort_sequence -/

section
variable {s : State} {after : AfterAbort}

/-- R243: the wait that abort_sequence enters has expired at once where ABORT_WAIT_MS is 0, and only there. -/
theorem beginAbort_waitExpired : (beginAbort after s).waitExpired = decide (s.seqcfg.abortWaitMs = 0) := by
  rw [waitExpired_some (beginAbort_pos after s)]
  simp only [State.expired, State.deadline, beginAbort_time, beginAbort_seqcfg, BitVec.sub_self]
  rw [decide_eq_decide]
  exact Nat.le_zero.trans ⟨fun h => BitVec.eq_of_toNat_eq h, fun h => congrArg BitVec.toNat h⟩

theorem forceOk_waitExpired : (forceOk after s).waitExpired = decide (s.seqcfg.abortWaitMs = 0) := by
  rw [waitExpired_some (forceOk_pos after s)]
  simp only [State.expired, State.deadline, forceOk_time, forceOk_seqcfg, BitVec.sub_self]
  rw [decide_eq_decide]
  exact Nat.le_zero.trans ⟨fun h => BitVec.eq_of_toNat_eq h, fun h => congrArg BitVec.toNat h⟩

theorem endAbort_pos (sawOk : Bool) (after : AfterAbort) (s : State) : (endAbort sawOk after s).pos = none :=
  (endAbort_spec sawOk after s).2.2.2.1

theorem runTimeouts_idle {s : State} (hp : s.pos = none) (fuel : Nat) : runTimeouts fuel s = s :=
  runTimeouts_waiting (waitExpired_none hp) fuel

/-- R243: Cmd(AT) and the second wait, which is over at once where ABORT_WAIT_MS is 0. -/
theorem runTimeouts_forceOk (fuel : Nat) : runTimeouts (fuel + 1) (forceOk after s)
    = if s.seqcfg.abortWaitMs = 0 then endAbort false after (forceOk after s) else forceOk after s := by
  have he := forceOk_waitExpired (after := after) (s := s)
  split
  · rename_i h0
    rw [runTimeouts_expired (forceOk_pos after s) (by rw [he, h0]; rfl)]
    exact runTimeouts_idle (endAbort_pos _ _ _) fuel
  · rename_i h0
    exact runTimeouts_waiting (by rw [he]; exact decide_eq_false h0) _

/-- R243: the break character and the first wait; where ABORT_WAIT_MS is 0 abort_sequence runs to its end. -/
theorem runTimeouts_beginAbort (fuel : Nat) : runTimeouts (fuel + 2) (beginAbort after s)
    = if s.seqcfg.abortWaitMs = 0 then endAbort false after (forceOk after (beginAbort after s)) else beginAbort after s := by
  have he := beginAbort_waitExpired (after := after) (s := s)
  split
  · rename_i h0
    rw [runTimeouts_expired (beginAbort_pos after s) (by rw [he, h0]; rfl)]
    exact (runTimeouts_forceOk fuel).trans (if_pos h0)
  · rename_i h0
    exact runTimeouts_waiting (by rw [he]; exact decide_eq_false h0) _

/-- R72, R243: the end of abort_sequence and its caller's completion, as the statements have it. -/
theorem endAbort_ends (sawOk : Bool) (after : AfterAbort) (s : State) :
    AbortEnds after sawOk s (endAbort sawOk after s) := by
  cases after with
  | timeout => exact rfl
  | abortCmd => cases sawOk <;> exact rfl
  | receiveTimeout n =>
    refine ⟨fun i => ?_, fun i hi => completeReceive_rxWritten _ _ hi, ?_⟩
    · refine (completeReceive_read _ _ i).trans ?_
      simp only [setRxlen_rxlen, BitVec.toNat_ofNat]
      rfl
    · have hlen : BitVec.ofNat 11 (n % 2048) = BitVec.ofNat 11 n := by
        apply BitVec.eq_of_toNat_eq
        simp
      rw [ReceiveOver, hlen]
      rfl

/-- The end of abort_sequence does not depend on which of its waits it comes from. -/
theorem abortEnds_pos {sawOk : Bool} {u : State} (p : Option WaitPoint) (h : AbortEnds after sawOk { s with pos := p } u) :
    AbortEnds after sawOk s u := by
  cases after <;> exact h

/-- R304: what a command's own wait does once its deadline has passed. -/
theorem onTimeout_command {w : WaitPoint} (hc : commandWait w = true) (s : State) :
    onTimeout w s = beginAbort (afterTimeout w) s := by
  cases w with
  | delay | abortFirst | abortSecond => cases hc
  | _ => rfl

theorem commandWait_ne_delay {w : WaitPoint} (hc : commandWait w = true) : w ≠ .delay := by
  rintro rfl
  cases hc

/-- Settles O41: the command's wait expires, and with ABORT_WAIT_MS = 0 both waits of abort_sequence after it. -/
theorem timeoutStartsAbortSequence : Obligations.TimeoutStartsAbortSequence := by
  intro s w hw hc hin hlate
  have hrun : engineStep s = .next (runTimeouts 2 (beginAbort (afterTimeout w) s)) := by
    have hexp : s.waitExpired = true := by rw [waitExpired_command hw hc]; exact decide_eq_true hlate
    rw [engineStep_timeouts (by simp [hw, commandWait_ne_delay hc]) hin, runTimeouts_expired hw hexp,
      onTimeout_command hc]
  rw [hrun, runTimeouts_beginAbort 0]
  refine ⟨fun h0 => ?waits, fun h0 => ?ends⟩
  case waits => rw [if_neg h0]; rfl
  case ends =>
    rw [if_pos h0]
    refine ⟨_, rfl, abortEnds_pos (some (.abortSecond s.time (afterTimeout w))) ?_⟩
    have hsent : s.outbound ++ [.byte s.seqcfg.breakChar, .cmd .attention]
        = (s.outbound ++ [.byte s.seqcfg.breakChar]) ++ [.cmd .attention] := by simp
    rw [hsent]
    exact endAbort_ends false _ _

/-- R243: either wait of abort_sequence takes a token in the same way. -/
theorem onToken_abort {t0 : Word} {second : Bool} (x : InToken) (t : State) :
    onToken (if second then .abortSecond t0 after else .abortFirst t0 after) x t = abortToken after x t := by
  cases second <;> rfl

/-- R243: `wait_ok` discards every token but OK. -/
theorem abortToken_discard {x : InToken} (h : x ≠ .res .ok) (s : State) : abortToken after x s = .next s := by
  cases x with
  | byte b => rfl
  | res r =>
    cases r with
    | ok => exact absurd rfl h
    | connect | noCarrier | error | fcerror | other => rfl

/-- Settles O42: tokens before an OK are discarded; then the OK, or the deadline, ends the wait. -/
theorem timeoutCompletes : Obligations.TimeoutCompletes := by
  intro s t0 after second hw
  have hd : (if second then WaitPoint.abortSecond t0 after else .abortFirst t0 after) ≠ .delay := by
    cases second <;> exact nofun
  have hdiscard (noise rest : List InToken) (hnoise : ∀ x ∈ noise, x ≠ .res .ok) (hin : s.inbound = noise ++ rest) :
      engineStep s = engineStep { s with inbound := rest } :=
    engineStep_discard hd noise
      (fun x hx t _ => (onToken_abort x t).trans (abortToken_discard (hnoise x hx) t)) s hw hin
  have hempty (hnoise : ∀ x ∈ s.inbound, x ≠ .res .ok) : engineStep s = engineStep { s with inbound := [] } :=
    hdiscard s.inbound [] hnoise (by simp)
  have hexpired : State.waitExpired { s with inbound := [] }
      = decide (s.seqcfg.abortWaitMs.toNat ≤ (s.time - t0).toNat) := by
    refine (waitExpired_some (s := { s with inbound := [] }) hw).trans ?_
    cases second <;> rfl
  have hlate (hnoise : ∀ x ∈ s.inbound, x ≠ .res .ok) : engineStep s = .next (runTimeouts 3 { s with inbound := [] }) :=
    (hempty hnoise).trans (engineStep_timeouts (by simp [hw, hd]) rfl)
  refine ⟨fun noise rest hnoise hin => ?ok, fun hnoise hbefore => ?waits, fun hnoise hpassed => ?passed⟩
  case ok =>
    rw [hdiscard noise (.res .ok :: rest) hnoise hin, engineStep_cons (s := { s with inbound := .res .ok :: rest }) hw hd rfl,
      onToken_abort]
    exact ⟨_, engineStep_idle (endAbort_pos true after _), endAbort_ends true after _⟩
  case waits =>
    rw [hempty hnoise]
    exact engineStep_waiting (by rw [hexpired]; exact decide_eq_false (Nat.not_le.mpr hbefore)) (.inr rfl)
  case passed =>
    have hexp : State.waitExpired { s with inbound := [] } = true := by rw [hexpired]; exact decide_eq_true hpassed
    rw [hlate hnoise, runTimeouts_expired (s := { s with inbound := [] }) hw hexp]
    refine ⟨?second, ?firstWaits, ?firstEnds⟩
    case second =>
      rintro rfl
      refine ⟨_, congrArg _ (runTimeouts_idle (endAbort_pos false after _) 2), endAbort_ends false after _⟩
    case firstWaits =>
      rintro rfl h0
      exact congrArg _ ((runTimeouts_forceOk 1).trans (if_neg h0))
    case firstEnds =>
      rintro rfl h0
      refine ⟨_, congrArg _ ((runTimeouts_forceOk 1).trans (if_pos h0)), ?_⟩
      exact abortEnds_pos (some (.abortSecond s.time after)) (endAbort_ends false after _)

end

end Sys2Proof.Machine
end

section
/-! PROOFS. No token's effect depends on the tokens behind it or on TIME (R241), so an ENGINE step that is cut in two and
resumed answers what one step does. -/

namespace Sys2Proof.Machine

open Sys2Proof.Claims

/-- The state with another inbound FIFO, at another TIME. -/
def State.resumed (ts : List InToken) (now : Word) (s : State) : State := { s with inbound := ts, time := now }

/-- The outcome with its next state changed by `f`. -/
def mapNext (f : State → State) : StepOutcome → StepOutcome
  | .next t => .next (f t)
  | .fault e => .fault e
  | .refused e => .refused e

section
variable {ts : List InToken} {now : Word} {s : State}

/-! ## The shared operations -/

theorem storeRx_resumed (i : Nat) (b : Byte) (s : State) :
    storeRx i b (s.resumed ts now) = (storeRx i b s).resumed ts now := by
  unfold storeRx
  split <;> rfl

theorem storeRxAll_resumed (bytes : List Byte) : ∀ (i : Nat) (s : State),
    storeRxAll i bytes (s.resumed ts now) = (storeRxAll i bytes s).resumed ts now := by
  induction bytes with
  | nil => exact fun _ _ => rfl
  | cons b rest ih => intro i s; rw [storeRxAll, storeRx_resumed, ih, storeRxAll]

theorem awaitResult_resumed {x : InToken} {k k' : DceRes → StepOutcome}
    (hk : ∀ r, k' r = mapNext (State.resumed ts now) (k r)) :
    awaitResult x (s.resumed ts now) k' = mapNext (State.resumed ts now) (awaitResult x s k) := by
  cases x with
  | byte b => rfl
  | res r =>
    cases r with
    | other => rfl
    | ok | connect | noCarrier | error | fcerror => exact hk _

theorem readRxByte_resumed (i : Nat) (s : State) :
    readRxByte i (s.resumed ts now) = (readRxByte i s).map fun p => (p.1, p.2.resumed ts now) := by
  have hread : (s.resumed ts now).rxbuf.read i = s.rxbuf.read i := rfl
  have hmark : (s.resumed ts now).rxWritten i = s.rxWritten i := rfl
  simp only [readRxByte, rxByte, hread, hmark]
  cases s.rxbuf.read i with
  | some b => rfl
  | none => cases s.rxWritten i <;> rfl

theorem readRx_resumed (n : Nat) : ∀ (i : Nat) (s : State),
    readRx i n (s.resumed ts now) = (readRx i n s).map fun p => (p.1, p.2.resumed ts now) := by
  induction n with
  | zero => exact fun _ _ => rfl
  | succ n ih =>
    intro i s
    simp only [readRx, readRxByte_resumed]
    cases readRxByte i s with
    | error e => rfl
    | ok p =>
      simp only [Except.map, ih]
      cases readRx (i + 1) n p.2 <;> rfl

theorem check_resumed {n minlen : Nat} {chk : Bool} {k k' : Result → State → StepOutcome}
    (hk : ∀ r u, k' r (u.resumed ts now) = mapNext (State.resumed ts now) (k r u)) :
    check n minlen chk (s.resumed ts now) k' = mapNext (State.resumed ts now) (check n minlen chk s k) := by
  simp only [check, readRx_resumed]
  cases readRx 0 n s with
  | error e => rfl
  | ok p => exact hk _ (applyCheck p.1 minlen chk p.2)

theorem finishReceived_resumed (n minlen : Nat) (chk ovf : Bool) (s : State) :
    finishReceived n minlen chk ovf (s.resumed ts now)
      = mapNext (State.resumed ts now) (finishReceived n minlen chk ovf s) :=
  check_resumed (s := setRxlen n s) fun _ _ => rfl

theorem substituteRcp_resumed (s : State) :
    substituteRcp (s.resumed ts now) = mapNext (State.resumed ts now) (substituteRcp s) := by
  simp only [substituteRcp, storeRxAll_resumed]
  exact check_resumed (s := setRxlen 5 (storeRxAll 0 Config.canonicalRcp s)) fun _ _ => rfl

theorem frameEnd_resumed (bits : List Bool) (truncated : Bool) (s : State) :
    frameEnd bits truncated (s.resumed ts now) = mapNext (State.resumed ts now) (frameEnd bits truncated s) := by
  have hctrl : (s.resumed ts now).ctrl = s.ctrl := rfl
  simp only [frameEnd, hctrl]
  split
  · exact substituteRcp_resumed s
  · rw [storeRxAll_resumed]
    exact check_resumed (s := setRxlen _ (storeRxAll 0 (octets bits) s)) fun _ _ => rfl

theorem lostCarrier_resumed (s : State) :
    lostCarrier (s.resumed ts now) = mapNext (State.resumed ts now) (lostCarrier s) := by
  have hrx : (s.resumed ts now).rx = s.rx := rfl
  simp only [lostCarrier, hrx]
  generalize (if s.rx.sync = .sync then s.rx.pend else []) = bits
  split
  · exact frameEnd_resumed bits true (rxReset s)
  · rfl

theorem runBacklog_resumed (xs : List Bool) : ∀ s : State,
    runBacklog xs (s.resumed ts now) = mapNext (State.resumed ts now) (runBacklog xs s) := by
  induction xs with
  | nil => exact fun _ => rfl
  | cons x xs ih =>
    intro s
    have hguard : (s.resumed ts now).guard = s.guard := rfl
    have hrx : (s.resumed ts now).rx = s.rx := rfl
    simp only [runBacklog, hguard, hrx]
    generalize RxEngine.rxBit s.guard x { s.rx with backlog := xs } = p
    obtain ⟨e, ev⟩ := p
    cases ev with
    | none => exact ih { s with rx := e }
    | frame bits => exact frameEnd_resumed bits false { s with rx := e }
    | abort | oversize => rfl

/-! ## The tokens of each wait point -/

theorem sendHdlcToken_resumed (final : Bool) (x : InToken) (s : State) :
    sendHdlcToken final x (s.resumed ts now) = mapNext (State.resumed ts now) (sendHdlcToken final x s) :=
  awaitResult_resumed fun r => by
    cases r with
    | connect => cases final <;> rfl
    | ok | noCarrier | error | fcerror | other => rfl

theorem hdlcPut_resumed (n : Nat) (found ovf : Bool) (v : Byte) (s : State) :
    hdlcPut n found ovf v (s.resumed ts now) = (hdlcPut n found ovf v s).resumed ts now := by
  unfold hdlcPut
  rw [storeRx_resumed]
  split
  · rfl
  · split <;> rfl

theorem hdlcDataResult_resumed (n : Nat) (found ovf : Bool) (r : DceRes) (s : State) :
    hdlcDataResult n found ovf r (s.resumed ts now) = (hdlcDataResult n found ovf r s).resumed ts now := by
  cases r <;> rfl

theorem recvHdlcDataToken_resumed (n : Nat) (found ovf : Bool) (x : InToken) (s : State) :
    recvHdlcDataToken n found ovf x (s.resumed ts now)
      = mapNext (State.resumed ts now) (recvHdlcDataToken n found ovf x s) := by
  cases x with
  | byte v =>
    simp only [recvHdlcDataToken, hdlcPut_resumed]
    split <;> rfl
  | res r => exact congrArg Host.Outcome.next (hdlcDataResult_resumed n found ovf r s)

theorem recvHdlcDleToken_resumed (n : Nat) (found ovf : Bool) (x : InToken) (s : State) :
    recvHdlcDleToken n found ovf x (s.resumed ts now)
      = mapNext (State.resumed ts now) (recvHdlcDleToken n found ovf x s) := by
  cases x with
  | byte v =>
    simp only [recvHdlcDleToken, hdlcPut_resumed]
    split
    · rfl
    · split <;> rfl
  | res r => exact congrArg Host.Outcome.next (hdlcDataResult_resumed n found ovf r s)

theorem recvHdlcEndToken_resumed (n : Nat) (ovf : Bool) (x : InToken) (s : State) :
    recvHdlcEndToken n ovf x (s.resumed ts now) = mapNext (State.resumed ts now) (recvHdlcEndToken n ovf x s) :=
  awaitResult_resumed fun r => by
    cases r with
    | ok | noCarrier => exact finishReceived_resumed n _ _ ovf (setLink .idle s)
    | error =>
      exact finishReceived_resumed n _ _ ovf { setLink .idle s with rxstat := { s.rxstat with dceFcsErr := true } }
    | connect | fcerror | other => rfl

theorem rawStore_resumed (n : Nat) (v : Byte) (s : State) :
    rawStore n v (s.resumed ts now) = (rawStore n v s).resumed ts now := by
  have harg : (s.resumed ts now).arg16 = s.arg16 := rfl
  unfold rawStore rawContinue
  rw [storeRx_resumed, harg]
  split <;> rfl

theorem rawResult_resumed (n : Nat) (r : DceRes) (s : State) :
    rawResult n r (s.resumed ts now) = (rawResult n r s).resumed ts now := by
  cases r <;> rfl

theorem recvRawToken_resumed (n : Nat) (x : InToken) (s : State) :
    recvRawToken n x (s.resumed ts now) = mapNext (State.resumed ts now) (recvRawToken n x s) := by
  cases x with
  | byte v =>
    simp only [recvRawToken, rawStore_resumed]
    split <;> rfl
  | res r => exact congrArg Host.Outcome.next (rawResult_resumed n r s)

theorem recvRawDleToken_resumed (n : Nat) (x : InToken) (s : State) :
    recvRawDleToken n x (s.resumed ts now) = mapNext (State.resumed ts now) (recvRawDleToken n x s) := by
  cases x with
  | byte v =>
    simp only [recvRawDleToken, rawStore_resumed]
    split
    · rfl
    · split <;> rfl
  | res r => exact congrArg Host.Outcome.next (rawResult_resumed n r s)

theorem recvRawEndToken_resumed (n : Nat) (x : InToken) (s : State) :
    recvRawEndToken n x (s.resumed ts now) = mapNext (State.resumed ts now) (recvRawEndToken n x s) :=
  awaitResult_resumed fun r => by cases r <;> rfl

theorem bitsResult_resumed (r : DceRes) (s : State) :
    bitsResult r (s.resumed ts now) = mapNext (State.resumed ts now) (bitsResult r s) := by
  cases r with
  | noCarrier => exact lostCarrier_resumed (setLink .idle s)
  | ok | error | connect | fcerror | other => rfl

theorem recvBitsToken_resumed (x : InToken) (s : State) :
    recvBitsToken x (s.resumed ts now) = mapNext (State.resumed ts now) (recvBitsToken x s) := by
  cases x with
  | byte v =>
    simp only [recvBitsToken]
    split
    · rfl
    · exact runBacklog_resumed _ s
  | res r => exact bitsResult_resumed r s

theorem recvBitsDleToken_resumed (x : InToken) (s : State) :
    recvBitsDleToken x (s.resumed ts now) = mapNext (State.resumed ts now) (recvBitsDleToken x s) := by
  cases x with
  | byte v =>
    simp only [recvBitsDleToken]
    split
    · exact runBacklog_resumed _ s
    · split <;> rfl
  | res r => exact bitsResult_resumed r s

theorem recvBitsEndToken_resumed (x : InToken) (s : State) :
    recvBitsEndToken x (s.resumed ts now) = mapNext (State.resumed ts now) (recvBitsEndToken x s) :=
  awaitResult_resumed fun r => by
    cases r with
    | ok | noCarrier | error => exact lostCarrier_resumed (setLink .idle s)
    | connect | fcerror | other => rfl

theorem v34Store_resumed (n : Nat) (ovf : Bool) (b : Byte) (s : State) :
    v34Store n ovf b (s.resumed ts now) = (v34Store n ovf b s).resumed ts now := by
  unfold v34Store
  rw [storeRx_resumed]
  split <;> rfl

theorem v34Result_resumed (n : Nat) (ovf : Bool) (r : DceRes) (s : State) :
    v34Result n ovf r (s.resumed ts now) = (v34Result n ovf r s).resumed ts now := by
  cases r <;> rfl

theorem recvV34Token_resumed (n : Nat) (ovf : Bool) (x : InToken) (s : State) :
    recvV34Token n ovf x (s.resumed ts now) = mapNext (State.resumed ts now) (recvV34Token n ovf x s) := by
  cases x with
  | byte v =>
    simp only [recvV34Token, v34Store_resumed]
    split <;> rfl
  | res r => exact congrArg Host.Outcome.next (v34Result_resumed n ovf r s)

theorem recvV34DleToken_resumed (n : Nat) (ovf : Bool) (x : InToken) (s : State) :
    recvV34DleToken n ovf x (s.resumed ts now) = mapNext (State.resumed ts now) (recvV34DleToken n ovf x s) := by
  cases x with
  | byte v =>
    simp only [recvV34DleToken, v34Store_resumed]
    split
    case isTrue => rfl
    split
    case isTrue => exact finishReceived_resumed n _ _ ovf s
    split
    case isTrue => rfl
    split
    case isTrue => exact finishReceived_resumed n _ _ ovf { s with rxstat := { s.rxstat with dceFcsErr := true } }
    case isFalse => rfl
  | res r => exact congrArg Host.Outcome.next (v34Result_resumed n ovf r s)

theorem chanResult_resumed (r : DceRes) (s : State) :
    chanResult r (s.resumed ts now) = (chanResult r s).resumed ts now := by
  cases r <;> rfl

theorem waitChannelToken_resumed (x : InToken) (s : State) :
    waitChannelToken x (s.resumed ts now) = mapNext (State.resumed ts now) (waitChannelToken x s) := by
  cases x with
  | byte v => rfl
  | res r => exact congrArg Host.Outcome.next (chanResult_resumed r s)

theorem waitChannelDleToken_resumed (x : InToken) (s : State) :
    waitChannelDleToken x (s.resumed ts now) = mapNext (State.resumed ts now) (waitChannelDleToken x s) := by
  have hwanted : (s.resumed ts now).wantedIndicator = s.wantedIndicator := rfl
  cases x with
  | byte v => simp only [waitChannelDleToken, hwanted]; split_ifs <;> rfl
  | res r => exact congrArg Host.Outcome.next (chanResult_resumed r s)

theorem txCarrierToken_resumed (x : InToken) (s : State) :
    txCarrierToken x (s.resumed ts now) = mapNext (State.resumed ts now) (txCarrierToken x s) :=
  awaitResult_resumed fun r => by
    have hhdlc : (s.resumed ts now).argHdlc = s.argHdlc := rfl
    cases r with
    | connect => simp only [hhdlc]; split <;> rfl
    | ok | noCarrier | error | fcerror | other => rfl

theorem wrongCarrier_resumed (s : State) : wrongCarrier (s.resumed ts now) = (wrongCarrier s).resumed ts now := by
  have hrearm : (s.resumed ts now).rearm = s.rearm := rfl
  have hseqcfg : (s.resumed ts now).seqcfg = s.seqcfg := rfl
  simp only [wrongCarrier, hrearm, hseqcfg]
  split <;> rfl

theorem rxCarrierToken_resumed (x : InToken) (s : State) :
    rxCarrierToken x (s.resumed ts now) = mapNext (State.resumed ts now) (rxCarrierToken x s) :=
  awaitResult_resumed fun r => by
    have hhdlc : (s.resumed ts now).argHdlc = s.argHdlc := rfl
    cases r with
    | connect => simp only [hhdlc]; split <;> rfl
    | fcerror => exact congrArg Host.Outcome.next (wrongCarrier_resumed s)
    | ok | noCarrier | error | other => rfl

theorem endAbort_resumed (sawOk : Bool) (after : AfterAbort) (s : State) :
    endAbort sawOk after (s.resumed ts now) = (endAbort sawOk after s).resumed ts now := by
  cases after <;> rfl

/-- R241: a token does what it does, whatever stands behind it and whatever the TIME. -/
theorem onToken_resumed (w : WaitPoint) (x : InToken) (s : State) :
    onToken w x (s.resumed ts now) = mapNext (State.resumed ts now) (onToken w x s) := by
  cases w with
  | sendHdlc final => exact sendHdlcToken_resumed final x s
  | recvHdlcData n found ovf => exact recvHdlcDataToken_resumed n found ovf x s
  | recvHdlcDle n found ovf => exact recvHdlcDleToken_resumed n found ovf x s
  | recvHdlcEnd n ovf => exact recvHdlcEndToken_resumed n ovf x s
  | recvRaw n => exact recvRawToken_resumed n x s
  | recvRawDle n => exact recvRawDleToken_resumed n x s
  | recvRawEnd n => exact recvRawEndToken_resumed n x s
  | recvBits => exact recvBitsToken_resumed x s
  | recvBitsDle => exact recvBitsDleToken_resumed x s
  | recvBitsEnd => exact recvBitsEndToken_resumed x s
  | recvV34 n ovf => exact recvV34Token_resumed n ovf x s
  | recvV34Dle n ovf => exact recvV34DleToken_resumed n ovf x s
  | waitChannel => exact waitChannelToken_resumed x s
  | waitChannelDle => exact waitChannelDleToken_resumed x s
  | txCarrier => exact txCarrierToken_resumed x s
  | rxCarrier => exact rxCarrierToken_resumed x s
  | txSilence | rxSilence | txEnd => exact awaitResult_resumed fun r => by cases r <;> rfl
  | rxDropWait =>
    cases x with
    | byte v => rfl
    | res r => cases r <;> rfl
  | delay => rfl
  | abortFirst _ after | abortSecond _ after =>
    refine awaitResult_resumed fun r => ?_
    cases r with
    | ok => exact congrArg Host.Outcome.next (endAbort_resumed true after s)
    | connect | noCarrier | error | fcerror | other => rfl

end

/-! ## Where an ENGINE step stops -/

/-- R241: how many deadlines can still pass before the command completes with no token to take. -/
def WaitPoint.deadlinesLeft : WaitPoint → Nat
  | .delay | .abortSecond _ _ => 1
  | .abortFirst _ _ => 2
  | _ => 3

section
variable {s t u : State} {w w' : WaitPoint} {x : InToken} {rest : List InToken}

theorem deadlinesLeft_le (w : WaitPoint) : w.deadlinesLeft ≤ 3 := by
  cases w <;> exact Nat.le_of_ble_eq_true rfl

/-- R243: a deadline that passes leaves fewer of them. -/
theorem onTimeout_deadlinesLeft (h : (onTimeout w s).pos = some w') : w'.deadlinesLeft < w.deadlinesLeft := by
  cases w with
  | delay => cases h
  | abortSecond t0 after => cases (endAbort_pos false after s).symm.trans h
  | _ => cases h; exact Nat.le_of_ble_eq_true rfl

/-- R241: the deadlines of one ENGINE step stop at a wait that has not expired, or with the command complete. -/
theorem runTimeouts_waitExpired (fuel : Nat) : ∀ s : State, (∀ w, s.pos = some w → w.deadlinesLeft ≤ fuel) →
    (runTimeouts fuel s).waitExpired = false := by
  induction fuel with
  | zero =>
    intro s h
    refine waitExpired_none (Option.eq_none_iff_forall_ne_some.mpr fun w hw => ?_)
    have := h w hw
    cases w <;> simp [WaitPoint.deadlinesLeft] at this
  | succ fuel ih =>
    intro s h
    cases he : s.waitExpired with
    | false => rwa [runTimeouts_waiting he]
    | true =>
      obtain hw | ⟨w, hw⟩ := s.pos.eq_none_or_eq_some
      · rw [waitExpired_none hw] at he
        cases he
      · rw [runTimeouts_expired hw he]
        refine ih _ fun w' hw' => ?_
        have := h w hw
        have := onTimeout_deadlinesLeft hw'
        omega

theorem runTimeouts_inbound (fuel : Nat) (s : State) : (runTimeouts fuel s).inbound = s.inbound :=
  (congrArg State.inbound (runTimeouts_frame fuel s).kept).trans rfl

/-- R241: a run over the FIFO stops with the command complete, or with the FIFO empty before the deadline. -/
theorem runTokens_stops (ts : List InToken) : ∀ s : State, s.inbound = ts →
    Answers (fun t => t.pos = none ∨ (t.waitExpired = false ∧ t.inbound = [])) (runTokens ts s) := by
  induction ts with
  | nil =>
    intro s hin
    rw [runTokens_nil, answers_next]
    exact .inr ⟨runTimeouts_waitExpired 3 s fun w _ => deadlinesLeft_le w, (runTimeouts_inbound 3 s).trans hin⟩
  | cons x ts ih =>
    intro s hin t ht
    obtain hw | ⟨w, hw⟩ := s.pos.eq_none_or_eq_some
    · rw [runTokens_idle hw] at ht
      cases ht
      exact .inl hw
    · obtain ⟨u, hu, ht⟩ := runTokens_cons_next hw ht
      exact ih u (congrArg State.inbound (onToken_frame w x _ u hu).kept) t ht

/-- R70: a second ENGINE step finds nothing to do. -/
theorem engineStep_again (h : engineStep s = .next t) : engineStep t = .next t := by
  by_cases hd : s.pos = some .delay
  · have ht : runTimeouts 3 s = t := by simpa [engineStep, hd] using h
    cases he : s.waitExpired with
    | false =>
      rw [runTimeouts_waiting he] at ht
      exact ht ▸ engineStep_waiting he (.inl hd)
    | true =>
      rw [runTimeouts_expired hd he] at ht
      obtain rfl : complete .ok s = t := (runTimeouts_idle (complete_pos .ok s) 2).symm.trans ht
      exact engineStep_idle (complete_pos .ok s)
  · rw [engineStep_tokens hd] at h
    obtain hp | ⟨he, hin⟩ := runTokens_stops s.inbound s rfl t h
    · exact engineStep_idle hp
    · exact engineStep_waiting he (.inr hin)

/-! ## An ENGINE step cut in two -/

/-- R240: a token leaves the deadline of the running command where it was. -/
theorem onToken_waitExpired (hw : s.pos = some w) (hd : w ≠ .delay) (hu : onToken w x s = .next u)
    (hw' : u.pos = some w') : w' ≠ .delay ∧ u.waitExpired = s.waitExpired := by
  obtain ⟨hp, -⟩ | ⟨w'', hpos, hne, hsame⟩ := onToken_movesOn hw hd x u hu
  · cases hp.symm.trans hw'
  · obtain rfl : w'' = w' := by simpa [hw', eq_comm] using hpos
    refine ⟨hne, ?_⟩
    have hkept := (onToken_frame w x s u hu).kept
    have hdeadline : u.deadline w = s.deadline w := by rw [hkept]; cases w <;> rfl
    have htime : u.time = s.time := by rw [hkept]
    rw [waitExpired_some hw', waitExpired_some hw, hsame, hdeadline]
    simp only [State.expired, htime]

/-- R241: from a state that ran `ts` before its deadline, later tokens find what they would find behind `ts`. -/
theorem runTokens_resumed (later : List InToken) (now : Word) (ts : List InToken) : ∀ {s : State} {w : WaitPoint},
    s.pos = some w → w ≠ .delay → s.waitExpired = false → s.inbound = ts →
    Answers (fun t => engineStep (t.resumed (t.inbound ++ later) now) = runTokens (ts ++ later) (s.resumed (ts ++ later) now))
      (runTokens ts s) := by
  induction ts with
  | nil =>
    intro s w hw hd he hin
    rw [runTokens_nil, answers_next, runTimeouts_waiting he, hin]
    exact engineStep_tokens (s := s.resumed ([] ++ later) now) (by simp [State.resumed, hw, hd])
  | cons x ts ih =>
    intro s w hw hd he hin t ht
    obtain ⟨u, hu, ht⟩ := runTokens_cons_next hw ht
    have hrest : u.inbound = ts := congrArg State.inbound (onToken_frame w x _ u hu).kept
    have htaken : runTokens (x :: ts ++ later) (s.resumed (x :: ts ++ later) now)
        = runTokens (ts ++ later) (u.resumed (ts ++ later) now) := by
      refine runTokens_cons (s := s.resumed (x :: ts ++ later) now) hw ?_
      refine (onToken_resumed (ts := ts ++ later) (now := now) w x { s with inbound := ts }).trans ?_
      rw [hu]
      rfl
    rw [htaken]
    obtain hp | ⟨w', hw'⟩ := u.pos.eq_none_or_eq_some
    · rw [runTokens_idle hp] at ht
      cases ht
      rw [hrest, runTokens_idle (s := t.resumed (ts ++ later) now) hp]
      exact engineStep_idle hp
    · obtain ⟨hd', he'⟩ := onToken_waitExpired (s := { s with inbound := ts }) hw hd hu hw'
      exact ih hw' hd' (he'.trans he) hrest t ht

/-- Settles O46: where a step stops, and that a step cut in two is one step. -/
theorem engineStepRunsUntilItBlocks : Obligations.EngineStepRunsUntilItBlocks := by
  refine ⟨fun s t => engineStep_again, fun s w hw hc hin hbefore => ?blocked,
    fun s t w later now hw hbefore ht => ?resumed⟩
  case blocked =>
    refine engineStep_waiting ?_ (.inr hin)
    rw [waitExpired_command hw hc]
    exact decide_eq_false (Nat.not_le.mpr hbefore)
  case resumed =>
    have he := (waitExpired_eq_false_iff hw).mpr hbefore
    by_cases hd : w = .delay
    · subst hd
      rw [engineStep_waiting he (.inl hw)] at ht
      cases ht
      rfl
    · rw [engineStep_tokens (by simp [hw, hd])] at ht
      refine (runTokens_resumed later now s.inbound hw hd he rfl t ht).trans ?_
      exact (engineStep_tokens (s := s.resumed (s.inbound ++ later) now) (by simp [State.resumed, hw, hd])).symm

end

end Sys2Proof.Machine
end

section
/-! PROOFS. How a receive command ends as the statements have it (R71, R72, R331), and what every data phase does with a
DLE (R134). -/

namespace Sys2Proof.Machine

open Sys2Proof.Claims

/-! ## Byte lists in RXBUF -/

theorem holds_writeAll {m : Memory} {bytes : List Byte} : Holds (m.writeAll 0 bytes) bytes := by
  intro i hi
  rw [Memory.read_writeAll, if_pos ⟨Nat.zero_le i, by omega⟩, Nat.sub_zero]

theorem Memory.writeAll_concat (bytes : List Byte) (b : Byte) : ∀ (m : Memory) (i : Nat),
    m.writeAll i (bytes ++ [b]) = (m.writeAll i bytes).write (i + bytes.length) b := by
  induction bytes with
  | nil => exact fun _ _ => rfl
  | cons c rest ih =>
    intro m i
    rw [List.cons_append, Memory.writeAll, ih, Memory.writeAll, List.length_cons]
    congr 1
    omega

/-- R305: `complete` is the completion of the statements. -/
theorem complete_eq_finished (r : Result) (s : State) : complete r s = finished r s := by
  cases r <;> rfl

section
variable {s : State} {bytes : List Byte}

/-- R72, R331: a receive command that ends with a list at the start of RXBUF, where all that it has written is that list. -/
theorem endsReceive_of_holds {m : Memory} (hlen : bytes.length ≤ 1048) (hholds : Holds m bytes)
    (hmarks : ∀ i, (m.read i).isSome = ((s.rxbuf.read i).isSome || decide (i < bytes.length))) (r : Result) :
    EndsReceive r bytes s (endReceive bytes.length r { s with rxbuf := m }) := by
  have hrxlen : (BitVec.ofNat 11 bytes.length).toNat = bytes.length := by
    rw [BitVec.toNat_ofNat]; exact Nat.mod_eq_of_lt (by omega)
  refine ⟨fun i => ?bytes, fun i hi => ?marks, ?registers⟩
  case bytes =>
    refine (completeReceive_read _ _ i).trans ?_
    simp only [setRxlen_rxlen, hrxlen]
    split
    · exact hholds i ‹_›
    · exact (List.getElem?_eq_none (by omega)).symm
  case marks =>
    refine (completeReceive_rxWritten _ _ hi).trans ?_
    simp only [State.rxWritten, setRxlen_rxbuf, setRxlen_rxMarks, hmarks]
    exact Bool.or_right_comm _ _ _
  case registers =>
    rw [ReceiveOver, ← complete_eq_finished, endReceive, completeReceive_spec]
    simp only [setRxlen_rxlen, hrxlen]
    rfl

/-- The bytes are already there. -/
theorem endsReceive_held (hlen : bytes.length ≤ 1048) (hholds : Holds s.rxbuf bytes) (r : Result) :
    EndsReceive r bytes s (endReceive bytes.length r s) := by
  refine endsReceive_of_holds hlen hholds (fun i => ?_) r
  by_cases hi : i < bytes.length
  · rw [hholds i hi, List.getElem?_eq_getElem hi]; rfl
  · simp [hi]

/-- The bytes have been stored from the start of RXBUF on. -/
theorem endsReceive_writeAll (hlen : bytes.length ≤ 1048) (r : Result) :
    EndsReceive r bytes s (endReceive bytes.length r { s with rxbuf := s.rxbuf.writeAll 0 bytes }) := by
  refine endsReceive_of_holds hlen holds_writeAll (fun i => ?_) r
  rw [Memory.read_writeAll]
  by_cases hi : i < bytes.length <;> simp [hi]

/-- The last byte is stored behind those that are there. -/
theorem endsReceive_concat (hlen : bytes.length < 1048) (hholds : Holds s.rxbuf bytes) (v : Byte) (r : Result) :
    EndsReceive r (bytes ++ [v]) s
      (endReceive (bytes.length + 1) r { s with rxbuf := s.rxbuf.write bytes.length v }) := by
  have hconcat := holds_write_concat hholds v
  have hend := endsReceive_of_holds (s := s) (by simpa using hlen) hconcat (fun i => ?_) r
  · rwa [List.length_append, List.length_singleton] at hend
  · by_cases hi : i < (bytes ++ [v]).length
    · rw [hconcat i hi, List.getElem?_eq_getElem hi, decide_eq_true hi, Bool.or_true]
      rfl
    · rw [List.length_append, List.length_singleton] at hi
      rw [Memory.read_write_other (by omega)]
      simp [hi]

theorem goto_self {w : WaitPoint} (hw : s.pos = some w) : goto w s = s := by
  rw [goto, ← hw]

end

/-- The wait point that a state comes from does not matter where it goes to the next. -/
theorem goto_goto (w w' : WaitPoint) (s : State) : goto w (goto w' s) = goto w s := rfl

theorem storeRx_goto (i : Nat) (b : Byte) (w : WaitPoint) (s : State) :
    storeRx i b (goto w s) = goto w (storeRx i b s) := by
  unfold storeRx
  split <;> rfl

/-! ## DLE pairs -/

/-- R134: in the data phase that waits at `w`, a DLE leads to `wd`. -/
structure DataPhase (w wd : WaitPoint) : Prop where
  data : w ≠ .delay
  pair : wd ≠ .delay
  dle : ∀ t, onToken w (.byte 0x10) t = .next (goto wd t)

theorem hdlc_dataPhase (n : Nat) (found ovf : Bool) :
    DataPhase (.recvHdlcData n found ovf) (.recvHdlcDle n found ovf) := ⟨nofun, nofun, fun _ => rfl⟩

theorem raw_dataPhase (n : Nat) : DataPhase (.recvRaw n) (.recvRawDle n) := ⟨nofun, nofun, fun _ => rfl⟩

theorem bits_dataPhase : DataPhase .recvBits .recvBitsDle := ⟨nofun, nofun, fun _ => rfl⟩

section
variable {w wd : WaitPoint} {s : State} {rest : List InToken} {f : State → StepOutcome}

/-- R134: the token behind a DLE. -/
theorem DataPhase.engineStep_pair (h : DataPhase w wd) (hw : s.pos = some w) {x : InToken}
    (hin : s.inbound = .byte 0x10 :: x :: rest) :
    engineStep s = goOn (onToken wd x (goto wd { s with inbound := rest })) := by
  rw [engineStep_cons hw h.data hin, h.dle, goOn_next]
  exact engineStep_cons (s := goto wd { s with inbound := x :: rest }) rfl h.pair rfl

/-- R134: a result does the same with and without a lone DLE before it. -/
theorem DataPhase.engineStep_result (h : DataPhase w wd) (hw : s.pos = some w) {r : DceRes} {dle : Bool}
    (hin : s.inbound = afterDle dle ++ .res r :: rest) (hdata : ∀ t, onToken w (.res r) t = f t)
    (hpair : ∀ t, onToken wd (.res r) (goto wd t) = f t) : engineStep s = goOn (f { s with inbound := rest }) := by
  cases dle with
  | false => rw [engineStep_cons hw h.data hin, hdata]
  | true => rw [h.engineStep_pair hw hin, hpair]

/-- R134: a data byte comes as it is, or as a pair where it is DLE. -/
theorem DataPhase.engineStep_byte (h : DataPhase w wd) (hw : s.pos = some w) {v : Byte}
    (hin : s.inbound = inDoubled v ++ rest) (hdata : v ≠ 0x10 → ∀ t, onToken w (.byte v) t = f t)
    (hpair : v = 0x10 → ∀ t, onToken wd (.byte 0x10) (goto wd t) = f t) :
    engineStep s = goOn (f { s with inbound := rest }) := by
  unfold inDoubled at hin
  split at hin
  · rename_i hv; rw [h.engineStep_pair (rest := rest) hw hin, hpair hv]
  · rename_i hv; rw [engineStep_cons (rest := rest) hw h.data hin, hdata hv]

/-- R134: an unknown pair is discarded and noted. -/
theorem DataPhase.engineStep_unknown (h : DataPhase w wd) (hw : s.pos = some w) {x : Byte}
    (hin : s.inbound = .byte 0x10 :: .byte x :: rest)
    (hpair : ∀ t, onToken wd (.byte x) (goto wd t) = .next (goto w (noteUnknownPair (goto wd t)))) :
    engineStep s = engineStep { s with inbound := rest, heldDleUnk := true } := by
  rw [h.engineStep_pair hw hin, hpair, goOn_next]
  exact congrArg engineStep (goto_self (s := { s with inbound := rest, heldDleUnk := true }) hw)

/-- R138, R142, R187: the result of a data phase that ends a command with a list in RXBUF, or is discarded. -/
theorem dataResult_of_goOn {r : DceRes} {lost : Result} {bytes : List Byte} {ended : State}
    {o : StepOutcome} (hw : s.pos = some w)
    (hstep : engineStep s = goOn o)
    (hends : ∀ r', EndsReceive r' bytes ended (endReceive bytes.length r' ended))
    (hlost : r = .noCarrier → o = .next (endReceive bytes.length lost ended))
    (herror : r = .ok ∨ r = .error → o = .next (endReceive bytes.length .dceError ended))
    (hdiscard : r = .connect ∨ r = .fcerror ∨ r = .other →
      o = .next (goto w { s with inbound := rest })) :
    DataResult r lost bytes ended s rest := by
  have hover {r' : Result} (hf : o = .next (endReceive bytes.length r' ended)) :
      ∃ u, engineStep s = .next u ∧ EndsReceive r' bytes ended u :=
    ⟨_, by rw [hstep, hf, goOn_next]; exact engineStep_idle rfl, hends r'⟩
  have hgoesOn (h : r = .connect ∨ r = .fcerror ∨ r = .other) : engineStep s = engineStep { s with inbound := rest } := by
    rw [hstep, hdiscard h, goOn_next]
    exact congrArg engineStep (goto_self (s := { s with inbound := rest }) hw)
  cases r with
  | noCarrier => exact hover (hlost rfl)
  | ok => exact hover (herror (.inl rfl))
  | error => exact hover (herror (.inr rfl))
  | connect => exact hgoesOn (.inl rfl)
  | fcerror => exact hgoesOn (.inr (.inl rfl))
  | other => exact hgoesOn (.inr (.inr rfl))

end

end Sys2Proof.Machine
end

section
/-! PROOFS. RECV_HDLC's data phase (R134 to R136, R138). -/

namespace Sys2Proof.Machine

open Sys2Proof.Claims

section
variable {s : State} {rest : List InToken} {n : Nat} {found ovf : Bool} {v : Byte}

/-- R135: what `put` makes of the state that waits in the data phase. -/
theorem hdlcPut_eq (hw : s.pos = some (.recvHdlcData n found ovf)) (v : Byte) :
    hdlcPut n found ovf v s
      = if found = false ∧ dceOctet v ≠ 0xFF then s
        else if n < 1048 then
          { s with pos := some (.recvHdlcData (n + 1) true ovf), rxbuf := s.rxbuf.write n (dceOctet v) }
        else { s with pos := some (.recvHdlcData n true true) } := by
  have hskip : (!found && dceOctet v != Config.addrValue) = true ↔ found = false ∧ dceOctet v ≠ 0xFF := by
    simp [Config.addrValue]
  simp only [hdlcPut, hskip]
  by_cases h : found = false ∧ dceOctet v ≠ 0xFF
  · rw [if_pos h, if_pos h]
    exact goto_self hw
  · rw [if_neg h, if_neg h]
    by_cases hn : n < 1048
    · rw [if_pos hn, if_pos (show n < Config.rxbufSize from hn), storeRx, if_pos (show n < Config.rxbufSize from hn)]
      rfl
    · rw [if_neg hn, if_neg (show ¬ n < Config.rxbufSize from hn)]
      rfl

/-- R135, R136: a data byte, DLE or not, is put. -/
theorem hdlc_engineStep_byte (hw : s.pos = some (.recvHdlcData n found ovf)) (hin : s.inbound = inDoubled v ++ rest) :
    engineStep s = engineStep (hdlcPut n found ovf v { s with inbound := rest }) := by
  refine (hdlc_dataPhase n found ovf).engineStep_byte (f := fun t => .next (hdlcPut n found ovf v t)) hw hin
    (fun hv t => congrArg _ (if_neg hv)) fun hv t => ?_
  subst hv
  refine congrArg Host.Outcome.next ((if_pos rfl).trans ?_)
  simp only [hdlcPut, storeRx_goto, goto_goto]
  rfl

theorem hdlc_dataResult {bytes : List Byte} {r : DceRes} {dle : Bool}
    (hw : s.pos = some (.recvHdlcData bytes.length found ovf)) (hlen : bytes.length ≤ 1048) (hholds : Holds s.rxbuf bytes)
    (hin : s.inbound = afterDle dle ++ .res r :: rest) :
    DataResult r (if found then .truncated else .carrierLost) bytes { s with inbound := rest, link := .idle } s rest := by
  have hstep := (hdlc_dataPhase bytes.length found ovf).engineStep_result
    (f := fun t => .next (hdlcDataResult bytes.length found ovf r t)) hw hin (fun _ => rfl) fun t => by cases r <;> rfl
  refine dataResult_of_goOn hw hstep (endsReceive_held (s := { s with inbound := rest, link := .idle }) hlen hholds) ?_ ?_ ?_
  · rintro rfl; rfl
  · rintro (rfl | rfl) <;> rfl
  · rintro (rfl | rfl | rfl) <;> rfl

/-- R134, R136: an unknown pair. -/
theorem hdlcDle_unknown {x : Byte} (hx : x ≠ 0x10) (hx' : x ≠ 0x03) (t : State) :
    onToken (.recvHdlcDle n found ovf) (.byte x) t = .next (goto (.recvHdlcData n found ovf) (noteUnknownPair t)) := by
  exact congrArg Host.Outcome.next ((if_neg hx).trans (if_neg hx'))

/-! ## A frame that the carrier's end cuts short -/

/-- RECV_HDLC has stored `bytes` since the state `s`, address included, and has `rest` in the FIFO. -/
def hdlcReceived (bytes : List Byte) (rest : List InToken) (s : State) : State :=
  { s with
    pos := some (.recvHdlcData bytes.length true false), rxbuf := s.rxbuf.writeAll 0 bytes, inbound := rest }

theorem inDoubled_of_ne (hv : v ≠ 0x10) (rest : List InToken) : inDoubled v ++ rest = .byte v :: rest := by
  rw [inDoubled, if_neg hv]
  rfl

theorem hdlcReceived_byte {bytes : List Byte} (hlen : bytes.length < 1048) (hv : v ≠ 0x10) :
    engineStep (hdlcReceived bytes (.byte v :: rest) s) = engineStep (hdlcReceived (bytes ++ [dceOctet v]) rest s) := by
  have hput : hdlcPut bytes.length true false v (hdlcReceived bytes rest s)
      = hdlcReceived (bytes ++ [dceOctet v]) rest s := by
    rw [hdlcPut_eq rfl, if_neg (by simp), if_pos hlen]
    simp only [hdlcReceived, Memory.writeAll_concat, Nat.zero_add, List.length_append, List.length_singleton]
  rw [← inDoubled_of_ne hv]
  exact (hdlc_engineStep_byte (s := hdlcReceived bytes _ s) rfl rfl).trans (congrArg engineStep hput)

theorem hdlcReceived_bytes (frame : List Byte) : ∀ {bytes : List Byte}, bytes.length + frame.length ≤ 1048 →
    (∀ v ∈ frame, v ≠ 0x10) →
    engineStep (hdlcReceived bytes (frame.map InToken.byte ++ rest) s)
      = engineStep (hdlcReceived (bytes ++ frame.map dceOctet) rest s) := by
  induction frame with
  | nil => intro bytes _ _; simp
  | cons v frame ih =>
    intro bytes hlen hdle
    rw [List.length_cons] at hlen
    rw [List.map_cons, List.cons_append, hdlcReceived_byte (by omega) (hdle v List.mem_cons_self),
      ih (by simp; omega) fun u hu => hdle u (List.mem_cons_of_mem v hu)]
    simp

/-- R135: bytes before the address are discarded. -/
theorem hdlc_engineStep_noise (hw : s.pos = some (.recvHdlcData 0 false false)) {noise : List Byte}
    (hnoise : ∀ v ∈ noise, v ≠ 0x10 ∧ v ≠ 0xFF) (hin : s.inbound = noise.map .byte ++ rest) :
    engineStep s = engineStep { s with inbound := rest } := by
  refine engineStep_discard (w := .recvHdlcData 0 false false) nofun (noise.map .byte) (fun x hx t ht => ?_) s hw hin
  obtain ⟨v, hv, rfl⟩ := List.mem_map.mp hx
  obtain ⟨hdle, haddr⟩ := hnoise v hv
  have hput : hdlcPut 0 false false v t = t := by
    rw [hdlcPut_eq ht, if_pos ⟨rfl, fun h => haddr ((dceOctet_eq_iff v 0xFF).mp h)⟩]
  exact congrArg Host.Outcome.next ((if_neg hdle).trans hput)

/-- R135, R138: NO_CARRIER before the address, or inside the frame. -/
theorem hdlc_engineStep_cut (hw : s.pos = some (.recvHdlcData 0 false false)) {frame : List Byte}
    (hdle : ∀ v ∈ frame, v ≠ 0x10) (haddr : frame = [] ∨ frame[0]? = some 0xFF) (hlen : frame.length ≤ 1048)
    (hin : s.inbound = frame.map InToken.byte ++ .res .noCarrier :: rest) :
    ∃ u, engineStep s = .next u ∧ EndsReceive (if frame = [] then .carrierLost else .truncated) (frame.map dceOctet)
      { s with link := .idle, inbound := rest } u := by
  cases frame with
  | nil => exact hdlc_dataResult (bytes := []) (dle := false) hw (Nat.zero_le _) (fun i hi => absurd hi (Nat.not_lt_zero i)) hin
  | cons v frame =>
    obtain rfl : v = 0xFF := by simpa using haddr
    have hput : hdlcPut 0 false false 0xFF { s with inbound := frame.map InToken.byte ++ .res .noCarrier :: rest }
        = hdlcReceived [0xFF] (frame.map InToken.byte ++ .res .noCarrier :: rest) s := by
      refine (hdlcPut_eq (by exact hw) 0xFF).trans ?_
      rw [if_neg (by decide), if_pos (by decide)]
      rfl
    have hfirst : engineStep s = engineStep (hdlcReceived [0xFF] (frame.map InToken.byte ++ .res .noCarrier :: rest) s) := by
      rw [List.map_cons, List.cons_append, ← inDoubled_of_ne (v := 0xFF) (by decide)] at hin
      exact (hdlc_engineStep_byte hw hin).trans (congrArg engineStep hput)
    have hrun : engineStep s = engineStep (hdlcReceived ((0xFF :: frame).map dceOctet) (.res .noCarrier :: rest) s) :=
      hfirst.trans (hdlcReceived_bytes frame (bytes := [0xFF]) (by simpa [Nat.add_comm] using hlen)
        fun u hu => hdle u (List.mem_cons_of_mem _ hu))
    have hlen' : ((0xFF :: frame).map dceOctet).length ≤ 1048 := by simpa using hlen
    generalize (0xFF :: frame).map dceOctet = bytes at hrun hlen' ⊢
    refine ⟨_, ?_, endsReceive_writeAll (s := { s with link := .idle, inbound := rest }) hlen' .truncated⟩
    rw [hrun, engineStep_cons (s := hdlcReceived bytes _ s) (w := .recvHdlcData bytes.length true false) rfl nofun rfl]
    exact engineStep_idle (s := endReceive bytes.length .truncated (setLink .idle (hdlcReceived bytes rest s))) rfl

end

/-- Settles O24: the run over the noise and the frame, then each kind of token of the data phase. -/
theorem recvHdlcCarrierLoss : Obligations.RecvHdlcCarrierLoss := by
  refine ⟨fun s noise frame rest hv34 hlink hnoise hdle haddr hlen hin => ?carrierLoss,
    fun s bytes found ovf dle rest hw hlen hholds => ⟨fun r => ?result, fun x hx hx' hin => ?unknown, fun v hin => ?byte⟩⟩
  case carrierLoss =>
    have hmode : (!(accept .recvHdlc s).ctrl.v34 && (accept .recvHdlc s).link == .rxHdlc) = true := by simp [hv34, hlink]
    have hexec : exec .recvHdlc s = .next (goto (.recvHdlcData 0 false false) (startReceive (accept .recvHdlc s))) := by
      rw [exec, execRecvHdlc, hmode, requireMode_true]
    rw [List.append_assoc] at hin
    have hskip := hdlc_engineStep_noise (s := goto (.recvHdlcData 0 false false) (startReceive (accept .recvHdlc s)))
      (rest := frame.map InToken.byte ++ .res .noCarrier :: rest) rfl hnoise hin
    obtain ⟨u, hu, hends⟩ := hdlc_engineStep_cut (rest := rest)
      (s := { goto (.recvHdlcData 0 false false) (startReceive (accept .recvHdlc s)) with
        inbound := frame.map InToken.byte ++ .res .noCarrier :: rest }) rfl hdle haddr hlen rfl
    exact ⟨_, u, hexec, rfl, hskip.trans hu, hends⟩
  case result => exact hdlc_dataResult hw hlen hholds
  case unknown => exact (hdlc_dataPhase _ _ _).engineStep_unknown hw hin fun t => hdlcDle_unknown hx hx' _
  case byte =>
    rw [hdlc_engineStep_byte hw hin, hdlcPut_eq (s := { s with inbound := rest }) hw]

end Sys2Proof.Machine
end

section
/-! PROOFS. RECV_RAW's data phase (R142), and the stream of a SEND_RAW (R140, R141) through it. -/

namespace Sys2Proof.Machine

open Sys2Proof.Claims

section
variable {s : State} {rest : List InToken} {n : Nat} {v : Byte} {bytes : List Byte}

/-- R142: what one data byte makes of the state that waits in the data phase, inside the buffer. -/
theorem rawStore_eq (hn : n < 1048) (v : Byte) (s : State) :
    rawStore n v s = rawContinue (n + 1) s.arg16.toNat { s with rxbuf := s.rxbuf.write n v } := by
  rw [rawStore, storeRx, if_pos (show n < Config.rxbufSize from hn)]

/-- R142: a data byte, DLE or not, is stored. -/
theorem raw_engineStep_byte (hw : s.pos = some (.recvRaw n)) (hin : s.inbound = inDoubled v ++ rest) :
    engineStep s = engineStep (rawStore n v { s with inbound := rest }) := by
  refine (raw_dataPhase n).engineStep_byte (f := fun t => .next (rawStore n v t)) hw hin
    (fun hv t => congrArg _ (if_neg hv)) fun hv t => ?_
  subst hv
  refine congrArg Host.Outcome.next ((if_pos rfl).trans ?_)
  have harg (w : WaitPoint) : (goto w t).arg16 = t.arg16 := rfl
  simp only [rawStore, storeRx_goto, harg]
  unfold rawContinue
  split <;> rfl

theorem raw_engineStep_goesOn (hw : s.pos = some (.recvRaw n)) (hn : n + 1 < s.arg16.toNat) (hfits : s.arg16.toNat ≤ 1048)
    (hin : s.inbound = inDoubled v ++ rest) :
    engineStep s = engineStep { s with
      inbound := rest, pos := some (.recvRaw (n + 1)), rxbuf := s.rxbuf.write n v } := by
  rw [raw_engineStep_byte hw hin, rawStore_eq (by omega)]
  exact congrArg engineStep (if_pos hn)

/-- R142: the last of the count's bytes completes RECV_RAW. -/
theorem raw_engineStep_last (hw : s.pos = some (.recvRaw n)) (hn : n + 1 = s.arg16.toNat) (hfits : s.arg16.toNat ≤ 1048)
    (hin : s.inbound = inDoubled v ++ rest) :
    engineStep s = .next (endReceive (n + 1) .ok { s with inbound := rest, rxbuf := s.rxbuf.write n v }) := by
  have hstore : rawStore n v { s with inbound := rest }
      = endReceive (n + 1) .ok { s with inbound := rest, rxbuf := s.rxbuf.write n v } := by
    have harg : State.arg16 { s with inbound := rest } = s.arg16 := rfl
    rw [rawStore_eq (by omega), harg, ← hn, rawContinue, if_neg (Nat.lt_irrefl _)]
  rw [raw_engineStep_byte hw hin, hstore]
  exact engineStep_idle rfl

theorem raw_dataResult {r : DceRes} {dle : Bool} (hw : s.pos = some (.recvRaw bytes.length)) (hlen : bytes.length ≤ 1048)
    (hholds : Holds s.rxbuf bytes) (hin : s.inbound = afterDle dle ++ .res r :: rest) :
    DataResult r .carrierLost bytes { s with inbound := rest, link := .idle } s rest := by
  have hstep := (raw_dataPhase bytes.length).engineStep_result (f := fun t => .next (rawResult bytes.length r t)) hw hin
    (fun _ => rfl) fun t => by cases r <;> rfl
  refine dataResult_of_goOn hw hstep (endsReceive_held (s := { s with inbound := rest, link := .idle }) hlen hholds) ?_ ?_ ?_
  · rintro rfl; rfl
  · rintro (rfl | rfl) <;> rfl
  · rintro (rfl | rfl | rfl) <;> rfl

theorem rawDle_unknown {x : Byte} (hx : x ≠ 0x10) (hx' : x ≠ 0x03) (t : State) :
    onToken (.recvRawDle n) (.byte x) t = .next (goto (.recvRaw n) (noteUnknownPair t)) :=
  congrArg Host.Outcome.next ((if_neg hx).trans (if_neg hx'))

/-- R142: `<DLE><ETX>` leads to the wait for the result that ends the stream. -/
theorem raw_engineStep_end (hw : s.pos = some (.recvRaw n)) (hin : s.inbound = .byte 0x10 :: .byte 0x03 :: rest) :
    engineStep s = engineStep { s with inbound := rest, pos := some (.recvRawEnd n) } :=
  (raw_dataPhase n).engineStep_pair hw hin

/-- R142: the result that ends the stream. -/
theorem rawEnd_engineStep {r : DceRes} (hw : s.pos = some (.recvRawEnd n)) (hr : r = .ok ∨ r = .noCarrier ∨ r = .error)
    (hin : s.inbound = .res r :: rest) :
    engineStep s = .next (endReceive n .carrierLost (setLink .idle { s with inbound := rest })) := by
  rw [engineStep_cons hw nofun hin]
  rcases hr with rfl | rfl | rfl <;> exact engineStep_idle (s := endReceive n .carrierLost (setLink .idle { s with inbound := rest })) rfl

/-! ## A run of data bytes -/

/-- RECV_RAW has stored `bytes` since the state `s` and has `rest` in the FIFO. -/
def rawReceived (bytes : List Byte) (rest : List InToken) (s : State) : State :=
  { s with pos := some (.recvRaw bytes.length), rxbuf := s.rxbuf.writeAll 0 bytes, inbound := rest }

theorem rawReceived_bytes (hfits : s.arg16.toNat ≤ 1048) (todo : List Byte) : ∀ {bytes : List Byte},
    bytes.length + todo.length < s.arg16.toNat →
    engineStep (rawReceived bytes (todo.flatMap inDoubled ++ rest) s) = engineStep (rawReceived (bytes ++ todo) rest s) := by
  induction todo with
  | nil => intro bytes _; simp
  | cons v todo ih =>
    intro bytes hlen
    rw [List.length_cons] at hlen
    have hstep : engineStep (rawReceived bytes ((v :: todo).flatMap inDoubled ++ rest) s)
        = engineStep (rawReceived (bytes ++ [v]) (todo.flatMap inDoubled ++ rest) s) := by
      rw [List.flatMap_cons, List.append_assoc]
      refine (raw_engineStep_goesOn (s := rawReceived bytes _ s) rfl ?_ hfits rfl).trans ?_
      · exact (show bytes.length + 1 < s.arg16.toNat by omega)
      · simp only [rawReceived, Memory.writeAll_concat, Nat.zero_add, List.length_append, List.length_singleton]
    rw [hstep, ih (by simp; omega), List.append_assoc, List.singleton_append]

/-- R142: as many bytes as the count end RECV_RAW with OK, the rest of the FIFO kept. -/
theorem rawReceived_all {body : List Byte} (hfits : s.arg16.toNat ≤ 1048) (hpos : 1 ≤ s.arg16.toNat)
    (hcount : s.arg16.toNat = body.length) :
    ∃ u, engineStep (rawReceived [] (body.flatMap inDoubled ++ rest) s) = .next u
      ∧ EndsReceive .ok body { s with inbound := rest } u := by
  obtain ⟨init, v, rfl⟩ : ∃ init v, body = init ++ [v] :=
    ⟨_, _, (List.dropLast_concat_getLast (List.ne_nil_of_length_pos (by omega))).symm⟩
  rw [List.length_append, List.length_singleton] at hcount
  have hlast := raw_engineStep_last (s := rawReceived init (inDoubled v ++ rest) s) rfl (by exact hcount.symm) hfits rfl
  refine ⟨_, ?_, endsReceive_writeAll (s := { s with inbound := rest }) (bytes := init ++ [v]) (by simp; omega) .ok⟩
  rw [List.flatMap_append, List.append_assoc, List.flatMap_singleton, rawReceived_bytes hfits init (by simp; omega),
    List.nil_append, hlast, List.length_append, List.length_singleton]
  simp only [rawReceived, Memory.writeAll_concat, Nat.zero_add]
  rfl

/-- R142: a stream that ends before the count. -/
theorem rawReceived_short {body : List Byte} {r : DceRes} (hfits : s.arg16.toNat ≤ 1048)
    (hcount : body.length < s.arg16.toNat) (hr : r = .ok ∨ r = .noCarrier ∨ r = .error) :
    ∃ u, engineStep (rawReceived [] (body.flatMap inDoubled ++ .byte 0x10 :: .byte 0x03 :: .res r :: rest) s) = .next u
      ∧ EndsReceive .carrierLost body { s with link := .idle, inbound := rest } u := by
  refine ⟨_, ?_, endsReceive_writeAll (s := { s with link := .idle, inbound := rest }) (by omega) .carrierLost⟩
  rw [rawReceived_bytes hfits body (by simpa using hcount), List.nil_append,
    raw_engineStep_end (s := rawReceived body _ s) rfl rfl]
  exact rawEnd_engineStep (s := { rawReceived body _ s with inbound := .res r :: rest, pos := some (.recvRawEnd _) })
    rfl hr rfl

/-! ## SEND_RAW's stream -/

theorem delivered_dcePut (d : Byte) : delivered (dcePut d) = inDoubled d := by
  by_cases hd : d = 0x10
  · subst hd; rfl
  · rw [dcePut, if_neg (show ¬ d = Config.dle from hd), inDoubled, if_neg hd]; rfl

/-- R131, R134: the DCE hands on a sent byte as a data byte of the data phase. -/
theorem delivered_flatMap_dcePut (body : List Byte) : delivered (body.flatMap dcePut) = body.flatMap inDoubled := by
  induction body with
  | nil => rfl
  | cons d body ih =>
    rw [List.flatMap_cons, List.flatMap_cons, ← ih, ← delivered_dcePut]
    exact List.filterMap_append

theorem flushPad_of_nbits_zero {e : TxEngine} (h : e.nbits = 0) : e.flushPad.2 = [] := by
  simp [TxEngine.flushPad, h, TxEngine.putAll]

/-- R140: SEND_RAW with no line bits pending sends its body escaped. -/
theorem exec_sendRaw {a : State} {body : List Byte} (hv34 : a.ctrl.v34 = false) (hlink : a.link = .txData)
    (hnbits : a.tx.nbits = 0) (hbody : TxBody a body) (hlen : body.length ≤ 1048) :
    ∃ b, exec .sendRaw a = .next b ∧ b.outbound = a.outbound ++ body.flatMap dcePut := by
  obtain ⟨hcount, hholds⟩ := hbody
  have hmode : (!(accept .sendRaw a).ctrl.v34 && (accept .sendRaw a).link == .txData) = true := by simp [hv34, hlink]
  have hn : (accept .sendRaw a).txCount = body.length := hcount
  have hread : readTx 0 (accept .sendRaw a).txCount (accept .sendRaw a) = .ok body :=
    (readTx_ok_iff _ _ _ _).mpr ⟨hn.symm, fun k hk => by rw [Nat.zero_add]; exact hholds k (by omega)⟩
  refine ⟨complete .ok (send (body.flatMap dcePut) (withTx (accept .sendRaw a).tx.flushPad (accept .sendRaw a))), ?_, ?_⟩
  · rw [exec, execSendRaw, hmode, requireMode_true, sendLenCheck_passes (Nat.zero_le _) (by omega), hread, withBytes_ok]
  · simp [withTx, flushPad_of_nbits_zero hnbits]

/-- R81: the word of a RECV_RAW. -/
theorem encode_recvRaw (n : Half) : encode (.recvRaw n) = 0x00000013 ||| (n.zeroExtend 32 <<< 16) := by
  refine BitVec.eq_of_getLsbD_eq fun k hk => ?_
  simp only [encode, cmdWord, BitVec.getLsbD_append, BitVec.getLsbD_or, BitVec.getLsbD_shiftLeft, BitVec.getLsbD_setWidth]
  interval_cases k <;> simp

theorem exec_recvRaw {n : Half} (hv34 : s.ctrl.v34 = false) (hlink : s.link = .rxData) (hn : 1 ≤ n.toNat) :
    exec (.recvRaw n) s
      = .next (waiting (.recvRaw 0) (receiveStarted (0x00000013 ||| (n.zeroExtend 32 <<< 16)) s)) := by
  have hmode : (!(accept (.recvRaw n) s).ctrl.v34 && (accept (.recvRaw n) s).link == .rxData) = true := by
    simp [hv34, hlink]
  rw [← encode_recvRaw, exec, execRecvRaw, hmode, requireMode_true, rawContinue, if_pos (show 0 < n.toNat from hn)]
  rfl

theorem recvRaw_arg16 (n : Half) (s : State) :
    (waiting (.recvRaw 0) (receiveStarted (0x00000013 ||| (n.zeroExtend 32 <<< 16)) s)).arg16 = n := by
  rw [← encode_recvRaw]
  exact arg16_cmdWord _ _ _

end

/-- Settles O26: the stream first, then each kind of token of the data phase, then the end of the stream. -/
theorem rawStreamRoundTrip : Obligations.RawStreamRoundTrip := by
  refine ⟨fun a body hv34 hlink hnbits hbody hlen => ?stream,
    fun s bytes dle rest hw hlen hholds => ⟨fun r => ?result, fun x hx hx' hin => ?unknown,
      fun v count hcount hfits hin => ⟨fun hlt => ?goesOn, fun hlast => ?last⟩, fun hin => ?endMarker⟩,
    fun s bytes r rest hw hlen hholds hr hin => ?streamEnd⟩
  case stream =>
    obtain ⟨b, hb, hsent⟩ := exec_sendRaw hv34 hlink hnbits hbody hlen
    refine ⟨b, body.flatMap dcePut, hb, hsent, fun s n r rest hv34 hlink => ⟨fun hpos hcount hin => ?all,
      fun hshort hfits hr hin => ?short⟩⟩
    case all =>
      rw [delivered_flatMap_dcePut] at hin
      have harg := recvRaw_arg16 n s
      obtain ⟨u, hu, hends⟩ := rawReceived_all (rest := rest)
        (s := waiting (.recvRaw 0) (receiveStarted (0x00000013 ||| (n.zeroExtend 32 <<< 16)) s))
        (by rw [harg]; omega) (by rw [harg]; exact hpos) (by rw [harg]; exact hcount)
      refine ⟨_, u, exec_recvRaw hv34 hlink hpos, ?_, rfl, hends⟩
      rw [← hin] at hu
      exact hu
    case short =>
      have hmarked : delivered (body.flatMap dcePut ++ endMarker) ++ .res r :: rest
          = body.flatMap inDoubled ++ .byte 0x10 :: .byte 0x03 :: .res r :: rest := by
        rw [← delivered_flatMap_dcePut]
        simp [delivered, endMarker]
      rw [hmarked] at hin
      have harg := recvRaw_arg16 n s
      obtain ⟨u, hu, hends⟩ := rawReceived_short (rest := rest)
        (s := waiting (.recvRaw 0) (receiveStarted (0x00000013 ||| (n.zeroExtend 32 <<< 16)) s))
        (by rw [harg]; exact hfits) (by rw [harg]; exact hshort) hr
      refine ⟨_, u, exec_recvRaw hv34 hlink (by omega), ?_, rfl, hends⟩
      rw [← hin] at hu
      exact hu
  case result => exact raw_dataResult hw hlen hholds
  case unknown => exact (raw_dataPhase _).engineStep_unknown hw hin fun t => rawDle_unknown hx hx' _
  case goesOn =>
    subst hcount
    exact raw_engineStep_goesOn hw hlt hfits hin
  case last =>
    subst hcount
    exact ⟨_, raw_engineStep_last hw hlast hfits hin,
      endsReceive_concat (s := { s with inbound := rest }) (by omega) hholds v .ok⟩
  case endMarker => exact raw_engineStep_end hw hin
  case streamEnd =>
    exact ⟨_, rawEnd_engineStep hw hr hin, endsReceive_held (s := { s with inbound := rest, link := .idle }) hlen hholds _⟩

end Sys2Proof.Machine
end

section
/-! PROOFS. What RECV_BITS does with a token does not depend on the wait point it comes from (R187), and its tokens but for
its data bytes (R134, R183). -/

namespace Sys2Proof.Machine

open Sys2Proof.Claims

/-! ## A lone DLE before a token -/

section
variable (w : WaitPoint)

theorem storeRxAll_goto (bytes : List Byte) : ∀ (i : Nat) (s : State),
    storeRxAll i bytes (goto w s) = goto w (storeRxAll i bytes s) := by
  induction bytes with
  | nil => exact fun _ _ => rfl
  | cons b rest ih => intro i s; rw [storeRxAll, storeRx_goto, ih, storeRxAll]

theorem readRxByte_goto (i : Nat) (s : State) :
    readRxByte i (goto w s) = (readRxByte i s).map fun p => (p.1, goto w p.2) := by
  have hread : (goto w s).rxbuf.read i = s.rxbuf.read i := rfl
  have hmark : (goto w s).rxWritten i = s.rxWritten i := rfl
  simp only [readRxByte, rxByte, hread, hmark]
  cases s.rxbuf.read i with
  | some b => rfl
  | none => cases s.rxWritten i <;> rfl

theorem readRx_goto (n : Nat) : ∀ (i : Nat) (s : State),
    readRx i n (goto w s) = (readRx i n s).map fun p => (p.1, goto w p.2) := by
  induction n with
  | zero => exact fun _ _ => rfl
  | succ n ih =>
    intro i s
    simp only [readRx, readRxByte_goto]
    cases readRxByte i s with
    | error e => rfl
    | ok p =>
      simp only [Except.map, ih]
      cases readRx (i + 1) n p.2 <;> rfl

theorem check_goto {n minlen : Nat} {chk : Bool} {s : State} {k : Result → State → StepOutcome}
    (hk : ∀ r u, k r (goto w u) = k r u) : check n minlen chk (goto w s) k = check n minlen chk s k := by
  simp only [check, readRx_goto]
  cases readRx 0 n s with
  | error e => rfl
  | ok p => exact hk _ (applyCheck p.1 minlen chk p.2)

theorem substituteRcp_goto (s : State) : substituteRcp (goto w s) = substituteRcp s := by
  simp only [substituteRcp, storeRxAll_goto]
  exact check_goto w (s := setRxlen 5 (storeRxAll 0 Config.canonicalRcp s)) fun _ _ => rfl

/-- R182: the end of a frame completes the command, so where the command waited does not matter. -/
theorem frameEnd_goto (bits : List Bool) (truncated : Bool) (s : State) :
    frameEnd bits truncated (goto w s) = frameEnd bits truncated s := by
  have hctrl : (goto w s).ctrl = s.ctrl := rfl
  simp only [frameEnd, hctrl]
  split
  · exact substituteRcp_goto w s
  · rw [storeRxAll_goto]
    exact check_goto w (s := setRxlen _ (storeRxAll 0 (octets bits) s)) fun _ _ => rfl

theorem lostCarrier_goto (s : State) : lostCarrier (goto w s) = lostCarrier s := by
  have hrx : (goto w s).rx = s.rx := rfl
  simp only [lostCarrier, hrx]
  generalize (if s.rx.sync = .sync then s.rx.pend else []) = bits
  split
  · exact frameEnd_goto w bits true (rxReset s)
  · rfl

theorem runBacklog_goto (xs : List Bool) : ∀ s : State, runBacklog xs (goto w s) = runBacklog xs s := by
  induction xs with
  | nil => exact fun _ => rfl
  | cons x xs ih =>
    intro s
    have hguard : (goto w s).guard = s.guard := rfl
    have hrx : (goto w s).rx = s.rx := rfl
    simp only [runBacklog, hguard, hrx]
    generalize RxEngine.rxBit s.guard x { s.rx with backlog := xs } = p
    obtain ⟨e, ev⟩ := p
    cases ev with
    | none => exact ih { s with rx := e }
    | frame bits => exact frameEnd_goto w bits false { s with rx := e }
    | abort | oversize => rfl

theorem bitsResult_goto (r : DceRes) (s : State) : bitsResult r (goto w s) = bitsResult r s := by
  cases r with
  | noCarrier => exact lostCarrier_goto w (setLink .idle s)
  | ok | error | connect | fcerror | other => rfl

end

/-! ## Results, the end marker, unknown pairs -/

section
variable {s : State} {rest : List InToken} {r : DceRes}

theorem bits_engineStep_byte {v : Byte} (hw : s.pos = some .recvBits) (hin : s.inbound = inDoubled v ++ rest) :
    engineStep s = goOn (bitsByte v { s with inbound := rest }) := by
  refine bits_dataPhase.engineStep_byte hw hin (fun hv _ => if_neg hv) fun hv t => ?_
  subst hv
  exact runBacklog_goto _ _ t

theorem bits_engineStep_result {dle : Bool} (hw : s.pos = some .recvBits) (hin : s.inbound = afterDle dle ++ .res r :: rest) :
    engineStep s = goOn (bitsResult r { s with inbound := rest }) :=
  bits_dataPhase.engineStep_result hw hin (fun _ => rfl) (bitsResult_goto _ r)

/-- R134, R187: `<DLE><ETX>` leads to the wait for the result that ends the stream. -/
theorem bits_engineStep_end (hw : s.pos = some .recvBits) (hin : s.inbound = .byte 0x10 :: .byte 0x03 :: rest) :
    engineStep s = engineStep { s with inbound := rest, pos := some .recvBitsEnd } :=
  bits_dataPhase.engineStep_pair hw hin

/-- R187: the result that ends the stream. -/
theorem bitsEnd_engineStep (hw : s.pos = some .recvBitsEnd) (hr : r = .ok ∨ r = .noCarrier ∨ r = .error)
    (hin : s.inbound = .res r :: rest) : engineStep s = goOn (lostCarrier { s with inbound := rest, link := .idle }) := by
  rw [engineStep_cons hw nofun hin]
  rcases hr with rfl | rfl | rfl <;> rfl

theorem bits_engineStep_marked (hw : s.pos = some .recvBits) (hr : r = .ok ∨ r = .noCarrier ∨ r = .error)
    (hin : s.inbound = .byte 0x10 :: .byte 0x03 :: .res r :: rest) :
    engineStep s = goOn (lostCarrier { s with inbound := rest, link := .idle }) := by
  rw [bits_engineStep_end hw hin, bitsEnd_engineStep (s := { s with inbound := _, pos := _ }) rfl hr rfl]
  exact congrArg goOn (lostCarrier_goto .recvBitsEnd { s with inbound := rest, link := .idle })

/-- R183: the carrier's end with less than one octet in progress. -/
theorem lostCarrier_short (h : s.rx.sync = .hunt ∨ s.rx.pend.length < 8) :
    lostCarrier s = .next (endReceive 0 .carrierLost (rxReset s)) := by
  refine if_neg (fun hlen => ?_)
  split at hlen
  · rename_i hsync
    rcases h with h | h
    · rw [h] at hsync; exact absurd hsync nofun
    · omega
  · exact absurd hlen (by simp)

/-- RECV_BITS leaves no byte where it ends without a frame. -/
theorem endsReceive_nothing (r : Result) (s : State) : EndsReceive r [] s (endReceive 0 r s) :=
  endsReceive_held (bytes := []) (Nat.zero_le _) (fun i hi => absurd hi (Nat.not_lt_zero i)) r

theorem bits_lost (hstep : engineStep s = goOn (lostCarrier { s with inbound := rest, link := .idle }))
    (h : s.rx.sync = .hunt ∨ s.rx.pend.length < 8) :
    ∃ u, engineStep s = .next u
      ∧ EndsReceive .carrierLost [] { s with inbound := rest, link := .idle, rx := rxClear } u := by
  rw [lostCarrier_short (s := { s with inbound := rest, link := .idle }) h] at hstep
  exact ⟨_, hstep.trans (engineStep_idle (s := endReceive 0 .carrierLost _) rfl), endsReceive_nothing _ _⟩

theorem bits_dataResult {dle : Bool} (hw : s.pos = some .recvBits) (hin : s.inbound = afterDle dle ++ .res r :: rest)
    (hshort : r = .noCarrier → s.rx.sync = .hunt ∨ s.rx.pend.length < 8) :
    DataResult r .carrierLost [] { s with inbound := rest, link := .idle, rx := rxClear } s rest := by
  refine dataResult_of_goOn hw (bits_engineStep_result hw hin)
    (endsReceive_nothing (s := { s with inbound := rest, link := .idle, rx := rxClear })) ?_ ?_ ?_
  · rintro rfl
    exact lostCarrier_short (s := { s with inbound := rest, link := .idle }) (hshort rfl)
  · rintro (rfl | rfl) <;> rfl
  · rintro (rfl | rfl | rfl) <;> rfl

theorem bitsDle_unknown {x : Byte} (hx : x ≠ 0x10) (hx' : x ≠ 0x03) (t : State) :
    onToken .recvBitsDle (.byte x) t = .next (goto .recvBits (noteUnknownPair t)) :=
  (if_neg hx).trans (if_neg hx')

/-- R142, R187: what the wait for the result that ends the stream discards. -/
theorem streamEnd_discards {w : WaitPoint} (hend : w = .recvBitsEnd ∨ ∃ n, w = .recvRawEnd n) {x : InToken}
    (hok : x ≠ .res .ok) (hlost : x ≠ .res .noCarrier) (herror : x ≠ .res .error) (t : State) :
    onToken w x t = .next t := by
  cases x with
  | byte b => obtain rfl | ⟨n, rfl⟩ := hend <;> rfl
  | res r =>
    cases r with
    | ok => exact absurd rfl hok
    | noCarrier => exact absurd rfl hlost
    | error => exact absurd rfl herror
    | connect | fcerror | other => obtain rfl | ⟨n, rfl⟩ := hend <;> rfl

end

/-- Settles O30: each kind of token of the data phase, then the wait behind `<DLE><ETX>`. -/
theorem recvBitsCarrierLoss : Obligations.RecvBitsCarrierLoss := by
  refine ⟨fun s dle rest hw => ⟨fun r hin hshort => ?result, fun r hr hshort hin => ?marked,
    fun x hx hx' hin => ?unknown, fun hin => ?endMarker⟩, fun s r rest hw hr hshort hin => ?streamEnd,
    fun s w x rest hend hw hin hok hlost herror => ?discarded⟩
  case result => exact bits_dataResult hw hin hshort
  case marked => exact bits_lost (bits_engineStep_marked hw hr hin) hshort
  case unknown => exact bits_dataPhase.engineStep_unknown hw hin fun t => bitsDle_unknown hx hx' _
  case endMarker => exact bits_engineStep_end hw hin
  case streamEnd => exact bits_lost (bitsEnd_engineStep hw hr hin) hshort
  case discarded =>
    have hdelay : w ≠ .delay := by rintro rfl; simp at hend
    rw [engineStep_cons hw hdelay hin, streamEnd_discards hend hok hlost herror]
    rfl

end Sys2Proof.Machine
end

section
/-! PROOFS. The frame checks as the statements have them, and the frame that ends RECV_BITS (R106, R107, R180, R182). -/

namespace Sys2Proof.Machine

open Sys2Proof.Claims

section
variable {frame : List Byte}

theorem getD_of_short {i : Nat} (h : ¬ i + 1 ≤ frame.length) : frame.getD i 0 = 0 := by
  rw [List.getD_eq_getElem?_getD, List.getElem?_eq_none (by omega), Option.getD_none]

theorem addrOk_eq (frame : List Byte) : addrOk frame = (frame[0]? == some 0xFF) := by
  cases frame with
  | nil => rfl
  | cons b rest => simp [addrOk, frameByte, Config.addrValue]

theorem ctrlOk_eq (frame : List Byte) : ctrlOk frame = (frame.getD 1 0 &&& 0xF7 == 0xC0) := by
  have heq : ctrlOk frame = (decide (2 ≤ frame.length) && frame.getD 1 0 &&& 0xF7 == 0xC0) := rfl
  by_cases h : 2 ≤ frame.length
  · rw [heq, decide_eq_true h, Bool.true_and]
  · rw [heq, decide_eq_false h, getD_of_short h]
    rfl

theorem finalBit_eq (frame : List Byte) : finalBit frame = (frame.getD 1 0).getLsbD 3 := by
  have heq : finalBit frame = (decide (2 ≤ frame.length) && (frame.getD 1 0).getLsbD 3) := rfl
  by_cases h : 2 ≤ frame.length
  · rw [heq, decide_eq_true h, Bool.true_and]
  · rw [heq, decide_eq_false h, getD_of_short h]
    rfl

theorem fcf_eq (frame : List Byte) : (if 3 ≤ frame.length then frameByte frame 2 else 0) = frame.getD 2 0 := by
  split
  · rfl
  · rename_i h
    exact (getD_of_short h).symm

/-- R106, R107: the model's frame checks give the result of the statements. -/
theorem frameVerdict_eq (frame : List Byte) (minlen : Nat) (chk : Bool) :
    frameVerdict frame minlen chk = receivedResult minlen chk false false frame := by
  simp [frameVerdict, receivedResult, addrOk_eq, ctrlOk_eq, crcOk, Config.crcInit, Config.crcResidue]

/-- R106: RXSTAT from a frame, once VALID follows the final result. -/
theorem frameStat_eq (frame : List Byte) (minlen : Nat) (chk : Bool) (x : RxStat) (r : Result) :
    { frameStat frame minlen chk x with valid := r == .ok } = receivedStat minlen chk frame r x := by
  have hctrl : ctrlOk frame = (decide (2 ≤ frame.length) && frame.getD 1 0 &&& 0xF7 == 0xC0) := rfl
  rw [receivedStat, frameStat, addrOk_eq, hctrl, finalBit_eq, fcf_eq]
  rfl

/-- R180: the model's test for a malformed RCP. -/
theorem rcpBad_iff (fix : Bool) (frame : List Byte) (resid : Nat) (truncated : Bool) :
    rcpBad fix frame resid truncated = true ↔ MalformedRcp fix frame resid truncated := by
  match frame with
  | [] | [_] | [_, _] => simp [rcpBad, MalformedRcp]
  | a :: c :: f :: rest =>
    simp [rcpBad, MalformedRcp, frameByte, crcOk, Config.addrValue, Config.ctrlMask, Config.ctrlValue, Config.fcfRcp,
      Config.crcInit, Config.crcResidue, and_assoc, or_assoc]

/-- R182: the result of a frame on the bit path. -/
theorem bitFrameResult_eq (frame : List Byte) (resid : Nat) (truncated : Bool) :
    bitFrameResult truncated resid (frameVerdict frame 4 true)
      = if truncated then .truncated
        else if 4 ≤ frame.length ∧ resid ≠ 0 then .badAlign
        else receivedResult 4 true false false frame := by
  have hshort : frameVerdict frame 4 true ≠ .tooShort ↔ 4 ≤ frame.length := by
    unfold frameVerdict
    by_cases h : frame.length < 4
    · rw [if_pos h]
      exact ⟨fun hne => absurd rfl hne, fun hle => absurd h (by omega)⟩
    · rw [if_neg h]
      refine ⟨fun _ => by omega, fun _ => ?_⟩
      repeat' split
      all_goals exact nofun
  rw [bitFrameResult, ← frameVerdict_eq]
  simp [hshort]

end

/-- R182: a frame that is no malformed RCP. -/
theorem frameEnd_frame {s : State} {bits : List Bool} {truncated : Bool} (hlen : (octets bits).length ≤ 1048)
    (hrcp : ¬ MalformedRcp s.ctrl.rcpFix (octets bits) (bits.length % 8) truncated) {r : Result}
    (hr : r = bitFrameResult truncated (bits.length % 8) (frameVerdict (octets bits) 4 true)) :
    ∃ u, frameEnd bits truncated s = .next u ∧ EndsReceive r (octets bits) { s with
      crc := crc16 0xFFFF (octets bits)
      rxstat := { receivedStat 4 true (octets bits) r s.rxstat with alignErr := decide (bits.length % 8 ≠ 0) } } u := by
  have hend : frameEnd bits truncated s = .next (endReceive (octets bits).length r { s with
      crc := crc16 0xFFFF (octets bits)
      rxstat := { receivedStat 4 true (octets bits) r s.rxstat with alignErr := decide (bits.length % 8 ≠ 0) }
      rxbuf := s.rxbuf.writeAll 0 (octets bits) }) := by
    have hresid : (bits.length % 8 != 0) = decide (bits.length % 8 ≠ 0) := by rw [bne, beq_eq_decide, decide_not]
    have hknown := check_known (minlen := Config.rxMinLen) (chk := true) (octets bits)
      (s := setRxlen (octets bits).length { s with rxbuf := s.rxbuf.writeAll 0 (octets bits) })
      (k := fun r s1 => .next (finishFrame (bitFrameResult truncated (bits.length % 8) r)
        { s1 with rxstat := { s1.rxstat with alignErr := bits.length % 8 != 0 } })) holds_writeAll
    simp only [frameEnd]
    rw [if_neg (fun h => hrcp ((rcpBad_iff _ _ _ _).mp h)), storeRxAll_eq _ _ _ (by rw [Nat.zero_add]; exact hlen), hknown]
    refine congrArg Host.Outcome.next ?_
    have hstat : { frameStat (octets bits) 4 true s.rxstat with
          alignErr := bits.length % 8 != 0, valid := r == .ok }
        = { receivedStat 4 true (octets bits) r s.rxstat with alignErr := decide (bits.length % 8 ≠ 0) } := by
      rw [← frameStat_eq, hresid]
    rw [← hstat, hr]
    rfl
  exact ⟨_, hend, endsReceive_writeAll hlen r⟩

/-- R183: the carrier's end with an octet or more in progress. -/
theorem lostCarrier_frame_eq {s : State} (hsync : s.rx.sync = .sync) (hlen : 8 ≤ s.rx.pend.length) :
    lostCarrier s = frameEnd s.rx.pend true (rxReset s) := by
  simp only [lostCarrier, hsync, if_true, if_pos hlen]

theorem goOn_frameEnd (bits : List Bool) (truncated : Bool) (s : State) :
    goOn (frameEnd bits truncated s) = frameEnd bits truncated s := by
  refine goOn_completed fun t ht => ?_
  obtain ⟨r, rxbuf, rxlen, crc, rxstat, drawn, -⟩ := frameEnd_done bits truncated s t ht
  rfl

end Sys2Proof.Machine
end

section
/-! PROOFS. The receive engine's law for each line bit (R176 to R179), and RECV_BITS's data bytes (R184, R187). -/

namespace Sys2Proof.Machine

open Sys2Proof.Claims

section
variable {guard : Nat} {e e' : RxEngine} {x : Bool} {more : List Bool}

/-! ## One bit -/

/-- R177: a 0 after six 1s. -/
theorem RxEngine.rxBit_flag (h : e.ones = 6) : e.rxBit guard false = RxEngine.flagSeen { e with ones := 0 } := by
  simp [RxEngine.rxBit, h]

/-- R176: a 0 after five 1s is not content, nor is one after seven. -/
theorem RxEngine.rxBit_removed (h : e.ones = 5 ∨ e.ones = 7) : e.rxBit guard false = ({ e with ones := 0 }, .none) := by
  rcases h with h | h <;> simp [RxEngine.rxBit, h]

theorem RxEngine.rxBit_content (hsync : e.sync = .sync) (hx : if x then e.ones ≤ 5 else e.ones ≤ 4) :
    e.rxBit guard x = RxEngine.push guard x { e with ones := if x then e.ones + 1 else 0 } := by
  cases x with
  | true =>
    replace hx : e.ones ≤ 5 := hx
    have hmin : min (e.ones + 1) 7 = e.ones + 1 := by omega
    simp only [RxEngine.rxBit, if_true, hmin, hsync, if_neg (show e.ones + 1 ≠ 7 by omega)]
  | false =>
    replace hx : e.ones ≤ 4 := hx
    simp only [RxEngine.rxBit, Bool.false_eq_true, if_false, hsync, if_true, if_neg (show e.ones ≠ 6 by omega),
      if_neg (show e.ones ≠ 5 by omega), if_neg (show e.ones ≠ 7 by omega)]

theorem RxEngine.rxBit_seventh (h : 6 ≤ e.ones) : e.rxBit guard true = RxEngine.sevenOnes { e with ones := 7 } := by
  simp [RxEngine.rxBit, show min (e.ones + 1) 7 = 7 by omega]

/-- R176: in HUNT only a flag counts. -/
theorem RxEngine.rxBit_hunt (hhunt : e.sync = .hunt) (hx : x = true ∨ e.ones ≠ 6) :
    e.rxBit guard x = ({ e with ones := if x then min (e.ones + 1) 7 else 0 }, .none) := by
  cases x with
  | true => simp [RxEngine.rxBit, RxEngine.sevenOnes, hhunt]
  | false =>
    have hones : e.ones ≠ 6 := by simpa using hx
    simp [RxEngine.rxBit, hhunt, hones]

/-! ## The bits of a list -/

theorem feed_none (h : e.rxBit guard x = (e', .none)) : feed guard (x :: more) e = feed guard more e' := by
  rw [feed, h]

theorem feed_event {ev : RxEvent} (h : e.rxBit guard x = (e', ev)) (hev : ev ≠ .none) :
    feed guard (x :: more) e = (e', ev, more) := by
  rw [feed, h]
  cases ev with
  | none => exact absurd rfl hev
  | frame bits | abort | oversize => rfl

/-- R177: a flag. -/
theorem feed_flag (h : e.ones = 6) : feed guard (false :: more) e =
    match e.sync with
    | .hunt => feed guard more { e with sync := .sync, ones := 0, pend := [] }
    | .sync => if 15 ≤ e.pend.length
               then ({ e with ones := 0, pend := [] }, .frame (e.pend.take (e.pend.length - 7)), more)
               else feed guard more { e with ones := 0, pend := [] } := by
  have hbit := RxEngine.rxBit_flag (guard := guard) h
  cases hs : e.sync with
  | hunt =>
    refine feed_none (hbit.trans ?_)
    simp only [RxEngine.flagSeen, hs]
  | sync =>
    simp only [RxEngine.flagSeen, hs, List.length_take] at hbit
    by_cases hlen : 15 ≤ e.pend.length
    · rw [if_pos (by omega), show min 7 e.pend.length = 7 by omega] at hbit
      exact (feed_event hbit nofun).trans (if_pos hlen).symm
    · rw [if_neg (by omega)] at hbit
      exact (feed_none hbit).trans (if_neg hlen).symm

/-- R176, R179: a content bit, and the oversize guard. -/
theorem feed_content (hsync : e.sync = .sync) (hx : if x then e.ones ≤ 5 else e.ones ≤ 4) :
    feed guard (x :: more) e =
      if e.pend.length + 1 = 8 * (guard + 1) then
        ({ e with sync := .hunt, ones := if x then e.ones + 1 else 0, pend := [] }, .oversize, more)
      else feed guard more { e with ones := if x then e.ones + 1 else 0, pend := e.pend ++ [x] } := by
  have hbit := RxEngine.rxBit_content (guard := guard) hsync hx
  simp only [RxEngine.push, List.length_append, List.length_singleton] at hbit
  by_cases hlen : e.pend.length + 1 = 8 * (guard + 1)
  · rw [if_pos hlen] at hbit ⊢
    exact feed_event hbit nofun
  · rw [if_neg hlen] at hbit ⊢
    exact feed_none hbit

/-- R176: below the guard, up to six 1s in a row are content. -/
theorem feed_ones (n : Nat) : ∀ e : RxEngine, e.sync = .sync → e.ones + n = 6 → e.pend.length + n < 8 * (guard + 1) →
    feed guard (List.replicate n true ++ more) e
      = feed guard more { e with ones := 6, pend := e.pend ++ List.replicate n true } := by
  induction n with
  | zero =>
    intro e _ hones _
    rw [List.replicate_zero, List.nil_append, List.append_nil, ← hones]
    rfl
  | succ n ih =>
    intro e hsync hones hlen
    have hfit : e.pend.length + 1 ≠ 8 * (guard + 1) := by omega
    rw [List.replicate_succ, List.cons_append, feed_content hsync (by simp; omega), if_neg hfit]
    refine (ih { e with ones := e.ones + 1, pend := e.pend ++ [true] } hsync (by simp; omega) (by simp; omega)).trans ?_
    simp

/-- R178: the run of 1s that ends a frame. -/
theorem feed_seven (hsync : e.sync = .sync) (hones : e.ones ≤ 6) (hlen : e.pend.length + 6 < 8 * (guard + 1) + e.ones) :
    feed guard (List.replicate (7 - e.ones) true ++ more) e =
      if 8 + e.ones ≤ e.pend.length then ({ e with sync := .hunt, ones := 7, pend := [] }, .abort, more)
      else feed guard more { e with sync := .hunt, ones := 7, pend := [] } := by
  have hbit := RxEngine.rxBit_seventh (guard := guard) (e := { e with ones := 6, pend := e.pend ++ List.replicate (6 - e.ones) true })
    (Nat.le_refl 6)
  simp only [RxEngine.sevenOnes, hsync, List.length_append, List.length_replicate] at hbit
  rw [show 7 - e.ones = 6 - e.ones + 1 by omega, List.replicate_succ', List.append_assoc, List.singleton_append,
    feed_ones _ e hsync (by omega) (by omega), hsync]
  by_cases hframe : 8 + e.ones ≤ e.pend.length
  · rw [if_pos (by omega)] at hbit
    rw [feed_event hbit nofun, if_pos hframe]
  · rw [if_neg (by omega)] at hbit
    rw [feed_none hbit, if_neg hframe]

/-! ## The backlog -/

theorem RxEngine.push_withBacklog (b : List Bool) : RxEngine.push guard x { e with backlog := b }
    = ({ (e.push guard x).1 with backlog := b }, (e.push guard x).2) := by
  simp only [RxEngine.push]
  split <;> rfl

theorem RxEngine.flagSeen_withBacklog (b : List Bool) : RxEngine.flagSeen { e with backlog := b }
    = ({ e.flagSeen.1 with backlog := b }, e.flagSeen.2) := by
  cases h : e.sync <;> simp only [RxEngine.flagSeen, h]

theorem RxEngine.sevenOnes_withBacklog (b : List Bool) : RxEngine.sevenOnes { e with backlog := b }
    = ({ e.sevenOnes.1 with backlog := b }, e.sevenOnes.2) := by
  cases h : e.sync <;> simp only [RxEngine.sevenOnes, h]

/-- R184: the engine does not look at the backlog. -/
theorem RxEngine.rxBit_withBacklog (b : List Bool) : RxEngine.rxBit guard x { e with backlog := b }
    = ({ (e.rxBit guard x).1 with backlog := b }, (e.rxBit guard x).2) := by
  cases x with
  | true =>
    simp only [RxEngine.rxBit, if_true]
    split
    · exact RxEngine.sevenOnes_withBacklog (e := { e with ones := min (e.ones + 1) 7 }) b
    · split
      · exact RxEngine.push_withBacklog (e := { e with ones := min (e.ones + 1) 7 }) b
      · rfl
  | false =>
    simp only [RxEngine.rxBit, Bool.false_eq_true, if_false]
    split
    case isTrue => exact RxEngine.flagSeen_withBacklog (e := { e with ones := 0 }) b
    split
    case isTrue => rfl
    split
    case isTrue => rfl
    split
    case isTrue => exact RxEngine.push_withBacklog (e := { e with ones := 0 }) b
    case isFalse => rfl

/-- R184, R187: the backlog goes through the engine as the statements' `feed` has it. -/
theorem runBacklog_feed (s : State) (xs : List Bool) : ∀ (e : RxEngine) (b : List Bool),
    BitsTaken (feed s.guard xs e) s (runBacklog xs { s with rx := { e with backlog := b } })
      fun t => .next (goto .recvBits t) := by
  induction xs with
  | nil => exact fun _ _ => rfl
  | cons x xs ih =>
    intro e b
    have hguard (f : RxEngine) : State.guard { s with rx := f } = s.guard := rfl
    have hbit := RxEngine.rxBit_withBacklog (guard := s.guard) (x := x) (e := e) xs
    simp only [runBacklog, hguard, hbit]
    cases h : e.rxBit s.guard x with
    | mk e1 ev =>
      cases ev with
      | none =>
        rw [feed_none h]
        exact ih e1 xs
      | frame bits =>
        rw [feed_event h nofun]
        rfl
      | abort | oversize =>
        rw [feed_event h nofun]
        exact ⟨_, rfl, endsReceive_nothing _ { s with rx := { e1 with backlog := xs } }⟩

/-- R241: the ENGINE goes on where the bits gave no event, and stops where one completed the command. -/
theorem bitsTaken_goOn {p : RxEngine × RxEvent × List Bool} {s : State} {o : StepOutcome} (hw : s.pos = some .recvBits)
    (h : BitsTaken p s o fun t => .next (goto .recvBits t)) : BitsTaken p s (goOn o) engineStep := by
  have hover {r : Result} {t : State} (h : ∃ u, o = .next u ∧ EndsReceive r [] t u) :
      ∃ u, goOn o = .next u ∧ EndsReceive r [] t u := by
    obtain ⟨u, rfl, hends⟩ := h
    have ⟨_, _, hover⟩ := hends
    have hpos : u.pos = none := by rw [hover]; rfl
    exact ⟨u, engineStep_idle hpos, hends⟩
  obtain ⟨e1, ev, unused⟩ := p
  cases ev with
  | none =>
    rw [show o = _ from h]
    exact congrArg engineStep <| goto_self (s := { s with rx := { e1 with backlog := [] } }) hw
  | frame bits => exact (congrArg goOn h).trans (goOn_frameEnd bits false _)
  | abort | oversize => exact hover h

theorem bits_engineStep_taken {s : State} {v : Byte} {rest : List InToken} (hw : s.pos = some .recvBits)
    (hin : s.inbound = inDoubled v ++ rest) :
    BitsTaken (feed s.guard (lineBits v) s.rx) { s with inbound := rest } (engineStep s) engineStep := by
  rw [bits_engineStep_byte hw hin]
  exact bitsTaken_goOn hw (runBacklog_feed { s with inbound := rest } (lineBits v) s.rx s.rx.backlog)

/-- R181: bit `7 - k` of octet `i` is bit `8 i + k` of the list. -/
theorem octets_getLsbD (bits : List Bool) : ∀ i k, i < bits.length / 8 → k < 8 →
    ((octets bits).getD i 0).getLsbD (7 - k) = bits.getD (8 * i + k) false := by
  induction bits using octets.induct with
  | case1 b0 b1 b2 b3 b4 b5 b6 b7 rest ih =>
    intro i k hi hk
    cases i with
    | zero =>
      refine (octet_getLsbD b0 b1 b2 b3 b4 b5 b6 b7 hk).trans ?_
      interval_cases k <;> rfl
    | succ i =>
      refine (ih i k (by simp only [List.length_cons] at hi; omega) hk).trans ?_
      rw [show 8 * (i + 1) + k = 8 * i + k + 8 by omega]
      rfl
  | case2 bits hshort =>
    intro i k hi
    rw [← length_octets, octets.eq_2 bits hshort] at hi
    exact absurd hi (Nat.not_lt_zero i)

end

/-- Settles O28: the frame's end, the carrier's end, the data bytes, and the engine's law for each bit. -/
theorem recvBitsEnds : Obligations.RecvBitsEnds := by
  refine ⟨fun s bits truncated frame hframe hlen hrcp => ?frameEnd, fun s r dle rest hsync hlen h => ?carrierEnd,
    fun s v rest hw hin => bits_engineStep_taken hw hin,
    fun guard e more => ⟨feed_flag, fun h => feed_none (RxEngine.rxBit_removed h), feed_seven, fun x => feed_content⟩,
    fun guard e more x hhunt hx => feed_none (RxEngine.rxBit_hunt hhunt hx),
    fun bits => ⟨length_octets bits, octets_getLsbD bits⟩, fun s => ?guard⟩
  case frameEnd =>
    subst hframe
    obtain ⟨u, hu, hends⟩ := frameEnd_frame hlen hrcp rfl
    exact ⟨u, _, hu, bitFrameResult_eq _ _ _, hends⟩
  case carrierEnd =>
    have hlost : engineStep s = goOn (lostCarrier { s with inbound := rest, link := .idle }) := by
      obtain ⟨hw, hin⟩ | ⟨hr, ⟨hw, hin⟩ | ⟨hw, hin⟩⟩ := h
      · exact bits_engineStep_result hw hin
      · exact bits_engineStep_marked hw hr hin
      · exact bitsEnd_engineStep hw hr hin
    rw [hlost, lostCarrier_frame_eq (s := { s with inbound := rest, link := .idle }) hsync hlen]
    exact goOn_frameEnd _ _ _
  case guard =>
    rw [State.guard]
    cases s.fs64 <;> rfl

end Sys2Proof.Machine
end

section
/-! PROOFS. The encoding (R81 to R84): decoding undoes encoding and encoding undoes decoding, the table of match and mask
values accepts what decodes, and a word that does not decode completes with ILLEGAL_CMD. -/

namespace Sys2Proof

/-! ## A command word and its fields -/

/-- R93: a word is put together from its three fields. -/
theorem cmdWord_fields (w : Word) : cmdWord (opField w) (arg8 w) (arg16 w) = w := by
  apply BitVec.eq_of_getLsbD_eq
  intro i hi
  simp only [cmdWord, opField, arg8, arg16, BitVec.getLsbD_append, BitVec.getLsbD_extractLsb']
  by_cases h8 : i < 8
  · simp [h8, show i < 16 by omega]
  · by_cases h16 : i < 16
    · simp [h8, h16, show i - 8 < 8 by omega, show 8 + (i - 8) = i by omega]
    · simp [h16, show i - 16 < 16 by omega, show 16 + (i - 16) = i by omega]

theorem cmdWord_eq_of_fields {op a8 : Byte} {a16 : Half} {w : Word} (hop : (opField w).toNat = op.toNat)
    (h8 : a8 = arg8 w) (h16 : a16 = arg16 w) : cmdWord op a8 a16 = w := by
  rw [h8, h16, ← BitVec.eq_of_toNat_eq hop, cmdWord_fields]

theorem opField_and (v w : Word) : opField (v &&& w) = opField v &&& opField w := BitVec.extractLsb'_and
theorem arg8_and (v w : Word) : arg8 (v &&& w) = arg8 v &&& arg8 w := BitVec.extractLsb'_and
theorem arg16_and (v w : Word) : arg16 (v &&& w) = arg16 v &&& arg16 w := BitVec.extractLsb'_and

/-! ## Flags and reserved bits of an argument -/

@[simp] theorem flag8_getElem_zero (b : Bool) : (flag8 b)[0] = b := by cases b <;> rfl
@[simp] theorem flag16_getElem_zero (b : Bool) : (flag16 b)[0] = b := by cases b <;> rfl
@[simp] theorem flag8_and_reserved (b : Bool) : flag8 b &&& 0xFE#8 = 0#8 := by cases b <;> rfl
@[simp] theorem flag16_and_reserved (b : Bool) : flag16 b &&& 0xFFFE#16 = 0#16 := by cases b <;> rfl

/-- R84: with the reserved bits 0, the bits that are not reserved are the whole argument. -/
theorem and_eq_self_of_reserved {n : Nat} {x free : BitVec n} (h : x &&& ~~~free = 0) : x &&& free = x := by
  calc x &&& free = x &&& free ||| x &&& ~~~free := by rw [h]; simp
    _ = x &&& (free ||| ~~~free) := by rw [BitVec.and_or_distrib_left]
    _ = x := by simp

theorem eq_zero_of_reserved {n : Nat} {x : BitVec n} (h : x &&& ~~~0 = 0) : 0 = x := by
  simpa using and_eq_self_of_reserved h

theorem flag8_getLsbD_zero (x : Byte) : flag8 (x.getLsbD 0) = x &&& 1 := by revert x; decide
theorem flags8_getLsbD (x : Byte) : flag8 (x.getLsbD 0) ||| (flag8 (x.getLsbD 1) <<< 1) = x &&& 3 := by
  revert x; decide
theorem flag16_getLsbD_zero (x : Half) : flag16 (x.getLsbD 0) = x &&& 1#16 := by
  rw [BitVec.and_one_eq_setWidth_ofBool_getLsbD]
  cases x.getLsbD 0 <;> rfl

theorem flag8_of_reserved {x : Byte} (h : x &&& 0xFE = 0) : flag8 (x.getLsbD 0) = x :=
  (flag8_getLsbD_zero x).trans (and_eq_self_of_reserved h)

theorem flags8_of_reserved {x : Byte} (h : x &&& 0xFC = 0) :
    flag8 (x.getLsbD 0) ||| (flag8 (x.getLsbD 1) <<< 1) = x :=
  (flags8_getLsbD x).trans (and_eq_self_of_reserved h)

theorem flag16_of_reserved {x : Half} (h : x &&& 0xFFFE = 0) : flag16 (x.getLsbD 0) = x :=
  (flag16_getLsbD_zero x).trans (and_eq_self_of_reserved h)

/-! ## Decoding what was encoded -/

theorem decode_encode {i : Instr} (h : WellFormed i) : decode (encode i) = .ok i := by
  cases i with
  | nop | crcInit | frameFcs | sendHdlc | recvHdlc | sendRaw | recvBits | sendV34 | recvV34 | rxDropWait | txEnd
  | abort => rfl
  | crcFeed | sendInd | txSilence | rxSilence | delay | frameCheck | waitChannel | sendBits | txCarrier | rxCarrier =>
    simp [encode, decode, checkReserved]
  | bitsReset rx tx => revert rx tx; decide
  | recvRaw count => simp [encode, decode, checkReserved, checkCount, Except.bind, h]

/-- Settles O1: the fields of the word are those of the instruction, with the reserved bits 0. -/
theorem decodeOfEncode : Obligations.DecodeOfEncode := fun _ => decode_encode

/-! ## Encoding what was decoded -/

theorem checkReserved_eq_ok {w : Word} {res8 : Byte} {res16 : Half} {i j : Instr} :
    checkReserved w res8 res16 i = .ok j ↔ i = j ∧ arg8 w &&& res8 = 0 ∧ arg16 w &&& res16 = 0 := by
  unfold checkReserved
  split
  case isTrue h => simp [h]
  case isFalse h => simp only [reduceCtorEq, h, and_false]

theorem checkCount_eq_ok {i j : Instr} : checkCount i = .ok j ↔ i = j ∧ WellFormed i := by
  simp only [checkCount]
  split
  case isTrue h => simp [WellFormed, h]
  case isFalse h => simp [WellFormed, h]

/-- R84: RECV_RAW's word decodes where its reserved bits are 0 and its count is in range. -/
theorem checkReserved_bind_checkCount_eq_ok {w : Word} {res8 : Byte} {res16 : Half} {i j : Instr} :
    (checkReserved w res8 res16 i).bind checkCount = .ok j
      ↔ i = j ∧ (arg8 w &&& res8 = 0 ∧ arg16 w &&& res16 = 0) ∧ WellFormed i := by
  unfold checkReserved
  split
  case isTrue h => simp [h, Except.bind, checkCount_eq_ok]
  case isFalse h => simp only [Except.bind, reduceCtorEq, h, false_and, and_false]

theorem encode_of_decode {w : Word} {i : Instr} (h : decode w = .ok i) : encode i = w := by
  unfold decode at h
  split at h
  case h_9 hop => -- RECV_RAW checks its count besides
    obtain ⟨rfl, ⟨h8, -⟩, -⟩ := checkReserved_bind_checkCount_eq_ok.mp h
    exact cmdWord_eq_of_fields hop (eq_zero_of_reserved h8) rfl
  case h_25 => cases h
  all_goals
    rename_i hop
    obtain ⟨rfl, h8, h16⟩ := checkReserved_eq_ok.mp h
  -- The cases are the decoder's rows; a row is told by which of its arguments are free, a flag, or reserved.
  case h_3 | h_16 | h_19 | h_20 => exact cmdWord_eq_of_fields hop rfl (eq_zero_of_reserved h16)
  case h_5 | h_15 => exact cmdWord_eq_of_fields hop (flag8_of_reserved h8) (eq_zero_of_reserved h16)
  case h_10 => exact cmdWord_eq_of_fields hop (flags8_of_reserved h8) (eq_zero_of_reserved h16)
  case h_11 | h_17 | h_18 => exact cmdWord_eq_of_fields hop rfl (flag16_of_reserved h16)
  case h_23 => exact cmdWord_eq_of_fields hop (eq_zero_of_reserved h8) rfl
  all_goals exact cmdWord_eq_of_fields hop (eq_zero_of_reserved h8) (eq_zero_of_reserved h16)

/-- Settles O2: the opcode is the row's, and the bits of an argument that the instruction does not hold are 0. -/
theorem encodeOfDecode : Obligations.EncodeOfDecode := fun _ _ h => ⟨encode_of_decode h, decode_wellFormed h⟩

/-! ## The legal words -/

theorem legal_encode {i : Instr} (h : WellFormed i) : legal (encode i) = true :=
  match i with
  | .nop => Laws.EncodeLegal.nop h
  | .crcInit => Laws.EncodeLegal.crcInit h
  | .crcFeed b => Laws.EncodeLegal.crcFeed b h
  | .frameFcs => Laws.EncodeLegal.frameFcs h
  | .frameCheck chkCrc => Laws.EncodeLegal.frameCheck chkCrc h
  | .sendHdlc => Laws.EncodeLegal.sendHdlc h
  | .recvHdlc => Laws.EncodeLegal.recvHdlc h
  | .sendRaw => Laws.EncodeLegal.sendRaw h
  | .recvRaw count => Laws.EncodeLegal.recvRaw count h
  | .bitsReset rx tx => Laws.EncodeLegal.bitsReset rx tx h
  | .sendBits flags flush => Laws.EncodeLegal.sendBits flags flush h
  | .recvBits => Laws.EncodeLegal.recvBits h
  | .sendV34 => Laws.EncodeLegal.sendV34 h
  | .recvV34 => Laws.EncodeLegal.recvV34 h
  | .waitChannel awaitCtrl => Laws.EncodeLegal.waitChannel awaitCtrl h
  | .sendInd x => Laws.EncodeLegal.sendInd x h
  | .txCarrier mod hdlc => Laws.EncodeLegal.txCarrier mod hdlc h
  | .rxCarrier mod hdlc => Laws.EncodeLegal.rxCarrier mod hdlc h
  | .txSilence n => Laws.EncodeLegal.txSilence n h
  | .rxSilence n => Laws.EncodeLegal.rxSilence n h
  | .rxDropWait => Laws.EncodeLegal.rxDropWait h
  | .txEnd => Laws.EncodeLegal.txEnd h
  | .delay ms => Laws.EncodeLegal.delay ms h
  | .abort => Laws.EncodeLegal.abort h

/-- R84: a mask holds the whole opcode and the reserved bits of the arguments, and a pattern only the opcode. -/
theorem opRows_fields :
    ∀ r ∈ opRows, opField r.mask = BitVec.allOnes 8 ∧ arg8 r.pattern = 0 ∧ arg16 r.pattern = 0 := by
  decide

theorem opRows_countRange : ∀ r ∈ opRows, r.countRange = true → r = ⟨0x13, 0x0000FFFF, true⟩ := by decide

/-- R84: a word that a row accepts has the row's opcode and 0 in its reserved bits, and RECV_RAW's count is in range. -/
theorem OpRow.fields_of_accepts {r : OpRow} {w : Word} (hr : r ∈ opRows) (h : r.accepts w = true) :
    opField w = opField r.pattern ∧ (arg8 w &&& arg8 r.mask = 0 ∧ arg16 w &&& arg16 r.mask = 0)
      ∧ (r.countRange = true → WellFormed (.recvRaw (arg16 w))) := by
  obtain ⟨hmask, hp8, hp16⟩ := opRows_fields r hr
  simp only [OpRow.accepts, Bool.and_eq_true, decide_eq_true_eq] at h
  obtain ⟨hw, hcount⟩ := h
  refine ⟨?_, ⟨?_, ?_⟩, fun hc => ?_⟩
  · rw [← hw, opField_and, hmask, BitVec.and_allOnes]
  · rw [← arg8_and, hw, hp8]
  · rw [← arg16_and, hw, hp16]
  · simpa [hc, WellFormed, wellFormed] using hcount

/-- R83: the decoder checks the reserved bits of the row that has the word's opcode. -/
theorem decode_eq_checkReserved {r : OpRow} {w : Word} (hr : r ∈ opRows) (hc : r.countRange = false)
    (hop : opField w = opField r.pattern) :
    ∃ i, decode w = checkReserved w (arg8 r.mask) (arg16 r.mask) i := by
  unfold decode
  rw [hop]
  fin_cases hr
  on_goal 9 => cases hc -- RECV_RAW's row has a count range
  all_goals exact ⟨_, rfl⟩

theorem decode_recvRaw {w : Word} (hop : opField w = 0x13) :
    decode w = (checkReserved w 0xFF 0x0000 (.recvRaw (arg16 w))).bind checkCount := by
  unfold decode
  rw [hop]
  rfl

theorem decode_of_legal {w : Word} (h : legal w = true) : ∃ i, decode w = .ok i := by
  obtain ⟨r, hr, haccepts⟩ := List.any_eq_true.mp h
  obtain ⟨hop, hreserved, hcount⟩ := OpRow.fields_of_accepts hr haccepts
  cases hc : r.countRange with
  | false =>
    obtain ⟨i, hi⟩ := decode_eq_checkReserved hr hc hop
    exact ⟨i, hi.trans (checkReserved_eq_ok.mpr ⟨rfl, hreserved⟩)⟩
  | true =>
    obtain rfl := opRows_countRange r hr hc
    exact ⟨_, (decode_recvRaw hop).trans (checkReserved_bind_checkCount_eq_ok.mpr ⟨rfl, hreserved, hcount hc⟩)⟩

theorem legal_iff_decode {w : Word} : legal w = true ↔ ∃ i, decode w = .ok i := by
  refine ⟨decode_of_legal, fun ⟨i, hi⟩ => ?_⟩
  rw [← encode_of_decode hi]
  exact legal_encode (decode_wellFormed hi)

end Sys2Proof

namespace Sys2Proof.Machine

/-- R80: a word that is not legal starts no command. -/
theorem startCommand_illegal {w : Word} (h : legal w = false) (s : State) :
    startCommand w s = .next (illegalCommand w s) := by
  unfold startCommand
  split
  case h_1 i hi => simp [legal_iff_decode.mpr ⟨i, hi⟩] at h
  case h_2 => rfl

theorem illegalCommand_eq {s : State} (hp : s.pos = none) (w : Word) :
    illegalCommand w s = { s with status := { s.status with
      lastCmd := w.extractLsb' 0 8, result := .illegalCmd, done := true, err := true
      ovr := s.status.ovr || s.status.done } } := by
  simp [illegalCommand, complete, Status.completed, opField, hp]

/-- Settles O3: a table row accepts what the decoder does, and `complete` writes only STATUS where no command runs. -/
theorem legalWordsAndIllegalEffect : Obligations.LegalWordsAndIllegalEffect :=
  ⟨fun _ => legal_iff_decode, fun w s hp h => by rw [startCommand_illegal h, illegalCommand_eq hp]⟩

end Sys2Proof.Machine

namespace Sys2Proof

theorem decode_of_encode_eq {w : Word} {i : Instr} (hwf : WellFormed i) (h : encode i = w) : decode w = .ok i :=
  h ▸ decode_encode hwf

/-- Settles O4: an accepted word is the word of its command, and each refused word fails one check of R84. -/
theorem specWordsDecode : Obligations.SpecWordsDecode := by
  refine ⟨?_, ?_, ?_, ?_, ?_, ?_, ?_, ?_, ?_, ?_, ?reservedBits, ?countOutOfRange, ?reservedOpcode⟩
  case reservedBits | countOutOfRange | reservedOpcode => rfl
  all_goals exact decode_of_encode_eq rfl rfl

end Sys2Proof
end

section
/-! PROOFS. CRC-16/T.30 (R100 to R102): one shift is linear and one to one, so a byte that differs leaves a CRC that
differs, and the FCS bytes cancel the CRC down to the residue. -/

namespace Sys2Proof.Machine

/-! ## Shifts -/

theorem crcShift_eq (x : Half) : crcShift x = (x <<< 1) ^^^ (if x.getLsbD 15 then Config.crcPoly else 0) := by
  unfold crcShift
  split <;> simp

theorem crcShift_xor (x y : Half) : crcShift (x ^^^ y) = crcShift x ^^^ crcShift y := by
  have hpoly (a b : Bool) : (if a ^^ b then Config.crcPoly else 0)
      = (if a then Config.crcPoly else 0) ^^^ (if b then Config.crcPoly else 0) := by
    cases a <;> cases b <;> simp
  simp only [crcShift_eq, BitVec.getLsbD_xor, BitVec.shiftLeft_xor_distrib, hpoly]
  ac_rfl

/-- The polynomial has bit 0, so bit 0 of a shift is the bit shifted out. -/
theorem crcShift_getLsbD_zero (x : Half) : (crcShift x).getLsbD 0 = x.getLsbD 15 := by
  rw [crcShift_eq]
  cases x.getLsbD 15 <;> simp [Config.crcPoly]

/-- A shift loses no bit: what it shifts out is bit 0 of the outcome. -/
theorem crcShift_injective : Function.Injective crcShift := by
  intro x y h
  have htop : x.getLsbD 15 = y.getLsbD 15 := by rw [← crcShift_getLsbD_zero, h, crcShift_getLsbD_zero]
  rw [crcShift_eq, crcShift_eq, htop, BitVec.xor_left_inj] at h
  refine BitVec.eq_of_getLsbD_eq fun i hi => ?_
  by_cases h15 : i = 15
  · rw [h15, htop]
  · have hbit := congrArg (BitVec.getLsbD · (i + 1)) h
    simpa [hi, show i + 1 < 16 by omega] using hbit

theorem iterate_crcShift_xor (n : Nat) (x y : Half) : crcShift^[n] (x ^^^ y) = crcShift^[n] x ^^^ crcShift^[n] y := by
  induction n with
  | zero => rfl
  | succ n ih => simp only [Function.iterate_succ_apply', ih, crcShift_xor]

/-- The low byte moves up unchanged in up to eight shifts: no bit of it is shifted out. -/
theorem iterate_crcShift_byte (b : Byte) {n : Nat} (hn : n ≤ 8) :
    crcShift^[n] (b.zeroExtend 16) = b.zeroExtend 16 <<< n := by
  induction n with
  | zero => simp
  | succ n ih =>
    have htop : (b.zeroExtend 16 <<< n).getLsbD 15 = false := by
      simp only [BitVec.getLsbD_shiftLeft, BitVec.getLsbD_setWidth, BitVec.getLsbD_of_ge b (15 - n) (by omega)]
      simp
    rw [Function.iterate_succ_apply', ih (by omega), crcShift_eq, htop, BitVec.shiftLeft_add]
    simp

/-! ## Bytes -/

theorem crcStep_eq (c : Half) (b : Byte) : crcStep c b = crcShift^[8] (c ^^^ (b.zeroExtend 16 <<< 8)) := rfl

theorem crcStep_injective_left (b : Byte) : Function.Injective (crcStep · b) := fun _ _ h =>
  (BitVec.xor_left_inj _).mp (crcShift_injective.iterate 8 h)

theorem crcStep_injective_right (c : Half) : Function.Injective (crcStep c) := by
  intro b b' h
  have hshifted := (BitVec.xor_right_inj _).mp (crcShift_injective.iterate 8 h)
  refine BitVec.eq_of_getLsbD_eq fun i hi => ?_
  have hbit := congrArg (BitVec.getLsbD · (i + 8)) hshifted
  simpa [hi, show i + 8 < 16 by omega, show i < 16 by omega] using hbit

/-- The high byte of the complement leaves of the CRC its low byte, below a high byte of 1s. -/
theorem xor_hiByte_not (c : Half) :
    c ^^^ ((hiByte (~~~c)).zeroExtend 16 <<< 8) = 0xFF00 ^^^ (loByte c).zeroExtend 16 := by
  refine BitVec.eq_of_getLsbD_eq fun i hi => ?_
  simp only [hiByte, loByte]
  interval_cases i <;> simp

/-- The low byte of a CRC and of its complement, both moved up, cancel down to 1s. -/
theorem xor_loByte_not (c : Half) :
    ((loByte c).zeroExtend 16 <<< 8) ^^^ ((loByte (~~~c)).zeroExtend 16 <<< 8) = (0xFF00 : Half) := by
  refine BitVec.eq_of_getLsbD_eq fun i hi => ?_
  simp only [loByte]
  interval_cases i <;> simp

/-- R102: whatever the CRC, its complement's two bytes take it to the residue. -/
theorem crcStep_complement (c : Half) :
    crcStep (crcStep c (hiByte (~~~c))) (loByte (~~~c)) = 0x1D0F := by
  have hhi : crcStep c (hiByte (~~~c)) = crcShift^[8] 0xFF00 ^^^ ((loByte c).zeroExtend 16 <<< 8) := by
    rw [crcStep_eq, xor_hiByte_not, iterate_crcShift_xor, iterate_crcShift_byte _ (Nat.le_refl 8)]
  rw [crcStep_eq, hhi, BitVec.xor_assoc, xor_loByte_not]
  simp [crcShift, Config.crcPoly]

/-! ## Byte lists -/

theorem crc16_append (c : Half) (xs ys : List Byte) : crc16 c (xs ++ ys) = crc16 (crc16 c xs) ys := List.foldl_append

theorem crc16_injective (bytes : List Byte) : Function.Injective (crc16 · bytes) := by
  induction bytes with
  | nil => exact fun _ _ h => h
  | cons b rest ih => exact fun _ _ h => crcStep_injective_left b (ih h)

/-- R102: a body followed by its FCS has the residue. -/
theorem crc16_fcsBytes (body : List Byte) : crc16 (crc16 0xFFFF body) (fcsBytes body) = 0x1D0F :=
  crcStep_complement (crc16 0xFFFF body)

/-- R102: lists that differ in one byte have CRCs that differ. -/
theorem crc16_byte_injective {c : Half} {before after : List Byte} {b b' : Byte}
    (h : crc16 c (before ++ b :: after) = crc16 c (before ++ b' :: after)) : b = b' := by
  rw [crc16_append, crc16_append] at h
  exact crcStep_injective_right _ (crc16_injective after h)

/-- Settles O7: the FCS bytes cancel the CRC, and every step of the CRC is one to one. -/
theorem crcResidueAndErrorDetection : Obligations.CrcResidueAndErrorDetection := by
  refine ⟨fun body => ?residue, fun before after b b' hne hok hok' => ?detected, fun _ => ⟨rfl, rfl⟩, ?examples⟩
  case residue => rw [crc16_append, crc16_fcsBytes]
  case detected => exact hne (crc16_byte_injective (hok.trans hok'.symm))
  case examples => simp [fcs, crc16, crcStep, crcShift, Config.crcPoly, Config.crcInit]

end Sys2Proof.Machine
end

section
/-! PROOFS. The frame buffer and CRC commands (R103, R110 to R114): what each completes with, and the words of
theirs that are refused. -/

namespace Sys2Proof

/-! ## Refused words -/

theorem checkReserved_error {w : Word} {res8 : Byte} {res16 : Half} {i : Instr}
    (h : ¬ (arg8 w &&& res8 = 0 ∧ arg16 w &&& res16 = 0)) : checkReserved w res8 res16 i = .error .reservedBits :=
  if_neg h

/-- R84: a word that its row decodes to `i` or refuses is refused where it is not the word of `i`. -/
theorem decode_reservedBits {w : Word} {res8 : Byte} {res16 : Half} {i : Instr}
    (hrow : decode w = checkReserved w res8 res16 i) (hne : encode i ≠ w) : decode w = .error .reservedBits := by
  refine hrow.trans (checkReserved_error fun hok => hne (encode_of_decode (hrow.trans ?_)))
  exact checkReserved_eq_ok.mpr ⟨rfl, hok⟩

section
variable {w : Word}

theorem decode_nop_row (h : opField w = 0x00) : decode w = checkReserved w 0xFF 0xFFFF .nop := by
  rw [decode, h]; rfl

theorem decode_crcInit_row (h : opField w = 0x01) : decode w = checkReserved w 0xFF 0xFFFF .crcInit := by
  rw [decode, h]; rfl

theorem decode_crcFeed_row (h : opField w = 0x02) : decode w = checkReserved w 0x00 0xFFFF (.crcFeed (arg8 w)) := by
  rw [decode, h]; rfl

theorem decode_frameFcs_row (h : opField w = 0x03) : decode w = checkReserved w 0xFF 0xFFFF .frameFcs := by
  rw [decode, h]; rfl

theorem decode_frameCheck_row (h : opField w = 0x04) :
    decode w = checkReserved w 0xFE 0xFFFF (.frameCheck ((arg8 w).getLsbD 0)) := by
  rw [decode, h]; rfl

end

/-! ## The words of the commands -/

theorem encode_crcFeed (b : Byte) : encode (.crcFeed b) = 0x00000002 ||| (b.zeroExtend 32 <<< 8) := by
  refine BitVec.eq_of_getLsbD_eq fun k hk => ?_
  simp only [encode, cmdWord, BitVec.getLsbD_append, BitVec.getLsbD_or, BitVec.getLsbD_shiftLeft,
    BitVec.getLsbD_setWidth]
  interval_cases k <;> simp

theorem encode_frameCheck (chk : Bool) : encode (.frameCheck chk) = 0x00000004 ||| if chk then 0x100 else 0 := by
  cases chk <;> rfl

end Sys2Proof

namespace Sys2Proof.Machine

open Sys2Proof.Claims

/-- R80: the model's record of an accepted command is the statements'. -/
theorem accept_eq_accepted (i : Instr) (s : State) : accept i s = accepted (encode i) s := rfl

/-! ## NOP, CRC_INIT, CRC_FEED -/

theorem exec_nop (s : State) : exec .nop s = .next (finished .ok (accepted 0x00000000 s)) :=
  congrArg Host.Outcome.next (complete_eq_finished _ _)

theorem exec_crcInit (s : State) :
    exec .crcInit s = .next (finished .ok { accepted 0x00000001 s with crc := 0xFFFF }) :=
  congrArg Host.Outcome.next (complete_eq_finished _ _)

theorem exec_crcFeed (b : Byte) (s : State) :
    exec (.crcFeed b) s
      = .next (finished .ok { accepted (0x00000002 ||| (b.zeroExtend 32 <<< 8)) s with crc := crc16 s.crc [b] }) := by
  rw [← encode_crcFeed]
  exact congrArg Host.Outcome.next (complete_eq_finished _ _)

/-- Settles O9: each command's completion, and its row of the decoder for the reserved bits. -/
theorem nopAndCrcCommands : Obligations.NopAndCrcCommands := by
  refine ⟨exec_nop, exec_crcInit, exec_crcFeed, fun w hop hne => ?nop, fun w hop hne => ?crcInit,
    fun w hop hne => ?crcFeed⟩
  case nop => exact decode_reservedBits (decode_nop_row hop) hne.symm
  case crcInit => exact decode_reservedBits (decode_crcInit_row hop) hne.symm
  case crcFeed =>
    refine decode_reservedBits (decode_crcFeed_row hop) fun h => hne ?_
    have harg : arg16 w = 0 := by rw [← h, encode, arg16_cmdWord]
    exact harg

/-! ## A frame fed byte by byte -/

/-- R103: CRC_FEED of every byte leaves the CRC of the list, and else changes only what every immediate
command writes. -/
theorem feedAll_crc (bytes : List Byte) : ∀ s : State, s.pos = none →
    ∃ u, feedAll bytes s = .next u ∧ u.crc = crc16 s.crc bytes
      ∧ u = { s with crc := u.crc, status := u.status, curCmd := u.curCmd, tStart := u.tStart, pos := none } := by
  induction bytes with
  | nil => exact fun s hp => ⟨s, rfl, rfl, by rw [← hp]⟩
  | cons b rest ih =>
    intro s _
    obtain ⟨u, hfeed, hcrc, hframe⟩ :=
      ih (finished .ok { accepted (encode (.crcFeed b)) s with crc := crc16 s.crc [b] }) rfl
    refine ⟨u, ?_, hcrc, hframe⟩
    rw [feedAll, exec_crcFeed, ← encode_crcFeed]
    exact hfeed

theorem readReg_crc (s : State) : readReg 0x14 s = s.crc.zeroExtend 32 := by
  simp [readReg, fieldAt]

/-- Settles O8: CRC_INIT starts the CRC of the list, and the FCS bytes after it leave the residue. -/
theorem incrementalCrc : Obligations.IncrementalCrc := by
  intro body s
  obtain ⟨u, hbody, hcrc, hframe⟩ := feedAll_crc body (finished .ok { accepted 0x00000001 s with crc := 0xFFFF }) rfl
  obtain ⟨v, hfcs, hresidue, -⟩ := feedAll_crc (fcsBytes body) u (congrArg State.pos hframe)
  have hcrc : u.crc = crc16 0xFFFF body := hcrc
  refine ⟨_, u, v, exec_crcInit s, rfl, hbody, hcrc, ?complement, hframe, hfcs, ?residue, ?register⟩
  case complement => rw [hcrc]; rfl
  case residue => rw [hresidue, hcrc, crc16_fcsBytes]
  case register => rw [readReg_crc, hcrc]

/-! ## FRAME_FCS -/

section
variable {s : State} {body : List Byte}

theorem exec_frameFcs_oversize (h : 1046 < s.txlen.toNat) :
    exec .frameFcs s = .next (finished .oversize (accepted 0x00000003 s)) := by
  have hsize : 1048 < s.txlen.toNat + 2 := by omega
  exact (if_pos hsize).trans (congrArg Host.Outcome.next (complete_eq_finished _ _))

theorem exec_frameFcs_tooShort (h : s.txlen.toNat < 3) :
    exec .frameFcs s = .next (finished .tooShort (accepted 0x00000003 s)) := by
  have hsize : ¬ 1048 < s.txlen.toNat + 2 := by omega
  exact (if_neg hsize).trans ((if_pos h).trans (congrArg Host.Outcome.next (complete_eq_finished _ _)))

theorem readTx_body (h : TxBody s body) : readTx 0 s.txCount s = .ok body := by
  obtain ⟨hlen, hholds⟩ := h
  refine (readTx_ok_iff s _ 0 body).mpr ⟨hlen.symm, fun k hk => ?_⟩
  rw [Nat.zero_add]
  exact hholds k (hlen ▸ hk)

theorem exec_frameFcs_appends (h : TxBody s body) (hmin : 3 ≤ body.length) (hmax : body.length + 2 ≤ 1048) :
    exec .frameFcs s = .next (finished .ok (appendFcs body (accepted 0x00000003 s))) := by
  have hlen : s.txlen.toNat = body.length := h.1
  have hsize : ¬ 1048 < s.txlen.toNat + 2 := by omega
  have hshort : ¬ s.txlen.toNat < 3 := by omega
  refine (if_neg hsize).trans ((if_neg hshort).trans ?_)
  rw [accept_eq_accepted, readTx_body (s := accepted _ s) h, withBytes_ok, complete_eq_finished]
  rfl

/-- R110: the two bytes behind the body, and every other byte of TXBUF as before. -/
theorem appendFcs_read (hlen : s.txlen.toNat = body.length) (hmax : body.length + 2 ≤ 1048) (i : Nat) :
    (appendFcs body s).txbuf.read i
      = if i = body.length then some (hiByte (~~~(crc16 0xFFFF body)))
        else if i = body.length + 1 then some (loByte (~~~(crc16 0xFFFF body)))
        else s.txbuf.read i := by
  have hcount : s.txCount = body.length := hlen
  have hsize : Config.txbufSize = 1048 := rfl
  simp only [appendFcs, storeTx_read, hcount, hsize, show body.length < 1048 by omega,
    show body.length + 1 < 1048 by omega, and_true]
  by_cases hi : i = body.length
  · rw [if_neg (by omega), if_pos hi, if_pos hi]
    rfl
  · rw [if_neg hi, if_neg hi]
    rfl

theorem appendFcs_eq (hlen : s.txlen.toNat = body.length) :
    appendFcs body s = { s with
      txbuf := (appendFcs body s).txbuf, txlen := BitVec.ofNat 11 (body.length + 2), crc := crc16 0xFFFF body } := by
  have hcount : s.txCount = body.length := hlen
  simp only [appendFcs, hcount]
  rw [storeTx_frame, storeTx_frame]
  rfl

end

/-- Settles O10: the two length checks, OVERSIZE first, and between them the FCS behind the body. -/
theorem frameFcsAppends : Obligations.FrameFcsAppends := by
  refine ⟨fun s body hbody hmin hmax => ?appends, fun _ h => exec_frameFcs_oversize h,
    fun _ h => exec_frameFcs_tooShort h, fun w hop hne => ?reserved⟩
  case appends =>
    refine ⟨_, exec_frameFcs_appends hbody hmin hmax, appendFcs_read (s := accepted 0x00000003 s) hbody.1 hmax, ?_⟩
    exact congrArg (finished .ok) (appendFcs_eq (s := accepted 0x00000003 s) hbody.1)
  case reserved => exact decode_reservedBits (decode_frameFcs_row hop) hne.symm

/-! ## FRAME_CHECK -/

section
variable {frame : List Byte}

theorem ctrlOk_iff : ctrlOk frame = true ↔ ∃ c, frame[1]? = some c ∧ c &&& 0xF7 = 0xC0 := by
  match frame with
  | [] | [_] => simp [ctrlOk]
  | _ :: c :: _ => simp [ctrlOk, frameByte, Config.ctrlMask, Config.ctrlValue]

theorem finalBit_iff : finalBit frame = true ↔ ∃ c, frame[1]? = some c ∧ c.getLsbD 3 = true := by
  match frame with
  | [] | [_] => simp [finalBit]
  | _ :: c :: _ => simp [finalBit, frameByte]

/-- R106: the result is that of the first test whose flag is 0. -/
theorem frameVerdict_flags (minlen : Nat) (chk : Bool) (x : RxStat) :
    frameVerdict frame minlen chk =
      let y := frameStat frame minlen chk x
      if !y.lenOk then .tooShort else if !y.addrOk then .badAddr else if !y.ctrlOk then .badCtrl
      else if chk && !y.crcOk then .badFcs else .ok := by
  simp only [frameVerdict, frameStat, Bool.not_eq_true', decide_eq_false_iff_not, Nat.not_le]

variable {s : State} {chk : Bool}

theorem exec_frameCheck_held (hlen : s.rxlen.toNat = frame.length) (hmax : frame.length ≤ 1048)
    (hholds : Holds s.rxbuf frame) :
    exec (.frameCheck chk) s = .next (finished (frameVerdict frame 3 chk)
      { accepted (encode (.frameCheck chk)) s with
        crc := crc16 0xFFFF frame
        rxstat := frameStat frame 3 chk
          { s.rxstat with dleUnk := false, alignErr := false, dceFcsErr := false, rcpSubst := false } }) := by
  rw [exec_frameCheck (by omega), hlen, check_known (s := frameCheckStarted chk s) frame hholds, complete_eq_finished]
  rfl

theorem exec_frameCheck_oversize (h : 1048 < s.rxlen.toNat) :
    exec (.frameCheck chk) s
      = .next (finished .oversize { accepted (encode (.frameCheck chk)) s with rxstat := rxstatClear }) :=
  (if_pos h).trans (congrArg Host.Outcome.next (complete_eq_finished _ _))

theorem encode_frameCheck_ne {w : Word} (h : w ≠ 0x004) (h' : w ≠ 0x104) (chk : Bool) :
    encode (.frameCheck chk) ≠ w := by
  cases chk with
  | false => exact h.symm
  | true => exact h'.symm

end

/-- Settles O11: what `check` writes for the frame held, flag by flag. -/
theorem frameCheckReports : Obligations.FrameCheckReports := by
  refine ⟨fun s chk frame hlen hmax hholds => ?held, fun s chk h => ?oversize, fun w hop h h' => ?reserved⟩
  case held =>
    rw [← encode_frameCheck]
    refine ⟨_, _, exec_frameCheck_held hlen hmax hholds, rfl, ?addr, ctrlOk_iff, ?crc, rfl, finalBit_iff, fcf_eq frame,
      beq_eq_decide _ _, rfl, rfl, rfl, rfl, frameVerdict_flags 3 chk _⟩
    case addr => exact (addrOk_eq frame).trans (beq_eq_decide _ _)
    case crc => exact beq_eq_decide _ _
  case oversize =>
    rw [← encode_frameCheck]
    exact exec_frameCheck_oversize h
  case reserved => exact decode_reservedBits (decode_frameCheck_row hop) (encode_frameCheck_ne h h' _)

end Sys2Proof.Machine
end

section
/-! PROOFS. The end of a received frame (R106, R107, R137, R216): the checks with their overrides, as RECV_HDLC and
RECV_V34 share them; RECV_HDLC's wait for the DCE's result, and RECV_V34's data phase. -/

namespace Sys2Proof.Machine

open Sys2Proof.Claims

/-! ## The checks and their overrides -/

/-- R137, R216: OVERSIZE overrides every check, and the DCE's FCS error gives BAD_FCS where every test passes. -/
theorem overrideResult_frameVerdict (minlen : Nat) (chk ovf dceFcsErr : Bool) (frame : List Byte) :
    overrideResult ovf dceFcsErr (frameVerdict frame minlen chk) = receivedResult minlen chk ovf dceFcsErr frame := by
  cases ovf with
  | true => rfl
  | false =>
    rw [frameVerdict_eq]
    simp only [receivedResult, apply_ite (overrideResult false dceFcsErr)]
    cases dceFcsErr <;> rfl

/-- What the checks of a received frame write before the completion with `r`. -/
def frameChecked (minlen : Nat) (chk : Bool) (frame : List Byte) (r : Result) (s : State) : State :=
  { s with crc := crc16 0xFFFF frame, rxstat := receivedStat minlen chk frame r s.rxstat }

/-- R137, R216: the checks over a frame that RXBUF holds complete the command with it. -/
theorem finishReceived_held {s : State} {frame : List Byte} (minlen : Nat) (chk ovf : Bool)
    (hholds : Holds s.rxbuf frame) {r : Result} (hr : r = receivedResult minlen chk ovf s.rxstat.dceFcsErr frame) :
    finishReceived frame.length minlen chk ovf s
      = .next (endReceive frame.length r (frameChecked minlen chk frame r s)) := by
  rw [finishReceived, check_known (s := setRxlen frame.length s) frame hholds]
  refine congrArg Host.Outcome.next ?_
  have hover : overrideResult ovf s.rxstat.dceFcsErr (frameVerdict frame minlen chk) = r := by
    rw [hr, overrideResult_frameVerdict]
  rw [frameChecked, ← frameStat_eq, ← hover]
  rfl

/-- RXSTAT.DCE_FCS_ERR as the end of the frame leaves it. -/
def withDceFcsErr (e : Bool) (s : State) : State := { s with rxstat := { s.rxstat with dceFcsErr := e } }

/-- R137, R216: an ENGINE step that comes to the checks completes the command. -/
theorem frameEnds_of_goOn {s t : State} {frame : List Byte} {minlen : Nat} {chk ovf e : Bool}
    (hstep : engineStep s = goOn (finishReceived frame.length minlen chk ovf (withDceFcsErr e t)))
    (hlen : frame.length ≤ 1048) (hholds : Holds t.rxbuf frame) :
    ∃ (u : State) (e' : Bool) (r : Result), engineStep s = .next u ∧ e' = e ∧ r = receivedResult minlen chk ovf e' frame
      ∧ EndsReceive r frame (frameChecked minlen chk frame r (withDceFcsErr e' t)) u := by
  refine ⟨_, e, _, ?_, rfl, rfl,
    endsReceive_held (s := frameChecked minlen chk frame _ (withDceFcsErr e t)) hlen hholds _⟩
  rw [hstep, finishReceived_held (s := withDceFcsErr e t) minlen chk ovf hholds rfl, goOn_next]
  exact engineStep_idle rfl

/-! ## RECV_HDLC's wait for the DCE's result -/

section
variable {s : State} {n : Nat} {found ovf : Bool} {rest : List InToken}

/-- R134, R136: `<DLE><ETX>` ends the data phase. -/
theorem hdlc_engineStep_end (hw : s.pos = some (.recvHdlcData n found ovf))
    (hin : s.inbound = .byte 0x10 :: .byte 0x03 :: rest) :
    engineStep s = engineStep { s with inbound := rest, pos := some (.recvHdlcEnd n ovf) } :=
  (hdlc_dataPhase n found ovf).engineStep_pair hw hin

/-- R137: OK, NO_CARRIER and ERROR lead to the checks, ERROR with the DCE's FCS error noted. -/
theorem hdlcEnd_engineStep_result {x : InToken} (hw : s.pos = some (.recvHdlcEnd n ovf)) (hin : s.inbound = x :: rest)
    (hx : x = .res .ok ∨ x = .res .noCarrier ∨ x = .res .error) :
    engineStep s = goOn (finishReceived n 4 s.ctrl.rxCrcCheck ovf
      (withDceFcsErr (s.rxstat.dceFcsErr || x == .res .error) { s with inbound := rest, link := .idle })) := by
  rw [engineStep_cons hw nofun hin]
  rcases hx with rfl | rfl | rfl
  · rw [show (InToken.res .ok == .res .error) = false from rfl, Bool.or_false]; rfl
  · rw [show (InToken.res .noCarrier == .res .error) = false from rfl, Bool.or_false]; rfl
  · rw [show (InToken.res .error == .res .error) = true from rfl, Bool.or_true]; rfl

/-- R137, R244: every other token is discarded. -/
theorem hdlcEnd_discards {x : InToken} (hok : x ≠ .res .ok) (hlost : x ≠ .res .noCarrier) (herror : x ≠ .res .error)
    (t : State) : onToken (.recvHdlcEnd n ovf) x t = .next t := by
  cases x with
  | byte b => rfl
  | res r =>
    cases r with
    | ok => exact absurd rfl hok
    | noCarrier => exact absurd rfl hlost
    | error => exact absurd rfl herror
    | connect | fcerror | other => rfl

end

/-- Settles O25: the end marker, then the token that the wait for the DCE's result takes. -/
theorem recvHdlcEndOfFrame : Obligations.RecvHdlcEndOfFrame := by
  refine ⟨fun s n found ovf rest hw hin => hdlc_engineStep_end hw hin,
    fun s frame ovf x rest hw hlen hholds hin => ⟨fun hx => ?ends, fun hok hlost herror => ?discarded⟩⟩
  case ends => exact frameEnds_of_goOn (hdlcEnd_engineStep_result hw hin hx) hlen hholds
  case discarded => rw [engineStep_cons hw nofun hin, hdlcEnd_discards hok hlost herror, goOn_next]

/-! ## RECV_V34's data phase -/

theorem v34_dataPhase (n : Nat) (ovf : Bool) : DataPhase (.recvV34 n ovf) (.recvV34Dle n ovf) :=
  ⟨nofun, nofun, fun _ => rfl⟩

section
variable {s : State} {n : Nat} {ovf : Bool} {rest : List InToken}

/-- R211, R216: DLE DLE and DLE SUB stand for a data byte 0x10. -/
theorem v34Dle_doubled {x : Byte} (hx : x = 0x10 ∨ x = 0x1A) (t : State) :
    onToken (.recvV34Dle n ovf) (.byte x) t = .next (v34Store n ovf (dceOctet 0x10) t) := if_pos hx

/-- R211, R216: DLE ETX ends the frame. -/
theorem v34Dle_etx (t : State) :
    onToken (.recvV34Dle n ovf) (.byte 0x03) t = finishReceived n 3 false ovf t := rfl

/-- R212, R216: DLE EOT ends the command. -/
theorem v34Dle_eot (t : State) :
    onToken (.recvV34Dle n ovf) (.byte 0x04) t = .next (endReceive n .peerEot (noteEot t)) := rfl

/-- R214, R216: DLE 0x07 ends the frame with the DCE's FCS error. -/
theorem v34Dle_fcsErr (t : State) :
    onToken (.recvV34Dle n ovf) (.byte 0x07) t
      = finishReceived n 3 false ovf (withDceFcsErr true t) := rfl

/-- R213, R216: any other pair is an indicator. -/
theorem v34Dle_indicator {x : Byte} (hx : x ∉ [(0x10 : Byte), 0x1A, 0x03, 0x04, 0x07]) (t : State) :
    onToken (.recvV34Dle n ovf) (.byte x) t = .next (goto (.recvV34 n ovf) (indicator x t)) := by
  simp only [List.mem_cons, List.not_mem_nil, or_false, not_or] at hx
  obtain ⟨hdle, hsub, hetx, heot, hfcs⟩ := hx
  exact (if_neg (not_or.mpr ⟨hdle, hsub⟩)).trans ((if_neg hetx).trans ((if_neg heot).trans (if_neg hfcs)))

/-- R216: what `store` makes of the state that takes a data byte. -/
theorem v34Store_eq (b : Byte) (s : State) :
    v34Store n ovf b s
      = if n < 1048 then { s with pos := some (.recvV34 (n + 1) ovf), rxbuf := s.rxbuf.write n b }
        else { s with pos := some (.recvV34 n true) } := by
  by_cases hn : n < 1048
  · rw [v34Store, if_pos (show n < Config.rxbufSize from hn), storeRx,
      if_pos (show n < Config.rxbufSize from hn), if_pos hn]
    rfl
  · rw [v34Store, if_neg (show ¬ n < Config.rxbufSize from hn), if_neg hn]
    rfl

/-- R211, R216: a data byte, DLE or not, is stored; DLE SUB is one too. -/
theorem v34_engineStep_byte {v : Byte} (hw : s.pos = some (.recvV34 n ovf))
    (hin : s.inbound = inDoubled v ++ rest ∨ v = 0x10 ∧ s.inbound = .byte 0x10 :: .byte 0x1A :: rest) :
    engineStep s = engineStep (v34Store n ovf (dceOctet v) { s with inbound := rest }) := by
  have hpair {x : Byte} (hv : v = 0x10) (hx : x = 0x10 ∨ x = 0x1A) (t : State) :
      onToken (.recvV34Dle n ovf) (.byte x) (goto (.recvV34Dle n ovf) t) = .next (v34Store n ovf (dceOctet v) t) := by
    rw [v34Dle_doubled hx, hv, v34Store_eq, v34Store_eq]
    rfl
  obtain hin | ⟨hv, hin⟩ := hin
  · exact (v34_dataPhase n ovf).engineStep_byte (f := fun t => .next (v34Store n ovf (dceOctet v) t)) hw hin
      (fun hv t => congrArg _ (if_neg hv)) fun hv => hpair hv (.inl rfl)
  · rw [(v34_dataPhase n ovf).engineStep_pair hw hin, hpair hv (.inr rfl), goOn_next]

theorem v34_dataResult {bytes : List Byte} {r : DceRes} {dle : Bool} (hw : s.pos = some (.recvV34 bytes.length ovf))
    (hlen : bytes.length ≤ 1048) (hholds : Holds s.rxbuf bytes) (hin : s.inbound = afterDle dle ++ .res r :: rest) :
    DataResult r (if bytes = [] then .carrierLost else .truncated) bytes { s with inbound := rest } s rest := by
  have hstep := (v34_dataPhase bytes.length ovf).engineStep_result
    (f := fun t => .next (v34Result bytes.length ovf r t)) hw hin (fun _ => rfl) fun t => by cases r <;> rfl
  refine dataResult_of_goOn hw hstep (endsReceive_held (s := { s with inbound := rest }) hlen hholds) ?_ ?_ ?_
  · rintro rfl
    cases bytes <;> rfl
  · rintro (rfl | rfl) <;> rfl
  · rintro (rfl | rfl | rfl) <;> rfl

theorem v34_engineStep_frame {x : Byte} (hw : s.pos = some (.recvV34 n ovf)) (hx : x = 0x03 ∨ x = 0x07)
    (hin : s.inbound = .byte 0x10 :: .byte x :: rest) :
    engineStep s = goOn (finishReceived n 3 false ovf (withDceFcsErr (s.rxstat.dceFcsErr || x == 0x07)
      (goto (.recvV34Dle n ovf) { s with inbound := rest }))) := by
  rw [(v34_dataPhase n ovf).engineStep_pair hw hin]
  rcases hx with rfl | rfl
  · rw [v34Dle_etx, show ((0x03 : Byte) == 0x07) = false from rfl, Bool.or_false]
    rfl
  · rw [v34Dle_fcsErr, show ((0x07 : Byte) == 0x07) = true from rfl, Bool.or_true]

theorem v34_engineStep_indicator {x : Byte} (hw : s.pos = some (.recvV34 n ovf))
    (hx : x ∉ [(0x10 : Byte), 0x1A, 0x03, 0x04, 0x07]) (hin : s.inbound = .byte 0x10 :: .byte x :: rest) :
    engineStep s = engineStep { indicator x s with inbound := rest } := by
  rw [(v34_dataPhase n ovf).engineStep_pair hw hin, v34Dle_indicator hx, goOn_next]
  exact congrArg engineStep (goto_self (s := { indicator x s with inbound := rest }) hw)

end

/-- Settles O32: each kind of pair and token of the data phase. -/
theorem recvV34Ends : Obligations.RecvV34Ends := by
  intro s frame ovf rest hw hlen hholds
  refine ⟨fun x hx hin => ?frameEnd, fun r dle hin => ?result, fun hin => ?eot, fun x hx hin => ?indicator,
    fun v hin => ?byte⟩
  case frameEnd => exact frameEnds_of_goOn (v34_engineStep_frame hw hx hin) hlen hholds
  case result => exact v34_dataResult hw hlen hholds hin
  case eot =>
    refine ⟨_, ?_, endsReceive_held (s := noteEot { s with inbound := rest }) hlen hholds .peerEot⟩
    rw [(v34_dataPhase _ _).engineStep_pair hw hin, v34Dle_eot]
    exact engineStep_idle (s := endReceive _ .peerEot _) rfl
  case indicator => exact v34_engineStep_indicator hw hx hin
  case byte => rw [v34_engineStep_byte hw hin, v34Store_eq]

end Sys2Proof.Machine
end

section
/-! PROOFS. What the send commands share (R130, R131): the length check and its two errors, the bytes read from TXBUF, and
the tokens of a frame; then SEND_RAW and SEND_V34, and SEND_HDLC and TX_END with their waits (R133, R255). -/

namespace Sys2Proof.Machine

open Sys2Proof.Claims

/-! ## Start checks and the bytes of TXBUF -/

section
variable {s : State} {i : Instr} {allowed : Bool} {m : Nat}

/-- R130: OVERSIZE is tested before anything is read, and before TOO_SHORT. -/
theorem send_oversize {k : Nat → StepOutcome} (hmode : allowed = true) (hlen : 1048 < s.txlen.toNat) :
    requireMode allowed (accept i s) (sendLenCheck m (accept i s) k)
      = .next (finished .oversize (accepted (encode i) s)) := by
  rw [hmode, requireMode_true, sendLenCheck, if_pos (show Config.txbufSize < (accept i s).txCount from hlen),
    complete_eq_finished, accept_eq_accepted]

theorem send_tooShort {k : Nat → StepOutcome} (hmode : allowed = true) (hmax : s.txlen.toNat ≤ 1048)
    (hlen : s.txlen.toNat < m) :
    requireMode allowed (accept i s) (sendLenCheck m (accept i s) k)
      = .next (finished .tooShort (accepted (encode i) s)) := by
  rw [hmode, requireMode_true, sendLenCheck,
    if_neg (show ¬ Config.txbufSize < (accept i s).txCount from Nat.not_lt.mpr hmax),
    if_pos (show (accept i s).txCount < m from hlen), complete_eq_finished, accept_eq_accepted]

/-- R130: a send command whose start checks pass goes on with the body that TXBUF holds. -/
theorem send_body {body : List Byte} {k : List Byte → StepOutcome} (hmode : allowed = true) (hbody : TxBody s body)
    (hmin : m ≤ body.length) (hmax : body.length ≤ 1048) :
    requireMode allowed (accept i s) (sendLenCheck m (accept i s) fun n => withBytes (readTx 0 n (accept i s)) k)
      = k body := by
  have hcount : (accept i s).txCount = body.length := hbody.1
  rw [hmode, requireMode_true, sendLenCheck_passes (by omega) (by omega), readTx_body (s := accept i s) hbody, withBytes_ok]

end

/-- Settles O20: OVERSIZE comes first at every send command, and SEND_BITS has no minimum where TXLEN is 0. -/
theorem sendLengthErrors : Obligations.SendLengthErrors := by
  refine fun i s hmode => ⟨fun hi hlen => ?oversize, fun hi hlen => ?tooShort, fun hi hlen => ?bitsTooShort⟩
  case oversize =>
    obtain rfl | rfl | rfl | ⟨flags, flush, rfl⟩ := hi <;> exact send_oversize hmode hlen
  case tooShort =>
    obtain rfl | rfl := hi <;> exact send_tooShort hmode (by omega) hlen
  case bitsTooShort =>
    obtain ⟨flags, flush, rfl⟩ := hi
    have hpos : (accept (.sendBits flags flush) s).txCount ≠ 0 := Nat.ne_of_gt (show 0 < s.txlen.toNat by omega)
    have hmin : s.txlen.toNat < if (accept (.sendBits flags flush) s).txCount = 0 then 0 else Config.frameMinLen := by
      rw [if_neg hpos]
      exact (show s.txlen.toNat < 3 by omega)
    exact send_tooShort hmode (by omega) hmin

/-! ## The tokens of a byte list -/

theorem dcePut_eq_escaped (d : Byte) : dcePut d = escaped d := by
  by_cases hd : d = 0x10
  · subst hd; rfl
  · exact (if_neg hd).trans (if_neg hd).symm

/-- R215: with V34_TX_DLE_ESCAPE a V.34 byte is escaped like any other. -/
theorem v34Put_eq_dcePut (v : Byte) : v34Put v = dcePut v := by
  simp [v34Put, dcePut, Config.v34TxDleEscape]

theorem flatMap_dcePut_eq (bytes : List Byte) : bytes.flatMap dcePut = escapedAll bytes :=
  congrArg bytes.flatMap (funext dcePut_eq_escaped)

/-- R131, R132: an HDLC-mode frame goes out in DCE bit order, escaped, with the end marker behind it. -/
theorem hdlcTokens_eq (frame : List Byte) : hdlcTokens frame = escapedAll (frame.map dceOctet) ++ endMarker := by
  rw [← flatMap_dcePut_eq, List.flatMap_map]
  rfl

/-- R131, R215: a V.34 frame goes out as an HDLC-mode frame does. -/
theorem v34Tokens_eq_hdlcTokens (frame : List Byte) : v34Tokens frame = hdlcTokens frame := by
  simp only [v34Tokens, hdlcTokens, v34Put_eq_dcePut]

/-! ## SEND_RAW and SEND_V34 -/

/-- Settles O14: past the start checks SEND_RAW sends the flushed bits and then the body it read. -/
theorem sendRawSends : Obligations.SendRawSends := by
  intro s body hv34 hlink hbody hmax
  refine (send_body (by simp [hv34, hlink]) hbody (Nat.zero_le _) hmax).trans ?_
  rw [complete_eq_finished, flatMap_dcePut_eq]
  rfl

/-- Settles O17: past the start checks SEND_V34 sends the tokens of an HDLC-mode frame. -/
theorem sendV34Sends : Obligations.SendV34Sends := by
  intro s body hv34 hbody hmin hmax
  refine (send_body hv34 hbody hmin hmax).trans ?_
  rw [complete_eq_finished, v34Tokens_eq_hdlcTokens, hdlcTokens_eq, send, ← List.append_assoc]
  rfl

/-! ## SEND_HDLC and its completion wait -/

/-- R305: the ENGINE stops at a completion. -/
theorem goOn_complete (r : Result) (s : State) : goOn (.next (complete r s)) = .next (finished r s) := by
  rw [goOn_next, engineStep_idle rfl, complete_eq_finished]

/-- R132: SEND_HDLC's CMD write step. -/
theorem exec_sendHdlc {s : State} {body : List Byte} (hv34 : s.ctrl.v34 = false) (hlink : s.link = .txHdlc)
    (hbody : TxBody s body) (hmin : 3 ≤ body.length) (hmax : body.length ≤ 1048) :
    exec .sendHdlc s = .next (waiting (.sendHdlc (finalBit body)) { accepted 0x00000010 s with
      outbound := s.outbound ++ escapedAll ((framed s.ctrl.txFcsByte body).map dceOctet) ++ endMarker }) := by
  refine (send_body (by simp [hv34, hlink]) hbody hmin hmax).trans ?_
  rw [hdlcTokens_eq, send, ← List.append_assoc]
  rfl

/-- Settles O22: the frame goes out in the CMD write step, and `final` is the control byte's final bit. -/
theorem sendHdlcSendsAndCompletes : Obligations.SendHdlcSendsAndCompletes := by
  intro s body hv34 hlink hbody hmin hmax
  refine ⟨_, finalBit body, exec_sendHdlc hv34 hlink hbody hmin hmax, finalBit_iff, rfl, fun x rest => ?_⟩
  rw [engineStep_cons (w := .sendHdlc (finalBit body)) rfl nofun rfl]
  cases x with
  | byte b => rfl
  | res r =>
    cases r with
    | ok | error | noCarrier => exact goOn_complete _ _
    | connect =>
      cases finalBit body with
      | true => rfl
      | false => exact goOn_complete _ _
    | fcerror | other => rfl

/-! ## TX_END -/

/-- R255: TX_END's CMD write step. -/
theorem exec_txEnd {s : State} (hlink : s.link = .txData ∨ s.link = .txHdlc) :
    exec .txEnd s = .next (waiting .txEnd { accepted 0x00000045 s with
      tx := if s.link = .txData then s.tx.flushPad.1 else s.tx
      outbound := s.outbound ++ (if s.link = .txData then s.tx.flushPad.2 else []) ++ endMarker }) := by
  have hmode : ((accept .txEnd s).link == .txData || (accept .txEnd s).link == .txHdlc) = true := by simpa using hlink
  rw [exec, execTxEnd, hmode, requireMode_true]
  by_cases hdata : s.link = .txData
  · rw [if_pos (show (accept .txEnd s).link = .txData from hdata), if_pos hdata, if_pos hdata]
    rfl
  · rw [if_neg (show ¬ (accept .txEnd s).link = .txData from hdata), if_neg hdata, if_neg hdata, List.append_nil]
    rfl

/-- Settles O38: the CMD write step, then each token at the wait. -/
theorem txEndDropsTheCarrier : Obligations.TxEndDropsTheCarrier := by
  intro s hlink
  refine ⟨_, exec_txEnd hlink, rfl, fun x rest => ?_⟩
  rw [engineStep_cons (w := .txEnd) rfl nofun rfl]
  cases x with
  | byte b => rfl
  | res r =>
    cases r with
    | ok | error | noCarrier => exact goOn_complete _ _
    | connect | fcerror | other => rfl

end Sys2Proof.Machine
end

section
/-! PROOFS. The start of the receive commands (R136, R142, R184, R187, R216), and a frame of SEND_HDLC through RECV_HDLC
(R139). -/

namespace Sys2Proof.Machine

open Sys2Proof.Claims

/-! ## The CMD write step of the receive commands -/

section
variable {s : State}

theorem exec_recvHdlc (hv34 : s.ctrl.v34 = false) (hlink : s.link = .rxHdlc) :
    exec .recvHdlc s = .next (waiting (.recvHdlcData 0 false false) (receiveStarted 0x00000011 s)) := by
  have hmode : (!(accept .recvHdlc s).ctrl.v34 && (accept .recvHdlc s).link == .rxHdlc) = true := by simp [hv34, hlink]
  rw [exec, execRecvHdlc, hmode, requireMode_true]
  rfl

theorem exec_recvV34 (hv34 : s.ctrl.v34 = true) :
    exec .recvV34 s = .next (waiting (.recvV34 0 false) (receiveStarted 0x00000031 s)) := by
  have hmode : (accept .recvV34 s).ctrl.v34 = true := hv34
  rw [exec, execRecvV34, hmode, requireMode_true]
  rfl

/-- R184, R187: RECV_BITS takes the backlog through the receive engine first. -/
theorem exec_recvBits (hv34 : s.ctrl.v34 = false) (hlink : s.link = .rxData) :
    BitsTaken (feed s.guard s.rx.backlog s.rx) (receiveStarted 0x00000022 s) (exec .recvBits s)
      fun t => .next (waiting .recvBits t) := by
  have hmode : (!(accept .recvBits s).ctrl.v34 && (accept .recvBits s).link == .rxData) = true := by simp [hv34, hlink]
  rw [exec, execRecvBits, hmode, requireMode_true]
  exact runBacklog_feed (receiveStarted 0x00000022 s) s.rx.backlog s.rx s.rx.backlog

theorem exec_recvBits_noBacklog (hv34 : s.ctrl.v34 = false) (hlink : s.link = .rxData) (hnone : s.rx.backlog = []) :
    exec .recvBits s = .next (waiting .recvBits (receiveStarted 0x00000022 s)) := by
  have hrx : { s.rx with backlog := [] } = s.rx := by rw [← hnone]
  have htaken : exec .recvBits s
      = .next (waiting .recvBits { receiveStarted 0x00000022 s with rx := { s.rx with backlog := [] } }) := by
    have hfed := exec_recvBits hv34 hlink
    rw [hnone] at hfed
    exact hfed
  rw [htaken, hrx]
  rfl

end

/-- Settles O21: each command's CMD write step. -/
theorem receiveCommandsStart : Obligations.ReceiveCommandsStart := fun _ =>
  ⟨exec_recvHdlc, fun _ => exec_recvRaw, exec_recvBits_noBacklog, exec_recvBits, exec_recvV34⟩

/-! ## A whole frame through RECV_HDLC -/

section
variable {s : State} {rest : List InToken} {bytes : List Byte}

theorem hdlcReceived_doubled (hlen : bytes.length < 1048) (b : Byte) :
    engineStep (hdlcReceived bytes (inDoubled (dceOctet b) ++ rest) s)
      = engineStep (hdlcReceived (bytes ++ [b]) rest s) := by
  have hput : hdlcPut bytes.length true false (dceOctet b) (hdlcReceived bytes rest s)
      = hdlcReceived (bytes ++ [b]) rest s := by
    rw [hdlcPut_eq rfl, if_neg (by simp), if_pos hlen, dceOctet_dceOctet]
    simp only [hdlcReceived, Memory.writeAll_concat, Nat.zero_add, List.length_append, List.length_singleton]
  exact (hdlc_engineStep_byte (s := hdlcReceived bytes _ s) rfl rfl).trans (congrArg engineStep hput)

/-- R134, R135: behind the address every byte of a frame is stored, DLE or not. -/
theorem hdlcReceived_frame (frame : List Byte) : ∀ {bytes : List Byte}, bytes.length + frame.length ≤ 1048 →
    engineStep (hdlcReceived bytes ((frame.map dceOctet).flatMap inDoubled ++ rest) s)
      = engineStep (hdlcReceived (bytes ++ frame) rest s) := by
  induction frame with
  | nil => intro bytes _; simp
  | cons b frame ih =>
    intro bytes hlen
    rw [List.length_cons] at hlen
    rw [List.map_cons, List.flatMap_cons, List.append_assoc, hdlcReceived_doubled (by omega), ih (by simp; omega),
      List.append_assoc, List.singleton_append]

/-- R135: the address byte is the first that is stored. -/
theorem hdlc_engineStep_address (hw : s.pos = some (.recvHdlcData 0 false false))
    (hin : s.inbound = inDoubled (dceOctet 0xFF) ++ rest) : engineStep s = engineStep (hdlcReceived [0xFF] rest s) := by
  have hput : hdlcPut 0 false false (dceOctet 0xFF) { s with inbound := rest } = hdlcReceived [0xFF] rest s := by
    refine (hdlcPut_eq (by exact hw) _).trans ?_
    rw [dceOctet_dceOctet, if_neg (by simp), if_pos (by decide)]
    rfl
  exact (hdlc_engineStep_byte hw hin).trans (congrArg engineStep hput)

/-- R137: OK at the end-of-frame wait completes RECV_HDLC with what the checks say of the frame. -/
theorem hdlcEnd_engineStep_ok {frame : List Byte} (hw : s.pos = some (.recvHdlcEnd frame.length false))
    (hin : s.inbound = .res .ok :: rest) (hholds : Holds s.rxbuf frame) {r : Result}
    (hr : r = receivedResult 4 s.ctrl.rxCrcCheck false s.rxstat.dceFcsErr frame) :
    engineStep s = .next (endReceive frame.length r
      (frameChecked 4 s.ctrl.rxCrcCheck frame r { s with inbound := rest, link := .idle })) := by
  rw [hdlcEnd_engineStep_result hw hin (.inl rfl), show (InToken.res .ok == .res .error) = false from rfl, Bool.or_false,
    finishReceived_held (s := withDceFcsErr _ { s with inbound := rest, link := .idle }) 4 _ false hholds hr]
  exact engineStep_idle (s := endReceive _ _ _) rfl

/-- R136, R137: a frame that fits is stored, and its end marker and OK complete RECV_HDLC with it. -/
theorem hdlc_engineStep_frame (hw : s.pos = some (.recvHdlcData 0 false false)) {frame : List Byte}
    (haddr : frame[0]? = some 0xFF) (hlen : frame.length ≤ 1048) {r : Result}
    (hr : r = receivedResult 4 s.ctrl.rxCrcCheck false s.rxstat.dceFcsErr frame)
    (hin : s.inbound = (frame.map dceOctet).flatMap inDoubled ++ .byte 0x10 :: .byte 0x03 :: .res .ok :: rest) :
    ∃ u, engineStep s = .next u
      ∧ EndsReceive r frame (frameChecked 4 s.ctrl.rxCrcCheck frame r { s with link := .idle, inbound := rest }) u := by
  have hstored : engineStep s = engineStep (hdlcReceived frame (.byte 0x10 :: .byte 0x03 :: .res .ok :: rest) s) := by
    obtain ⟨tail, rfl⟩ : ∃ tail, frame = 0xFF :: tail := by
      cases frame with
      | nil => cases haddr
      | cons b tail => exact ⟨tail, by simpa using haddr⟩
    rw [List.map_cons, List.flatMap_cons, List.append_assoc] at hin
    rw [hdlc_engineStep_address hw hin, hdlcReceived_frame tail (by simpa [Nat.add_comm] using hlen), List.singleton_append]
  refine ⟨_, ?_, endsReceive_writeAll hlen r⟩
  rw [hstored, hdlc_engineStep_end (s := hdlcReceived frame _ s) rfl rfl]
  exact hdlcEnd_engineStep_ok rfl rfl holds_writeAll hr

end

/-! ## SEND_HDLC's frame -/

/-- R131, R134: the bytes of an escaped list come back as data bytes, and the end marker as its pair. -/
theorem delivered_escapedAll_endMarker (bytes : List Byte) (rest : List InToken) :
    delivered (escapedAll bytes ++ endMarker) ++ rest = bytes.flatMap inDoubled ++ .byte 0x10 :: .byte 0x03 :: rest := by
  rw [← delivered_flatMap_dcePut, flatMap_dcePut_eq]
  simp [delivered, endMarker]

/-- R102, R107: a body with its FCS passes every check that its address and control byte pass. -/
theorem receivedResult_framed {body : List Byte} (hmin : 3 ≤ body.length) (hok : addrCtrlOk body) (chk : Bool) :
    receivedResult 4 chk false false (body ++ fcsBytes body) = .ok := by
  obtain ⟨haddr, c, hc, hctrl⟩ := hok
  have hlen : ¬ (body ++ fcsBytes body).length < 4 := by simp [fcsBytes]; omega
  have haddr' : (body ++ fcsBytes body)[0]? = some 0xFF := by rw [List.getElem?_append_left (by omega), haddr]
  have hctrl' : (body ++ fcsBytes body).getD 1 0 &&& 0xF7 = 0xC0 := by
    rw [List.getD_eq_getElem?_getD, List.getElem?_append_left (by omega), hc]
    exact hctrl
  have hcrc : crc16 0xFFFF (body ++ fcsBytes body) = 0x1D0F := by rw [crc16_append, crc16_fcsBytes]
  rw [receivedResult, if_neg Bool.false_ne_true, if_neg hlen, if_neg (not_not.mpr haddr'), if_neg (not_not.mpr hctrl'),
    if_neg fun h => h.2 hcrc, if_neg Bool.false_ne_true]

/-- Settles O23: the frame sent, then the frame received; nothing of RXSTAT was set before it. -/
theorem hdlcFrameRoundTrip : Obligations.HdlcFrameRoundTrip := by
  intro a body hv34 hlink hfcs hbody hmin hmax haddr
  have hexec := exec_sendHdlc hv34 hlink hbody hmin (by omega)
  rw [hfcs, List.append_assoc] at hexec
  refine ⟨_, _, hexec, rfl, fun s rest hv34 hlink hin => ?_⟩
  rw [delivered_escapedAll_endMarker] at hin
  obtain ⟨r, hr⟩ : ∃ r, r = receivedResult 4 s.ctrl.rxCrcCheck false false (body ++ fcsBytes body) := ⟨_, rfl⟩
  obtain ⟨u, hu, hends⟩ := hdlc_engineStep_frame
    (s := waiting (.recvHdlcData 0 false false) (receiveStarted 0x00000011 s)) (frame := body ++ fcsBytes body) rfl
    (by rw [List.getElem?_append_left (by omega), haddr]) (by simpa [fcsBytes] using hmax) hr hin
  have ⟨_, _, hover⟩ := hends
  have hstat : u.rxstat = receivedStat 4 s.ctrl.rxCrcCheck (body ++ fcsBytes body) r rxstatClear :=
    congrArg State.rxstat hover
  refine ⟨_, u, r, exec_recvHdlc hv34 hlink, rfl, hu, ?received, fun hok => ?accepted⟩
  case received =>
    rw [frameChecked, crc16_append, crc16_fcsBytes] at hends
    rw [hstat]
    exact hends
  case accepted =>
    rw [receivedResult_framed hmin hok] at hr
    exact ⟨hr, by rw [hstat, hr]; rfl⟩

end Sys2Proof.Machine
end

section
/-! PROOFS. The transmit engine (R171 to R175, R186): which bits each of its operations puts on the line. -/

namespace Sys2Proof.Machine

open Sys2Proof.Claims

/-! ## The bits of a byte -/

/-- R170: bit 0 of a DCE byte is its first on the line. -/
theorem lineBits_getElem? (b : Byte) {k : Nat} (hk : k < 8) : (lineBits b)[k]? = some (b.getLsbD k) :=
  bitsLsb_getElem? b hk

@[simp] theorem length_lineBits (b : Byte) : (lineBits b).length = 8 := rfl

@[simp] theorem length_flatMap_lineBits (bytes : List Byte) : (bytes.flatMap lineBits).length = 8 * bytes.length := by
  simp [List.length_flatMap, Nat.mul_comm]

theorem setBit8_getLsbD (b : Byte) {p : Nat} (x : Bool) {k : Nat} (hk : k < 8) :
    (setBit8 b p x).getLsbD k = if k = p then x else b.getLsbD k := by
  have hone : ((1 : Byte) <<< p).getLsbD k = decide (k = p) := by
    rw [show (1 : Byte) = 1#8 from rfl, BitVec.getLsbD_shiftLeft, BitVec.getLsbD_one]
    by_cases hkp : k < p
    · simp [hkp, show k ≠ p by omega]
    · simp [hkp, hk, show k - p = 0 ↔ k = p by omega]
  cases x with
  | true =>
    rw [setBit8, if_pos rfl, BitVec.getLsbD_or, hone]
    by_cases hkp : k = p <;> simp [hkp]
  | false =>
    rw [setBit8, if_neg Bool.false_ne_true, BitVec.getLsbD_and, BitVec.getLsbD_not, hone]
    by_cases hkp : k = p <;> simp [hkp, hk]

/-- R171: bit `p` set leaves the bits before it on the line as they were. -/
theorem lineBits_setBit8_take (b : Byte) {p : Nat} (x : Bool) (hp : p < 8) :
    (lineBits (setBit8 b p x)).take (p + 1) = (lineBits b).take p ++ [x] := by
  rw [List.take_add_one, lineBits_getElem? _ hp, setBit8_getLsbD b x hp, if_pos rfl]
  refine congrArg (· ++ [x]) (List.ext_getElem? fun k => ?_)
  by_cases hk : k < p
  · rw [List.getElem?_take_of_lt hk, List.getElem?_take_of_lt hk, lineBits_getElem? _ (by omega),
      lineBits_getElem? _ (by omega), setBit8_getLsbD b x (by omega), if_neg (by omega)]
  · rw [List.getElem?_take_eq_none (by omega), List.getElem?_take_eq_none (by omega)]

/-! ## Bits put on the line -/

namespace TxEngine

/-- R171: the line bits that wait for their byte. -/
def pendingBits (e : TxEngine) : List Bool := (lineBits e.acc).take e.nbits

/-- `p` is what comes of putting the bits `xs` on the line in `e`: escaped DCE bytes that carry, with the bits that wait
behind them, the bits that waited in `e` and then `xs`. -/
structure Puts (xs : List Bool) (e : TxEngine) (p : TxEngine × List OutToken) : Prop where
  packed : p.1.Packed
  carries : ∃ bytes, p.2 = escapedAll bytes ∧ bytes.flatMap lineBits ++ p.1.pendingBits = e.pendingBits ++ xs

theorem puts_nil {e : TxEngine} (h : e.Packed) : Puts [] e (e, []) := ⟨h, [], rfl, (List.append_nil _).symm⟩

section
variable {xs ys : List Bool} {e : TxEngine} {p q : TxEngine × List OutToken}

theorem Puts.append (hp : Puts xs e p) (hq : Puts ys p.1 q) : Puts (xs ++ ys) e (q.1, p.2 ++ q.2) := by
  obtain ⟨-, bytes1, hts1, hbits1⟩ := hp
  obtain ⟨hpacked, bytes2, hts2, hbits2⟩ := hq
  refine ⟨hpacked, bytes1 ++ bytes2, ?_, ?_⟩
  · rw [hts1, hts2, escapedAll, escapedAll, escapedAll, List.flatMap_append]
  · rw [List.flatMap_append, List.append_assoc, hbits2, ← List.append_assoc, hbits1, List.append_assoc]

/-- The count of 1s is not on the line. -/
theorem Puts.withOnes (h : Puts xs e p) (n : Nat) : Puts xs e ({ p.1 with ones := n }, p.2) :=
  ⟨⟨h.packed.nbits, h.packed.acc⟩, h.carries⟩

end

section
variable {e : TxEngine}

/-- R171: the eighth bit sends the byte. -/
theorem putLineBit_puts (x : Bool) (h : e.Packed) : Puts [x] e (putLineBit x e) := by
  have hlt : e.nbits < 8 := Nat.lt_succ_of_le h.nbits
  have hbits := lineBits_setBit8_take e.acc x hlt
  refine ⟨putLineBit_packed h, ?_⟩
  simp only [putLineBit, Config.dceLsbFirst, if_true]
  split
  · rename_i hfull
    refine ⟨[setBit8 e.acc e.nbits x], ?_, ?_⟩
    · rw [dcePut_eq_escaped, escapedAll, List.flatMap_singleton]
    · rw [hfull, List.take_of_length_le (by simp)] at hbits
      simp only [List.flatMap_singleton, pendingBits, List.take_zero, List.append_nil]
      exact hbits
  · exact ⟨[], rfl, hbits⟩

theorem putLineBit_ones (x : Bool) (e : TxEngine) : (putLineBit x e).1.ones = e.ones := by
  simp only [putLineBit]
  split <;> rfl

theorem putLineBits_puts (xs : List Bool) : ∀ {e : TxEngine}, e.Packed → Puts xs e (putAll putLineBit xs e) := by
  induction xs with
  | nil => exact puts_nil
  | cons x xs ih => exact fun h => (putLineBit_puts x h).append (ih (putLineBit_packed h))

/-! ## Stuffing -/

theorem putDataBit_false (e : TxEngine) :
    putDataBit false e = ({ (putLineBit false e).1 with ones := 0 }, (putLineBit false e).2) := rfl

theorem putDataBit_one (h : e.ones + 1 ≠ 5) :
    putDataBit true e = ({ (putLineBit true e).1 with ones := e.ones + 1 }, (putLineBit true e).2) := by
  simp only [putDataBit, if_true, putLineBit_ones, if_neg h]

/-- R173: the fifth 1 in a row brings a 0 with it. -/
theorem putDataBit_fifth_one (h : e.ones + 1 = 5) :
    putDataBit true e
      = ({ (putLineBit false { (putLineBit true e).1 with ones := 5 }).1 with ones := 0 },
          (putLineBit true e).2 ++ (putLineBit false { (putLineBit true e).1 with ones := 5 }).2) := by
  simp only [putDataBit, if_true, putLineBit_ones, if_pos h]

/-- R173: data bits go on the line stuffed. -/
theorem putDataBits_puts (xs : List Bool) : ∀ {e : TxEngine}, e.Packed →
    Puts (stuff e.ones xs) e (putAll putDataBit xs e) := by
  induction xs with
  | nil => exact puts_nil
  | cons x xs ih =>
    intro e h
    simp only [putAll]
    have hrest := ih (putDataBit_packed (x := x) h)
    have hbit := putLineBit_puts x h
    cases x with
    | false =>
      rw [putDataBit_false] at hrest ⊢
      exact (hbit.withOnes 0).append hrest
    | true =>
      by_cases hfive : e.ones + 1 = 5
      · rw [putDataBit_fifth_one hfive] at hrest ⊢
        rw [stuff, if_pos hfive]
        have hone := hbit.withOnes 5
        exact (hone.append ((putLineBit_puts false hone.packed).withOnes 0)).append hrest
      · rw [putDataBit_one hfive] at hrest ⊢
        rw [stuff, if_neg hfive]
        exact (hbit.withOnes (e.ones + 1)).append hrest

/-! ## Flags, frames and padding -/

theorem putFlag_puts (h : e.Packed) : Puts flagBits e e.putFlag := by
  have hbits := putLineBits_puts flagBits h
  simp only [putFlag]
  exact hbits.withOnes 0

theorem putFlags_puts (n : Nat) : ∀ {e : TxEngine}, e.Packed →
    Puts (List.replicate n flagBits).flatten e (putFlags n e) := by
  induction n with
  | zero => exact puts_nil
  | succ n ih =>
    intro e h
    rw [List.replicate_succ, List.flatten_cons]
    simp only [putFlags]
    exact (putFlag_puts h).append (ih (putFlag_rests h).toPacked)

/-- R186: the stuffed frame with its FCS, and the closing flag. -/
theorem putFrame_puts (body : List Byte) (h : e.Rests) :
    Puts (stuff 0 ((body ++ fcsBytes body).flatMap bitsMsb) ++ flagBits) e (e.putFrame body) := by
  have hdata := putDataBits_puts ((body ++ fcsBytes body).flatMap bitsMsb) h.toPacked
  rw [h.ones] at hdata
  simp only [putFrame]
  exact hdata.append (putFlag_puts hdata.packed)

/-- R186: what is on the line before the flush. -/
theorem sendFrame_puts (flags : Nat) (body : List Byte) (h : e.Rests) :
    Puts ((List.replicate flags flagBits).flatten
      ++ if body = [] then [] else stuff 0 ((body ++ fcsBytes body).flatMap bitsMsb) ++ flagBits) e
      (e.sendFrame flags body false) := by
  have hflags := putFlags_puts flags h.toPacked
  have hrests := putFlags_rests flags e h
  have hframe : Puts (if body = [] then [] else stuff 0 ((body ++ fcsBytes body).flatMap bitsMsb) ++ flagBits)
      (putFlags flags e).1 (if body = [] then ((putFlags flags e).1, []) else (putFlags flags e).1.putFrame body) := by
    split
    · exact puts_nil hrests.toPacked
    · exact putFrame_puts body hrests
  simp only [sendFrame, Bool.false_eq_true, if_false, List.append_nil]
  exact hflags.append hframe

/-- R186: FLUSH adds `flush_pad`. -/
theorem sendFrame_flush (e : TxEngine) (flags : Nat) (body : List Byte) :
    e.sendFrame flags body true
      = ((e.sendFrame flags body false).1.flushPad.1,
          (e.sendFrame flags body false).2 ++ (e.sendFrame flags body false).1.flushPad.2) := by
  simp only [sendFrame, if_true, Bool.false_eq_true, if_false, List.append_nil]

/-- R175: the bits that fill the byte up. -/
def padBits (e : TxEngine) : List Bool := if e.nbits = 0 then [] else flagBits.take (8 - e.nbits)

theorem flushPad_puts (h : e.Packed) : Puts e.padBits e e.flushPad := (putLineBits_puts e.padBits h).withOnes 0

theorem length_padBits_lt (e : TxEngine) : e.padBits.length < 8 := by
  unfold padBits
  split
  · decide
  · rw [List.length_take]; omega

theorem flushPad_none (h : e.nbits = 0) : e.flushPad = ({ e with ones := 0 }, []) := by
  simp [flushPad, h, putAll]

/-- R175: `flush_pad` leaves the engine empty. -/
theorem flushPad_clears (h : e.Packed) : e.flushPad.1 = txClear := by
  obtain ⟨⟨-, hacc⟩, hones⟩ := flushPad_rests h
  have hnbits := flushPad_nbits h
  generalize e.flushPad.1 = f at hacc hones hnbits
  obtain ⟨acc, nbits, ones⟩ := f
  obtain rfl : nbits = 0 := hnbits
  obtain rfl : ones = 0 := hones
  obtain rfl : acc = 0 := BitVec.eq_of_toNat_eq (Nat.lt_one_iff.mp hacc)
  rfl

/-- R175: the one byte that a partial byte becomes. -/
theorem flushPad_byte (h : e.Packed) (hpos : 0 < e.nbits) :
    ∃ v, e.flushPad = (txClear, escaped v) ∧ lineBits v = e.pendingBits ++ flagBits.take (8 - e.nbits) := by
  obtain ⟨-, bytes, hts, hbits⟩ := flushPad_puts h
  have hnbits := h.nbits
  have hclear := flushPad_clears h
  rw [hclear, show txClear.pendingBits = [] from rfl, List.append_nil, padBits, if_neg (by omega)] at hbits
  have hlen : bytes.length = 1 := by
    have hlength := congrArg List.length hbits
    simp only [length_flatMap_lineBits, List.length_append, pendingBits, List.length_take, length_lineBits,
      show flagBits.length = 8 from rfl] at hlength
    omega
  obtain ⟨v, rfl⟩ := List.length_eq_one_iff.mp hlen
  rw [List.flatMap_singleton] at hbits
  rw [escapedAll, List.flatMap_singleton] at hts
  exact ⟨v, Prod.ext hclear hts, hbits⟩

end

end TxEngine

/-- Settles O16: what a frame puts on the line, and the flush behind it. -/
theorem transmitEngineLineBits : Obligations.TransmitEngineLineBits := by
  refine ⟨fun e flags body hnbits hacc hones => ?line, TxEngine.sendFrame_flush⟩
  have hrests : e.Rests := ⟨⟨hnbits, hacc⟩, hones⟩
  obtain ⟨⟨hnbits', -⟩, hones'⟩ := TxEngine.sendFrame_rests flags body false hrests
  obtain ⟨-, bytes, hts, hbits⟩ := TxEngine.sendFrame_puts flags body hrests
  rw [← List.append_assoc] at hbits
  exact ⟨bytes, hts, hnbits', hones', hbits⟩

/-- Settles O13: bit by bit, the byte is what waited and then the start of a flag. -/
theorem flushPadCompletesOneByte : Obligations.FlushPadCompletesOneByte := by
  refine fun e => ⟨TxEngine.flushPad_none, fun hpos hnbits hacc => ?_⟩
  obtain ⟨v, hflush, hbits⟩ := TxEngine.flushPad_byte ⟨hnbits, hacc⟩ hpos
  refine ⟨v, hflush, fun k hk => ?_⟩
  have hpending : e.pendingBits.length = e.nbits := by
    rw [TxEngine.pendingBits, List.length_take, length_lineBits]; omega
  rw [hbits]
  by_cases hlt : k < e.nbits
  · rw [if_pos hlt, List.getElem?_append_left (by omega), TxEngine.pendingBits, List.getElem?_take_of_lt hlt,
      lineBits_getElem? _ hk]
  · have hflag : k - e.nbits < flagBits.length := by show k - e.nbits < 8; omega
    rw [if_neg hlt, List.getElem?_append_right (by omega), hpending, List.getElem?_take_of_lt (by omega),
      List.getD_eq_getElem?_getD, List.getElem?_eq_getElem hflag, Option.getD_some]

end Sys2Proof.Machine
end

section
/-! PROOFS. BITS_RESET and SEND_BITS (R185, R186), and the RCP that takes a malformed one's place (R180, R182). -/

namespace Sys2Proof

/-! ## The words of the commands -/

theorem encode_bitsReset (rx tx : Bool) :
    encode (.bitsReset rx tx) = 0x00000020 ||| (if rx then 0x100 else 0) ||| if tx then 0x200 else 0 := by
  cases rx <;> cases tx <;> rfl

theorem encode_sendBits (flags : Byte) (flush : Bool) :
    encode (.sendBits flags flush) = 0x00000021 ||| (flags.zeroExtend 32 <<< 8) ||| if flush then 0x10000 else 0 := by
  refine BitVec.eq_of_getLsbD_eq fun k hk => ?_
  simp only [encode, cmdWord, BitVec.getLsbD_append, BitVec.getLsbD_or, BitVec.getLsbD_shiftLeft,
    BitVec.getLsbD_setWidth]
  cases flush <;> interval_cases k <;> simp [flag16]

theorem decode_bitsReset_row {w : Word} (h : opField w = 0x20) :
    decode w = checkReserved w 0xFC 0xFFFF (.bitsReset ((arg8 w).getLsbD 0) ((arg8 w).getLsbD 1)) := by
  rw [decode, h]; rfl

/-- R185: BITS_RESET has two argument bits. -/
theorem encode_bitsReset_reserved (rx tx : Bool) : (encode (.bitsReset rx tx)).extractLsb' 10 22 = 0 := by
  cases rx <;> cases tx <;> rfl

end Sys2Proof

namespace Sys2Proof.Machine

open Sys2Proof.Claims

/-! ## BITS_RESET and SEND_BITS -/

/-- R185: each bit resets its engine. -/
theorem exec_bitsReset (rx tx : Bool) (s : State) :
    exec (.bitsReset rx tx) s = .next (finished .ok { accepted (encode (.bitsReset rx tx)) s with
      rx := if rx then rxClear else s.rx, tx := if tx then txClear else s.tx }) := by
  rw [exec, execBitsReset, complete_eq_finished]
  cases rx <;> cases tx <;> rfl

/-- Settles O12: each bit resets its engine, and the word of a BITS_RESET has no bit above the two. -/
theorem bitsResetResets : Obligations.BitsResetResets := by
  refine ⟨fun s rx tx => ?resets, fun w hop hne => ?reserved⟩
  case resets => rw [← encode_bitsReset]; exact exec_bitsReset rx tx s
  case reserved =>
    refine decode_reservedBits (decode_bitsReset_row hop) fun h => hne ?_
    rw [← h, encode_bitsReset_reserved]

/-- R186: past the start checks SEND_BITS passes its body through the transmit engine. -/
theorem exec_sendBits {s : State} {body : List Byte} (flags : Byte) (flush : Bool) (hv34 : s.ctrl.v34 = false)
    (hlink : s.link = .txData) (hbody : TxBody s body) (hmax : body.length ≤ 1048)
    (hlen : body.length = 0 ∨ 3 ≤ body.length) :
    exec (.sendBits flags flush) s = .next (finished .ok { accepted (encode (.sendBits flags flush)) s with
      tx := (s.tx.sendFrame flags.toNat body flush).1
      outbound := s.outbound ++ (s.tx.sendFrame flags.toNat body flush).2 }) := by
  have hcount : (accept (.sendBits flags flush) s).txCount = body.length := hbody.1
  have hmin : (if (accept (.sendBits flags flush) s).txCount = 0 then 0 else Config.frameMinLen) ≤ body.length := by
    rw [hcount]
    split
    · exact Nat.zero_le _
    · exact hlen.resolve_left ‹_›
  refine (send_body (by simp [hv34, hlink]) hbody hmin hmax).trans ?_
  rw [complete_eq_finished]
  rfl

/-- Settles O15: the word of the command, and its CMD write step. -/
theorem sendBitsSends : Obligations.SendBitsSends := by
  intro s flags flush body hv34 hlink hbody hmax hlen
  rw [← encode_sendBits]
  exact exec_sendBits flags flush hv34 hlink hbody hmax hlen

/-! ## The canonical RCP -/

/-- R101: the canonical RCP checks out. -/
theorem crc16_canonicalRcp : crc16 0xFFFF Config.canonicalRcp = 0x1D0F := by
  simp [Config.canonicalRcp, crc16, crcStep, crcShift, Config.crcPoly]

/-- R182: the canonical RCP passes every check. -/
theorem frameStat_canonicalRcp (x : RxStat) :
    frameStat Config.canonicalRcp 4 true x = { x with
      valid := true, lenOk := true, addrOk := true, ctrlOk := true, crcOk := true, crcChecked := true, final := false
      fcf := 0x61 } := by
  have hcrc : crcOk Config.canonicalRcp = true := by
    rw [crcOk, show Config.crcInit = 0xFFFF from rfl, crc16_canonicalRcp]
    rfl
  have hverdict : frameVerdict Config.canonicalRcp 4 true = .ok := by
    rw [frameVerdict, hcrc]
    rfl
  rw [frameStat, hverdict, hcrc]
  rfl

/-- R182: the substitution completes the command with the canonical RCP. -/
theorem substituteRcp_eq (s : State) : substituteRcp s = .next (endReceive Config.canonicalRcp.length .ok { s with
    crc := 0x1D0F
    rxstat := { s.rxstat with
      valid := true, lenOk := true, addrOk := true, ctrlOk := true, crcOk := true, crcChecked := true, final := false
      rcpSubst := true, fcf := 0x61, alignErr := false }
    rxbuf := s.rxbuf.writeAll 0 Config.canonicalRcp }) := by
  have hknown := check_known (minlen := Config.rxMinLen) (chk := true) Config.canonicalRcp
    (s := setRxlen 5 { s with rxbuf := s.rxbuf.writeAll 0 Config.canonicalRcp })
    (k := fun _ s1 => .next (completeReceive .ok { s1 with
      rxstat := { s1.rxstat with rcpSubst := true, alignErr := false } })) holds_writeAll
  have hcheck : applyCheck Config.canonicalRcp 4 true
        (setRxlen 5 { s with rxbuf := s.rxbuf.writeAll 0 Config.canonicalRcp })
      = { setRxlen 5 { s with rxbuf := s.rxbuf.writeAll 0 Config.canonicalRcp } with
          crc := 0x1D0F
          rxstat := { s.rxstat with
            valid := true, lenOk := true, addrOk := true, ctrlOk := true, crcOk := true, crcChecked := true
            final := false, fcf := 0x61 } } := by
    rw [applyCheck, frameStat_canonicalRcp, show Config.crcInit = 0xFFFF from rfl, crc16_canonicalRcp]
    rfl
  rw [substituteRcp, storeRxAll_eq _ _ _ (by decide)]
  refine hknown.trans ?_
  rw [show Config.rxMinLen = 4 from rfl, hcheck]
  rfl

/-- Settles O29: the model's test is the statement's, and the canonical RCP stands in RXBUF when it is checked. -/
theorem malformedRcpIsReplaced : Obligations.MalformedRcpIsReplaced := by
  intro s bits truncated hrcp
  have hend : frameEnd bits truncated s = substituteRcp s := if_pos ((rcpBad_iff _ _ _ _).mpr hrcp)
  exact ⟨_, hend.trans (substituteRcp_eq s), endsReceive_writeAll (by decide) .ok⟩

end Sys2Proof.Machine
end

section
/-! PROOFS. A frame of SEND_BITS through RECV_BITS (R188): the receive engine over flags and stuffed bits, then the
bytes that carry them. -/

namespace Sys2Proof.Machine

open Sys2Proof.Claims

/-! ## Octets -/

/-- R181: an octet's bits make up its byte again. -/
theorem octet_bitsMsb (b : Byte) : octet (bitsMsb b) = b := by
  refine BitVec.eq_of_getLsbD_eq fun i hi => ?_
  have hbit := octet_getLsbD (b.getLsbD 7) (b.getLsbD 6) (b.getLsbD 5) (b.getLsbD 4) (b.getLsbD 3) (b.getLsbD 2)
    (b.getLsbD 1) (b.getLsbD 0) (k := 7 - i) (by omega)
  rw [show 7 - (7 - i) = i by omega] at hbit
  rw [bitsMsb, hbit]
  interval_cases i <;> rfl

theorem octets_flatMap_bitsMsb (bytes : List Byte) : octets (bytes.flatMap bitsMsb) = bytes := by
  induction bytes with
  | nil => rfl
  | cons b bytes ih =>
    have hcons : octets ((b :: bytes).flatMap bitsMsb) = octet (bitsMsb b) :: octets (bytes.flatMap bitsMsb) := rfl
    rw [hcons, octet_bitsMsb, ih]

theorem length_flatMap_bitsMsb (bytes : List Byte) : (bytes.flatMap bitsMsb).length = 8 * bytes.length := by
  simp [List.length_flatMap, bitsMsb, Nat.mul_comm]

/-! ## The receive engine over a frame -/

section
variable {guard : Nat} {e e' : RxEngine} {xs more : List Bool} {ev : RxEvent}

/-- R184: bits that give no event leave the bits behind them to the engine. -/
theorem feed_append_none (ys : List Bool) (h : feed guard xs e = (e', .none, more)) :
    feed guard (xs ++ ys) e = feed guard ys e' := by
  induction xs generalizing e with
  | nil =>
    obtain rfl : e = e' := congrArg Prod.fst h
    rfl
  | cons x xs ih =>
    cases hbit : e.rxBit guard x with
    | mk e1 ev1 =>
      by_cases hev1 : ev1 = .none
      · subst hev1
        rw [feed_none hbit] at h
        rw [List.cons_append, feed_none hbit, ih h]
      · rw [feed_event hbit hev1] at h
        exact absurd (congrArg (fun p => p.2.1) h) hev1

/-- R184: the bits behind an event are not used. -/
theorem feed_append_event (ys : List Bool) (hev : ev ≠ .none) (h : feed guard xs e = (e', ev, more)) :
    feed guard (xs ++ ys) e = (e', ev, more ++ ys) := by
  induction xs generalizing e with
  | nil => exact absurd (congrArg (fun p => p.2.1) h).symm hev
  | cons x xs ih =>
    cases hbit : e.rxBit guard x with
    | mk e1 ev1 =>
      by_cases hev1 : ev1 = .none
      · subst hev1
        rw [feed_none hbit] at h
        rw [List.cons_append, feed_none hbit, ih h]
      · rw [feed_event hbit hev1] at h
        rw [List.cons_append, feed_event hbit hev1]
        cases h
        rfl

/-- R184: the engine does not look at the backlog. -/
theorem feed_withBacklog (b : List Bool) (xs : List Bool) : ∀ e : RxEngine, feed guard xs { e with backlog := b }
    = ({ (feed guard xs e).1 with backlog := b }, (feed guard xs e).2) := by
  induction xs with
  | nil => exact fun _ => rfl
  | cons x xs ih =>
    intro e
    have hbit' := RxEngine.rxBit_withBacklog (guard := guard) (x := x) (e := e) b
    cases hbit : e.rxBit guard x with
    | mk e1 ev =>
      rw [hbit] at hbit'
      by_cases hev : ev = .none
      · subst hev
        rw [feed_none hbit', feed_none hbit, ih]
      · rw [feed_event hbit' hev, feed_event hbit hev]

/-- R177: a flag behind frame bits gives the frame, and behind fewer than 8 bits nothing. -/
theorem feed_flagBits (hsync : e.sync = .sync) (hones : e.ones ≤ 4) (hlen : e.pend.length + 7 < 8 * (guard + 1)) :
    feed guard (flagBits ++ more) e
      = if 8 ≤ e.pend.length then ({ e with ones := 0, pend := [] }, .frame e.pend, more)
        else feed guard more { e with ones := 0, pend := [] } := by
  have hones' := feed_ones (guard := guard) (more := false :: more) 6 { e with ones := 0, pend := e.pend ++ [false] }
    hsync rfl (by simp only [List.length_append, List.length_singleton]; omega)
  have hpend : (e.pend ++ [false] ++ List.replicate 6 true).length = e.pend.length + 7 := by simp
  have htake : (e.pend ++ [false] ++ List.replicate 6 true).take (e.pend.length + 7 - 7) = e.pend := by simp
  rw [show flagBits ++ more = false :: (List.replicate 6 true ++ false :: more) from rfl,
    feed_content hsync (by simpa using hones), if_neg (by omega)]
  refine hones'.trans ?_
  rw [feed_flag rfl]
  simp only [hsync, hpend, htake]
  by_cases hframe : 8 ≤ e.pend.length
  · rw [if_pos (by omega), if_pos hframe]
  · rw [if_neg (by omega), if_neg hframe]

/-- R173, R176: the receive engine takes out what stuffing put in. -/
theorem feed_stuff (xs : List Bool) : ∀ e : RxEngine, e.sync = .sync → e.ones ≤ 4 →
    e.pend.length + xs.length < 8 * (guard + 1) → ∃ ones, ones ≤ 4
      ∧ feed guard (stuff e.ones xs ++ more) e = feed guard more { e with ones := ones, pend := e.pend ++ xs } := by
  induction xs with
  | nil => exact fun e _ hones _ => ⟨e.ones, hones, by rw [List.append_nil]; rfl⟩
  | cons x xs ih =>
    intro e hsync hones hlen
    rw [List.length_cons] at hlen
    have hfit : e.pend.length + 1 ≠ 8 * (guard + 1) := by omega
    have hnext (n : Nat) (hn : n ≤ 4) := ih { e with ones := n, pend := e.pend ++ [x] } hsync hn
      (by simp only [List.length_append, List.length_singleton]; omega)
    simp only [List.append_assoc, List.singleton_append] at hnext
    have hbit (hx : if x then e.ones ≤ 5 else e.ones ≤ 4) (ys : List Bool) :=
      feed_content (guard := guard) (more := ys) hsync hx
    simp only [if_neg hfit] at hbit
    cases x with
    | false =>
      obtain ⟨ones, hle, hfeed⟩ := hnext 0 (Nat.zero_le 4)
      exact ⟨ones, hle, (hbit hones _).trans hfeed⟩
    | true =>
      have htrue := hbit (show e.ones ≤ 5 by omega)
      by_cases hfive : e.ones + 1 = 5
      · obtain ⟨ones, hle, hfeed⟩ := hnext 0 (Nat.zero_le 4)
        refine ⟨ones, hle, ?_⟩
        rw [stuff, if_pos hfive]
        exact (htrue _).trans ((feed_none (RxEngine.rxBit_removed (.inl hfive))).trans hfeed)
      · obtain ⟨ones, hle, hfeed⟩ := hnext (e.ones + 1) (by omega)
        refine ⟨ones, hle, ?_⟩
        rw [stuff, if_neg hfive]
        exact (htrue _).trans hfeed

/-- R177: the engine in sync with nothing received. -/
def rxIdle : RxEngine := { sync := .sync, ones := 0, pend := [], backlog := [] }

/-- R177: flags bring a reset engine into sync and give no frame. -/
theorem feed_flags (n : Nat) : feed guard ((List.replicate (n + 1) flagBits).flatten ++ more) rxClear
    = feed guard more rxIdle := by
  have hfirst (ys : List Bool) : feed guard (flagBits ++ ys) rxClear = feed guard ys rxIdle := rfl
  rw [List.replicate_succ, List.flatten_cons, List.append_assoc, hfirst]
  induction n with
  | zero => rfl
  | succ n ih =>
    rw [List.replicate_succ, List.flatten_cons, List.append_assoc,
      feed_flagBits rfl (Nat.zero_le 4) (show 0 + 7 < 8 * (guard + 1) by omega)]
    exact ih

/-- R173 to R177: flags, stuffed frame bits and a flag give a reset engine the frame; the bits behind them are not
used. -/
theorem feed_frame {n : Nat} (hmin : 8 ≤ xs.length) (hmax : xs.length ≤ 8 * guard) :
    feed guard ((List.replicate (n + 1) flagBits).flatten ++ (stuff 0 xs ++ flagBits) ++ more) rxClear
      = (rxIdle, .frame xs, more) := by
  obtain ⟨ones, hones, hstuffed⟩ := feed_stuff (guard := guard) (more := flagBits ++ more) xs rxIdle rfl
    (Nat.zero_le 4) (show 0 + xs.length < 8 * (guard + 1) by omega)
  rw [List.append_assoc, feed_flags, List.append_assoc]
  refine hstuffed.trans ((feed_flagBits rfl hones (show xs.length + 7 < 8 * (guard + 1) by omega)).trans ?_)
  exact if_pos hmin

end

/-! ## The bytes that carry a frame -/

/-- R184, R187: data bytes whose line bits give a frame in the last of them end the command with it. -/
theorem bits_engineStep_frame {s : State} {frame unused : List Bool} {e : RxEngine} {bytes : List Byte}
    {rest : List InToken} (hw : s.pos = some .recvBits) (hin : s.inbound = bytes.flatMap inDoubled ++ rest)
    (hfeed : feed s.guard (bytes.flatMap lineBits) s.rx = (e, .frame frame, unused)) (hunused : unused.length < 8) :
    engineStep s = frameEnd frame false { s with inbound := rest, rx := { e with backlog := unused } } := by
  induction bytes generalizing s e with
  | nil => exact absurd (congrArg (fun p => p.2.1) hfeed) nofun
  | cons v bytes ih =>
    rw [List.flatMap_cons, List.append_assoc] at hin
    rw [List.flatMap_cons] at hfeed
    have htaken := bits_engineStep_taken hw hin
    obtain ⟨e1, ev, more, hbyte⟩ : ∃ e1 ev more, feed s.guard (lineBits v) s.rx = (e1, ev, more) := ⟨_, _, _, rfl⟩
    rw [hbyte] at htaken
    by_cases hev : ev = .none
    case pos =>
      subst hev
      have hrest : feed s.guard (bytes.flatMap lineBits) { e1 with backlog := [] }
          = ({ e with backlog := [] }, .frame frame, unused) := by
        rw [feed_withBacklog, ← feed_append_none _ hbyte, hfeed]
      exact Eq.trans htaken <|
        ih (s := { s with inbound := bytes.flatMap inDoubled ++ rest, rx := { e1 with backlog := [] } })
          (e := { e with backlog := [] }) hw rfl hrest
    case neg =>
      rw [feed_append_event _ hev hbyte] at hfeed
      obtain ⟨rfl, rfl, rfl⟩ : e1 = e ∧ ev = .frame frame ∧ more ++ bytes.flatMap lineBits = unused := by
        simpa only [Prod.mk.injEq] using hfeed
      rw [List.length_append, length_flatMap_lineBits] at hunused
      obtain rfl : bytes = [] := List.length_eq_zero_iff.mp (by omega)
      rw [List.flatMap_nil, List.append_nil]
      exact htaken

/-- R186: a flushed frame from an engine with nothing pending goes out in whole bytes. -/
theorem sendFrame_flushed_line (flags : Nat) {body : List Byte} (hbody : body ≠ []) :
    ∃ (bytes : List Byte) (pad : List Bool), (txClear.sendFrame flags body true).2 = escapedAll bytes ∧ pad.length < 8
      ∧ bytes.flatMap lineBits = (List.replicate flags flagBits).flatten
          ++ (stuff 0 ((body ++ fcsBytes body).flatMap bitsMsb) ++ flagBits) ++ pad := by
  have hsent := TxEngine.sendFrame_puts flags body TxEngine.init_rests
  obtain ⟨-, bytes, hts, hbits⟩ := hsent.append (TxEngine.flushPad_puts hsent.packed)
  rw [TxEngine.flushPad_clears hsent.packed, if_neg hbody] at hbits
  refine ⟨bytes, _, ?_, TxEngine.length_padBits_lt _, (List.append_nil _).symm.trans hbits⟩
  rw [TxEngine.sendFrame_flush]
  exact hts

/-! ## The frame received -/

/-- R182: a frame of whole octets that is no malformed RCP. -/
theorem frameEnd_wholeOctets {s : State} {frame : List Byte} (hlen : frame.length ≤ 1048)
    (hrcp : ¬ MalformedRcp s.ctrl.rcpFix frame 0 false) :
    ∃ (u : State) (r : Result), frameEnd (frame.flatMap bitsMsb) false s = .next u
      ∧ r = receivedResult 4 true false false frame
      ∧ EndsReceive r frame { s with
          crc := crc16 0xFFFF frame, rxstat := { receivedStat 4 true frame r s.rxstat with alignErr := false } } u := by
  have hresid : (frame.flatMap bitsMsb).length % 8 = 0 := by rw [length_flatMap_bitsMsb, Nat.mul_mod_right]
  rw [← octets_flatMap_bitsMsb frame] at hlen
  rw [← octets_flatMap_bitsMsb frame, ← hresid] at hrcp
  obtain ⟨u, hu, hends⟩ := frameEnd_frame hlen hrcp rfl
  rw [bitFrameResult_eq, octets_flatMap_bitsMsb, hresid, if_neg Bool.false_ne_true, if_neg fun h => h.2 rfl] at hends
  exact ⟨u, _, hu, rfl, hends⟩

/-- Settles O27: the frame's line bits give the frame in the last byte sent, and the checks find it in order. -/
theorem bitFrameRoundTrip : Obligations.BitFrameRoundTrip := by
  intro a flags body hv34 hlink htx hbody hmin hmax hflags
  obtain ⟨n, hn⟩ : ∃ n, flags.toNat = n + 1 :=
    Nat.exists_eq_succ_of_ne_zero fun h => hflags (BitVec.eq_of_toNat_eq h)
  have hexec := exec_sendBits flags true hv34 hlink hbody hmax (.inr hmin)
  obtain ⟨bytes, pad, hsent, hpad, hline⟩ :=
    sendFrame_flushed_line flags.toNat (body := body) (by rintro rfl; exact absurd hmin (by decide))
  rw [htx, hsent] at hexec
  refine ⟨_, _, hexec, rfl, fun s rest hv34 hlink hrx hguard hrcp hin => ?_⟩
  rw [← flatMap_dcePut_eq, delivered_flatMap_dcePut] at hin
  have hlen : (body ++ fcsBytes body).length = body.length + 2 := List.length_append
  have hbits := length_flatMap_bitsMsb (body ++ fcsBytes body)
  have hguard' : s.guard ≤ 1048 := guard_le s
  have hfeed : feed s.guard (bytes.flatMap lineBits) s.rx
      = (rxIdle, .frame ((body ++ fcsBytes body).flatMap bitsMsb), pad) := by
    rw [hrx, hline, hn]
    exact feed_frame (by omega) (by omega)
  have hstep := bits_engineStep_frame (s := waiting .recvBits (receiveStarted 0x00000022 s)) rfl hin hfeed hpad
  obtain ⟨u, r, hu, hr, hends⟩ := frameEnd_wholeOctets (frame := body ++ fcsBytes body)
    (s := { waiting .recvBits (receiveStarted 0x00000022 s) with
      inbound := rest, rx := { rxIdle with backlog := pad } }) (by omega) hrcp
  have ⟨_, _, hover⟩ := hends
  have hurx : u.rx = { rxIdle with backlog := pad } := congrArg State.rx hover
  have hstat : u.rxstat = { receivedStat 4 true (body ++ fcsBytes body) r rxstatClear with alignErr := false } :=
    congrArg State.rxstat hover
  refine ⟨_, u, r, exec_recvBits_noBacklog hv34 hlink (by rw [hrx]; rfl), rfl, hstep.trans hu, by rw [hurx]; rfl,
    by rw [hurx]; rfl, by rw [hstat], ?received, fun hok => ?accepted⟩
  case received =>
    rw [crc16_append, crc16_fcsBytes] at hends
    rw [hstat, hurx]
    exact hends
  case accepted =>
    rw [receivedResult_framed hmin hok] at hr
    exact ⟨hr, by rw [hstat, hr]; rfl⟩

end Sys2Proof.Machine
end

section
/-! PROOFS. SEND_IND (R218), and a frame of SEND_V34 through RECV_V34 (R211, R215, R216). -/

namespace Sys2Proof

/-- R93: the word of a command whose one argument is ARG8. -/
theorem cmdWord_arg8 (op a8 : Byte) : cmdWord op a8 0 = op.zeroExtend 32 ||| (a8.zeroExtend 32 <<< 8) := by
  refine BitVec.eq_of_getLsbD_eq fun k hk => ?_
  simp only [cmdWord, BitVec.getLsbD_append, BitVec.getLsbD_or, BitVec.getLsbD_shiftLeft, BitVec.getLsbD_setWidth]
  interval_cases k <;> simp

theorem encode_sendInd (x : Byte) : encode (.sendInd x) = 0x00000033 ||| (x.zeroExtend 32 <<< 8) := cmdWord_arg8 0x33 x

theorem decode_sendInd_row {w : Word} (h : opField w = 0x33) :
    decode w = checkReserved w 0x00 0xFFFF (.sendInd (arg8 w)) := by
  rw [decode, h]; rfl

end Sys2Proof

namespace Sys2Proof.Machine

open Sys2Proof.Claims

/-! ## SEND_IND -/

/-- R218: in the V.34 dialect the pair goes out whatever its byte is. -/
theorem exec_sendInd {s : State} (hv34 : s.ctrl.v34 = true) (x : Byte) :
    exec (.sendInd x) s = .next (finished .ok { accepted (encode (.sendInd x)) s with
      outbound := s.outbound ++ [.byte 0x10, .byte x] }) := by
  have hmode : (accept (.sendInd x) s).ctrl.v34 = true := hv34
  rw [exec, execSendInd, hmode, requireMode_true, complete_eq_finished]
  rfl

theorem exec_sendInd_modeError {s : State} (hv34 : s.ctrl.v34 = false) (x : Byte) :
    exec (.sendInd x) s = .next (finished .modeError (accepted (encode (.sendInd x)) s)) := by
  have hmode : (accept (.sendInd x) s).ctrl.v34 = false := hv34
  rw [exec, execSendInd, hmode, requireMode_false, complete_eq_finished, accept_eq_accepted]

/-- Settles O18: the two dialects, and the row of the decoder for the reserved bits. -/
theorem sendIndSends : Obligations.SendIndSends := by
  refine ⟨fun s x hv34 => ?sends, fun s x hv34 => ?modeError, fun w hop hne => ?reserved⟩
  case sends => rw [← encode_sendInd]; exact exec_sendInd hv34 x
  case modeError => rw [← encode_sendInd]; exact exec_sendInd_modeError hv34 x
  case reserved =>
    refine decode_reservedBits (decode_sendInd_row hop) fun h => hne ?_
    have harg : arg16 w = 0 := by rw [← h, encode, arg16_cmdWord]
    exact harg

/-! ## A whole frame through RECV_V34 -/

section
variable {s : State} {rest : List InToken} {bytes : List Byte}

/-- RECV_V34 has stored `bytes` since the state `s`, and has `rest` in the FIFO. -/
def v34Received (bytes : List Byte) (rest : List InToken) (s : State) : State :=
  { s with pos := some (.recvV34 bytes.length false), rxbuf := s.rxbuf.writeAll 0 bytes, inbound := rest }

theorem v34Received_doubled (hlen : bytes.length < 1048) (b : Byte) :
    engineStep (v34Received bytes (inDoubled (dceOctet b) ++ rest) s)
      = engineStep (v34Received (bytes ++ [b]) rest s) := by
  have hstore : v34Store bytes.length false b (v34Received bytes rest s) = v34Received (bytes ++ [b]) rest s := by
    rw [v34Store_eq, if_pos hlen]
    simp only [v34Received, Memory.writeAll_concat, Nat.zero_add, List.length_append, List.length_singleton]
  have hstep := v34_engineStep_byte (s := v34Received bytes (inDoubled (dceOctet b) ++ rest) s) rfl (.inl rfl)
  rw [dceOctet_dceOctet] at hstep
  exact hstep.trans (congrArg engineStep hstore)

/-- R211, R216: every byte of a frame is stored, DLE or not. -/
theorem v34Received_frame (frame : List Byte) : ∀ {bytes : List Byte}, bytes.length + frame.length ≤ 1048 →
    engineStep (v34Received bytes ((frame.map dceOctet).flatMap inDoubled ++ rest) s)
      = engineStep (v34Received (bytes ++ frame) rest s) := by
  induction frame with
  | nil => intro bytes _; simp
  | cons b frame ih =>
    intro bytes hlen
    rw [List.length_cons] at hlen
    rw [List.map_cons, List.flatMap_cons, List.append_assoc, v34Received_doubled (by omega), ih (by simp; omega),
      List.append_assoc, List.singleton_append]

/-- R216: the end marker completes RECV_V34 with what the checks say of the frame. -/
theorem v34_engineStep_etx {frame : List Byte} {ovf : Bool} (hw : s.pos = some (.recvV34 frame.length ovf))
    (hin : s.inbound = .byte 0x10 :: .byte 0x03 :: rest) (hholds : Holds s.rxbuf frame) {r : Result}
    (hr : r = receivedResult 3 false ovf s.rxstat.dceFcsErr frame) :
    engineStep s = .next (endReceive frame.length r (frameChecked 3 false frame r { s with inbound := rest })) := by
  rw [(v34_dataPhase _ _).engineStep_pair hw hin, v34Dle_etx, finishReceived_held
    (s := goto (.recvV34Dle frame.length ovf) { s with inbound := rest }) 3 false ovf hholds hr]
  exact engineStep_idle (s := endReceive _ _ _) rfl

/-- R216: a frame that fits is stored, and its end marker completes RECV_V34 with it. -/
theorem v34_engineStep_received (hw : s.pos = some (.recvV34 0 false)) {frame : List Byte} (hlen : frame.length ≤ 1048)
    {r : Result} (hr : r = receivedResult 3 false false s.rxstat.dceFcsErr frame)
    (hin : s.inbound = (frame.map dceOctet).flatMap inDoubled ++ .byte 0x10 :: .byte 0x03 :: rest) :
    ∃ u, engineStep s = .next u
      ∧ EndsReceive r frame (frameChecked 3 false frame r { s with inbound := rest }) u := by
  have hstart : s = v34Received [] s.inbound s := by rw [v34Received, List.length_nil, ← hw, Memory.writeAll]
  have hstored : engineStep s = engineStep (v34Received frame (.byte 0x10 :: .byte 0x03 :: rest) s) := by
    calc engineStep s = engineStep (v34Received [] s.inbound s) := congrArg engineStep hstart
      _ = engineStep (v34Received frame (.byte 0x10 :: .byte 0x03 :: rest) s) := by
        rw [hin, v34Received_frame frame (bytes := []) (by simpa using hlen), List.nil_append]
  refine ⟨_, ?_, endsReceive_writeAll (s := frameChecked 3 false frame r { s with inbound := rest }) hlen r⟩
  rw [hstored]
  exact v34_engineStep_etx (s := v34Received frame _ s) rfl rfl holds_writeAll hr

end

/-! ## SEND_V34's frame -/

theorem length_framed (append : Bool) (body : List Byte) :
    (framed append body).length = body.length + if append then 2 else 0 := by
  cases append <;> simp [framed, fcsBytes]

/-- R104: the FCS behind a body is no part of the address and control tests. -/
theorem addrCtrlOk_framed {body : List Byte} (h : addrCtrlOk body) (append : Bool) : addrCtrlOk (framed append body) := by
  obtain ⟨haddr, c, hc, hctrl⟩ := h
  cases append with
  | false => exact ⟨haddr, c, hc, hctrl⟩
  | true =>
    refine ⟨?_, c, ?_, hctrl⟩
    · exact (List.getElem?_append_left (List.getElem?_eq_some_iff.mp haddr).1).trans haddr
    · exact (List.getElem?_append_left (List.getElem?_eq_some_iff.mp hc).1).trans hc

/-- R106, R216: without a CRC check the address and control tests are all that a long enough frame must pass. -/
theorem receivedResult_unchecked {frame : List Byte} {minlen : Nat} (hlen : minlen ≤ frame.length) (h : addrCtrlOk frame) :
    receivedResult minlen false false false frame = .ok := by
  obtain ⟨haddr, c, hc, hctrl⟩ := h
  have hctrl' : frame.getD 1 0 &&& 0xF7 = 0xC0 := by
    rw [List.getD_eq_getElem?_getD, hc]
    exact hctrl
  rw [receivedResult, if_neg Bool.false_ne_true, if_neg (Nat.not_lt.mpr hlen), if_neg (not_not.mpr haddr),
    if_neg (not_not.mpr hctrl'), if_neg fun h => Bool.false_ne_true h.1, if_neg Bool.false_ne_true]

/-- Settles O31: the frame sent, then the frame received; nothing of RXSTAT was set before it. -/
theorem v34FrameRoundTrip : Obligations.V34FrameRoundTrip := by
  intro a body hv34 hbody hmin hmax
  have hexec := sendV34Sends a body hv34 hbody hmin (by omega)
  rw [List.append_assoc] at hexec
  refine ⟨_, _, hexec, rfl, fun s rest hv34 hin => ?_⟩
  rw [delivered_escapedAll_endMarker] at hin
  obtain ⟨frame, hframe⟩ : ∃ frame, frame = framed a.ctrl.txFcsByte body := ⟨_, rfl⟩
  obtain ⟨r, hr⟩ : ∃ r, r = receivedResult 3 false false false frame := ⟨_, rfl⟩
  have hlen : body.length ≤ frame.length ∧ frame.length ≤ body.length + 2 := by
    rw [hframe, length_framed]
    split <;> omega
  rw [← hframe] at hin ⊢
  obtain ⟨u, hu, hends⟩ := v34_engineStep_received (s := waiting (.recvV34 0 false) (receiveStarted 0x00000031 s)) rfl
    (by omega) hr hin
  have ⟨_, _, hover⟩ := hends
  have hstat : u.rxstat = receivedStat 3 false frame r rxstatClear := congrArg State.rxstat hover
  refine ⟨_, u, r, exec_recvV34 hv34, rfl, hu, ?received, by rw [hstat]; rfl, fun hok => ?accepted⟩
  case received => rw [hstat]; exact hends
  case accepted =>
    have haddr : addrCtrlOk frame := by rw [hframe]; exact addrCtrlOk_framed hok _
    rw [receivedResult_unchecked (by omega) haddr] at hr
    exact ⟨hr, by rw [hstat, hr]; rfl⟩

end Sys2Proof.Machine
end

section
/-! PROOFS. The V.34 indicators (R213), and WAIT_CHANNEL's wait for one (R211, R212, R217). -/

namespace Sys2Proof

theorem encode_waitChannel (ctrl : Bool) : encode (.waitChannel ctrl) = 0x00000032 ||| if ctrl then 0x100 else 0 := by
  cases ctrl <;> rfl

end Sys2Proof

namespace Sys2Proof.Machine

open Sys2Proof.Claims

/-! ## Indicators -/

/-- R213: the table of the indicators, field by field. -/
theorem ChMode.indicate_eq (x : Byte) (c : ChMode) :
    c.indicate x = { c with
      lastInd := x
      controlActive := if x = 0x6B then false else if x = 0x6D then true else c.controlActive
      retrain := if x = 0x6C then true else c.retrain
      crate := if x = 0x6E ∨ x = 0x6F then x else c.crate
      prate := if 0x70 ≤ x.toNat ∧ x.toNat ≤ 0x7D then x else c.prate } := by
  have hcrate : x = 0x6E ∨ x = 0x6F ↔ 0x6E ≤ x.toNat ∧ x.toNat ≤ 0x6F := by bv_omega
  by_cases hpri : x = 0x6B
  · subst hpri; rfl
  by_cases hctrl : x = 0x6D
  · subst hctrl; rfl
  by_cases hretrain : x = 0x6C
  · subst hretrain; rfl
  by_cases hrate : 0x6E ≤ x.toNat ∧ x.toNat ≤ 0x6F
  · have hnot : ¬ (0x70 ≤ x.toNat ∧ x.toNat ≤ 0x7D) := by omega
    simp only [ChMode.indicate, Config.indPri, Config.indCtrl, Config.indRetrain, if_neg hpri, if_neg hctrl,
      if_neg hretrain, if_pos hrate, hcrate, if_neg hnot]
  · simp only [ChMode.indicate, Config.indPri, Config.indCtrl, Config.indRetrain, if_neg hpri, if_neg hctrl,
      if_neg hretrain, if_neg hrate, hcrate]
    split <;> rfl

/-! ## WAIT_CHANNEL -/

theorem exec_waitChannel {s : State} (hv34 : s.ctrl.v34 = true) (ctrl : Bool) :
    exec (.waitChannel ctrl) s = .next (waiting .waitChannel (accepted (encode (.waitChannel ctrl)) s)) := by
  have hmode : (accept (.waitChannel ctrl) s).ctrl.v34 = true := hv34
  rw [exec, execWaitChannel, hmode, requireMode_true]
  rfl

/-- R217: the command word names the indicator. -/
theorem wantedIndicator_waitChannel {s : State} {ctrl : Bool} (h : s.curCmd = encode (.waitChannel ctrl)) :
    s.wantedIndicator = if ctrl then 0x6D else 0x6B := by
  rw [State.wantedIndicator, State.arg8, h]
  cases ctrl <;> rfl

theorem chan_dataPhase : DataPhase .waitChannel .waitChannelDle := ⟨nofun, nofun, fun _ => rfl⟩

section
variable {s : State} {x : Byte} {rest : List InToken}

/-- R217: data bytes are discarded. -/
theorem chan_byte (hx : x ≠ 0x10) (t : State) : onToken .waitChannel (.byte x) t = .next (goto .waitChannel t) :=
  congrArg (fun w => Host.Outcome.next (goto w t)) (if_neg hx)

/-- R212, R217: DLE EOT ends the command. -/
theorem chanDle_eot (t : State) :
    onToken .waitChannelDle (.byte 0x04) t = .next (complete .peerEot (noteEot t)) := rfl

/-- R211, R217: the pairs that are no indicator. -/
theorem chanDle_discard (hx : x ∈ [(0x10 : Byte), 0x1A, 0x03, 0x07]) (t : State) :
    onToken .waitChannelDle (.byte x) t = .next (goto .waitChannel t) := by
  simp only [List.mem_cons, List.not_mem_nil, or_false] at hx
  obtain rfl | rfl | rfl | rfl := hx <;> rfl

/-- R213, R217: any other pair is an indicator, and the awaited one completes the command. -/
theorem chanDle_indicator (hx : x ∉ [(0x10 : Byte), 0x1A, 0x03, 0x04, 0x07]) (t : State) :
    onToken .waitChannelDle (.byte x) t
      = .next (if x = t.wantedIndicator then complete .ok (indicator x t) else goto .waitChannel (indicator x t)) := by
  simp only [List.mem_cons, List.not_mem_nil, or_false, not_or] at hx
  obtain ⟨hdle, hsub, hetx, heot, hfcs⟩ := hx
  refine (if_neg heot).trans ((if_neg ?_).trans (apply_ite Host.Outcome.next _ _ _).symm)
  exact not_or.mpr ⟨hdle, not_or.mpr ⟨hsub, not_or.mpr ⟨hetx, hfcs⟩⟩⟩

theorem chan_engineStep_wanted (hw : s.pos = some .waitChannel) (hx : x ∉ [(0x10 : Byte), 0x1A, 0x03, 0x04, 0x07])
    (hwanted : x = s.wantedIndicator) (hin : s.inbound = .byte 0x10 :: .byte x :: rest) :
    engineStep s = .next (finished .ok (indicator x { s with inbound := rest })) := by
  rw [chan_dataPhase.engineStep_pair hw hin, chanDle_indicator hx, if_pos (by exact hwanted)]
  exact goOn_complete _ _

theorem chan_engineStep_eot (hw : s.pos = some .waitChannel) (hin : s.inbound = .byte 0x10 :: .byte 0x04 :: rest) :
    engineStep s = .next (finished .peerEot (noteEot { s with inbound := rest })) := by
  rw [chan_dataPhase.engineStep_pair hw hin, chanDle_eot]
  exact goOn_complete _ _

theorem chan_engineStep_indicator (hw : s.pos = some .waitChannel) (hx : x ∉ [(0x10 : Byte), 0x1A, 0x03, 0x04, 0x07])
    (hother : x ≠ s.wantedIndicator) (hin : s.inbound = .byte 0x10 :: .byte x :: rest) :
    engineStep s = engineStep { indicator x s with inbound := rest } := by
  rw [chan_dataPhase.engineStep_pair hw hin, chanDle_indicator hx, if_neg (by exact hother), goOn_next]
  exact congrArg engineStep (goto_self (s := { indicator x s with inbound := rest }) hw)

theorem chan_engineStep_discard (hw : s.pos = some .waitChannel) (hx : x ∈ [(0x10 : Byte), 0x1A, 0x03, 0x07])
    (hin : s.inbound = .byte 0x10 :: .byte x :: rest) : engineStep s = engineStep { s with inbound := rest } := by
  rw [chan_dataPhase.engineStep_pair hw hin, chanDle_discard hx, goOn_next]
  exact congrArg engineStep (goto_self (s := { s with inbound := rest }) hw)

theorem chan_engineStep_byte (hw : s.pos = some .waitChannel) (hx : x ≠ 0x10) (hin : s.inbound = .byte x :: rest) :
    engineStep s = engineStep { s with inbound := rest } := by
  rw [engineStep_cons hw nofun hin, chan_byte hx, goOn_next]
  exact congrArg engineStep (goto_self (s := { s with inbound := rest }) hw)

/-- R217: a result, with or without a lone DLE before it. -/
theorem chan_engineStep_result {dle : Bool} {r : DceRes} (hw : s.pos = some .waitChannel)
    (hin : s.inbound = afterDle dle ++ .res r :: rest) :
    engineStep s = goOn (.next (chanResult r { s with inbound := rest })) :=
  chan_dataPhase.engineStep_result (f := fun t => .next (chanResult r t)) hw hin (fun _ => rfl)
    fun t => by cases r <;> rfl

end

/-- Settles O33: the indicator table, then each kind of token at the wait. -/
theorem waitChannelCompletes : Obligations.WaitChannelCompletes := by
  refine ⟨fun x s => congrArg (fun c => { s with chmode := c }) (ChMode.indicate_eq x s.chmode), fun s ctrl hv34 => ?_⟩
  rw [← encode_waitChannel]
  refine ⟨_, exec_waitChannel hv34 ctrl, rfl, fun c rest => ?_⟩
  refine ⟨?wanted, ?eot, fun x heot hdle hsub hetx hfcs hother => ?indicator, fun x hx => ?pair, fun v hv => ?data,
    fun dle r => ?result⟩
  case wanted =>
    have hx : (if ctrl then 0x6D else 0x6B : Byte) ∉ [(0x10 : Byte), 0x1A, 0x03, 0x04, 0x07] := by cases ctrl <;> decide
    rw [chan_engineStep_wanted rfl hx (wantedIndicator_waitChannel rfl).symm rfl]
    cases ctrl <;> rfl
  case eot => exact chan_engineStep_eot rfl rfl
  case indicator =>
    have hx : x ∉ [(0x10 : Byte), 0x1A, 0x03, 0x04, 0x07] := by
      simp only [List.mem_cons, List.not_mem_nil, or_false, not_or]
      exact ⟨hdle, hsub, hetx, heot, hfcs⟩
    refine chan_engineStep_indicator rfl hx ?_ rfl
    rw [wantedIndicator_waitChannel rfl]
    exact hother
  case pair => exact chan_engineStep_discard rfl hx rfl
  case data => exact chan_engineStep_byte rfl hv rfl
  case result =>
    rw [chan_engineStep_result rfl rfl]
    cases r with
    | noCarrier | ok | error => exact goOn_complete _ _
    | connect | fcerror | other => rfl

end Sys2Proof.Machine
end

section
/-! PROOFS. Who changes the link and CHMODE (R219, R242): what each token and each deadline does to them, and from which wait
points. -/

namespace Sys2Proof.Machine

open Sys2Proof.Claims

/-! ## Transitions -/

/-- R242: the link transitions of the ENGINE, with the wait point that a TX or RX state comes from. -/
def LinkMoves (s t : State) : Prop :=
  t.link = s.link ∨ t.link = .idle ∨ (t.link = .unknown ∧ t.status.result = .timeout)
    ∨ (s.pos = some .txCarrier ∧ (t.link = .txHdlc ∨ t.link = .txData))
    ∨ (s.pos = some .rxCarrier ∧ (t.link = .rxHdlc ∨ t.link = .rxData))

/-- R219: the running command is RECV_V34 or WAIT_CHANNEL, in its data phase. -/
def MayWriteChmode (s : State) : Prop := ∃ w, s.pos = some w ∧ writesChmode w = true

/-- R219, R242: the link and CHMODE change as the position allows, and no command comes to the wait points of TX_CARRIER,
RX_CARRIER, RECV_V34 or WAIT_CHANNEL but from its own. -/
structure Owned (s t : State) : Prop where
  link : LinkMoves s t
  chmode : t.chmode ≠ s.chmode → MayWriteChmode s
  txCarrier : t.pos = some .txCarrier → s.pos = some .txCarrier
  rxCarrier : t.pos = some .rxCarrier → s.pos = some .rxCarrier
  channel : MayWriteChmode t → MayWriteChmode s

/-- The positions from which neither a TX or RX state of the link nor a change of CHMODE can come. -/
def ordinary : Option WaitPoint → Bool
  | some .txCarrier | some .rxCarrier => false
  | some w => !writesChmode w
  | none => true

section
variable {s t u : State}

theorem Owned.refl (s : State) : Owned s s := ⟨.inl rfl, fun h => absurd rfl h, id, id, id⟩

/-- A step taken by a command that has not changed the link before. -/
theorem Owned.trans (h : Owned s u) (hu : u.link = s.link) (h' : Owned u t) : Owned s t where
  link := by
    obtain hsame | hidle | hunknown | ⟨hw, htx⟩ | ⟨hw, hrx⟩ := h'.link
    · exact .inl (hsame.trans hu)
    · exact .inr (.inl hidle)
    · exact .inr (.inr (.inl hunknown))
    · exact .inr (.inr (.inr (.inl ⟨h.txCarrier hw, htx⟩)))
    · exact .inr (.inr (.inr (.inr ⟨h.rxCarrier hw, hrx⟩)))
  chmode hne := by
    by_cases hc : u.chmode = s.chmode
    · exact h.channel (h'.chmode (by rwa [hc]))
    · exact h.chmode hc
  txCarrier hw := h.txCarrier (h'.txCarrier hw)
  rxCarrier hw := h.rxCarrier (h'.rxCarrier hw)
  channel hw := h.channel (h'.channel hw)

/-- The relation does not read the inbound FIFO. -/
theorem Owned.ofInbound {ts : List InToken} (h : Owned { s with inbound := ts } t) : Owned s t :=
  ⟨h.link, h.chmode, h.txCarrier, h.rxCarrier, h.channel⟩

theorem not_mayWriteChmode_of_ordinary (hp : ordinary s.pos = true) : ¬ MayWriteChmode s := by
  rintro ⟨w, hw, hc⟩
  rw [hw] at hp
  cases w with
  | recvV34 | recvV34Dle | waitChannel | waitChannelDle => cases hp
  | _ => cases hc

/-- A step to an ordinary position that moves the link nowhere but to IDLE. -/
theorem owned_ordinary (hp : ordinary t.pos = true) (hlink : LinkMoves s t) (hchmode : t.chmode = s.chmode) : Owned s t where
  link := hlink
  chmode h := absurd hchmode h
  txCarrier h := by rw [h] at hp; cases hp
  rxCarrier h := by rw [h] at hp; cases hp
  channel h := absurd h (not_mayWriteChmode_of_ordinary hp)

theorem owned_same (hp : ordinary t.pos = true) (hlink : t.link = s.link) (hchmode : t.chmode = s.chmode) : Owned s t :=
  owned_ordinary hp (.inl hlink) hchmode

theorem owned_idle (hp : ordinary t.pos = true) (hlink : t.link = .idle) (hchmode : t.chmode = s.chmode) : Owned s t :=
  owned_ordinary hp (.inr (.inl hlink)) hchmode

theorem ReceiveDone.pos (hd : ReceiveDone s t) : t.pos = none := by cases hd; rfl
theorem ReceiveDone.link (hd : ReceiveDone s t) : t.link = s.link := by cases hd; rfl
theorem ReceiveDone.chmode (hd : ReceiveDone s t) : t.chmode = s.chmode := by cases hd; rfl

/-- A receive command that completes from the link state it ran in, or from IDLE. -/
theorem owned_done (hlink : u.link = s.link ∨ u.link = .idle) (hchmode : u.chmode = s.chmode) (hd : ReceiveDone u t) :
    Owned s t := by
  refine owned_ordinary (by rw [hd.pos]; rfl) ?_ (hd.chmode.trans hchmode)
  rw [LinkMoves, hd.link, ← or_assoc]
  exact .inl hlink

theorem owned_endReceive (n : Nat) (r : Result) (s : State) : Owned s (endReceive n r (setLink .idle s)) :=
  owned_done (u := setLink .idle s) (.inr rfl) rfl (endReceive_done n r _)

/-- R219: RECV_V34 and WAIT_CHANNEL do with CHMODE what they will, and leave the link. -/
theorem owned_channel (hs : MayWriteChmode s) (hlink : t.link = s.link) (htx : t.pos ≠ some .txCarrier)
    (hrx : t.pos ≠ some .rxCarrier) : Owned s t :=
  ⟨.inl hlink, fun _ => hs, fun h => absurd h htx, fun h => absurd h hrx, fun _ => hs⟩

end

/-! ## The tokens of each wait point -/

section
variable (n : Nat) (found ovf : Bool) (x : InToken) (r : DceRes) (v : Byte) (s : State)

theorem sendHdlcToken_owned (final : Bool) : Answers (Owned s) (sendHdlcToken final x s) := by
  refine answers_awaitResult (.refl s) fun r => ?_
  cases r with
  | ok | error | noCarrier => exact answers_next.mpr (owned_idle rfl rfl rfl)
  | connect =>
    rw [answers_next]
    split
    · exact .refl s
    · exact owned_same rfl rfl rfl
  | fcerror | other => exact answers_next.mpr (.refl s)

theorem hdlcPut_owned : Owned s (hdlcPut n found ovf v s) := by
  unfold hdlcPut
  split
  · exact owned_same rfl rfl rfl
  · split
    · exact owned_same rfl (by simp) (by simp)
    · exact owned_same rfl rfl rfl

theorem hdlcDataResult_owned : Owned s (hdlcDataResult n found ovf r s) := by
  cases r with
  | noCarrier | ok | error => exact owned_endReceive n _ s
  | connect | fcerror | other => exact owned_same rfl rfl rfl

theorem recvHdlcDataToken_owned : Answers (Owned s) (recvHdlcDataToken n found ovf x s) := by
  cases x with
  | byte v =>
    rw [recvHdlcDataToken, answers_next]
    split
    · exact owned_same rfl rfl rfl
    · exact hdlcPut_owned n found ovf v s
  | res r => exact answers_next.mpr (hdlcDataResult_owned n found ovf r s)

theorem recvHdlcDleToken_owned : Answers (Owned s) (recvHdlcDleToken n found ovf x s) := by
  cases x with
  | byte v =>
    rw [recvHdlcDleToken, answers_next]
    split
    · exact hdlcPut_owned n found ovf _ s
    · split <;> exact owned_same rfl rfl rfl
  | res r => exact answers_next.mpr (hdlcDataResult_owned n found ovf r s)

theorem recvHdlcEndToken_owned : Answers (Owned s) (recvHdlcEndToken n ovf x s) := by
  refine answers_awaitResult (.refl s) fun r => ?_
  cases r with
  | ok | noCarrier =>
    exact fun t ht => owned_done (u := setLink .idle s) (.inr rfl) rfl (finishReceived_done n _ _ ovf _ t ht)
  | error =>
    exact fun t ht => owned_done (u := setLink .idle s) (.inr rfl) rfl (finishReceived_done n _ _ ovf _ t ht).of_rxstat
  | connect | fcerror | other => exact answers_next.mpr (.refl s)

theorem rawStore_owned : Owned s (rawStore n v s) := by
  unfold rawStore rawContinue
  split
  · exact owned_same rfl (by simp) (by simp)
  · exact owned_done (.inl (by simp)) (by simp) (endReceive_done _ _ _)

theorem rawResult_owned : Owned s (rawResult n r s) := by
  cases r with
  | noCarrier | ok | error => exact owned_endReceive n _ s
  | connect | fcerror | other => exact owned_same rfl rfl rfl

theorem recvRawToken_owned : Answers (Owned s) (recvRawToken n x s) := by
  cases x with
  | byte v =>
    rw [recvRawToken, answers_next]
    split
    · exact owned_same rfl rfl rfl
    · exact rawStore_owned n v s
  | res r => exact answers_next.mpr (rawResult_owned n r s)

theorem recvRawDleToken_owned : Answers (Owned s) (recvRawDleToken n x s) := by
  cases x with
  | byte v =>
    rw [recvRawDleToken, answers_next]
    split
    · exact rawStore_owned n _ s
    · split <;> exact owned_same rfl rfl rfl
  | res r => exact answers_next.mpr (rawResult_owned n r s)

theorem recvRawEndToken_owned : Answers (Owned s) (recvRawEndToken n x s) := by
  refine answers_awaitResult (.refl s) fun r => ?_
  cases r with
  | ok | noCarrier | error => exact answers_next.mpr (owned_endReceive n _ s)
  | connect | fcerror | other => exact answers_next.mpr (.refl s)

/-- R187: an event of the receive engine ends RECV_BITS in the link state it runs in. -/
theorem bitsByte_owned : Answers (Owned s) (bitsByte v s) := by
  intro t ht
  obtain ⟨e, -, ⟨-, rfl⟩ | ⟨-, -, hd⟩⟩ := runBacklog_run _ s t ht
  · exact owned_same rfl rfl rfl
  · exact owned_done (u := { s with rx := e }) (.inl rfl) rfl hd

theorem lostCarrier_owned : Answers (Owned s) (lostCarrier (setLink .idle s)) := fun t ht =>
  owned_done (u := rxReset (setLink .idle s)) (.inr rfl) rfl (lostCarrier_done _ t ht)

theorem bitsResult_owned : Answers (Owned s) (bitsResult r s) := by
  cases r with
  | noCarrier => exact lostCarrier_owned s
  | ok | error => exact answers_next.mpr (owned_done (u := rxReset (setLink .idle s)) (.inr rfl) rfl (endReceive_done 0 _ _))
  | connect | fcerror | other => exact answers_next.mpr (owned_same rfl rfl rfl)

theorem recvBitsToken_owned : Answers (Owned s) (recvBitsToken x s) := by
  cases x with
  | byte v =>
    rw [recvBitsToken]
    split
    · exact answers_next.mpr (owned_same rfl rfl rfl)
    · exact bitsByte_owned v s
  | res r => exact bitsResult_owned r s

theorem recvBitsDleToken_owned : Answers (Owned s) (recvBitsDleToken x s) := by
  cases x with
  | byte v =>
    rw [recvBitsDleToken]
    split
    · exact bitsByte_owned _ s
    · split <;> exact answers_next.mpr (owned_same rfl rfl rfl)
  | res r => exact bitsResult_owned r s

theorem recvBitsEndToken_owned : Answers (Owned s) (recvBitsEndToken x s) := by
  refine answers_awaitResult (.refl s) fun r => ?_
  cases r with
  | ok | noCarrier | error => exact lostCarrier_owned s
  | connect | fcerror | other => exact answers_next.mpr (.refl s)

theorem silenceToken_owned : Answers (Owned s) (silenceToken x s) := by
  refine answers_awaitResult (.refl s) fun r => ?_
  cases r with
  | ok | error | connect | noCarrier => exact answers_next.mpr (owned_same rfl rfl rfl)
  | fcerror | other => exact answers_next.mpr (.refl s)

theorem rxDropWaitToken_owned (hw : s.pos = some .rxDropWait) : Answers (Owned s) (rxDropWaitToken x s) := by
  cases x with
  | byte v => exact answers_next.mpr (.refl s)
  | res r =>
    cases r with
    | noCarrier => exact answers_next.mpr (owned_idle rfl rfl rfl)
    | ok => exact answers_next.mpr (owned_same (by rw [send_pos, hw]; rfl) rfl rfl)
    | error | connect | fcerror | other => exact answers_next.mpr (.refl s)

theorem txEndToken_owned : Answers (Owned s) (txEndToken x s) := by
  refine answers_awaitResult (.refl s) fun r => ?_
  cases r with
  | ok | error | noCarrier => exact answers_next.mpr (owned_idle rfl rfl rfl)
  | connect | fcerror | other => exact answers_next.mpr (.refl s)

theorem abortToken_owned (after : AfterAbort) : Answers (Owned s) (abortToken after x s) := by
  refine answers_awaitResult (.refl s) fun r => ?_
  cases r with
  | ok => exact answers_next.mpr (by cases after <;> exact owned_idle rfl rfl rfl)
  | connect | noCarrier | error | fcerror | other => exact answers_next.mpr (.refl s)

end

/-! ## The carriers -/

section
variable {s : State}

/-- R242, R250: CONNECT brings the link to a TX state. -/
theorem txCarrierToken_owned (hw : s.pos = some .txCarrier) (x : InToken) : Answers (Owned s) (txCarrierToken x s) := by
  refine answers_awaitResult (.refl s) fun r => ?_
  cases r with
  | connect =>
    rw [answers_next]
    split
    · exact owned_ordinary rfl (.inr (.inr (.inr (.inl ⟨hw, .inl rfl⟩)))) rfl
    · exact owned_ordinary rfl (.inr (.inr (.inr (.inl ⟨hw, .inr rfl⟩)))) rfl
  | error | ok | noCarrier => exact answers_next.mpr (owned_idle rfl rfl rfl)
  | fcerror | other => exact answers_next.mpr (.refl s)

theorem wrongCarrier_owned (s : State) : Owned s (wrongCarrier s) := by
  unfold wrongCarrier
  split
  · exact ⟨.inl rfl, fun h => absurd rfl h, id, id, id⟩
  · exact owned_idle rfl rfl rfl

/-- R242, R251: CONNECT brings the link to an RX state. -/
theorem rxCarrierToken_owned (hw : s.pos = some .rxCarrier) (x : InToken) : Answers (Owned s) (rxCarrierToken x s) := by
  refine answers_awaitResult (.refl s) fun r => ?_
  cases r with
  | connect =>
    rw [answers_next]
    split
    · exact owned_ordinary rfl (.inr (.inr (.inr (.inr ⟨hw, .inl rfl⟩)))) rfl
    · exact owned_ordinary rfl (.inr (.inr (.inr (.inr ⟨hw, .inr rfl⟩)))) rfl
  | fcerror => exact answers_next.mpr (wrongCarrier_owned s)
  | error | ok | noCarrier => exact answers_next.mpr (owned_idle rfl rfl rfl)
  | other => exact answers_next.mpr (.refl s)

end

/-! ## The writers of CHMODE -/

section
variable {s : State} {n : Nat} {ovf : Bool}

theorem v34Store_owned (hs : MayWriteChmode s) (b : Byte) : Owned s (v34Store n ovf b s) := by
  unfold v34Store
  split
  · exact owned_channel hs (by simp) nofun nofun
  · exact owned_channel hs rfl nofun nofun

theorem v34Result_owned (hs : MayWriteChmode s) (r : DceRes) : Owned s (v34Result n ovf r s) := by
  cases r with
  | noCarrier | ok | error => exact owned_done (.inl rfl) rfl (endReceive_done n _ s)
  | connect | fcerror | other => exact owned_channel hs rfl nofun nofun

theorem recvV34Token_owned (hs : MayWriteChmode s) (x : InToken) : Answers (Owned s) (recvV34Token n ovf x s) := by
  cases x with
  | byte v =>
    rw [recvV34Token, answers_next]
    split
    · exact owned_channel hs rfl nofun nofun
    · exact v34Store_owned hs _
  | res r => exact answers_next.mpr (v34Result_owned hs r)

theorem recvV34DleToken_owned (hs : MayWriteChmode s) (x : InToken) : Answers (Owned s) (recvV34DleToken n ovf x s) := by
  cases x with
  | byte v =>
    simp only [recvV34DleToken]
    split
    case isTrue => exact answers_next.mpr (v34Store_owned hs _)
    split
    case isTrue => exact fun t ht => owned_done (.inl rfl) rfl (finishReceived_done n _ _ ovf s t ht)
    split
    case isTrue => exact answers_next.mpr (owned_channel hs rfl nofun nofun)
    split
    case isTrue => exact fun t ht => owned_done (.inl rfl) rfl (finishReceived_done n _ _ ovf _ t ht).of_rxstat
    case isFalse => exact answers_next.mpr (owned_channel hs rfl nofun nofun)
  | res r => exact answers_next.mpr (v34Result_owned hs r)

theorem chanResult_owned (hs : MayWriteChmode s) (r : DceRes) : Owned s (chanResult r s) := by
  cases r <;> exact owned_channel hs rfl nofun nofun

theorem waitChannelToken_owned (hs : MayWriteChmode s) (x : InToken) : Answers (Owned s) (waitChannelToken x s) := by
  cases x with
  | byte v =>
    rw [waitChannelToken, answers_next]
    split <;> exact owned_channel hs rfl nofun nofun
  | res r => exact answers_next.mpr (chanResult_owned hs r)

theorem waitChannelDleToken_owned (hs : MayWriteChmode s) (x : InToken) : Answers (Owned s) (waitChannelDleToken x s) := by
  cases x with
  | byte v =>
    simp only [waitChannelDleToken]
    split_ifs <;> exact answers_next.mpr (owned_channel hs rfl nofun nofun)
  | res r => exact answers_next.mpr (chanResult_owned hs r)

end

/-! ## The ENGINE -/

section
variable {s : State} {w : WaitPoint}

theorem onToken_owned (hw : s.pos = some w) (x : InToken) : Answers (Owned s) (onToken w x s) := by
  cases w with
  | sendHdlc final => exact sendHdlcToken_owned x s final
  | recvHdlcData n found ovf => exact recvHdlcDataToken_owned n found ovf x s
  | recvHdlcDle n found ovf => exact recvHdlcDleToken_owned n found ovf x s
  | recvHdlcEnd n ovf => exact recvHdlcEndToken_owned n ovf x s
  | recvRaw n => exact recvRawToken_owned n x s
  | recvRawDle n => exact recvRawDleToken_owned n x s
  | recvRawEnd n => exact recvRawEndToken_owned n x s
  | recvBits => exact recvBitsToken_owned x s
  | recvBitsDle => exact recvBitsDleToken_owned x s
  | recvBitsEnd => exact recvBitsEndToken_owned x s
  | recvV34 n ovf => exact recvV34Token_owned ⟨_, hw, rfl⟩ x
  | recvV34Dle n ovf => exact recvV34DleToken_owned ⟨_, hw, rfl⟩ x
  | waitChannel => exact waitChannelToken_owned ⟨_, hw, rfl⟩ x
  | waitChannelDle => exact waitChannelDleToken_owned ⟨_, hw, rfl⟩ x
  | txCarrier => exact txCarrierToken_owned hw x
  | rxCarrier => exact rxCarrierToken_owned hw x
  | txSilence | rxSilence => exact silenceToken_owned x s
  | rxDropWait => exact rxDropWaitToken_owned x s hw
  | txEnd => exact txEndToken_owned x s
  | delay => exact answers_next.mpr (.refl s)
  | abortFirst _ after | abortSecond _ after => exact abortToken_owned x s after

/-- R243: the link is UNKNOWN only behind an abort_sequence without an OK, whose caller completes with TIMEOUT. -/
theorem endAbort_timeout_owned (after : AfterAbort) (s : State) : Owned s (endAbort false after s) := by
  cases after <;> exact owned_ordinary rfl (.inr (.inr (.inl ⟨rfl, rfl⟩))) rfl

theorem onTimeout_owned (w : WaitPoint) (s : State) : Owned s (onTimeout w s) := by
  cases w with
  | abortSecond t0 after => exact endAbort_timeout_owned after s
  | _ => exact owned_same rfl rfl rfl

/-- R71, R242: while the command runs the link is what it was. -/
theorem EngineFrame.link {s t : State} (h : EngineFrame s t) (ht : t.pos ≠ none) : t.link = s.link := by
  rw [h.running ht]

/-- R241, R242: what an ENGINE step has done so far; a command that still runs has not changed the link. -/
structure OwnedRun (s t : State) : Prop extends Owned s t where
  running : t.pos ≠ none → t.link = s.link

theorem OwnedRun.step {s u t : State} (h : OwnedRun s u) (hw : u.pos = some w) (howned : Owned u t)
    (hlink : t.pos ≠ none → t.link = u.link) : OwnedRun s t :=
  have hu : u.link = s.link := h.running (by simp [hw])
  ⟨h.toOwned.trans hu howned, fun ht => (hlink ht).trans hu⟩

theorem engineStep_owned {s t : State} (h : engineStep s = .next t) : OwnedRun s t :=
  engineStep_induction (P := OwnedRun s)
    (fun u v w x ts hw hu hv => hu.step hw (onToken_owned (s := { u with inbound := ts }) hw x v hv).ofInbound
      (onToken_frame w x _ v hv).link)
    (fun u w hw _ hu => hu.step hw (onTimeout_owned w u) (onTimeout_frame w u).link) ⟨.refl s, fun _ => rfl⟩ h

end

/-- Settles O49, by induction over the tokens taken and the deadlines passed. -/
theorem linkAndChmodeOwners : Obligations.LinkAndChmodeOwners := fun _ _ h =>
  ⟨(engineStep_owned h).link, (engineStep_owned h).chmode⟩

end Sys2Proof.Machine
end

section
/-! PROOFS. The words of the modem sequencer's commands (R250 to R256), and its commands with one wait and no re-arm
counter: TX_CARRIER, the silence commands and RX_DROP_WAIT. -/

namespace Sys2Proof

/-- R93: the word of a command with ARG8 and the flag ARG16[0]. -/
theorem cmdWord_arg8_flag (op a8 : Byte) (b : Bool) : cmdWord op a8 (flag16 b)
    = op.zeroExtend 32 ||| (a8.zeroExtend 32 <<< 8) ||| if b then 0x10000 else 0 := by
  cases b with
  | false => exact (cmdWord_arg8 op a8).trans BitVec.or_zero.symm
  | true =>
    refine BitVec.eq_of_getLsbD_eq fun k hk => ?_
    simp only [cmdWord, BitVec.getLsbD_append, BitVec.getLsbD_or, BitVec.getLsbD_shiftLeft, BitVec.getLsbD_setWidth]
    interval_cases k <;> simp [flag16]

/-- R93: the word of a command whose one argument is ARG16. -/
theorem cmdWord_arg16 (op : Byte) (a16 : Half) : cmdWord op 0 a16 = op.zeroExtend 32 ||| (a16.zeroExtend 32 <<< 16) := by
  refine BitVec.eq_of_getLsbD_eq fun k hk => ?_
  simp only [cmdWord, BitVec.getLsbD_append, BitVec.getLsbD_or, BitVec.getLsbD_shiftLeft, BitVec.getLsbD_setWidth]
  interval_cases k <;> simp

theorem encode_txCarrier (mod : Byte) (hdlc : Bool) :
    encode (.txCarrier mod hdlc) = 0x00000040 ||| (mod.zeroExtend 32 <<< 8) ||| if hdlc then 0x10000 else 0 :=
  cmdWord_arg8_flag 0x40 mod hdlc

theorem encode_rxCarrier (mod : Byte) (hdlc : Bool) :
    encode (.rxCarrier mod hdlc) = 0x00000041 ||| (mod.zeroExtend 32 <<< 8) ||| if hdlc then 0x10000 else 0 :=
  cmdWord_arg8_flag 0x41 mod hdlc

theorem encode_txSilence (n : Byte) : encode (.txSilence n) = 0x00000042 ||| (n.zeroExtend 32 <<< 8) := cmdWord_arg8 0x42 n

theorem encode_rxSilence (n : Byte) : encode (.rxSilence n) = 0x00000043 ||| (n.zeroExtend 32 <<< 8) := cmdWord_arg8 0x43 n

theorem encode_delay (ms : Half) : encode (.delay ms) = 0x00000046 ||| (ms.zeroExtend 32 <<< 16) := cmdWord_arg16 0x46 ms

theorem decode_delay_row {w : Word} (h : opField w = 0x46) : decode w = checkReserved w 0xFF 0x0000 (.delay (arg16 w)) := by
  rw [decode, h]; rfl

end Sys2Proof

namespace Sys2Proof.Machine

open Sys2Proof.Claims

section
variable {s : State}

/-- R302: the mode check of the commands that need the link IDLE. -/
theorem requireMode_idle (hlink : s.link = .idle) (k : StepOutcome) : requireMode (s.link == .idle) s k = k := by
  rw [hlink]; rfl

theorem setLink_idle_of_idle (hlink : s.link = .idle) : setLink .idle s = s := by
  rw [setLink, ← hlink]

/-- R242: a command that runs with the link IDLE and ends with it IDLE. -/
theorem goOn_complete_idle (r : Result) (hlink : s.link = .idle) :
    goOn (.next (complete r (setLink .idle s))) = .next (finished r s) := by
  rw [setLink_idle_of_idle hlink, goOn_complete]

theorem arg16_of_curCmd {op a8 : Byte} {a16 : Half} (h : s.curCmd = cmdWord op a8 a16) : s.arg16 = a16 := by
  rw [State.arg16, h, arg16_cmdWord]

theorem argHdlc_of_curCmd {op a8 : Byte} {hdlc : Bool} (h : s.curCmd = cmdWord op a8 (flag16 hdlc)) : s.argHdlc = hdlc := by
  rw [State.argHdlc, arg16_of_curCmd h]
  exact flag16_getElem_zero hdlc

theorem arg8_of_curCmd {op a8 : Byte} {a16 : Half} (h : s.curCmd = cmdWord op a8 a16) : s.arg8 = a8 := by
  rw [State.arg8, h, arg8_cmdWord]

end

/-! ## TX_CARRIER -/

/-- R250: TX_CARRIER's CMD write step. -/
theorem exec_txCarrier {s : State} (hlink : s.link = .idle) (mod : Byte) (hdlc : Bool) :
    exec (.txCarrier mod hdlc) s = .next (waiting .txCarrier { accepted (encode (.txCarrier mod hdlc)) s with
      outbound := s.outbound ++ [txCarrierCmd mod hdlc] }) :=
  requireMode_idle (s := accept (.txCarrier mod hdlc) s) hlink _

/-- Settles O34: the CMD write step, then each token at the wait. -/
theorem txCarrierRaises : Obligations.TxCarrierRaises := by
  intro s mod hdlc hlink
  rw [← encode_txCarrier]
  refine ⟨_, exec_txCarrier hlink mod hdlc, rfl, fun x rest => ?_⟩
  rw [engineStep_cons (w := .txCarrier) rfl nofun rfl]
  cases x with
  | byte b => rfl
  | res r =>
    cases r with
    | connect =>
      refine (goOn_complete _ _).trans ?_
      rw [argHdlc_of_curCmd (hdlc := hdlc) rfl]
      cases hdlc <;> rfl
    | ok | error | noCarrier => exact goOn_complete_idle _ hlink
    | fcerror | other => rfl

/-! ## TX_SILENCE and RX_SILENCE -/

theorem exec_txSilence {s : State} (hlink : s.link = .idle) (n : Byte) :
    exec (.txSilence n) s = .next (waiting .txSilence { accepted (encode (.txSilence n)) s with
      outbound := s.outbound ++ [.cmd (.fts n)] }) :=
  requireMode_idle (s := accept (.txSilence n) s) hlink _

theorem exec_rxSilence {s : State} (hlink : s.link = .idle) (n : Byte) :
    exec (.rxSilence n) s = .next (waiting .rxSilence { accepted (encode (.rxSilence n)) s with
      outbound := s.outbound ++ [.cmd (.frs n)] }) :=
  requireMode_idle (s := accept (.rxSilence n) s) hlink _

/-- R252, R253: what the ENGINE does with one token at the wait of a silence command. -/
theorem silence_goOn (x : InToken) (t : State) : goOn (silenceToken x t) =
    match x with
    | .res .ok => .next (finished .ok t)
    | .res .error | .res .connect | .res .noCarrier => .next (finished .dceError t)
    | .res .fcerror | .res .other | .byte _ => engineStep t := by
  cases x with
  | byte b => rfl
  | res r =>
    cases r with
    | ok | error | connect | noCarrier => exact goOn_complete _ _
    | fcerror | other => rfl

/-- Settles O36: the two CMD write steps, and the token law that both waits share. -/
theorem silenceCommandsWait : Obligations.SilenceCommandsWait := by
  intro s n rx hlink
  cases rx with
  | false =>
    refine ⟨_, exec_txSilence hlink n, by rw [encode_txSilence]; rfl, fun x rest => ?_⟩
    rw [engineStep_cons (w := .txSilence) rfl nofun rfl]
    exact silence_goOn x _
  | true =>
    refine ⟨_, exec_rxSilence hlink n, by rw [encode_rxSilence]; rfl, fun x rest => ?_⟩
    rw [engineStep_cons (w := .rxSilence) rfl nofun rfl]
    exact silence_goOn x _

/-! ## RX_DROP_WAIT -/

theorem exec_rxDropWait {s : State} (hlink : s.link = .idle) :
    exec .rxDropWait s = .next (waiting .rxDropWait { accepted 0x00000044 s with
      outbound := s.outbound ++ [.cmd (.frh 3)] }) :=
  requireMode_idle (s := accept .rxDropWait s) hlink _

/-- R254: a token that is not NO_CARRIER re-arms the receiver where it is OK, and else changes nothing. -/
theorem rxDropWait_onToken {x : InToken} (hx : x ≠ .res .noCarrier) (s : State) :
    onToken .rxDropWait x s
      = .next { s with outbound := s.outbound ++ List.replicate ([x].count (.res .ok)) (.cmd (.frh 3)) } := by
  have hnone : s = { s with outbound := s.outbound ++ [] } := by rw [List.append_nil]
  cases x with
  | byte b => exact congrArg Host.Outcome.next hnone
  | res r =>
    cases r with
    | noCarrier => exact absurd rfl hx
    | ok => rfl
    | connect | error | fcerror | other => exact congrArg Host.Outcome.next hnone

/-- R254: a run of tokens without NO_CARRIER. -/
theorem rxDropWait_engineStep_tokens {rest : List InToken} (tokens : List InToken)
    (h : ∀ x ∈ tokens, x ≠ .res .noCarrier) :
    ∀ s : State, s.pos = some .rxDropWait → s.inbound = tokens ++ rest →
      engineStep s = engineStep { s with
        inbound := rest, outbound := s.outbound ++ List.replicate (tokens.count (.res .ok)) (.cmd (.frh 3)) } := by
  induction tokens with
  | nil =>
    intro s _ hin
    rw [List.nil_append] at hin
    rw [List.count_nil, List.replicate_zero, List.append_nil, ← hin]
  | cons x tokens ih =>
    intro s hw hin
    have hcount : (x :: tokens).count (.res .ok) = [x].count (.res .ok) + tokens.count (.res .ok) :=
      List.count_append (l₁ := [x])
    rw [engineStep_cons (rest := tokens ++ rest) hw nofun hin, rxDropWait_onToken (h x List.mem_cons_self), goOn_next,
      hcount, List.replicate_add, ← List.append_assoc]
    exact ih (fun y hy => h y (List.mem_cons_of_mem x hy)) _ hw rfl

/-- Settles O37: the tokens before NO_CARRIER, by induction, and the completion at NO_CARRIER. -/
theorem rxDropWaitEndsOnNoCarrier : Obligations.RxDropWaitEndsOnNoCarrier := by
  intro s hlink
  refine ⟨_, exec_rxDropWait hlink, rfl, fun tokens rest hdrop => ?_⟩
  rw [rxDropWait_engineStep_tokens tokens hdrop _ rfl rfl, engineStep_cons (w := .rxDropWait) rfl nofun rfl]
  exact goOn_complete_idle _ hlink

end Sys2Proof.Machine
end

section
/-! PROOFS. RX_CARRIER (R251): one law per kind of token, and a run of FCERRORs by induction. -/

namespace Sys2Proof.Machine

open Sys2Proof.Claims

/-- R251: RX_CARRIER's CMD write step. -/
theorem exec_rxCarrier {s : State} (hlink : s.link = .idle) (mod : Byte) (hdlc : Bool) :
    exec (.rxCarrier mod hdlc) s = .next (waiting .rxCarrier { accepted (encode (.rxCarrier mod hdlc)) s with
      outbound := s.outbound ++ [rxCarrierCmd mod hdlc], rearm := 0 }) :=
  requireMode_idle (s := accept (.rxCarrier mod hdlc) s) hlink _

section
variable {s : State} {mod : Byte} {hdlc : Bool} {rest : List InToken}

theorem rxCarrier_engineStep_connect (hw : s.pos = some .rxCarrier) (hcmd : s.curCmd = encode (.rxCarrier mod hdlc))
    (hin : s.inbound = .res .connect :: rest) :
    engineStep s = .next (finished .ok { s with
      inbound := rest, link := if hdlc then .rxHdlc else .rxData, rx := if hdlc then s.rx else rxClear }) := by
  rw [engineStep_cons hw nofun hin]
  refine (goOn_complete _ _).trans ?_
  rw [argHdlc_of_curCmd (s := { s with inbound := rest }) hcmd]
  cases hdlc <;> rfl

theorem rxCarrier_engineStep_dceError {r : DceRes} (hw : s.pos = some .rxCarrier) (hlink : s.link = .idle)
    (hr : r = .ok ∨ r = .error) (hin : s.inbound = .res r :: rest) :
    engineStep s = .next (finished .dceError { s with inbound := rest }) := by
  have htoken : onToken .rxCarrier (.res r) { s with inbound := rest }
      = .next (complete .dceError (setLink .idle { s with inbound := rest })) := by obtain rfl | rfl := hr <;> rfl
  rw [engineStep_cons hw nofun hin, htoken, goOn_complete_idle _ (by exact hlink)]

theorem rxCarrier_engineStep_noCarrier (hw : s.pos = some .rxCarrier) (hlink : s.link = .idle)
    (hin : s.inbound = .res .noCarrier :: rest) :
    engineStep s = .next (finished .carrierLost { s with inbound := rest }) := by
  rw [engineStep_cons hw nofun hin]
  exact goOn_complete_idle _ hlink

theorem rxCarrier_engineStep_discard {x : InToken} (hw : s.pos = some .rxCarrier)
    (hx : (∃ b, x = .byte b) ∨ x = .res .other) (hin : s.inbound = x :: rest) :
    engineStep s = engineStep { s with inbound := rest } := by
  rw [engineStep_cons hw nofun hin]
  obtain ⟨b, rfl⟩ | rfl := hx <;> rfl

theorem rxCarrier_engineStep_fcerror (hw : s.pos = some .rxCarrier) (hin : s.inbound = .res .fcerror :: rest) :
    engineStep s = goOn (.next (wrongCarrier { s with inbound := rest })) := by
  rw [engineStep_cons hw nofun hin]
  rfl

/-- R251: the last FCERROR, once REARM_MAX commands have been sent again. -/
theorem rxCarrier_engineStep_wrongCarrier (hw : s.pos = some .rxCarrier) (hlink : s.link = .idle)
    (hmax : ¬ s.rearm < s.seqcfg.rearmMax.toNat) (hin : s.inbound = .res .fcerror :: rest) :
    engineStep s = .next (finished .wrongCarrier { s with inbound := rest }) := by
  have hlast : wrongCarrier { s with inbound := rest }
      = complete .wrongCarrier (setLink .idle { s with inbound := rest }) := if_neg hmax
  rw [rxCarrier_engineStep_fcerror hw hin, hlast, goOn_complete_idle _ (by exact hlink)]

/-- R251: an FCERROR that re-arms the receiver. -/
theorem rxCarrier_engineStep_rearm (hw : s.pos = some .rxCarrier) (hcmd : s.curCmd = encode (.rxCarrier mod hdlc))
    (hlt : s.rearm < s.seqcfg.rearmMax.toNat) (hin : s.inbound = .res .fcerror :: rest) :
    engineStep s = engineStep { s with
      inbound := rest, rearm := s.rearm + 1, outbound := s.outbound ++ [rxCarrierCmd mod hdlc] } := by
  rw [rxCarrier_engineStep_fcerror hw hin, goOn_next, wrongCarrier, if_pos (by exact hlt),
    argHdlc_of_curCmd (s := { s with inbound := rest }) hcmd, arg8_of_curCmd (s := { s with inbound := rest }) hcmd]
  rfl

/-- R251: a run of FCERRORs that REARM_MAX allows, each answered by the command. -/
theorem rxCarrier_engineStep_rearms {n : Nat} (k : Nat) : ∀ s : State, s.pos = some .rxCarrier →
    s.curCmd = encode (.rxCarrier mod hdlc) → s.rearm + k = n → n ≤ s.seqcfg.rearmMax.toNat →
    s.inbound = List.replicate k (.res .fcerror) ++ rest →
    engineStep s = engineStep { s with
      inbound := rest, rearm := n, outbound := s.outbound ++ List.replicate k (rxCarrierCmd mod hdlc) } := by
  induction k with
  | zero =>
    rintro s - - rfl - hin
    rw [List.replicate_zero, List.nil_append] at hin
    rw [List.replicate_zero, List.append_nil, Nat.add_zero, ← hin]
  | succ k ih =>
    intro s hw hcmd hsum hmax hin
    rw [List.replicate_succ, List.cons_append] at hin
    have hsent : s.outbound ++ List.replicate (k + 1) (rxCarrierCmd mod hdlc)
        = s.outbound ++ [rxCarrierCmd mod hdlc] ++ List.replicate k (rxCarrierCmd mod hdlc) := by
      rw [List.replicate_succ, List.append_cons]
    rw [rxCarrier_engineStep_rearm hw hcmd (by omega) hin, hsent]
    exact ih _ hw hcmd ((Nat.succ_add_eq_add_succ s.rearm k).trans hsum) hmax rfl

end

/-- Settles O35: the CMD write step, a run of FCERRORs before each token that ends the command, and each token alone. -/
theorem rxCarrierRearms : Obligations.RxCarrierRearms := by
  intro s mod hdlc hlink
  rw [← encode_rxCarrier]
  refine ⟨_, rxCarrierCmd mod hdlc, exec_rxCarrier hlink mod hdlc, rfl, rfl, fun k rest hk => ?run,
    fun j sent x rest => ?token⟩
  case run =>
    have hsum (n : Nat) : 0 + n = n := Nat.zero_add n
    refine ⟨?connect, fun r hr => ?dceError, ?noCarrier, ?wrongCarrier⟩
    case connect =>
      refine (rxCarrier_engineStep_rearms k _ rfl rfl (hsum k) (by exact hk) rfl).trans ?_
      exact rxCarrier_engineStep_connect rfl rfl rfl
    case dceError =>
      refine (rxCarrier_engineStep_rearms k _ rfl rfl (hsum k) (by exact hk) rfl).trans ?_
      exact rxCarrier_engineStep_dceError rfl (by exact hlink) hr rfl
    case noCarrier =>
      refine (rxCarrier_engineStep_rearms k _ rfl rfl (hsum k) (by exact hk) rfl).trans ?_
      exact rxCarrier_engineStep_noCarrier rfl (by exact hlink) rfl
    case wrongCarrier =>
      rw [List.replicate_succ', List.append_assoc]
      refine (rxCarrier_engineStep_rearms _ _ rfl rfl (hsum _) le_rfl rfl).trans ?_
      exact rxCarrier_engineStep_wrongCarrier rfl (by exact hlink) (Nat.lt_irrefl _) rfl
  case token =>
    cases x with
    | byte b => exact rxCarrier_engineStep_discard rfl (.inl ⟨b, rfl⟩) rfl
    | res r =>
      cases r with
      | connect => exact rxCarrier_engineStep_connect rfl rfl rfl
      | fcerror =>
        by_cases hlt : j < s.seqcfg.rearmMax.toNat
        · exact (rxCarrier_engineStep_rearm rfl rfl (by exact hlt) rfl).trans (if_pos hlt).symm
        · exact (rxCarrier_engineStep_wrongCarrier rfl (by exact hlink) (by exact hlt) rfl).trans (if_neg hlt).symm
      | ok => exact rxCarrier_engineStep_dceError rfl (by exact hlink) (.inl rfl) rfl
      | error => exact rxCarrier_engineStep_dceError rfl (by exact hlink) (.inr rfl) rfl
      | noCarrier => exact rxCarrier_engineStep_noCarrier rfl (by exact hlink) rfl
      | other => exact rxCarrier_engineStep_discard rfl (.inr rfl) rfl

end Sys2Proof.Machine
end

section
/-! PROOFS. DELAY (R256), and ABORT (R257) from the waits of abort_sequence. -/

namespace Sys2Proof.Machine

open Sys2Proof.Claims

/-! ## DELAY -/

theorem exec_delay (ms : Half) (s : State) :
    exec (.delay ms) s = .next (waiting .delay (accepted (encode (.delay ms)) s)) := rfl

/-- R256: the timer wait ends once ARG16 milliseconds have passed since the start. -/
theorem waitExpired_delay {s : State} {ms : Half} (hw : s.pos = some .delay) (hcmd : s.curCmd = encode (.delay ms)) :
    s.waitExpired = decide (ms.toNat ≤ (s.time - s.tStart).toNat) := by
  rw [waitExpired_some hw, State.deadline, arg16_of_curCmd hcmd, State.expired]

/-- R256: an ENGINE step of DELAY looks at its timer alone, whatever the FIFO holds. -/
theorem engineStep_delay {s : State} {ms : Half} (hw : s.pos = some .delay) (hcmd : s.curCmd = encode (.delay ms)) :
    engineStep s = .next (if ms.toNat ≤ (s.time - s.tStart).toNat then finished .ok s else s) := by
  have hexp := waitExpired_delay hw hcmd
  split
  case isTrue h =>
    have hrun : engineStep s = .next (runTimeouts 3 s) := by simp only [engineStep, hw]
    rw [hrun, runTimeouts_expired hw (hexp.trans (decide_eq_true h)), ← complete_eq_finished]
    exact congrArg Host.Outcome.next (runTimeouts_idle rfl 2)
  case isFalse h => exact engineStep_waiting (hexp.trans (decide_eq_false h)) (.inl hw)

/-- Settles O39: the ENGINE step of DELAY, and the row of the decoder for the reserved bits. -/
theorem delayWaitsItsTime : Obligations.DelayWaitsItsTime := by
  refine ⟨fun s ms => ⟨_, exec_delay ms s, by rw [encode_delay], fun k => ?step⟩, fun w hop hne => ?reserved⟩
  case step =>
    refine (engineStep_delay rfl rfl).trans ?_
    have helapsed : s.time + k - s.time = k := by rw [add_sub_cancel_left]
    exact congrArg (fun e : Word => Host.Outcome.next (if ms.toNat ≤ e.toNat then _ else _)) helapsed
  case reserved =>
    refine decode_reservedBits (decode_delay_row hop) fun h => hne ?_
    have harg : arg8 w = 0 := by rw [← h, encode, arg8_cmdWord]
    exact harg

/-! ## ABORT -/

theorem exec_abort (s : State) :
    exec .abort s = .next (waiting (.abortFirst s.time .abortCmd) { accepted 0x00000047 s with
      outbound := s.outbound ++ [.byte s.seqcfg.breakChar] }) := rfl

section
variable {s : State} {t0 : Word}

/-- R243, R257: the ENGINE step that takes the first OK in either wait of ABORT. -/
theorem abort_engineStep_ok {second : Bool} {noise rest : List InToken}
    (hw : s.pos = some (if second then .abortSecond t0 .abortCmd else .abortFirst t0 .abortCmd))
    (hnoise : ∀ x ∈ noise, x ≠ .res .ok) (hin : s.inbound = noise ++ .res .ok :: rest) :
    engineStep s = .next (finished .ok { s with inbound := rest, link := .idle, rx := rxClear, tx := txClear }) := by
  obtain ⟨hok, -⟩ := timeoutCompletes s t0 .abortCmd second hw
  obtain ⟨u, hu, rfl⟩ := hok noise rest hnoise hin
  exact hu

/-- R243: the ENGINE before ABORT_WAIT_MS of the first wait. -/
theorem abort_engineStep_early (hw : s.pos = some (.abortFirst t0 .abortCmd)) (hnoise : ∀ x ∈ s.inbound, x ≠ .res .ok)
    (hbefore : (s.time - t0).toNat < s.seqcfg.abortWaitMs.toNat) : engineStep s = .next { s with inbound := [] } := by
  obtain ⟨-, hwaits, -⟩ := timeoutCompletes s t0 .abortCmd false hw
  exact hwaits hnoise hbefore

/-- R243: the end of the first wait without an OK. -/
theorem abort_engineStep_attention (hw : s.pos = some (.abortFirst t0 .abortCmd))
    (hnoise : ∀ x ∈ s.inbound, x ≠ .res .ok) (hpassed : s.seqcfg.abortWaitMs.toNat ≤ (s.time - t0).toNat)
    (h0 : s.seqcfg.abortWaitMs ≠ 0) :
    engineStep s = .next (waiting (.abortSecond s.time .abortCmd) { s with
      inbound := [], outbound := s.outbound ++ [.cmd .attention] }) := by
  obtain ⟨-, -, hover⟩ := timeoutCompletes s t0 .abortCmd false hw
  obtain ⟨-, hfirst, -⟩ := hover hnoise hpassed
  exact hfirst rfl h0

/-- R243, R257: the end of the second wait without an OK. -/
theorem abort_engineStep_timeout (hw : s.pos = some (.abortSecond t0 .abortCmd))
    (hnoise : ∀ x ∈ s.inbound, x ≠ .res .ok) (hpassed : s.seqcfg.abortWaitMs.toNat ≤ (s.time - t0).toNat) :
    engineStep s = .next (finished .timeout { s with
      inbound := [], link := .unknown, rx := rxClear, tx := txClear }) := by
  obtain ⟨-, -, hover⟩ := timeoutCompletes s t0 .abortCmd true hw
  obtain ⟨hsecond, -⟩ := hover hnoise hpassed
  obtain ⟨u, hu, rfl⟩ := hsecond rfl
  exact hu

/-- R243, R257: both waits in one ENGINE step. -/
theorem abort_engineStep_atOnce (hw : s.pos = some (.abortFirst t0 .abortCmd)) (hnoise : ∀ x ∈ s.inbound, x ≠ .res .ok)
    (h0 : s.seqcfg.abortWaitMs = 0) :
    engineStep s = .next (finished .timeout { s with
      inbound := [], outbound := s.outbound ++ [.cmd .attention], link := .unknown, rx := rxClear, tx := txClear }) := by
  obtain ⟨-, -, hover⟩ := timeoutCompletes s t0 .abortCmd false hw
  obtain ⟨-, -, hends⟩ := hover hnoise (by rw [h0]; exact Nat.zero_le _)
  obtain ⟨u, hu, rfl⟩ := hends rfl h0
  exact hu

/-- R33, R240: the time that has passed since `t0`, across the wrap of TIME. -/
theorem elapsed_add (d : Half) : (t0 + d.zeroExtend 32 - t0).toNat = d.toNat := by
  rw [add_sub_cancel_left, BitVec.toNat_setWidth_of_le (by decide)]

end

/-- Settles O40: both waits are those of abort_sequence (O42), from the times at which ABORT enters them. -/
theorem abortResynchronises : Obligations.AbortResynchronises := by
  intro s
  refine ⟨_, exec_abort s, rfl, fun noise rest hnoise hin => ?ok, fun hnoise h0 => ⟨fun k hk => ?early, _, ?first, rfl,
    fun noise rest hquiet => ?secondOk, ?secondOver⟩, fun hnoise h0 => ?atOnce⟩
  case ok => exact abort_engineStep_ok (second := false) rfl hnoise hin
  case early =>
    have helapsed : s.time + k - s.time = k := add_sub_cancel_left s.time k
    exact abort_engineStep_early rfl (by exact hnoise) (helapsed.symm ▸ hk)
  case first => exact abort_engineStep_attention rfl (by exact hnoise) (elapsed_add _).ge (by exact h0)
  case secondOk => exact abort_engineStep_ok (second := true) rfl hquiet rfl
  case secondOver => exact abort_engineStep_timeout rfl nofun (elapsed_add _).ge
  case atOnce => exact abort_engineStep_atOnce rfl (by exact hnoise) (by exact h0)

end Sys2Proof.Machine
end

section
/-! PROOFS. MODE_ERROR (R302): every command is its mode check and a part behind it that gives no MODE_ERROR. -/

namespace Sys2Proof.Machine

open Sys2Proof.Claims

/-- R302: the command waits on, or it has completed with another result than MODE_ERROR. -/
def NoModeError (t : State) : Prop := t.pos = none → t.status.result ≠ .modeError

section
variable {s : State} {r : Result}

theorem noModeError_complete (h : r ≠ .modeError) : NoModeError (complete r s) := fun _ => h

theorem noModeError_completeReceive (h : r ≠ .modeError) : NoModeError (completeReceive r s) := fun _ => h

theorem noModeError_goto (w : WaitPoint) (s : State) : NoModeError (goto w s) := nofun

/-! ## The results of the frame checks -/

theorem frameVerdict_ne_modeError (frame : List Byte) (minlen : Nat) (chk : Bool) :
    frameVerdict frame minlen chk ≠ .modeError := by
  unfold frameVerdict
  repeat' split
  all_goals exact nofun

theorem bitFrameResult_ne_modeError (truncated : Bool) (resid : Nat) (h : r ≠ .modeError) :
    bitFrameResult truncated resid r ≠ .modeError := by
  unfold bitFrameResult
  split
  · exact nofun
  · split
    · exact nofun
    · exact h

/-- R106: the frame check goes on with a result of its own. -/
theorem noModeError_check {n minlen : Nat} {chk : Bool} {k : Result → State → State}
    (hk : ∀ r u, r ≠ .modeError → NoModeError (k r u)) :
    Answers NoModeError (check n minlen chk s fun r u => .next (k r u)) := by
  intro t h
  obtain ⟨frame, u, -, h⟩ := check_next h
  cases h
  exact hk _ _ (frameVerdict_ne_modeError frame minlen chk)

/-! ## The parts behind the mode check -/

/-- R130: the length errors are OVERSIZE and TOO_SHORT. -/
theorem noModeError_send {m : Nat} {k : List Byte → State} (hk : ∀ body, NoModeError (k body)) :
    Answers NoModeError (sendLenCheck m s fun n => withBytes (readTx 0 n s) fun body => .next (k body)) := by
  intro t h
  obtain ⟨-, rfl⟩ | ⟨-, -, rfl⟩ | ⟨-, -, h⟩ := sendLenCheck_next h
  · exact noModeError_complete nofun
  · exact noModeError_complete nofun
  · exact answers_withBytes (fun body _ => answers_next.mpr (hk body)) t h

theorem execFrameFcs_noModeError (s : State) : Answers NoModeError (execFrameFcs s) := by
  simp only [execFrameFcs]
  split
  · exact answers_next.mpr (noModeError_complete nofun)
  · split
    · exact answers_next.mpr (noModeError_complete nofun)
    · exact answers_withBytes fun _ _ => answers_next.mpr (noModeError_complete nofun)

theorem execFrameCheck_noModeError (chk : Bool) (s : State) : Answers NoModeError (execFrameCheck chk s) := by
  simp only [execFrameCheck]
  split
  · exact answers_next.mpr (noModeError_complete nofun)
  · exact noModeError_check fun _ _ => noModeError_complete

theorem rawContinue_noModeError (n count : Nat) (s : State) : NoModeError (rawContinue n count s) := by
  unfold rawContinue
  split
  · exact noModeError_goto _ _
  · exact noModeError_completeReceive nofun

/-- R180, R182: a frame on the bit path ends with OK for a substituted RCP, and else with a result of the frame checks. -/
theorem frameEnd_noModeError (bits : List Bool) (truncated : Bool) (s : State) :
    Answers NoModeError (frameEnd bits truncated s) := by
  simp only [frameEnd]
  split
  · exact noModeError_check fun _ _ _ => noModeError_completeReceive nofun
  · exact noModeError_check fun _ _ hr =>
      noModeError_completeReceive (bitFrameResult_ne_modeError truncated (bits.length % 8) hr)

theorem onRxEvent_noModeError {k : StepOutcome} (ev : RxEvent) (s : State) (hk : Answers NoModeError k) :
    Answers NoModeError (onRxEvent ev s k) := by
  cases ev with
  | none => exact hk
  | frame bits => exact frameEnd_noModeError bits false s
  | abort | oversize => exact answers_next.mpr (noModeError_completeReceive nofun)

theorem runBacklog_noModeError (xs : List Bool) : ∀ s : State, Answers NoModeError (runBacklog xs s) := by
  induction xs with
  | nil => exact fun s => answers_next.mpr (noModeError_goto _ _)
  | cons x xs ih => exact fun s => onRxEvent_noModeError _ _ (ih _)

end

/-! ## Every command -/

/-- R302: a command is the mode check of its row, and what it does behind that check never ends with MODE_ERROR. -/
theorem exec_eq_requireMode (i : Instr) (s : State) :
    ∃ k, exec i s = requireMode (modeOk i s) (accept i s) k ∧ Answers NoModeError k := by
  cases i with
  | nop | crcInit | crcFeed | bitsReset | sendInd => exact ⟨_, rfl, answers_next.mpr (noModeError_complete nofun)⟩
  | frameFcs => exact ⟨_, rfl, execFrameFcs_noModeError s⟩
  | frameCheck chk => exact ⟨_, rfl, execFrameCheck_noModeError chk s⟩
  | sendHdlc => exact ⟨_, rfl, noModeError_send fun _ => noModeError_goto _ _⟩
  | sendRaw | sendBits | sendV34 => exact ⟨_, rfl, noModeError_send fun _ => noModeError_complete nofun⟩
  | recvRaw count => exact ⟨_, rfl, answers_next.mpr (rawContinue_noModeError 0 count.toNat _)⟩
  | recvBits => exact ⟨_, rfl, runBacklog_noModeError _ _⟩
  | recvHdlc | recvV34 | waitChannel | txCarrier | rxCarrier | txSilence | rxSilence | rxDropWait | txEnd | delay | abort =>
    exact ⟨_, rfl, answers_next.mpr (noModeError_goto _ _)⟩

/-- Settles O19: the mode check of the command's row fails or passes. -/
theorem modeErrorsChangeOnlyStatus : Obligations.ModeErrorsChangeOnlyStatus := by
  intro i s
  obtain ⟨k, hexec, hk⟩ := exec_eq_requireMode i s
  refine ⟨fun hmode => ?forbidden, fun t hmode ht => ?allowed⟩
  case forbidden => rw [hexec, hmode, requireMode_false, complete_eq_finished, accept_eq_accepted]
  case allowed =>
    rw [hexec, hmode, requireMode_true] at ht
    exact hk t ht

end Sys2Proof.Machine
end

section
/-! PROOFS. Completion and its acknowledgement (R305, R306). -/

namespace Sys2Proof.Machine

open Sys2Proof.Claims

/-- R306: the acknowledgement of all four bits. -/
theorem acknowledge_all (s : State) :
    acknowledge 0x0000002E s
      = { s with status := { s.status with done := false, err := false, hazard := false, ovr := false } } := by
  simp [acknowledge]

/-- Settles O60: the completion leaves no command for the ENGINE, and STATUS is written whether or not one runs. -/
theorem completionAndAcknowledgement : Obligations.CompletionAndAcknowledgement := by
  refine ⟨fun r s => ⟨complete_eq_finished r s, engineStep_idle rfl⟩, fun s => ?acknowledged⟩
  rw [← acknowledge_all]
  exact hostWrite_register (by decide) (by decide)

end Sys2Proof.Machine
end

section
/-! PROOFS. The two resets (R330, R332). -/

namespace Sys2Proof.Machine

open Sys2Proof.Claims

/-! ## The registers -/

/-- R330, column "hard reset". -/
theorem reset_registers : (List.range 16).map (fun k => readReg (4 * k) State.reset)
    = [0x48460001, 0x0000001C, 0, 0, 0x00000BB8, 0x0000FFFF, 0, 0, 0, 0, 0x03E81803, 0x000009F6, 0, 0, 0, 0] := by
  decide

/-- R33: TIME is the register word at offset 0x34, and no other register shows it. -/
theorem registers_with_time (s : State) (time : Word) :
    (List.range 16).map (fun k => readReg (4 * k) { s with time := time })
      = ((List.range 16).map fun k => readReg (4 * k) s).set 13 time := rfl

theorem readReg_hardReset (offset : Nat) (s : State) : readReg offset (hardReset s) = readReg offset State.reset := rfl

/-- R332: no register but TIME shows what a soft reset keeps. -/
theorem readReg_softReset (offset : Nat) (s : State) :
    readReg offset (softReset s) = readReg offset { State.reset with time := s.time } := rfl

/-! ## The state behind the registers -/

/-- What both resets do to the state behind the registers: the link is unknown, no command runs, the engines are R185's, and
the interrupt output is low. -/
structure HiddenReset (t : State) : Prop where
  link : t.link = .unknown
  busy : t.busy = false
  curCmd : t.curCmd = 0
  tStart : t.tStart = 0
  rearm : t.rearm = 0
  rx : t.rx = rxClear
  tx : t.tx = txClear
  heldDleUnk : t.heldDleUnk = false
  irq : irq t = false

theorem hardReset_hiddenReset (s : State) : HiddenReset (hardReset s) := by constructor <;> rfl

/-- R332: a soft reset overwrites its hard reset in TIME and the buffers only, which `HiddenReset` does not speak of. -/
theorem softReset_hiddenReset (s : State) : HiddenReset (softReset s) :=
  { hardReset_hiddenReset s with }

theorem hardReset_rxWritten (s : State) (i : Nat) : (hardReset s).rxWritten i = false := BitVec.getLsbD_zero

theorem hardReset_txbuf_read (s : State) (i : Nat) : (hardReset s).txbuf.read i = none := Memory.read_nil i

/-! ## The obligations -/

/-- Settles O57: the registers, the hidden state, and the buffers with no byte written. -/
theorem hardResetValues : Obligations.HardResetValues := by
  intro s
  have ⟨hlink, hbusy, hcurCmd, htStart, hrearm, hrx, htx, hdleUnk, hirq⟩ := hardReset_hiddenReset s
  refine ⟨?registers, hlink, hbusy, hcurCmd, htStart, hrearm, hrx, htx, hdleUnk, hirq,
    fun i => ⟨hardReset_rxWritten s i, hardReset_txbuf_read s i⟩, rfl, rfl⟩
  case registers =>
    simp only [readReg_hardReset]
    exact reset_registers

/-- R332: a CTRL write with SOFT_RESET set is a soft reset, whether or not a command runs. -/
theorem hostWrite_ctrl_softReset {v : Word} (h7 : v.getLsbD 7 = true) (s : State) :
    hostWrite .w32 0x0004 v s = .next (softReset s) := by
  have hwrite : writeCtrl v s = softReset s := if_pos h7
  rw [hostWrite_register (by decide) (by decide), ← hwrite]
  rfl

/-- Settles O58: the write is a soft reset, which keeps TIME, the buffers and the tokens. -/
theorem softResetOnCtrlWrite : Obligations.SoftReset := by
  intro s v h7
  have ⟨hlink, hbusy, hcurCmd, htStart, hrearm, hrx, htx, hdleUnk, hirq⟩ := softReset_hiddenReset s
  refine ⟨_, hostWrite_ctrl_softReset h7 s, ?registers, hlink, hbusy, hcurCmd, htStart, hrearm, hrx, htx, hdleUnk, hirq,
    rfl, rfl, rfl, rfl, rfl, rfl⟩
  case registers =>
    simp only [readReg_softReset]
    rw [registers_with_time, reset_registers]
    rfl

end Sys2Proof.Machine
end
